-- ==== Sys2Proof/Word.lean ====
section
/-! DEFINITION. The word types of the machine (00_scope.md R7, R9).  The helpers over them (byte order, sign extension)
stand in Decode.lean and Machine/Ops.lean. -/

namespace Sys2Proof

/-- A byte of the data bus and of every CPU register but PC (00_scope.md R7). -/
abbrev Byte := BitVec 8

/-- A CPU address, and the program counter (00_scope.md R7). -/
abbrev Word := BitVec 16

/-- An address of the PPU's own 14-bit memory (51_ppu.md R304). -/
abbrev VAddr := BitVec 14

end Sys2Proof
end

