-- ==== Sys2Proof/Syntax.lean ====
section
/-! DEFINITION. The syntax of instructions, whole: the 56 mnemonics, the thirteen addressing modes, the operand a
mode carries, and `Instr`, one constructor for each of the 151 rows of spec/opcode_table.json (30_encoding.md R120,
R124).  The rows of an opcode table, and what any row of any table can make, are here too, because `OPCODE_TABLE` is a
parameter (40_engine.md R141). -/

namespace Sys2Proof

/-- The 56 mnemonics of the default table (30_encoding.md R128). -/
inductive Mnemonic where
  | lda | ldx | ldy | sta | stx | sty | tax | tay | txa | tya | tsx | txs | pha | pla | php | plp
  | adc | sbc | and | ora | eor | bit | cmp | cpx | cpy | inc | dec | inx | iny | dex | dey | asl | lsr | rol | ror
  | bpl | bmi | bvc | bvs | bcc | bcs | bne | beq | jmp | jsr | rts | rti | brk | clc | sec | cli | sei | clv | cld | sed | nop
  deriving DecidableEq, Repr

/-- The thirteen addressing modes (40_engine.md R141 to R151). -/
inductive Mode where
  | implied | accumulator | immediate | zeroPage | zeroPageX | zeroPageY | absolute | absoluteX | absoluteY
  | indirect | indexedIndirect | indirectIndexed | relative
  deriving DecidableEq, Repr

/-- An addressing mode with the bytes it carries in the instruction (30_encoding.md R120, R122). -/
inductive Operand where
  /-- no operand bytes, no operand (40_engine.md R142) -/
  | implied
  /-- no operand bytes, the operand is A (40_engine.md R142) -/
  | accumulator
  /-- the byte itself (40_engine.md R143) -/
  | immediate (v : Byte)
  /-- an address in page 0 (40_engine.md R144) -/
  | zeroPage (z : Byte)
  /-- page 0, indexed by X with 8-bit wrap (40_engine.md R145) -/
  | zeroPageX (z : Byte)
  /-- page 0, indexed by Y with 8-bit wrap (40_engine.md R145) -/
  | zeroPageY (z : Byte)
  /-- a 16-bit address (40_engine.md R146) -/
  | absolute (a : Word)
  /-- a 16-bit base indexed by X (40_engine.md R147) -/
  | absoluteX (a : Word)
  /-- a 16-bit base indexed by Y (40_engine.md R147) -/
  | absoluteY (a : Word)
  /-- the address of a pointer (40_engine.md R148) -/
  | indirect (a : Word)
  /-- a pointer in page 0, pre-indexed by X (40_engine.md R149) -/
  | indexedIndirect (z : Byte)
  /-- a pointer in page 0, post-indexed by Y (40_engine.md R150) -/
  | indirectIndexed (z : Byte)
  /-- a signed offset from the next instruction (40_engine.md R151) -/
  | relative (o : Byte)
  deriving DecidableEq, Repr

/-- The instructions, one constructor per row of spec/opcode_table.json: the mnemonic, then its mode. -/
inductive Instr where
  -- LDA (R180)
  | ldaImm (v : Byte)
  | ldaZp (z : Byte)
  | ldaZpX (z : Byte)
  | ldaAbs (a : Word)
  | ldaAbsX (a : Word)
  | ldaAbsY (a : Word)
  | ldaIndX (z : Byte)
  | ldaIndY (z : Byte)
  -- LDX (R181)
  | ldxImm (v : Byte)
  | ldxZp (z : Byte)
  | ldxZpY (z : Byte)
  | ldxAbs (a : Word)
  | ldxAbsY (a : Word)
  -- LDY (R182)
  | ldyImm (v : Byte)
  | ldyZp (z : Byte)
  | ldyZpX (z : Byte)
  | ldyAbs (a : Word)
  | ldyAbsX (a : Word)
  -- STA (R183)
  | staZp (z : Byte)
  | staZpX (z : Byte)
  | staAbs (a : Word)
  | staAbsX (a : Word)
  | staAbsY (a : Word)
  | staIndX (z : Byte)
  | staIndY (z : Byte)
  -- STX (R184)
  | stxZp (z : Byte)
  | stxZpY (z : Byte)
  | stxAbs (a : Word)
  -- STY (R185)
  | styZp (z : Byte)
  | styZpX (z : Byte)
  | styAbs (a : Word)
  -- TAX (R186)
  | tax
  -- TAY (R187)
  | tay
  -- TXA (R188)
  | txa
  -- TYA (R189)
  | tya
  -- TSX (R190)
  | tsx
  -- TXS (R191)
  | txs
  -- PHA (R192)
  | pha
  -- PLA (R193)
  | pla
  -- PHP (R194)
  | php
  -- PLP (R195)
  | plp
  -- ADC (R200)
  | adcImm (v : Byte)
  | adcZp (z : Byte)
  | adcZpX (z : Byte)
  | adcAbs (a : Word)
  | adcAbsX (a : Word)
  | adcAbsY (a : Word)
  | adcIndX (z : Byte)
  | adcIndY (z : Byte)
  -- SBC (R201)
  | sbcImm (v : Byte)
  | sbcZp (z : Byte)
  | sbcZpX (z : Byte)
  | sbcAbs (a : Word)
  | sbcAbsX (a : Word)
  | sbcAbsY (a : Word)
  | sbcIndX (z : Byte)
  | sbcIndY (z : Byte)
  -- AND (R202)
  | andImm (v : Byte)
  | andZp (z : Byte)
  | andZpX (z : Byte)
  | andAbs (a : Word)
  | andAbsX (a : Word)
  | andAbsY (a : Word)
  | andIndX (z : Byte)
  | andIndY (z : Byte)
  -- ORA (R203)
  | oraImm (v : Byte)
  | oraZp (z : Byte)
  | oraZpX (z : Byte)
  | oraAbs (a : Word)
  | oraAbsX (a : Word)
  | oraAbsY (a : Word)
  | oraIndX (z : Byte)
  | oraIndY (z : Byte)
  -- EOR (R204)
  | eorImm (v : Byte)
  | eorZp (z : Byte)
  | eorZpX (z : Byte)
  | eorAbs (a : Word)
  | eorAbsX (a : Word)
  | eorAbsY (a : Word)
  | eorIndX (z : Byte)
  | eorIndY (z : Byte)
  -- BIT (R205)
  | bitZp (z : Byte)
  | bitAbs (a : Word)
  -- CMP (R206)
  | cmpImm (v : Byte)
  | cmpZp (z : Byte)
  | cmpZpX (z : Byte)
  | cmpAbs (a : Word)
  | cmpAbsX (a : Word)
  | cmpAbsY (a : Word)
  | cmpIndX (z : Byte)
  | cmpIndY (z : Byte)
  -- CPX (R207)
  | cpxImm (v : Byte)
  | cpxZp (z : Byte)
  | cpxAbs (a : Word)
  -- CPY (R208)
  | cpyImm (v : Byte)
  | cpyZp (z : Byte)
  | cpyAbs (a : Word)
  -- INC (R209)
  | incZp (z : Byte)
  | incZpX (z : Byte)
  | incAbs (a : Word)
  | incAbsX (a : Word)
  -- DEC (R210)
  | decZp (z : Byte)
  | decZpX (z : Byte)
  | decAbs (a : Word)
  | decAbsX (a : Word)
  -- INX (R211)
  | inx
  -- INY (R212)
  | iny
  -- DEX (R213)
  | dex
  -- DEY (R214)
  | dey
  -- ASL (R215)
  | aslAcc
  | aslZp (z : Byte)
  | aslZpX (z : Byte)
  | aslAbs (a : Word)
  | aslAbsX (a : Word)
  -- LSR (R216)
  | lsrAcc
  | lsrZp (z : Byte)
  | lsrZpX (z : Byte)
  | lsrAbs (a : Word)
  | lsrAbsX (a : Word)
  -- ROL (R217)
  | rolAcc
  | rolZp (z : Byte)
  | rolZpX (z : Byte)
  | rolAbs (a : Word)
  | rolAbsX (a : Word)
  -- ROR (R218)
  | rorAcc
  | rorZp (z : Byte)
  | rorZpX (z : Byte)
  | rorAbs (a : Word)
  | rorAbsX (a : Word)
  -- BPL (R230)
  | bpl (o : Byte)
  -- BMI (R231)
  | bmi (o : Byte)
  -- BVC (R232)
  | bvc (o : Byte)
  -- BVS (R233)
  | bvs (o : Byte)
  -- BCC (R234)
  | bcc (o : Byte)
  -- BCS (R235)
  | bcs (o : Byte)
  -- BNE (R236)
  | bne (o : Byte)
  -- BEQ (R237)
  | beq (o : Byte)
  -- JMP (R238)
  | jmpAbs (a : Word)
  | jmpInd (a : Word)
  -- JSR (R239)
  | jsr (a : Word)
  -- RTS (R240)
  | rts
  -- RTI (R241)
  | rti
  -- BRK (R242)
  | brk
  -- CLC (R243)
  | clc
  -- SEC (R244)
  | sec
  -- CLI (R245)
  | cli
  -- SEI (R246)
  | sei
  -- CLV (R247)
  | clv
  -- CLD (R248)
  | cld
  -- SED (R249)
  | sed
  -- NOP (R250)
  | nop
  deriving DecidableEq, Repr

/-- The adjustment policy of an opcode descriptor (40_engine.md R141, R153). -/
inductive Penalty where
  | none | page | branch
  deriving DecidableEq, Repr

/-- What a handler program reads and writes as a word: the CPU's registers and adjustment flags (10_state.md R30 to R36), and
its own temporaries, of which there are as many as it names. -/
inductive HandlerReg where
  | a | x | y | sp | pc
  /-- the packed flags byte (10_state.md R34) -/
  | p
  | pageCrossed | branchTaken
  | temp (n : Nat)
  deriving DecidableEq, Repr

/-- The operations on words of a handler program. -/
inductive WordOp where
  | add | sub | mul | and | or | xor | shl | shr | eq | lt
  deriving DecidableEq, Repr

/-- A word computed by a handler program. -/
inductive HandlerExpr where
  | lit (w : Word)
  | get (r : HandlerReg)
  | op (o : WordOp) (l r : HandlerExpr)
  deriving DecidableEq, Repr

/-- One operation of a handler program: a computation, a jump within the program, or one of the accesses the rules of
files 41 to 43 are made of. -/
inductive HandlerOp where
  | set (r : HandlerReg) (e : HandlerExpr)
  /-- go on at the `target`-th operation where the condition is not 0 -/
  | jump (cond : HandlerExpr) (target : Nat)
  /-- the address the operand is -/
  | address (r : HandlerReg)
  /-- `load(opnd)` (40_engine.md R152) -/
  | load (r : HandlerReg)
  /-- `store(opnd, v)` (40_engine.md R152) -/
  | store (v : HandlerExpr)
  /-- `MemRead(a, 1)` (00_scope.md R12) -/
  | read (r : HandlerReg) (a : HandlerExpr)
  /-- `MemWrite(a, 1, v)` (00_scope.md R12) -/
  | write (a v : HandlerExpr)
  /-- `Push(v)` (40_engine.md R155) -/
  | push (v : HandlerExpr)
  /-- `Pull()` (40_engine.md R156) -/
  | pull (r : HandlerReg)
  deriving DecidableEq, Repr

/-- A handler of a table's own: its operations from the first on, to the end of the list.  `limit` bounds how many it performs
between two channel reads that wait, so that every handler ends (DESIGN CHOICE, assumption 25). -/
structure HandlerProgram where
  limit : Nat
  ops   : List HandlerOp
  deriving DecidableEq, Repr

/-- The code of an opcode descriptor (40_engine.md R140, R141): the rule of a mnemonic, or a handler of the table's own, which
the spec allows ("the core must support arbitrary opcode tables") and which the table brings as a program (00_scope.md R8;
DESIGN CHOICE, assumption 25). -/
inductive Handler where
  | rule (m : Mnemonic)
  | program (p : HandlerProgram)
  deriving DecidableEq, Repr

/-- One populated row of an opcode table: the key byte and its descriptor (40_engine.md R141).  The mnemonic is a name; what
the instruction does is the handler's. -/
structure OpcodeRow where
  opcode     : Byte
  mnemonic   : String
  mode       : Mode
  handler    : Handler
  baseCycles : Nat
  penalty    : Penalty
  deriving DecidableEq, Repr

/-- `OPCODE_TABLE`: the populated rows; a byte no row names has no descriptor (40_engine.md R141, 30_encoding.md R129). -/
abbrev OpcodeTable := List OpcodeRow

/-- What a descriptor and its operand bytes make: an instruction of spec/opcode_table.json, or any other pairing of a handler
with a mode (40_engine.md R140, R141). -/
inductive Fetched where
  | instr (i : Instr)
  | form (h : Handler) (o : Operand)
  deriving DecidableEq, Repr

/-- What the resolver returns (40_engine.md R141). -/
inductive Resolved where
  | nothing
  | acc
  | value (v : Byte)
  | addr (a : Word)
  deriving DecidableEq, Repr, Inhabited

end Sys2Proof
end

