-- ==== Sys2Proof/Decode.lean ====
section
/-! DEFINITION. Byte order, the parts of an instruction, the default opcode table, the decoder and, after it, the
encoder (30_encoding.md R120 to R132).  The decoder is total on any bytes and rejects by name. -/

namespace Sys2Proof

/-- `hi : lo`, the 16-bit value of two bytes, the low byte first (20_memory.md R70). -/
def wordOf (lo hi : Byte) : Word := hi ++ lo

/-- Bits 7..0 of a word. -/
def loByte (w : Word) : Byte := w.extractLsb' 0 8

/-- Bits 15..8 of a word. -/
def hiByte (w : Word) : Byte := w.extractLsb' 8 8

/-- How many operand bytes follow the opcode byte (30_encoding.md R120). -/
def Mode.operandCount : Mode → Nat
  | .implied | .accumulator => 0
  | .immediate | .zeroPage | .zeroPageX | .zeroPageY | .indexedIndirect | .indirectIndexed | .relative => 1
  | .absolute | .absoluteX | .absoluteY | .indirect => 2

/-- The mode of an operand. -/
def Operand.mode : Operand → Mode
  | .implied => .implied
  | .accumulator => .accumulator
  | .immediate _ => .immediate
  | .zeroPage _ => .zeroPage
  | .zeroPageX _ => .zeroPageX
  | .zeroPageY _ => .zeroPageY
  | .absolute _ => .absolute
  | .absoluteX _ => .absoluteX
  | .absoluteY _ => .absoluteY
  | .indirect _ => .indirect
  | .indexedIndirect _ => .indexedIndirect
  | .indirectIndexed _ => .indirectIndexed
  | .relative _ => .relative

/-- The operand bytes in increasing address order (30_encoding.md R120, R122). -/
def Operand.bytes : Operand → List Byte
  | .implied | .accumulator => []
  | .immediate v => [v]
  | .zeroPage z | .zeroPageX z | .zeroPageY z | .indexedIndirect z | .indirectIndexed z => [z]
  | .relative o => [o]
  | .absolute a | .absoluteX a | .absoluteY a | .indirect a => [loByte a, hiByte a]

/-- The operand of a mode, read from the bytes after the opcode, with the bytes left over; `none` where too few bytes
stand there (30_encoding.md R120, R122). -/
def Operand.read : Mode → List Byte → Option (Operand × List Byte)
  | .implied, bs => some (.implied, bs)
  | .accumulator, bs => some (.accumulator, bs)
  | .immediate, v :: bs => some (.immediate v, bs)
  | .zeroPage, z :: bs => some (.zeroPage z, bs)
  | .zeroPageX, z :: bs => some (.zeroPageX z, bs)
  | .zeroPageY, z :: bs => some (.zeroPageY z, bs)
  | .indexedIndirect, z :: bs => some (.indexedIndirect z, bs)
  | .indirectIndexed, z :: bs => some (.indirectIndexed z, bs)
  | .relative, o :: bs => some (.relative o, bs)
  | .absolute, lo :: hi :: bs => some (.absolute (wordOf lo hi), bs)
  | .absoluteX, lo :: hi :: bs => some (.absoluteX (wordOf lo hi), bs)
  | .absoluteY, lo :: hi :: bs => some (.absoluteY (wordOf lo hi), bs)
  | .indirect, lo :: hi :: bs => some (.indirect (wordOf lo hi), bs)
  | _, _ => none

/-- The mnemonic of an instruction. -/
def Instr.mnemonic : Instr → Mnemonic
  | .ldaImm _ | .ldaZp _ | .ldaZpX _ | .ldaAbs _ | .ldaAbsX _ | .ldaAbsY _ | .ldaIndX _ | .ldaIndY _ => .lda
  | .ldxImm _ | .ldxZp _ | .ldxZpY _ | .ldxAbs _ | .ldxAbsY _ => .ldx
  | .ldyImm _ | .ldyZp _ | .ldyZpX _ | .ldyAbs _ | .ldyAbsX _ => .ldy
  | .staZp _ | .staZpX _ | .staAbs _ | .staAbsX _ | .staAbsY _ | .staIndX _ | .staIndY _ => .sta
  | .stxZp _ | .stxZpY _ | .stxAbs _ => .stx
  | .styZp _ | .styZpX _ | .styAbs _ => .sty
  | .tax => .tax
  | .tay => .tay
  | .txa => .txa
  | .tya => .tya
  | .tsx => .tsx
  | .txs => .txs
  | .pha => .pha
  | .pla => .pla
  | .php => .php
  | .plp => .plp
  | .adcImm _ | .adcZp _ | .adcZpX _ | .adcAbs _ | .adcAbsX _ | .adcAbsY _ | .adcIndX _ | .adcIndY _ => .adc
  | .sbcImm _ | .sbcZp _ | .sbcZpX _ | .sbcAbs _ | .sbcAbsX _ | .sbcAbsY _ | .sbcIndX _ | .sbcIndY _ => .sbc
  | .andImm _ | .andZp _ | .andZpX _ | .andAbs _ | .andAbsX _ | .andAbsY _ | .andIndX _ | .andIndY _ => .and
  | .oraImm _ | .oraZp _ | .oraZpX _ | .oraAbs _ | .oraAbsX _ | .oraAbsY _ | .oraIndX _ | .oraIndY _ => .ora
  | .eorImm _ | .eorZp _ | .eorZpX _ | .eorAbs _ | .eorAbsX _ | .eorAbsY _ | .eorIndX _ | .eorIndY _ => .eor
  | .bitZp _ | .bitAbs _ => .bit
  | .cmpImm _ | .cmpZp _ | .cmpZpX _ | .cmpAbs _ | .cmpAbsX _ | .cmpAbsY _ | .cmpIndX _ | .cmpIndY _ => .cmp
  | .cpxImm _ | .cpxZp _ | .cpxAbs _ => .cpx
  | .cpyImm _ | .cpyZp _ | .cpyAbs _ => .cpy
  | .incZp _ | .incZpX _ | .incAbs _ | .incAbsX _ => .inc
  | .decZp _ | .decZpX _ | .decAbs _ | .decAbsX _ => .dec
  | .inx => .inx
  | .iny => .iny
  | .dex => .dex
  | .dey => .dey
  | .aslAcc | .aslZp _ | .aslZpX _ | .aslAbs _ | .aslAbsX _ => .asl
  | .lsrAcc | .lsrZp _ | .lsrZpX _ | .lsrAbs _ | .lsrAbsX _ => .lsr
  | .rolAcc | .rolZp _ | .rolZpX _ | .rolAbs _ | .rolAbsX _ => .rol
  | .rorAcc | .rorZp _ | .rorZpX _ | .rorAbs _ | .rorAbsX _ => .ror
  | .bpl _ => .bpl
  | .bmi _ => .bmi
  | .bvc _ => .bvc
  | .bvs _ => .bvs
  | .bcc _ => .bcc
  | .bcs _ => .bcs
  | .bne _ => .bne
  | .beq _ => .beq
  | .jmpAbs _ | .jmpInd _ => .jmp
  | .jsr _ => .jsr
  | .rts => .rts
  | .rti => .rti
  | .brk => .brk
  | .clc => .clc
  | .sec => .sec
  | .cli => .cli
  | .sei => .sei
  | .clv => .clv
  | .cld => .cld
  | .sed => .sed
  | .nop => .nop

/-- The operand of an instruction. -/
def Instr.operand : Instr → Operand
  | .ldaImm v => .immediate v
  | .ldaZp z => .zeroPage z
  | .ldaZpX z => .zeroPageX z
  | .ldaAbs a => .absolute a
  | .ldaAbsX a => .absoluteX a
  | .ldaAbsY a => .absoluteY a
  | .ldaIndX z => .indexedIndirect z
  | .ldaIndY z => .indirectIndexed z
  | .ldxImm v => .immediate v
  | .ldxZp z => .zeroPage z
  | .ldxZpY z => .zeroPageY z
  | .ldxAbs a => .absolute a
  | .ldxAbsY a => .absoluteY a
  | .ldyImm v => .immediate v
  | .ldyZp z => .zeroPage z
  | .ldyZpX z => .zeroPageX z
  | .ldyAbs a => .absolute a
  | .ldyAbsX a => .absoluteX a
  | .staZp z => .zeroPage z
  | .staZpX z => .zeroPageX z
  | .staAbs a => .absolute a
  | .staAbsX a => .absoluteX a
  | .staAbsY a => .absoluteY a
  | .staIndX z => .indexedIndirect z
  | .staIndY z => .indirectIndexed z
  | .stxZp z => .zeroPage z
  | .stxZpY z => .zeroPageY z
  | .stxAbs a => .absolute a
  | .styZp z => .zeroPage z
  | .styZpX z => .zeroPageX z
  | .styAbs a => .absolute a
  | .tax => .implied
  | .tay => .implied
  | .txa => .implied
  | .tya => .implied
  | .tsx => .implied
  | .txs => .implied
  | .pha => .implied
  | .pla => .implied
  | .php => .implied
  | .plp => .implied
  | .adcImm v => .immediate v
  | .adcZp z => .zeroPage z
  | .adcZpX z => .zeroPageX z
  | .adcAbs a => .absolute a
  | .adcAbsX a => .absoluteX a
  | .adcAbsY a => .absoluteY a
  | .adcIndX z => .indexedIndirect z
  | .adcIndY z => .indirectIndexed z
  | .sbcImm v => .immediate v
  | .sbcZp z => .zeroPage z
  | .sbcZpX z => .zeroPageX z
  | .sbcAbs a => .absolute a
  | .sbcAbsX a => .absoluteX a
  | .sbcAbsY a => .absoluteY a
  | .sbcIndX z => .indexedIndirect z
  | .sbcIndY z => .indirectIndexed z
  | .andImm v => .immediate v
  | .andZp z => .zeroPage z
  | .andZpX z => .zeroPageX z
  | .andAbs a => .absolute a
  | .andAbsX a => .absoluteX a
  | .andAbsY a => .absoluteY a
  | .andIndX z => .indexedIndirect z
  | .andIndY z => .indirectIndexed z
  | .oraImm v => .immediate v
  | .oraZp z => .zeroPage z
  | .oraZpX z => .zeroPageX z
  | .oraAbs a => .absolute a
  | .oraAbsX a => .absoluteX a
  | .oraAbsY a => .absoluteY a
  | .oraIndX z => .indexedIndirect z
  | .oraIndY z => .indirectIndexed z
  | .eorImm v => .immediate v
  | .eorZp z => .zeroPage z
  | .eorZpX z => .zeroPageX z
  | .eorAbs a => .absolute a
  | .eorAbsX a => .absoluteX a
  | .eorAbsY a => .absoluteY a
  | .eorIndX z => .indexedIndirect z
  | .eorIndY z => .indirectIndexed z
  | .bitZp z => .zeroPage z
  | .bitAbs a => .absolute a
  | .cmpImm v => .immediate v
  | .cmpZp z => .zeroPage z
  | .cmpZpX z => .zeroPageX z
  | .cmpAbs a => .absolute a
  | .cmpAbsX a => .absoluteX a
  | .cmpAbsY a => .absoluteY a
  | .cmpIndX z => .indexedIndirect z
  | .cmpIndY z => .indirectIndexed z
  | .cpxImm v => .immediate v
  | .cpxZp z => .zeroPage z
  | .cpxAbs a => .absolute a
  | .cpyImm v => .immediate v
  | .cpyZp z => .zeroPage z
  | .cpyAbs a => .absolute a
  | .incZp z => .zeroPage z
  | .incZpX z => .zeroPageX z
  | .incAbs a => .absolute a
  | .incAbsX a => .absoluteX a
  | .decZp z => .zeroPage z
  | .decZpX z => .zeroPageX z
  | .decAbs a => .absolute a
  | .decAbsX a => .absoluteX a
  | .inx => .implied
  | .iny => .implied
  | .dex => .implied
  | .dey => .implied
  | .aslAcc => .accumulator
  | .aslZp z => .zeroPage z
  | .aslZpX z => .zeroPageX z
  | .aslAbs a => .absolute a
  | .aslAbsX a => .absoluteX a
  | .lsrAcc => .accumulator
  | .lsrZp z => .zeroPage z
  | .lsrZpX z => .zeroPageX z
  | .lsrAbs a => .absolute a
  | .lsrAbsX a => .absoluteX a
  | .rolAcc => .accumulator
  | .rolZp z => .zeroPage z
  | .rolZpX z => .zeroPageX z
  | .rolAbs a => .absolute a
  | .rolAbsX a => .absoluteX a
  | .rorAcc => .accumulator
  | .rorZp z => .zeroPage z
  | .rorZpX z => .zeroPageX z
  | .rorAbs a => .absolute a
  | .rorAbsX a => .absoluteX a
  | .bpl o => .relative o
  | .bmi o => .relative o
  | .bvc o => .relative o
  | .bvs o => .relative o
  | .bcc o => .relative o
  | .bcs o => .relative o
  | .bne o => .relative o
  | .beq o => .relative o
  | .jmpAbs a => .absolute a
  | .jmpInd a => .indirect a
  | .jsr a => .absolute a
  | .rts => .implied
  | .rti => .implied
  | .brk => .implied
  | .clc => .implied
  | .sec => .implied
  | .cli => .implied
  | .sei => .implied
  | .clv => .implied
  | .cld => .implied
  | .sed => .implied
  | .nop => .implied

/-- The addressing mode of an instruction. -/
def Instr.mode (i : Instr) : Mode := i.operand.mode

/-- The instruction made of a mnemonic and an operand, where the spec's table has that pair (30_encoding.md R124). -/
def Instr.ofParts : Mnemonic → Operand → Option Instr
  | .lda, .immediate v => some (.ldaImm v)
  | .lda, .zeroPage z => some (.ldaZp z)
  | .lda, .zeroPageX z => some (.ldaZpX z)
  | .lda, .absolute a => some (.ldaAbs a)
  | .lda, .absoluteX a => some (.ldaAbsX a)
  | .lda, .absoluteY a => some (.ldaAbsY a)
  | .lda, .indexedIndirect z => some (.ldaIndX z)
  | .lda, .indirectIndexed z => some (.ldaIndY z)
  | .ldx, .immediate v => some (.ldxImm v)
  | .ldx, .zeroPage z => some (.ldxZp z)
  | .ldx, .zeroPageY z => some (.ldxZpY z)
  | .ldx, .absolute a => some (.ldxAbs a)
  | .ldx, .absoluteY a => some (.ldxAbsY a)
  | .ldy, .immediate v => some (.ldyImm v)
  | .ldy, .zeroPage z => some (.ldyZp z)
  | .ldy, .zeroPageX z => some (.ldyZpX z)
  | .ldy, .absolute a => some (.ldyAbs a)
  | .ldy, .absoluteX a => some (.ldyAbsX a)
  | .sta, .zeroPage z => some (.staZp z)
  | .sta, .zeroPageX z => some (.staZpX z)
  | .sta, .absolute a => some (.staAbs a)
  | .sta, .absoluteX a => some (.staAbsX a)
  | .sta, .absoluteY a => some (.staAbsY a)
  | .sta, .indexedIndirect z => some (.staIndX z)
  | .sta, .indirectIndexed z => some (.staIndY z)
  | .stx, .zeroPage z => some (.stxZp z)
  | .stx, .zeroPageY z => some (.stxZpY z)
  | .stx, .absolute a => some (.stxAbs a)
  | .sty, .zeroPage z => some (.styZp z)
  | .sty, .zeroPageX z => some (.styZpX z)
  | .sty, .absolute a => some (.styAbs a)
  | .tax, .implied => some .tax
  | .tay, .implied => some .tay
  | .txa, .implied => some .txa
  | .tya, .implied => some .tya
  | .tsx, .implied => some .tsx
  | .txs, .implied => some .txs
  | .pha, .implied => some .pha
  | .pla, .implied => some .pla
  | .php, .implied => some .php
  | .plp, .implied => some .plp
  | .adc, .immediate v => some (.adcImm v)
  | .adc, .zeroPage z => some (.adcZp z)
  | .adc, .zeroPageX z => some (.adcZpX z)
  | .adc, .absolute a => some (.adcAbs a)
  | .adc, .absoluteX a => some (.adcAbsX a)
  | .adc, .absoluteY a => some (.adcAbsY a)
  | .adc, .indexedIndirect z => some (.adcIndX z)
  | .adc, .indirectIndexed z => some (.adcIndY z)
  | .sbc, .immediate v => some (.sbcImm v)
  | .sbc, .zeroPage z => some (.sbcZp z)
  | .sbc, .zeroPageX z => some (.sbcZpX z)
  | .sbc, .absolute a => some (.sbcAbs a)
  | .sbc, .absoluteX a => some (.sbcAbsX a)
  | .sbc, .absoluteY a => some (.sbcAbsY a)
  | .sbc, .indexedIndirect z => some (.sbcIndX z)
  | .sbc, .indirectIndexed z => some (.sbcIndY z)
  | .and, .immediate v => some (.andImm v)
  | .and, .zeroPage z => some (.andZp z)
  | .and, .zeroPageX z => some (.andZpX z)
  | .and, .absolute a => some (.andAbs a)
  | .and, .absoluteX a => some (.andAbsX a)
  | .and, .absoluteY a => some (.andAbsY a)
  | .and, .indexedIndirect z => some (.andIndX z)
  | .and, .indirectIndexed z => some (.andIndY z)
  | .ora, .immediate v => some (.oraImm v)
  | .ora, .zeroPage z => some (.oraZp z)
  | .ora, .zeroPageX z => some (.oraZpX z)
  | .ora, .absolute a => some (.oraAbs a)
  | .ora, .absoluteX a => some (.oraAbsX a)
  | .ora, .absoluteY a => some (.oraAbsY a)
  | .ora, .indexedIndirect z => some (.oraIndX z)
  | .ora, .indirectIndexed z => some (.oraIndY z)
  | .eor, .immediate v => some (.eorImm v)
  | .eor, .zeroPage z => some (.eorZp z)
  | .eor, .zeroPageX z => some (.eorZpX z)
  | .eor, .absolute a => some (.eorAbs a)
  | .eor, .absoluteX a => some (.eorAbsX a)
  | .eor, .absoluteY a => some (.eorAbsY a)
  | .eor, .indexedIndirect z => some (.eorIndX z)
  | .eor, .indirectIndexed z => some (.eorIndY z)
  | .bit, .zeroPage z => some (.bitZp z)
  | .bit, .absolute a => some (.bitAbs a)
  | .cmp, .immediate v => some (.cmpImm v)
  | .cmp, .zeroPage z => some (.cmpZp z)
  | .cmp, .zeroPageX z => some (.cmpZpX z)
  | .cmp, .absolute a => some (.cmpAbs a)
  | .cmp, .absoluteX a => some (.cmpAbsX a)
  | .cmp, .absoluteY a => some (.cmpAbsY a)
  | .cmp, .indexedIndirect z => some (.cmpIndX z)
  | .cmp, .indirectIndexed z => some (.cmpIndY z)
  | .cpx, .immediate v => some (.cpxImm v)
  | .cpx, .zeroPage z => some (.cpxZp z)
  | .cpx, .absolute a => some (.cpxAbs a)
  | .cpy, .immediate v => some (.cpyImm v)
  | .cpy, .zeroPage z => some (.cpyZp z)
  | .cpy, .absolute a => some (.cpyAbs a)
  | .inc, .zeroPage z => some (.incZp z)
  | .inc, .zeroPageX z => some (.incZpX z)
  | .inc, .absolute a => some (.incAbs a)
  | .inc, .absoluteX a => some (.incAbsX a)
  | .dec, .zeroPage z => some (.decZp z)
  | .dec, .zeroPageX z => some (.decZpX z)
  | .dec, .absolute a => some (.decAbs a)
  | .dec, .absoluteX a => some (.decAbsX a)
  | .inx, .implied => some .inx
  | .iny, .implied => some .iny
  | .dex, .implied => some .dex
  | .dey, .implied => some .dey
  | .asl, .accumulator => some .aslAcc
  | .asl, .zeroPage z => some (.aslZp z)
  | .asl, .zeroPageX z => some (.aslZpX z)
  | .asl, .absolute a => some (.aslAbs a)
  | .asl, .absoluteX a => some (.aslAbsX a)
  | .lsr, .accumulator => some .lsrAcc
  | .lsr, .zeroPage z => some (.lsrZp z)
  | .lsr, .zeroPageX z => some (.lsrZpX z)
  | .lsr, .absolute a => some (.lsrAbs a)
  | .lsr, .absoluteX a => some (.lsrAbsX a)
  | .rol, .accumulator => some .rolAcc
  | .rol, .zeroPage z => some (.rolZp z)
  | .rol, .zeroPageX z => some (.rolZpX z)
  | .rol, .absolute a => some (.rolAbs a)
  | .rol, .absoluteX a => some (.rolAbsX a)
  | .ror, .accumulator => some .rorAcc
  | .ror, .zeroPage z => some (.rorZp z)
  | .ror, .zeroPageX z => some (.rorZpX z)
  | .ror, .absolute a => some (.rorAbs a)
  | .ror, .absoluteX a => some (.rorAbsX a)
  | .bpl, .relative o => some (.bpl o)
  | .bmi, .relative o => some (.bmi o)
  | .bvc, .relative o => some (.bvc o)
  | .bvs, .relative o => some (.bvs o)
  | .bcc, .relative o => some (.bcc o)
  | .bcs, .relative o => some (.bcs o)
  | .bne, .relative o => some (.bne o)
  | .beq, .relative o => some (.beq o)
  | .jmp, .absolute a => some (.jmpAbs a)
  | .jmp, .indirect a => some (.jmpInd a)
  | .jsr, .absolute a => some (.jsr a)
  | .rts, .implied => some .rts
  | .rti, .implied => some .rti
  | .brk, .implied => some .brk
  | .clc, .implied => some .clc
  | .sec, .implied => some .sec
  | .cli, .implied => some .cli
  | .sei, .implied => some .sei
  | .clv, .implied => some .clv
  | .cld, .implied => some .cld
  | .sed, .implied => some .sed
  | .nop, .implied => some .nop
  | _, _ => none

/-- Row 0 of the default opcode map (30_encoding.md R124), with its cycles and penalty (opcode_table.json). -/
def OpcodeTable.row0 : OpcodeTable :=
  [⟨0x00, "BRK", .implied, .rule .brk, 7, .none⟩,
   ⟨0x01, "ORA", .indexedIndirect, .rule .ora, 6, .none⟩,
   ⟨0x05, "ORA", .zeroPage, .rule .ora, 3, .none⟩,
   ⟨0x06, "ASL", .zeroPage, .rule .asl, 5, .none⟩,
   ⟨0x08, "PHP", .implied, .rule .php, 3, .none⟩,
   ⟨0x09, "ORA", .immediate, .rule .ora, 2, .none⟩,
   ⟨0x0A, "ASL", .accumulator, .rule .asl, 2, .none⟩,
   ⟨0x0D, "ORA", .absolute, .rule .ora, 4, .none⟩,
   ⟨0x0E, "ASL", .absolute, .rule .asl, 6, .none⟩]

/-- Row 1 of the default opcode map (30_encoding.md R124), with its cycles and penalty (opcode_table.json). -/
def OpcodeTable.row1 : OpcodeTable :=
  [⟨0x10, "BPL", .relative, .rule .bpl, 2, .branch⟩,
   ⟨0x11, "ORA", .indirectIndexed, .rule .ora, 5, .page⟩,
   ⟨0x15, "ORA", .zeroPageX, .rule .ora, 4, .none⟩,
   ⟨0x16, "ASL", .zeroPageX, .rule .asl, 6, .none⟩,
   ⟨0x18, "CLC", .implied, .rule .clc, 2, .none⟩,
   ⟨0x19, "ORA", .absoluteY, .rule .ora, 4, .page⟩,
   ⟨0x1D, "ORA", .absoluteX, .rule .ora, 4, .page⟩,
   ⟨0x1E, "ASL", .absoluteX, .rule .asl, 7, .none⟩]

/-- Row 2 of the default opcode map (30_encoding.md R124), with its cycles and penalty (opcode_table.json). -/
def OpcodeTable.row2 : OpcodeTable :=
  [⟨0x20, "JSR", .absolute, .rule .jsr, 6, .none⟩,
   ⟨0x21, "AND", .indexedIndirect, .rule .and, 6, .none⟩,
   ⟨0x24, "BIT", .zeroPage, .rule .bit, 3, .none⟩,
   ⟨0x25, "AND", .zeroPage, .rule .and, 3, .none⟩,
   ⟨0x26, "ROL", .zeroPage, .rule .rol, 5, .none⟩,
   ⟨0x28, "PLP", .implied, .rule .plp, 4, .none⟩,
   ⟨0x29, "AND", .immediate, .rule .and, 2, .none⟩,
   ⟨0x2A, "ROL", .accumulator, .rule .rol, 2, .none⟩,
   ⟨0x2C, "BIT", .absolute, .rule .bit, 4, .none⟩,
   ⟨0x2D, "AND", .absolute, .rule .and, 4, .none⟩,
   ⟨0x2E, "ROL", .absolute, .rule .rol, 6, .none⟩]

/-- Row 3 of the default opcode map (30_encoding.md R124), with its cycles and penalty (opcode_table.json). -/
def OpcodeTable.row3 : OpcodeTable :=
  [⟨0x30, "BMI", .relative, .rule .bmi, 2, .branch⟩,
   ⟨0x31, "AND", .indirectIndexed, .rule .and, 5, .page⟩,
   ⟨0x35, "AND", .zeroPageX, .rule .and, 4, .none⟩,
   ⟨0x36, "ROL", .zeroPageX, .rule .rol, 6, .none⟩,
   ⟨0x38, "SEC", .implied, .rule .sec, 2, .none⟩,
   ⟨0x39, "AND", .absoluteY, .rule .and, 4, .page⟩,
   ⟨0x3D, "AND", .absoluteX, .rule .and, 4, .page⟩,
   ⟨0x3E, "ROL", .absoluteX, .rule .rol, 7, .none⟩]

/-- Row 4 of the default opcode map (30_encoding.md R124), with its cycles and penalty (opcode_table.json). -/
def OpcodeTable.row4 : OpcodeTable :=
  [⟨0x40, "RTI", .implied, .rule .rti, 6, .none⟩,
   ⟨0x41, "EOR", .indexedIndirect, .rule .eor, 6, .none⟩,
   ⟨0x45, "EOR", .zeroPage, .rule .eor, 3, .none⟩,
   ⟨0x46, "LSR", .zeroPage, .rule .lsr, 5, .none⟩,
   ⟨0x48, "PHA", .implied, .rule .pha, 3, .none⟩,
   ⟨0x49, "EOR", .immediate, .rule .eor, 2, .none⟩,
   ⟨0x4A, "LSR", .accumulator, .rule .lsr, 2, .none⟩,
   ⟨0x4C, "JMP", .absolute, .rule .jmp, 3, .none⟩,
   ⟨0x4D, "EOR", .absolute, .rule .eor, 4, .none⟩,
   ⟨0x4E, "LSR", .absolute, .rule .lsr, 6, .none⟩]

/-- Row 5 of the default opcode map (30_encoding.md R124), with its cycles and penalty (opcode_table.json). -/
def OpcodeTable.row5 : OpcodeTable :=
  [⟨0x50, "BVC", .relative, .rule .bvc, 2, .branch⟩,
   ⟨0x51, "EOR", .indirectIndexed, .rule .eor, 5, .page⟩,
   ⟨0x55, "EOR", .zeroPageX, .rule .eor, 4, .none⟩,
   ⟨0x56, "LSR", .zeroPageX, .rule .lsr, 6, .none⟩,
   ⟨0x58, "CLI", .implied, .rule .cli, 2, .none⟩,
   ⟨0x59, "EOR", .absoluteY, .rule .eor, 4, .page⟩,
   ⟨0x5D, "EOR", .absoluteX, .rule .eor, 4, .page⟩,
   ⟨0x5E, "LSR", .absoluteX, .rule .lsr, 7, .none⟩]

/-- Row 6 of the default opcode map (30_encoding.md R124), with its cycles and penalty (opcode_table.json). -/
def OpcodeTable.row6 : OpcodeTable :=
  [⟨0x60, "RTS", .implied, .rule .rts, 6, .none⟩,
   ⟨0x61, "ADC", .indexedIndirect, .rule .adc, 6, .none⟩,
   ⟨0x65, "ADC", .zeroPage, .rule .adc, 3, .none⟩,
   ⟨0x66, "ROR", .zeroPage, .rule .ror, 5, .none⟩,
   ⟨0x68, "PLA", .implied, .rule .pla, 4, .none⟩,
   ⟨0x69, "ADC", .immediate, .rule .adc, 2, .none⟩,
   ⟨0x6A, "ROR", .accumulator, .rule .ror, 2, .none⟩,
   ⟨0x6C, "JMP", .indirect, .rule .jmp, 5, .none⟩,
   ⟨0x6D, "ADC", .absolute, .rule .adc, 4, .none⟩,
   ⟨0x6E, "ROR", .absolute, .rule .ror, 6, .none⟩]

/-- Row 7 of the default opcode map (30_encoding.md R124), with its cycles and penalty (opcode_table.json). -/
def OpcodeTable.row7 : OpcodeTable :=
  [⟨0x70, "BVS", .relative, .rule .bvs, 2, .branch⟩,
   ⟨0x71, "ADC", .indirectIndexed, .rule .adc, 5, .page⟩,
   ⟨0x75, "ADC", .zeroPageX, .rule .adc, 4, .none⟩,
   ⟨0x76, "ROR", .zeroPageX, .rule .ror, 6, .none⟩,
   ⟨0x78, "SEI", .implied, .rule .sei, 2, .none⟩,
   ⟨0x79, "ADC", .absoluteY, .rule .adc, 4, .page⟩,
   ⟨0x7D, "ADC", .absoluteX, .rule .adc, 4, .page⟩,
   ⟨0x7E, "ROR", .absoluteX, .rule .ror, 7, .none⟩]

/-- Row 8 of the default opcode map (30_encoding.md R124), with its cycles and penalty (opcode_table.json). -/
def OpcodeTable.row8 : OpcodeTable :=
  [⟨0x81, "STA", .indexedIndirect, .rule .sta, 6, .none⟩,
   ⟨0x84, "STY", .zeroPage, .rule .sty, 3, .none⟩,
   ⟨0x85, "STA", .zeroPage, .rule .sta, 3, .none⟩,
   ⟨0x86, "STX", .zeroPage, .rule .stx, 3, .none⟩,
   ⟨0x88, "DEY", .implied, .rule .dey, 2, .none⟩,
   ⟨0x8A, "TXA", .implied, .rule .txa, 2, .none⟩,
   ⟨0x8C, "STY", .absolute, .rule .sty, 4, .none⟩,
   ⟨0x8D, "STA", .absolute, .rule .sta, 4, .none⟩,
   ⟨0x8E, "STX", .absolute, .rule .stx, 4, .none⟩]

/-- Row 9 of the default opcode map (30_encoding.md R124), with its cycles and penalty (opcode_table.json). -/
def OpcodeTable.row9 : OpcodeTable :=
  [⟨0x90, "BCC", .relative, .rule .bcc, 2, .branch⟩,
   ⟨0x91, "STA", .indirectIndexed, .rule .sta, 6, .none⟩,
   ⟨0x94, "STY", .zeroPageX, .rule .sty, 4, .none⟩,
   ⟨0x95, "STA", .zeroPageX, .rule .sta, 4, .none⟩,
   ⟨0x96, "STX", .zeroPageY, .rule .stx, 4, .none⟩,
   ⟨0x98, "TYA", .implied, .rule .tya, 2, .none⟩,
   ⟨0x99, "STA", .absoluteY, .rule .sta, 5, .none⟩,
   ⟨0x9A, "TXS", .implied, .rule .txs, 2, .none⟩,
   ⟨0x9D, "STA", .absoluteX, .rule .sta, 5, .none⟩]

/-- Row A of the default opcode map (30_encoding.md R124), with its cycles and penalty (opcode_table.json). -/
def OpcodeTable.rowA : OpcodeTable :=
  [⟨0xA0, "LDY", .immediate, .rule .ldy, 2, .none⟩,
   ⟨0xA1, "LDA", .indexedIndirect, .rule .lda, 6, .none⟩,
   ⟨0xA2, "LDX", .immediate, .rule .ldx, 2, .none⟩,
   ⟨0xA4, "LDY", .zeroPage, .rule .ldy, 3, .none⟩,
   ⟨0xA5, "LDA", .zeroPage, .rule .lda, 3, .none⟩,
   ⟨0xA6, "LDX", .zeroPage, .rule .ldx, 3, .none⟩,
   ⟨0xA8, "TAY", .implied, .rule .tay, 2, .none⟩,
   ⟨0xA9, "LDA", .immediate, .rule .lda, 2, .none⟩,
   ⟨0xAA, "TAX", .implied, .rule .tax, 2, .none⟩,
   ⟨0xAC, "LDY", .absolute, .rule .ldy, 4, .none⟩,
   ⟨0xAD, "LDA", .absolute, .rule .lda, 4, .none⟩,
   ⟨0xAE, "LDX", .absolute, .rule .ldx, 4, .none⟩]

/-- Row B of the default opcode map (30_encoding.md R124), with its cycles and penalty (opcode_table.json). -/
def OpcodeTable.rowB : OpcodeTable :=
  [⟨0xB0, "BCS", .relative, .rule .bcs, 2, .branch⟩,
   ⟨0xB1, "LDA", .indirectIndexed, .rule .lda, 5, .page⟩,
   ⟨0xB4, "LDY", .zeroPageX, .rule .ldy, 4, .none⟩,
   ⟨0xB5, "LDA", .zeroPageX, .rule .lda, 4, .none⟩,
   ⟨0xB6, "LDX", .zeroPageY, .rule .ldx, 4, .none⟩,
   ⟨0xB8, "CLV", .implied, .rule .clv, 2, .none⟩,
   ⟨0xB9, "LDA", .absoluteY, .rule .lda, 4, .page⟩,
   ⟨0xBA, "TSX", .implied, .rule .tsx, 2, .none⟩,
   ⟨0xBC, "LDY", .absoluteX, .rule .ldy, 4, .page⟩,
   ⟨0xBD, "LDA", .absoluteX, .rule .lda, 4, .page⟩,
   ⟨0xBE, "LDX", .absoluteY, .rule .ldx, 4, .page⟩]

/-- Row C of the default opcode map (30_encoding.md R124), with its cycles and penalty (opcode_table.json). -/
def OpcodeTable.rowC : OpcodeTable :=
  [⟨0xC0, "CPY", .immediate, .rule .cpy, 2, .none⟩,
   ⟨0xC1, "CMP", .indexedIndirect, .rule .cmp, 6, .none⟩,
   ⟨0xC4, "CPY", .zeroPage, .rule .cpy, 3, .none⟩,
   ⟨0xC5, "CMP", .zeroPage, .rule .cmp, 3, .none⟩,
   ⟨0xC6, "DEC", .zeroPage, .rule .dec, 5, .none⟩,
   ⟨0xC8, "INY", .implied, .rule .iny, 2, .none⟩,
   ⟨0xC9, "CMP", .immediate, .rule .cmp, 2, .none⟩,
   ⟨0xCA, "DEX", .implied, .rule .dex, 2, .none⟩,
   ⟨0xCC, "CPY", .absolute, .rule .cpy, 4, .none⟩,
   ⟨0xCD, "CMP", .absolute, .rule .cmp, 4, .none⟩,
   ⟨0xCE, "DEC", .absolute, .rule .dec, 6, .none⟩]

/-- Row D of the default opcode map (30_encoding.md R124), with its cycles and penalty (opcode_table.json). -/
def OpcodeTable.rowD : OpcodeTable :=
  [⟨0xD0, "BNE", .relative, .rule .bne, 2, .branch⟩,
   ⟨0xD1, "CMP", .indirectIndexed, .rule .cmp, 5, .page⟩,
   ⟨0xD5, "CMP", .zeroPageX, .rule .cmp, 4, .none⟩,
   ⟨0xD6, "DEC", .zeroPageX, .rule .dec, 6, .none⟩,
   ⟨0xD8, "CLD", .implied, .rule .cld, 2, .none⟩,
   ⟨0xD9, "CMP", .absoluteY, .rule .cmp, 4, .page⟩,
   ⟨0xDD, "CMP", .absoluteX, .rule .cmp, 4, .page⟩,
   ⟨0xDE, "DEC", .absoluteX, .rule .dec, 7, .none⟩]

/-- Row E of the default opcode map (30_encoding.md R124), with its cycles and penalty (opcode_table.json). -/
def OpcodeTable.rowE : OpcodeTable :=
  [⟨0xE0, "CPX", .immediate, .rule .cpx, 2, .none⟩,
   ⟨0xE1, "SBC", .indexedIndirect, .rule .sbc, 6, .none⟩,
   ⟨0xE4, "CPX", .zeroPage, .rule .cpx, 3, .none⟩,
   ⟨0xE5, "SBC", .zeroPage, .rule .sbc, 3, .none⟩,
   ⟨0xE6, "INC", .zeroPage, .rule .inc, 5, .none⟩,
   ⟨0xE8, "INX", .implied, .rule .inx, 2, .none⟩,
   ⟨0xE9, "SBC", .immediate, .rule .sbc, 2, .none⟩,
   ⟨0xEA, "NOP", .implied, .rule .nop, 2, .none⟩,
   ⟨0xEC, "CPX", .absolute, .rule .cpx, 4, .none⟩,
   ⟨0xED, "SBC", .absolute, .rule .sbc, 4, .none⟩,
   ⟨0xEE, "INC", .absolute, .rule .inc, 6, .none⟩]

/-- Row F of the default opcode map (30_encoding.md R124), with its cycles and penalty (opcode_table.json). -/
def OpcodeTable.rowF : OpcodeTable :=
  [⟨0xF0, "BEQ", .relative, .rule .beq, 2, .branch⟩,
   ⟨0xF1, "SBC", .indirectIndexed, .rule .sbc, 5, .page⟩,
   ⟨0xF5, "SBC", .zeroPageX, .rule .sbc, 4, .none⟩,
   ⟨0xF6, "INC", .zeroPageX, .rule .inc, 6, .none⟩,
   ⟨0xF8, "SED", .implied, .rule .sed, 2, .none⟩,
   ⟨0xF9, "SBC", .absoluteY, .rule .sbc, 4, .page⟩,
   ⟨0xFD, "SBC", .absoluteX, .rule .sbc, 4, .page⟩,
   ⟨0xFE, "INC", .absoluteX, .rule .inc, 7, .none⟩]

/-- The default `OPCODE_TABLE`: the 151 documented opcodes (30_encoding.md R124; 92 D14). -/
def OpcodeTable.standard : OpcodeTable :=
  OpcodeTable.row0 ++ OpcodeTable.row1 ++ OpcodeTable.row2 ++ OpcodeTable.row3 ++ OpcodeTable.row4 ++ OpcodeTable.row5 ++ OpcodeTable.row6 ++ OpcodeTable.row7 ++
  OpcodeTable.row8 ++ OpcodeTable.row9 ++ OpcodeTable.rowA ++ OpcodeTable.rowB ++ OpcodeTable.rowC ++ OpcodeTable.rowD ++ OpcodeTable.rowE ++ OpcodeTable.rowF

/-- The descriptor of an opcode byte, `none` where the table has none (40_engine.md R141). -/
def OpcodeTable.descriptor (t : OpcodeTable) (b : Byte) : Option OpcodeRow := t.find? fun r => r.opcode == b

/-- The row of a handler in a mode, for encoding. -/
def OpcodeTable.rowFor (t : OpcodeTable) (h : Handler) (md : Mode) : Option OpcodeRow :=
  t.find? fun r => decide (r.handler = h) && decide (r.mode = md)

/-- What a handler and an operand make: an instruction where the handler is a mnemonic's rule and the instruction set has
that mnemonic in that mode, else a form of the table's own (40_engine.md R141). -/
def Fetched.ofParts (h : Handler) (o : Operand) : Fetched :=
  match h with
  | .program _ => .form h o
  | .rule m =>
    match Instr.ofParts m o with
    | some i => .instr i
    | none => .form h o

/-- The handler of what was fetched. -/
def Fetched.handler : Fetched → Handler
  | .instr i => .rule i.mnemonic
  | .form h _ => h

/-- The operand of what was fetched. -/
def Fetched.operand : Fetched → Operand
  | .instr i => i.operand
  | .form _ o => o

/-- What the decoder answers. -/
inductive Decoded where
  /-- an instruction, and the bytes after it -/
  | instr (i : Instr) (rest : List Byte)
  /-- a pairing of a handler with a mode that is no row of spec/opcode_table.json, and the bytes after it; only a table
  other than the default one makes it -/
  | form (h : Handler) (o : Operand) (rest : List Byte)
  /-- the bytes end before the instruction does -/
  | needMore
  /-- the byte has no descriptor (30_encoding.md R129) -/
  | unknownOpcode (b : Byte)
  deriving DecidableEq, Repr

/-- The answer for what was fetched and the bytes after it. -/
def Fetched.decoded (f : Fetched) (rest : List Byte) : Decoded :=
  match f with
  | .instr i => .instr i rest
  | .form h o => .form h o rest

/-- Decode the instruction at the head of a list of bytes, by the opcode byte alone (30_encoding.md R121, R123). -/
def decode (t : OpcodeTable) : List Byte → Decoded
  | [] => .needMore
  | b :: bs =>
    match t.descriptor b with
    | none => .unknownOpcode b
    | some r =>
      match Operand.read r.mode bs with
      | none => .needMore
      | some (o, rest) => (Fetched.ofParts r.handler o).decoded rest

/-- The instruction bytes of a word numbered as spec/opcode_table.json numbers its bits, three of them (the longest
instruction), every bit from `nbits` up being 0. -/
def tableBytes (nbits w : Nat) : List Byte :=
  let w := w % 2 ^ nbits
  [BitVec.ofNat 8 w, BitVec.ofNat 8 (w / 256), BitVec.ofNat 8 (w / 65536)]

/-- The instruction the decoder reads, under the default table, from a word of spec/opcode_table.json. -/
def decodeTableWord (nbits w : Nat) : Option Instr :=
  match decode OpcodeTable.standard (tableBytes nbits w) with
  | .instr i _ => some i
  | _ => none

/-- The bytes of a handler with an operand under a table: the opcode byte of its row, then its operand bytes (30_encoding.md
R120).  Empty where the table has no row for it. -/
def encodeParts (t : OpcodeTable) (h : Handler) (o : Operand) : List Byte :=
  match t.rowFor h o.mode with
  | none => []
  | some r => r.opcode :: o.bytes

/-- The bytes of an instruction under a table (30_encoding.md R120).  Empty where the table has no row for it (then the
instruction is not well-formed for that table). -/
def encode (t : OpcodeTable) (i : Instr) : List Byte := encodeParts t (.rule i.mnemonic) i.operand

end Sys2Proof
end

