-- ==== Sys2Proof/Config.lean ====
section
/-! DEFINITION. What an implementation fixes (every parameter of 00_scope.md R8, in one plain record) and the free
values: opaque constants with no body, which nothing in Lean can evaluate. -/

namespace Sys2Proof

/-- `RAM_SIZE`, fixed by decision (00_scope.md R8, 92 D3). -/
def ramSize : Nat := 2048

/-- `STACK_EDGE` (40_engine.md R157). -/
inductive StackEdge where
  | wrap | saturate
  deriving DecidableEq, Repr

/-- `BRK_POLICY` (43_control_flags.md R242). -/
inductive BrkPolicy where
  | standard | viaIrqPath
  deriving DecidableEq, Repr

/-- `SYNC_MODE` (50_channel_protocol.md R261, R272). -/
inductive SyncMode where
  | async | lockstep
  deriving DecidableEq, Repr

/-- One record of `MAPPER_TABLE` (20_memory.md R89). -/
structure MapperEntry where
  ctrlLo   : Word
  ctrlHi   : Word
  srcStart : Word
  srcLen   : Nat
  bankSize : Nat
  deriving DecidableEq, Repr

/-- The parameters of 00_scope.md R8 that the machine reads.  They are no state of the machine (10_state.md R52): State
carries them so that one step function serves every setting, and no step changes them. -/
structure Params where
  /-- `OPCODE_TABLE` -/
  opcodes : OpcodeTable
  /-- `STACK_EDGE` -/
  stackEdge : StackEdge
  /-- `DECIMAL_MODE`: only `false` is specified, `true` is refused at construction (42_arith_logic.md R197) -/
  decimalMode : Bool
  /-- `JMP_IND_PAGE_BUG` -/
  jmpIndPageBug : Bool
  /-- `BRK_POLICY` -/
  brkPolicy : BrkPolicy
  /-- `NMI_WIRED` -/
  nmiWired : Bool
  /-- `MAPPER_TABLE`: the ids with a record; id 0 never has one (20_memory.md R89) -/
  mapperTable : List (Byte × MapperEntry)
  /-- `CYCLES_PER_SCANLINE` -/
  cyclesPerScanline : Nat
  /-- `VBLANK_START_LINE` -/
  vblankStartLine : Nat
  /-- `LAST_LINE` -/
  lastLine : Nat
  /-- `PPUDATA_READ_BUFFERED` -/
  ppudataReadBuffered : Bool
  /-- `SPRITE_Y_OFFSET`: R8 and 51_ppu.md R320 give it no range; that no negative offset can be given is the model's choice
  (DESIGN CHOICE, assumption 28) -/
  spriteYOffset : Nat
  /-- `SPRITE0_BG_INCLUDES_BACK_SPRITES` -/
  sprite0BgIncludesBackSprites : Bool
  /-- `OAM_DMA_CYCLES`, a count (assumption 28) -/
  oamDmaCycles : Nat
  /-- `SYNC_MODE` -/
  syncMode : SyncMode
  /-- `PPU_TICKS_PER_CPU_CYCLE`, a count (assumption 28) -/
  ppuTicksPerCpuCycle : Nat
  /-- `END_PC`, a launch parameter: `none` runs until shutdown (60_exceptions.md R369) -/
  endPc : Option Word
  deriving DecidableEq, Repr

/-- The defaults of 00_scope.md R8.  `mapperTable`: R8 gives mapper 0 no record and leaves every other id open (92 D24); that
no other id has a record here either is the model's choice (DESIGN CHOICE, assumption 26): a mapped cartridge takes its
table as an argument. -/
def Params.standard : Params where
  opcodes := OpcodeTable.standard
  stackEdge := .wrap
  decimalMode := false
  jmpIndPageBug := true
  brkPolicy := .standard
  nmiWired := true
  mapperTable := []
  cyclesPerScanline := 341
  vblankStartLine := 241
  lastLine := 261
  ppudataReadBuffered := true
  spriteYOffset := 1
  sprite0BgIncludesBackSprites := false
  oamDmaCycles := 513
  syncMode := .async
  ppuTicksPerCpuCycle := 3
  endPc := none

/-- What the host can do between agent steps (50_channel_protocol.md R273). -/
inductive HostAction where
  /-- set `buttons` to any value -/
  | setButtons (b : Byte)
  /-- set `shutdown` to true -/
  | setShutdown
  /-- request a CPU reset; before the CPU's first step it makes no second entry (DESIGN CHOICE, assumption 29) -/
  | requestReset
  /-- drive `IRQ_LINE` to a level -/
  | driveIrq (level : Bool)
  deriving DecidableEq, Repr, Inhabited

/-- Whose turn a step is (50_channel_protocol.md R261). -/
inductive Move where
  | cpu | ppu | apu
  | host (a : HostAction)
  deriving DecidableEq, Repr, Inhabited

/-- The agents whose steps are interleaved (50_channel_protocol.md R261). -/
inductive Agent where
  | cpu | ppu | apu | host
  deriving DecidableEq, Repr

/-- The agent whose turn a move is. -/
def Move.agent : Move → Agent
  | .cpu => .cpu
  | .ppu => .ppu
  | .apu => .apu
  | .host _ => .host

/-- The free byte of the n-th draw (00_scope.md R14, "any value"). -/
opaque Config.freeByte : Nat → Byte

/-- The free outcome of the race of 50_channel_protocol.md R268 at the n-th draw: true resumes the CPU with 0x00, false
leaves it in AwaitRead for ever. -/
opaque Config.peerGoneResumes : Nat → Bool

/-- The free turns between the (n-1)-th and the n-th due turn of an unscripted run (50_channel_protocol.md R261: any enabled
agent may take the next step). -/
opaque Config.burst : Nat → List Move

/-- The host's free action in its n-th due turn (50_channel_protocol.md R273). -/
opaque Config.hostAction : Nat → HostAction

/-- The n-th due turn: each of the four agents is due in every four (weak fairness, 50_channel_protocol.md R261). -/
def dueMove (n : Nat) : Move :=
  match n % 4 with
  | 0 => .cpu
  | 1 => .ppu
  | 2 => .apu
  | _ => .host (Config.hostAction n)

end Sys2Proof
end

