-- ==== Sys2Proof/WellFormed.lean ====
section
/-! DEFINITION. Well-formedness of the data the machine is built from: instructions for a table, opcode tables, mapper
records and parameters.  The operand fields of `Instr` are typed at their encoded widths, so an instruction can be
ill-formed only for a table that has no row for it. -/

namespace Sys2Proof

/-- An opcode table: at most one descriptor for a byte, of any handler in any mode (40_engine.md R141). -/
def OpcodeTable.wf (t : OpcodeTable) : Bool := decide ((t.map (·.opcode)).Nodup)

/-- The instruction has an encoding under the table. -/
def Instr.wf (t : OpcodeTable) (i : Instr) : Bool := (t.rowFor (.rule i.mnemonic) i.mode).isSome

/-- A record of the mapper table: its addresses lie in the cartridge window, its sizes are positive (20_memory.md R89), and
`src_len` is a u16 (10_state.md R41).  R89 bounds `src_start` and `src_len` each on its own and says nothing of their sum: a
source range that runs past 0xFFFF is admitted and ends there, since the comparison of R86 is one of numbers (DESIGN
CHOICE, assumption 27). -/
def MapperEntry.wf (e : MapperEntry) : Bool :=
  decide (0x8000 ≤ e.ctrlLo.toNat) && decide (0x8000 ≤ e.ctrlHi.toNat) && decide (0x8000 ≤ e.srcStart.toNat) &&
    decide (1 ≤ e.srcLen) && decide (e.srcLen ≤ 0xFFFF) && decide (1 ≤ e.bankSize)

/-- The clock parameters are legal (51_ppu.md R313). -/
def Params.clockWf (p : Params) : Bool :=
  decide (1 ≤ p.cyclesPerScanline) && decide (1 ≤ p.vblankStartLine) && decide (p.vblankStartLine ≤ p.lastLine)

/-- Mapper id 0 has no record, and every record is well-formed (20_memory.md R89). -/
def Params.mappersWf (p : Params) : Bool :=
  p.mapperTable.all fun e => decide (e.1 ≠ 0) && e.2.wf

/-- The parameters a core may be constructed with (51_ppu.md R313, 42_arith_logic.md R197, 20_memory.md R89,
40_engine.md R141). -/
def Params.wf (p : Params) : Bool :=
  p.opcodes.wf && !p.decimalMode && p.mappersWf && p.clockWf

end Sys2Proof
end

