-- ==== Sys2Proof/Machine/State.lean ====
section
/-! DEFINITION. The state of the machine as plain data, everything 10_state.md gives the four units, and its power-on
values.  Fields marked "model's own" are not state of the hardware; the assumption log names each. -/

namespace Sys2Proof.Machine

/-- A memory: (address, byte) pairs with strictly rising addresses and no byte equal to what an unlisted address reads
as (`Memory.blank`).  Read and written only through Machine/Memory.lean. -/
abbrev Memory := List Host.Cell

/-- The flag set P, each flag independently addressable (10_state.md R33): negative, overflow, reserved, break, decimal,
interrupt-disable, zero, carry. -/
structure Flags where
  n : Bool
  v : Bool
  r : Bool
  b : Bool
  d : Bool
  i : Bool
  z : Bool
  c : Bool
  deriving DecidableEq, Repr

/-- The CPU-PPU targets that carry one byte (50_channel_protocol.md R274).  `OAM_DMA`, whose value is 256 bytes and which
is never read, is `PpuWrite.oamDma`. -/
inductive PpuReg where
  | ctrl | mask | status | oamAddr | oamData | scroll | busAddr | busData | joypad
  deriving DecidableEq, Repr

/-- A write command to the PPU: target id and value (50_channel_protocol.md R274). -/
inductive PpuWrite where
  | reg (t : PpuReg) (v : Byte)
  | oamDma (buf : List Byte)
  deriving DecidableEq, Repr

/-- The CPU-APU targets (50_channel_protocol.md R275). -/
inductive ApuReg where
  | pulse1Env | pulse1Sweep | pulse1Lo | pulse1Hi | pulse2Env | pulse2Sweep | pulse2Lo | pulse2Hi
  | triCounter | triPeriodLo | triPeriodHi | noiseVolume | noisePeriod | statusEnable | frameCounter
  deriving DecidableEq, Repr

/-- A channel and the target a read names (10_state.md R38). -/
inductive ReadRequest where
  | ppu (t : PpuReg)
  | apu (t : ApuReg)
  deriving DecidableEq, Repr

/-- The FIFOs of the CPU-PPU pair, oldest first (10_state.md R42). -/
structure PpuChannel where
  writes  : List PpuWrite
  reads   : List PpuReg
  results : List Byte
  deriving DecidableEq, Repr

/-- The FIFOs of the CPU-APU pair, oldest first (10_state.md R42). -/
structure ApuChannel where
  writes  : List (ApuReg × Byte)
  reads   : List ApuReg
  results : List Byte
  deriving DecidableEq, Repr

/-- The recorded cause of a fatal fault: the byte and its address (60_exceptions.md R360). -/
inductive FatalCause where
  | unknownOpcode (b : Byte) (addr : Word)
  deriving DecidableEq, Repr

/-- The CPU's run state (10_state.md R38). -/
inductive RunState where
  | running
  | awaitRead (r : ReadRequest)
  | halted (cause : FatalCause)
  | exited
  deriving DecidableEq, Repr

/-- The remaining work of an instruction suspended in AwaitRead (10_state.md R38): nothing, the rest of a fetch with
the bytes fetched so far, or the execution of what was fetched. -/
inductive Work where
  | none
  | fetch (got : List Byte)
  | execute (opcode : Byte) (f : Fetched)
  deriving DecidableEq, Repr

/-- A handler program that waits on a channel read: the operand it was called with, the operation it goes on with, and its
temporaries (10_state.md R38). -/
structure Paused where
  operand : Resolved
  next    : Nat
  temps   : List Word
  deriving DecidableEq, Repr

/-- One bank mapping (20_memory.md R86; 10_state.md R41). -/
structure Mapping where
  srcStart   : Word
  srcLen     : Nat
  destOffset : Nat
  deriving DecidableEq, Repr

/-- The cartridge state of the CPU's context (10_state.md R41); `mappings` newest first. -/
structure Cartridge where
  prg      : Memory
  prgSize  : Nat
  mapperId : Byte
  mappings : List Mapping
  deriving DecidableEq, Repr

/-- The write latch: which byte of a two-byte write comes next (10_state.md R45). -/
inductive Latch where
  | first | second
  deriving DecidableEq, Repr

/-- Nametable mirroring (10_state.md R49). -/
inductive Mirroring where
  | horizontal | vertical
  deriving DecidableEq, Repr

/-- The stored status bits (10_state.md R48). -/
structure PpuStatus where
  vblank   : Bool
  spr0Hit  : Bool
  overflow : Bool
  deriving DecidableEq, Repr

/-- The PPU's state, its memories and the input subsystem (10_state.md R45 to R50). -/
structure Ppu where
  ctrl       : Byte
  mask       : Byte
  status     : PpuStatus
  oamAddr    : Byte
  latch      : Latch
  scrollX    : Byte
  scrollY    : Byte
  vaddr      : VAddr
  readBuffer : Byte
  scanline   : Nat
  cycle      : Nat
  hitRow     : Option Nat
  /-- the composed frame, pixel (x, y) at 256 * y + x -/
  frame      : Memory
  oam        : Memory
  vram       : Memory
  palette    : Memory
  chr        : Memory
  /-- the character memory is writable CHR-RAM -/
  chrRam     : Bool
  mirroring  : Mirroring
  strobe     : Bool
  index      : Fin 8
  buttons    : Byte
  deriving DecidableEq, Repr

/-- A frame handed to the host, with the mask byte (51_ppu.md R332). -/
structure FrameOut where
  frame : Memory
  mask  : Byte
  deriving DecidableEq, Repr

/-- The trace record of an instruction boundary (40_engine.md R161). -/
structure TraceTuple where
  a  : Byte
  x  : Byte
  y  : Byte
  sp : Byte
  pc : Word
  p  : Byte
  deriving DecidableEq, Repr

/-- The state of the whole core. -/
structure State where
  /-- accumulator (10_state.md R30) -/
  a : Byte
  /-- index register X (10_state.md R30) -/
  x : Byte
  /-- index register Y (10_state.md R30) -/
  y : Byte
  /-- stack pointer (10_state.md R32) -/
  sp : Byte
  /-- program counter (10_state.md R31) -/
  pc : Word
  /-- flags (10_state.md R33) -/
  p : Flags
  /-- adjustment flag of the instruction in progress (10_state.md R36) -/
  pageCrossed : Bool
  /-- adjustment flag of the instruction in progress (10_state.md R36) -/
  branchTaken : Bool
  /-- the extra cycles of the instruction in progress (40_engine.md R140, 20_memory.md R76) -/
  extra : Nat
  /-- CPU cycles charged so far (10_state.md R37) -/
  cycles : Nat
  /-- run state (10_state.md R38) -/
  run : RunState
  /-- remaining work of a suspended instruction (10_state.md R38) -/
  work : Work
  /-- model's own: bytes from outside RAM and cartridge that the suspended instruction has already read, oldest first;
  the resumed instruction takes them again in order -/
  feed : List Byte
  /-- model's own: the bytes from outside read so far in this run of the instruction -/
  log : List Byte
  /-- model's own: where the suspended instruction goes on, if it is a handler program's -/
  paused : Option Paused
  /-- in AwaitRead for ever (50_channel_protocol.md R268) -/
  stuck : Bool
  /-- a reset is requested (10_state.md R39), or the CPU's first step is yet to come (assumptions 6 and 29) -/
  resetRequest : Bool
  /-- the level the host drives on the IRQ line (10_state.md R39) -/
  irqLine : Bool
  /-- internal RAM (10_state.md R40) -/
  ram : Memory
  /-- cartridge (10_state.md R41) -/
  cart : Cartridge
  /-- CPU-PPU channel (10_state.md R42) -/
  ppuChan : PpuChannel
  /-- CPU-APU channel (10_state.md R42) -/
  apuChan : ApuChannel
  /-- `vblank_start` FIFO, each element the copied `nmi_enable` (10_state.md R42) -/
  vblankStart : List Bool
  /-- `vblank_end` FIFO: its elements carry nothing, so its length (10_state.md R42) -/
  vblankEnd : Nat
  /-- `frame_end` FIFO: its elements carry nothing, so its length (10_state.md R42) -/
  frameEnd : Nat
  /-- `alive[PPU]` (10_state.md R43) -/
  alivePpu : Bool
  /-- `alive[APU]` (10_state.md R43) -/
  aliveApu : Bool
  /-- the shutdown flag (10_state.md R44) -/
  shutdown : Bool
  /-- the PPU (10_state.md R45 to R50) -/
  ppu : Ppu
  /-- the APU latches, by CPU address minus 0x4000 (10_state.md R51) -/
  apuLatch : Memory
  /-- the frames handed to the host, oldest first (51_ppu.md R318) -/
  framesOut : List FrameOut
  /-- how many `frame_end` observations the host has received (50_channel_protocol.md R271) -/
  frameEndsSeen : Nat
  /-- the observation made outside the machine: the trace tuples of the boundaries that executed an instruction, oldest
  first (40_engine.md R161; 60_exceptions.md R355, R368, R369) -/
  trace : List TraceTuple
  /-- the parameters (10_state.md R52): no step changes them -/
  params : Params
  /-- model's own: how many free values have been taken -/
  draws : Nat
  /-- model's own: the moves already chosen, oldest first -/
  script : List Move
  /-- model's own: how many free moves have been taken -/
  moves : Nat
  deriving DecidableEq, Repr

/-- Why no step follows.  A fault is answered only when no agent can ever move again, so nothing the hardware still
does is cut off: both are safe. -/
inductive Fault where
  /-- Raised by `step` when the CPU has exited and both responders have returned: the run has ended by shutdown
  (60_exceptions.md R369).  Safe. -/
  | runEnded
  /-- Raised by `step` when the CPU is halted by a fatal fault and both responders have returned (60_exceptions.md R360,
  R369).  Safe. -/
  | halted (cause : FatalCause)
  deriving DecidableEq, Repr

/-- Why an instruction has no meaning. -/
inductive Refusal where
  /-- Raised by `exec` for an instruction that has no meaning yet: by none now.  Safe. -/
  | notModelled (mnemonic : String)
  /-- Raised by the fetch when three bytes do not complete an instruction.  No table makes it happen, since no mode has
  more than two operand bytes (30_encoding.md R120).  Safe. -/
  | tooLong
  deriving DecidableEq, Repr

/-- What the ROM container parser hands the core (20_memory.md R88); `chr` is `none` where the image has no character
banks (CHR-RAM). -/
structure Image where
  prg       : Memory
  prgSize   : Nat
  chr       : Option Memory
  mapperId  : Byte
  mirroring : Mirroring
  deriving DecidableEq, Repr

/-- The power-on contents that are draws or host input: `RAM_INIT`, `OAM_INIT`, `VRAM_INIT`, `PALETTE_INIT`,
`CHR_RAM_INIT` (00_scope.md R8) and the buttons (10_state.md R53). -/
structure PowerOn where
  ram     : Memory
  oam     : Memory
  vram    : Memory
  palette : Memory
  chrRam  : Memory
  buttons : Byte
  deriving DecidableEq, Repr

/-- Every piece of state at its power-on value (10_state.md R53), for any parameters, image and power-on contents.  The
reset entry, the CPU's first step, is pending (70_reset_and_hazards.md R380; DEDUCED, assumption 6).  As one flag holds that
entry and a host's request, a request made before the CPU's first step gives no second entry, which the spec leaves open
(R383, 60_exceptions.md R350): the model's choice (DESIGN CHOICE, assumption 29). -/
def State.powerOn (prm : Params) (img : Image) (d : PowerOn) : State where
  a := 0
  x := 0
  y := 0
  sp := 0
  pc := 0
  p := { n := false, v := false, r := false, b := true, d := false, i := false, z := false, c := false }
  pageCrossed := false
  branchTaken := false
  extra := 0
  cycles := 0
  run := .running
  work := .none
  feed := []
  log := []
  paused := none
  stuck := false
  resetRequest := true
  irqLine := false
  ram := d.ram
  cart := { prg := img.prg, prgSize := img.prgSize, mapperId := img.mapperId, mappings := [] }
  ppuChan := { writes := [], reads := [], results := [] }
  apuChan := { writes := [], reads := [], results := [] }
  vblankStart := []
  vblankEnd := 0
  frameEnd := 0
  alivePpu := true
  aliveApu := true
  shutdown := false
  ppu :=
    { ctrl := 0, mask := 0
      status := { vblank := false, spr0Hit := false, overflow := false }
      oamAddr := 0, latch := .first, scrollX := 0, scrollY := 0, vaddr := 0, readBuffer := 0
      scanline := prm.lastLine, cycle := prm.cyclesPerScanline - 1, hitRow := none, frame := []
      oam := d.oam, vram := d.vram, palette := d.palette
      -- the first 8192 bytes of the character image, or CHR-RAM where it has none (51_ppu.md R306)
      chr := (img.chr.getD d.chrRam).filter fun c => decide (c.1 < 8192)
      chrRam := img.chr.isNone, mirroring := img.mirroring
      strobe := false, index := 0, buttons := d.buttons }
  apuLatch := []
  framesOut := []
  frameEndsSeen := 0
  trace := []
  params := prm
  draws := 0
  script := []
  moves := 0

/-- An image with nothing listed: one program bank of 0x00, no character banks, mapper 0 (assumption 2). -/
def Image.blank : Image := { prg := [], prgSize := 16384, chr := none, mapperId := 0, mirroring := .horizontal }

/-- Power-on contents with nothing listed (assumption 1) and no button pressed (assumption 8). -/
def PowerOn.blank : PowerOn := { ram := [], oam := [], vram := [], palette := [], chrRam := [], buttons := 0 }

/-- The machine at power-on with the default parameters, before the reset entry. -/
def State.reset : State := State.powerOn Params.standard Image.blank PowerOn.blank

end Sys2Proof.Machine
end

