-- ==== Sys2Proof/Machine/Memory.lean ====
section
/-! DEFINITION. Reading and writing one byte of a memory, and the canonical form every write keeps. -/

namespace Sys2Proof.Machine

/-- What an address no cell lists reads as (assumption 1). -/
def Memory.blank : Byte := 0

/-- The byte at an address. -/
def Memory.read : Memory → Nat → Byte
  | [], _ => Memory.blank
  | c :: m, a => if c.1 = a then c.2 else Memory.read m a

/-- Insert or replace the cell of an address, keeping the addresses rising. -/
def Memory.put : Memory → Nat → Byte → Memory
  | [], a, v => [(a, v)]
  | c :: m, a, v => if a < c.1 then (a, v) :: c :: m else if c.1 = a then (a, v) :: m else c :: Memory.put m a v

/-- Remove the cell of an address. -/
def Memory.erase (m : Memory) (a : Nat) : Memory := m.filter fun c => decide (c.1 ≠ a)

/-- Write a byte: the value an unlisted address reads as removes the cell. -/
def Memory.write (m : Memory) (a : Nat) (v : Byte) : Memory :=
  if v = Memory.blank then m.erase a else m.put a v

/-- Write the bytes of a list at successive addresses taken modulo `size`, from `start` up. -/
def Memory.writeAll (m : Memory) (size start : Nat) : List Byte → Memory
  | [] => m
  | v :: vs => Memory.writeAll (m.write (start % size) v) size (start + 1) vs

/-- The canonical form of a memory of `size` bytes: rising addresses below `size`, no byte equal to the blank. -/
abbrev Memory.wf (size : Nat) (m : Memory) : Prop :=
  m.Pairwise (fun c d => c.1 < d.1) ∧ ∀ c ∈ m, c.1 < size ∧ c.2 ≠ Memory.blank

end Sys2Proof.Machine
end

