-- ==== Sys2Proof/Machine/Ppu.lean ====
section
/-! DEFINITION. The PPU's 14-bit memory and its register interface: what each command does to PPU state (51_ppu.md R290
to R307), and the input shift register behind the same channel (R340 to R342). -/

namespace Sys2Proof.Machine

/-- The cell a PPU address names (51_ppu.md R304). -/
inductive PpuCell where
  | chr (i : Nat)
  | vram (i : Nat)
  | palette (i : Nat)
  deriving DecidableEq, Repr

/-- `nt_index(a)` for a nametable address (51_ppu.md R305). -/
def ntIndex (mir : Mirroring) (a : Nat) : Nat :=
  let n := (a / 0x400) % 4
  let bank := match mir with
    | .horizontal => n / 2
    | .vertical => n % 2
  bank * 0x400 + a % 0x400

/-- `pal_index(a)` (51_ppu.md R307). -/
def palIndex (a : Nat) : Nat :=
  let i := a % 0x20
  if i = 0x10 ∨ i = 0x14 ∨ i = 0x18 ∨ i = 0x1C then i - 0x10 else i

/-- The PPU memory map: pattern, nametables, their mirror at 0x3000-0x3EFF, palette (51_ppu.md R304). -/
def ppuCell (mir : Mirroring) (a : VAddr) : PpuCell :=
  let n := a.toNat
  if n < 0x2000 then .chr n
  else if n < 0x3000 then .vram (ntIndex mir n)
  else if n < 0x3F00 then .vram (ntIndex mir (n - 0x1000))
  else .palette (palIndex n)

/-- `ppu_read(a)` (51_ppu.md R304). -/
def Ppu.read (p : Ppu) (a : VAddr) : Byte :=
  match ppuCell p.mirroring a with
  | .chr i => p.chr.read i
  | .vram i => p.vram.read i
  | .palette i => p.palette.read i

/-- `ppu_write(a, v)`: a write to CHR-ROM has no effect (51_ppu.md R304, R306). -/
def Ppu.write (p : Ppu) (a : VAddr) (v : Byte) : Ppu :=
  match ppuCell p.mirroring a with
  | .chr i => if p.chrRam then { p with chr := p.chr.write i v } else p
  | .vram i => { p with vram := p.vram.write i v }
  | .palette i => { p with palette := p.palette.write i v }

/-- `vaddr` after a data access: +1 or +32, modulo 0x4000 (51_ppu.md R299, R302; `vinc` is bit 2 of `ctrl`,
10_state.md R46). -/
def Ppu.nextVaddr (p : Ppu) : VAddr := p.vaddr + (if p.ctrl.getLsbD 2 then 32 else 1)

/-- `SCROLL` write (51_ppu.md R296). -/
def Ppu.writeScroll (p : Ppu) (v : Byte) : Ppu :=
  match p.latch with
  | .first => { p with scrollX := v, latch := .second }
  | .second => { p with scrollY := v, latch := .first }

/-- `BUS_ADDR` write, high byte first, modulo 0x40 (51_ppu.md R297). -/
def Ppu.writeBusAddr (p : Ppu) (v : Byte) : Ppu :=
  match p.latch with
  | .first => { p with vaddr := ((v &&& 0x3F).setWidth 14 <<< 8) ||| (p.vaddr &&& 0x00FF), latch := .second }
  | .second => { p with vaddr := (p.vaddr &&& 0x3F00) ||| v.setWidth 14, latch := .first }

/-- `BUS_DATA` write (51_ppu.md R299). -/
def Ppu.writeBusData (p : Ppu) (v : Byte) : Ppu := { p.write p.vaddr v with vaddr := p.nextVaddr }

/-- `OAM_DMA`: the bytes go to OAM from `oam_addr` up, modulo 256; `oam_addr` is unchanged (51_ppu.md R303). -/
def Ppu.writeOamDma (p : Ppu) (buf : List Byte) : Ppu := { p with oam := p.oam.writeAll 256 p.oamAddr.toNat buf }

/-- `JOYPAD` write (51_ppu.md R341). -/
def Ppu.writeJoypad (p : Ppu) (v : Byte) : Ppu := { p with strobe := v.getLsbD 0, index := 0 }

/-- `apply_write_PPU` (51_ppu.md R291 to R299, R303, R341). -/
def Ppu.applyWrite (p : Ppu) : PpuWrite → Ppu
  | .reg .ctrl v => { p with ctrl := v }
  | .reg .mask v => { p with mask := v }
  | .reg .status _ => p
  | .reg .oamAddr v => { p with oamAddr := v }
  | .reg .oamData v => { p with oam := p.oam.write p.oamAddr.toNat v, oamAddr := p.oamAddr + 1 }
  | .reg .scroll v => p.writeScroll v
  | .reg .busAddr v => p.writeBusAddr v
  | .reg .busData v => p.writeBusData v
  | .reg .joypad v => p.writeJoypad v
  | .oamDma buf => p.writeOamDma buf

/-- The `STATUS` byte, bits 4:0 from the draw (51_ppu.md R300). -/
def Ppu.statusByte (p : Ppu) (draw : Byte) : Byte :=
  (BitVec.ofBool p.status.vblank).setWidth 8 <<< 7 ||| (BitVec.ofBool p.status.spr0Hit).setWidth 8 <<< 6 |||
    (BitVec.ofBool p.status.overflow).setWidth 8 <<< 5 ||| (draw &&& 0x1F)

/-- `STATUS` read (51_ppu.md R300). -/
def Ppu.readStatus (p : Ppu) (draw : Byte) : Byte × Ppu :=
  (p.statusByte draw, { p with status := { p.status with vblank := false }, latch := .first })

/-- `BUS_DATA` read (51_ppu.md R302). -/
def Ppu.readBusData (buffered : Bool) (p : Ppu) : Byte × Ppu :=
  let a := p.vaddr
  let v := p.read a
  if buffered then
    if a.toNat < 0x3F00 then (p.readBuffer, { p with readBuffer := v, vaddr := p.nextVaddr })
    else (v, { p with readBuffer := p.read (a - 0x1000), vaddr := p.nextVaddr })
  else (v, { p with vaddr := p.nextVaddr })

/-- `JOYPAD` read (51_ppu.md R342). -/
def Ppu.readJoypad (p : Ppu) : Byte × Ppu :=
  if p.strobe then (p.buttons &&& 1, p)
  else ((p.buttons >>> p.index.val) &&& 1, { p with index := p.index + 1 })

/-- `apply_read_PPU`: the reply and the PPU after it, given the draw a target without a value of its own replies with
(51_ppu.md R291, R298, R300 to R302, R342). -/
def Ppu.applyRead (buffered : Bool) (draw : Byte) (p : Ppu) : PpuReg → Byte × Ppu
  | .status => p.readStatus draw
  | .oamData => (p.oam.read p.oamAddr.toNat, p)
  | .busData => p.readBusData buffered
  | .joypad => p.readJoypad
  | .ctrl | .mask | .oamAddr | .scroll | .busAddr => (draw, p)

/-- Whether the reply of a target holds a draw (51_ppu.md R298, R300). -/
def PpuReg.draws : PpuReg → Bool
  | .ctrl | .mask | .oamAddr | .scroll | .busAddr | .status => true
  | .oamData | .busData | .joypad => false

end Sys2Proof.Machine
end

