-- ==== Sys2Proof/Machine/Render.lean ====
section
/-! DEFINITION. Sprites, the background layer, the sprite-zero-hit detector and the composition of a frame (51_ppu.md
R320 to R332).  Coordinates are natural numbers; the detector's grids are functions of a cell, as they live for one
frame start only (R329). -/

namespace Sys2Proof.Machine

/-- A sprite descriptor, computed on demand from OAM (51_ppu.md R320). -/
structure Sprite where
  y          : Nat
  tile       : Nat
  palette    : Nat
  background : Bool
  flipH      : Bool
  flipV      : Bool
  x          : Nat
  isZero     : Bool
  deriving DecidableEq, Repr

/-- The descriptor of OAM record `i` (51_ppu.md R320). -/
def Ppu.sprite (yOffset : Nat) (p : Ppu) (i : Nat) : Sprite :=
  let attr := p.oam.read (4 * i + 2)
  { y := (p.oam.read (4 * i)).toNat + yOffset
    tile := (p.oam.read (4 * i + 1)).toNat
    palette := attr.toNat % 4
    background := attr.getLsbD 5
    flipH := attr.getLsbD 6
    flipV := attr.getLsbD 7
    x := (p.oam.read (4 * i + 3)).toNat
    isZero := i == 0 }

/-- The sprite height, from `ctrl.spr_size` (10_state.md R46, 51_ppu.md R321). -/
def Ppu.spriteHeight (p : Ppu) : Nat := if p.ctrl.getLsbD 5 then 16 else 8

/-- The colour 0..3 of a tile's pixel at row `r`, column `c`; opaque when not 0 (51_ppu.md R323). -/
def Ppu.patternColour (p : Ppu) (base t r c : Nat) : Nat :=
  let lo := p.read (BitVec.ofNat 14 (base + 16 * t + r))
  let hi := p.read (BitVec.ofNat 14 (base + 16 * t + r + 8))
  2 * (hi.getLsbD (7 - c)).toNat + (lo.getLsbD (7 - c)).toNat

/-- The pattern table of a sprite (51_ppu.md R322): by `ctrl.spr_table` when 8 tall, by tile bit 0 when 16 tall. -/
def Ppu.spriteTable (p : Ppu) (tile : Nat) : Nat :=
  if p.ctrl.getLsbD 5 then (if tile % 2 = 1 then 0x1000 else 0)
  else if p.ctrl.getLsbD 3 then 0x1000 else 0

/-- The tile of a sprite's row (51_ppu.md R322). -/
def Ppu.spriteTile (p : Ppu) (tile row : Nat) : Nat :=
  if p.ctrl.getLsbD 5 then (if row < 8 then tile - tile % 2 else tile - tile % 2 + 1) else tile

/-- The pattern row a sprite shows at its own row `sy` (51_ppu.md R324). -/
def Ppu.spriteRow (p : Ppu) (s : Sprite) (sy : Nat) : Nat := if s.flipV then p.spriteHeight - 1 - sy else sy

/-- The pattern column a sprite shows at its own column `sx` (51_ppu.md R324). -/
def spriteColumn (s : Sprite) (sx : Nat) : Nat := if s.flipH then 7 - sx else sx

/-- The colour of a sprite at screen (x, y), 0 where it does not cover the pixel or is transparent (51_ppu.md R324). -/
def Ppu.spriteColour (p : Ppu) (s : Sprite) (x y : Nat) : Nat :=
  if s.x ≤ x ∧ x < s.x + 8 ∧ s.y ≤ y ∧ y < s.y + p.spriteHeight then
    let row := p.spriteRow s (y - s.y)
    p.patternColour (p.spriteTable s.tile) (p.spriteTile s.tile row) (row % 8) (spriteColumn s (x - s.x))
  else 0

/-- `extract(group, height)`: the descriptors of a priority group in OAM order; `background` chooses the group
(51_ppu.md R321). -/
def Ppu.extract (yOffset : Nat) (p : Ppu) (background : Bool) : List Sprite :=
  ((List.range 64).map (p.sprite yOffset)).filter fun s => s.background == background

/-- The background layer's pixel: its two-bit palette and its colour, opaque when the colour is not 0
(51_ppu.md R330). -/
def Ppu.backgroundPixel (p : Ppu) (x y : Nat) : Nat × Nat :=
  let nt0 := p.ctrl.toNat % 4
  let bx := (x + p.scrollX.toNat + 256 * (nt0 % 2)) % 512
  let by_ := (y + p.scrollY.toNat + 240 * (nt0 / 2)) % 480
  let nt := bx / 256 + 2 * (by_ / 240)
  let tx := bx % 256 / 8
  let ty := by_ % 240 / 8
  let tile := p.read (BitVec.ofNat 14 (0x2000 + 0x400 * nt + 32 * ty + tx))
  let at_ := p.read (BitVec.ofNat 14 (0x2000 + 0x400 * nt + 0x3C0 + 8 * (ty / 4) + tx / 4))
  let pal := at_.toNat / 2 ^ (4 * (ty % 4 / 2) + 2 * (tx % 4 / 2)) % 4
  let base := if p.ctrl.getLsbD 4 then 0x1000 else 0
  (pal, p.patternColour base tile.toNat (by_ % 8) (bx % 8))

/-- A border cell of the padded grids (51_ppu.md R325). -/
def gridBorder (gx gy : Nat) : Bool := decide (gx < 8 ∨ 264 ≤ gx ∨ gy < 8 ∨ 248 ≤ gy)

/-- `G_bg` (51_ppu.md R325, R326). -/
def Ppu.gridBackground (prm : Params) (p : Ppu) (gx gy : Nat) : Bool :=
  gridBorder gx gy || (p.backgroundPixel (gx - 8) (gy - 8)).2 != 0 ||
    (prm.sprite0BgIncludesBackSprites &&
      (List.range 63).any fun k =>
        let s := p.sprite prm.spriteYOffset (k + 1)
        s.background && p.spriteColour s (gx - 8) (gy - 8) != 0)

/-- `G_spr`: the opaque pixels of record 0 that fall inside the grid (51_ppu.md R325, R327). -/
def Ppu.gridSprite (prm : Params) (p : Ppu) (gx gy : Nat) : Bool :=
  gridBorder gx gy ||
    (decide (gx < 272 ∧ gy < 256) && p.spriteColour (p.sprite prm.spriteYOffset 0) (gx - 8) (gy - 8) != 0)

/-- `detect()`: the first interior row with a cell set in both grids (51_ppu.md R328).  Only the pixels of record 0 can
set an interior cell of `G_spr` (R327), so its rows are searched from the top, each over its eight columns. -/
def Ppu.detect (prm : Params) (p : Ppu) : Option Nat :=
  let s := p.sprite prm.spriteYOffset 0
  ((List.range p.spriteHeight).find? fun sy =>
    (List.range 8).any fun sx =>
      !gridBorder (s.x + sx + 8) (s.y + sy + 8) && p.gridSprite prm (s.x + sx + 8) (s.y + sy + 8) &&
        p.gridBackground prm (s.x + sx + 8) (s.y + sy + 8)).map fun sy => s.y + sy

/-- Whether the mask shows the background in a column (51_ppu.md R331). -/
def Ppu.showBackground (p : Ppu) (x : Nat) : Bool := p.mask.getLsbD 3 && (decide (8 ≤ x) || p.mask.getLsbD 1)

/-- Whether the mask shows sprites in a column (51_ppu.md R331). -/
def Ppu.showSprites (p : Ppu) (x : Nat) : Bool := p.mask.getLsbD 4 && (decide (8 ≤ x) || p.mask.getLsbD 2)

/-- The palette entry of the lowest-index sprite of a group with an opaque visible pixel at (x, y) (51_ppu.md R331). -/
def Ppu.spriteEntry (prm : Params) (p : Ppu) (background : Bool) (x y : Nat) : Option Nat :=
  if p.showSprites x then
    ((p.extract prm.spriteYOffset background).find? fun s => p.spriteColour s x y != 0).map fun s =>
      0x10 + 4 * s.palette + p.spriteColour s x y
  else none

/-- The palette entry of the background layer where it is opaque and visible (51_ppu.md R330, R331). -/
def Ppu.backgroundEntry (p : Ppu) (x y : Nat) : Option Nat :=
  let b := p.backgroundPixel x y
  if p.showBackground x && b.2 != 0 then some (4 * b.1 + b.2) else none

/-- The palette entry of a composed pixel: foreground sprites over the background layer over background-priority sprites
over the backdrop (51_ppu.md R331). -/
def Ppu.pixelEntry (prm : Params) (p : Ppu) (x y : Nat) : Nat :=
  match p.spriteEntry prm false x y with
  | some e => e
  | none =>
    match p.backgroundEntry x y with
    | some e => e
    | none => (p.spriteEntry prm true x y).getD 0

/-- The palette byte of a composed pixel (51_ppu.md R331). -/
def Ppu.pixel (prm : Params) (p : Ppu) (x y : Nat) : Byte :=
  p.read (BitVec.ofNat 14 (0x3F00 + p.pixelEntry prm x y))

/-- `compose()`: the 256 x 240 frame, pixel (x, y) at 256 * y + x, in canonical form (51_ppu.md R331). -/
def Ppu.compose (prm : Params) (p : Ppu) : Memory :=
  (List.range 61440).filterMap fun k =>
    let v := p.pixel prm (k % 256) (k / 256)
    if v = Memory.blank then none else some (k, v)

end Sys2Proof.Machine
end

