-- ==== Sys2Proof/Machine/Clock.lean ====
section
/-! DEFINITION. The scanline clock and the frame events it raises (51_ppu.md R310 to R319). -/

namespace Sys2Proof.Machine

/-- Frame start, the boundary into scanline 0 (51_ppu.md R317): the flags are cleared, then the detector and the composed
frame are taken from the PPU as it stands at this step. -/
def frameStart (s : State) : State :=
  let p := { s.ppu with status := { s.ppu.status with vblank := false, spr0Hit := false } }
  { s with
    ppu := { p with hitRow := p.detect s.params, frame := p.compose s.params }
    vblankEnd := s.vblankEnd + 1 }

/-- Hit row (51_ppu.md R319). -/
def spriteZeroHit (s : State) : State :=
  { s with ppu := { s.ppu with status := { s.ppu.status with spr0Hit := true } } }

/-- Vblank start (51_ppu.md R318): the frame and the mask go to the host, `vblank_start` carries a copy of
`ctrl.nmi_enable`, then `frame_end`. -/
def vblankStart (s : State) : State :=
  { s with
    ppu := { s.ppu with status := { s.ppu.status with vblank := true } }
    framesOut := s.framesOut ++ [{ frame := s.ppu.frame, mask := s.ppu.mask }]
    vblankStart := s.vblankStart ++ [s.ppu.ctrl.getLsbD 7]
    frameEnd := s.frameEnd + 1 }

/-- `on_scanline(n)` (51_ppu.md R312). -/
def onScanline (n : Nat) (s : State) : State :=
  let s := if n = 0 then frameStart s else s
  let s := if s.ppu.hitRow = some n then spriteZeroHit s else s
  if n = s.params.vblankStartLine then vblankStart s else s

/-- The scanline after `n` (51_ppu.md R310). -/
def nextScanline (prm : Params) (n : Nat) : Nat := if n = prm.lastLine then 0 else n + 1

/-- `advance_clock_PPU()` (51_ppu.md R310). -/
def advanceClock (s : State) : State :=
  if s.ppu.cycle + 1 = s.params.cyclesPerScanline then
    let n := nextScanline s.params s.ppu.scanline
    onScanline n { s with ppu := { s.ppu with cycle := 0, scanline := n } }
  else { s with ppu := { s.ppu with cycle := s.ppu.cycle + 1 } }

/-- `n` clock advances (50_channel_protocol.md R272). -/
def advanceClocks : Nat → State → State
  | 0, s => s
  | n + 1, s => advanceClocks n (advanceClock s)

end Sys2Proof.Machine
end

