-- ==== Sys2Proof/Machine/Flags.lean ====
section
/-! DEFINITION. The packed flags byte and every flag computation of the instruction rules, as functions of flags and
operands (10_state.md R33, R34; 40_engine.md R159; 42_arith_logic.md R196 to R218). -/

namespace Sys2Proof.Machine

/-- A flag as the byte 0 or 1. -/
def flagBit (f : Bool) : Byte := (BitVec.ofBool f).setWidth 8

/-- `to_byte(P)` (10_state.md R34). -/
def Flags.toByte (p : Flags) : Byte :=
  flagBit p.n <<< 7 ||| flagBit p.v <<< 6 ||| flagBit p.r <<< 5 ||| flagBit p.b <<< 4 |||
    flagBit p.d <<< 3 ||| flagBit p.i <<< 2 ||| flagBit p.z <<< 1 ||| flagBit p.c

/-- `from_byte(b)` (10_state.md R34). -/
def Flags.ofByte (b : Byte) : Flags where
  n := b.getLsbD 7
  v := b.getLsbD 6
  r := b.getLsbD 5
  b := b.getLsbD 4
  d := b.getLsbD 3
  i := b.getLsbD 2
  z := b.getLsbD 1
  c := b.getLsbD 0

/-- The flags after `set_NZ(v)` (40_engine.md R159). -/
def Flags.setNZ (p : Flags) (v : Byte) : Flags := { p with n := v.getLsbD 7, z := v == 0 }

/-- The integer sum of an addition with carry, 0..511 (42_arith_logic.md R197). -/
def addSum (a m : Byte) (c : Bool) : Nat := a.toNat + m.toNat + c.toNat

/-- The byte an addition with carry writes to A (42_arith_logic.md R197). -/
def addResult (a m : Byte) (c : Bool) : Byte := BitVec.ofNat 8 (addSum a m c)

/-- The flags after an addition with carry (42_arith_logic.md R197): C from the integer sum, V when operands of equal
sign give a result of the other sign, N and Z from the result. -/
def Flags.add (p : Flags) (a m : Byte) : Flags :=
  let r := addResult a m p.c
  { p with
    c := decide (addSum a m p.c > 0xFF)
    v := ((a ^^^ r) &&& (m ^^^ r) &&& 0x80) != 0
    n := r.getLsbD 7
    z := r == 0 }

/-- The flags after `compare(r, m)` (42_arith_logic.md R198). -/
def Flags.compare (p : Flags) (r m : Byte) : Flags :=
  { p with c := decide (m.toNat ≤ r.toNat), z := r == m, n := (r - m).getLsbD 7 }

/-- The flags after BIT (42_arith_logic.md R205). -/
def Flags.bitTest (p : Flags) (a m : Byte) : Flags :=
  { p with z := (a &&& m) == 0, n := m.getLsbD 7, v := m.getLsbD 6 }

/-- ASL's result (42_arith_logic.md R215). -/
def shiftAsl (v : Byte) : Byte := v <<< 1

/-- LSR's result (42_arith_logic.md R216). -/
def shiftLsr (v : Byte) : Byte := v >>> 1

/-- ROL's result (42_arith_logic.md R217). -/
def shiftRol (v : Byte) (c : Bool) : Byte := (v <<< 1) ||| flagBit c

/-- ROR's result (42_arith_logic.md R218). -/
def shiftRor (v : Byte) (c : Bool) : Byte := (v >>> 1) ||| (flagBit c <<< 7)

/-- The flags after a shift or rotate with result `r` and `out` the bit shifted out (42_arith_logic.md R215 to R218). -/
def Flags.shift (p : Flags) (out : Bool) (r : Byte) : Flags := { p with c := out, n := r.getLsbD 7, z := r == 0 }

end Sys2Proof.Machine
end

