-- ==== Sys2Proof/Machine/Ops.lean ====
section
/-! DEFINITION. The named operations every instruction and entry is made of: draws, channels, the bus and its windows,
the cartridge, the stack, taking an interrupt and returning from one (20_memory.md; 40_engine.md R155 to R158;
50_channel_protocol.md R262, R263, R268, R272, R276; 60_exceptions.md R350 to R354). -/

namespace Sys2Proof.Machine

/-! ## Computations that may wait for a reply -/

/-- The result of a part of an instruction: a value and the state after it, or a channel read that has no reply yet. -/
inductive Res (α : Type) where
  | done (a : α) (s : State)
  | wait (r : ReadRequest) (s : State)

/-- Go on with the value, or wait. -/
def Res.bind {α β : Type} (r : Res α) (f : α → State → Res β) : Res β :=
  match r with
  | .done a s => f a s
  | .wait q s => .wait q s

/-! ## The responders' side effects -/

/-- The latch of an APU target: its CPU address minus 0x4000 (50_channel_protocol.md R275). -/
def ApuReg.offset : ApuReg → Nat
  | .pulse1Env => 0x00
  | .pulse1Sweep => 0x01
  | .pulse1Lo => 0x02
  | .pulse1Hi => 0x03
  | .pulse2Env => 0x04
  | .pulse2Sweep => 0x05
  | .pulse2Lo => 0x06
  | .pulse2Hi => 0x07
  | .triCounter => 0x08
  | .triPeriodLo => 0x0A
  | .triPeriodHi => 0x0B
  | .noiseVolume => 0x0C
  | .noisePeriod => 0x0E
  | .statusEnable => 0x15
  | .frameCounter => 0x17

/-- `apply_write_APU` (50_channel_protocol.md R276). -/
def applyApuWrite (w : ApuReg × Byte) (s : State) : State :=
  { s with apuLatch := s.apuLatch.write w.1.offset w.2 }

/-- `apply_read_APU`: a draw for every target (50_channel_protocol.md R276). -/
def answerApu (s : State) : Byte × State := (Config.freeByte s.draws, { s with draws := s.draws + 1 })

/-- `apply_write_PPU` on the PPU of the state (51_ppu.md R291). -/
def applyPpuWrite (w : PpuWrite) (s : State) : State := { s with ppu := s.ppu.applyWrite w }

/-- `apply_read_PPU` on the PPU of the state (51_ppu.md R291). -/
def answerPpu (t : PpuReg) (s : State) : Byte × State :=
  let r := s.ppu.applyRead s.params.ppudataReadBuffered (Config.freeByte s.draws) t
  (r.1, { s with ppu := r.2, draws := if t.draws then s.draws + 1 else s.draws })

/-- The PPU applies every queued write (50_channel_protocol.md R272). -/
def drainPpu (s : State) : State :=
  { s with ppu := s.ppuChan.writes.foldl Ppu.applyWrite s.ppu, ppuChan := { s.ppuChan with writes := [] } }

/-- The APU applies every queued write (50_channel_protocol.md R272). -/
def drainApu (s : State) : State :=
  { s with
    apuLatch := s.apuChan.writes.foldl (fun m w => m.write w.1.offset w.2) s.apuLatch
    apuChan := { s.apuChan with writes := [] } }

/-! ## Channels -/

/-- `send_write(PPU, …)`: enqueued in `async`, applied at once in `lockstep`, swallowed when the PPU has gone
(50_channel_protocol.md R262, R268, R272). -/
def sendPpu (w : PpuWrite) (s : State) : State :=
  if s.alivePpu then
    match s.params.syncMode with
    | .async => { s with ppuChan := { s.ppuChan with writes := s.ppuChan.writes ++ [w] } }
    | .lockstep => applyPpuWrite w (drainPpu s)
  else s

/-- `send_write(APU, …)` (50_channel_protocol.md R262, R268, R272). -/
def sendApu (t : ApuReg) (v : Byte) (s : State) : State :=
  if s.aliveApu then
    match s.params.syncMode with
    | .async => { s with apuChan := { s.apuChan with writes := s.apuChan.writes ++ [(t, v)] } }
    | .lockstep => applyApuWrite (t, v) (drainApu s)
  else s

/-- `send_read(…)`: a wait in `async`; in `lockstep` the reply at once, after the queued writes, and 0x00 from a peer
that has gone (50_channel_protocol.md R263, R268, R272). -/
def sendRead (r : ReadRequest) (s : State) : Res Byte :=
  match s.params.syncMode with
  | .async => .wait r s
  | .lockstep =>
    match r with
    | .ppu t =>
      if s.alivePpu then
        let q := answerPpu t (drainPpu s)
        .done q.1 q.2
      else .done 0 s
    | .apu _ =>
      if s.aliveApu then
        let q := answerApu (drainApu s)
        .done q.1 q.2
      else .done 0 s

/-- A byte from outside RAM and cartridge: one the suspended instruction has already read, or a fresh one; it is
recorded either way (10_state.md R38). -/
def takeExternal (fresh : State → Res Byte) (s : State) : Res Byte :=
  match s.feed with
  | v :: rest => .done v { s with feed := rest, log := s.log ++ [v] }
  | [] => (fresh s).bind fun v t => .done v { t with log := t.log ++ [v] }

/-- Enter AwaitRead: the request joins its FIFO (unless the peer has gone) and the CPU blocks
(50_channel_protocol.md R263, R268). -/
def suspend (r : ReadRequest) (s : State) : State :=
  match r with
  | .ppu t =>
    { s with
      run := .awaitRead r
      ppuChan := { s.ppuChan with reads := if s.alivePpu then s.ppuChan.reads ++ [t] else s.ppuChan.reads } }
  | .apu t =>
    { s with
      run := .awaitRead r
      apuChan := { s.apuChan with reads := if s.aliveApu then s.apuChan.reads ++ [t] else s.apuChan.reads } }

/-! ## Cartridge -/

/-- The record of a mapper id; id 0 has none (20_memory.md R89). -/
def mapperEntry (prm : Params) (id : Byte) : Option MapperEntry :=
  if id = 0 then none else (prm.mapperTable.find? fun e => e.1 == id).map (·.2)

/-- Whether a mapping's source range holds an address (20_memory.md R86). -/
def Mapping.covers (m : Mapping) (a : Word) : Bool :=
  decide (m.srcStart.toNat ≤ a.toNat ∧ a.toNat < m.srcStart.toNat + m.srcLen)

/-- The image offset of a cartridge address: through the newest mapping that holds it, else identity, modulo the image
size (20_memory.md R86, R90). -/
def Cartridge.offset (c : Cartridge) (a : Word) : Nat :=
  match c.mappings.find? fun m => m.covers a with
  | some m => (m.destOffset + (a.toNat - m.srcStart.toNat)) % c.prgSize
  | none => (a.toNat - 0x8000) % c.prgSize

/-- A cartridge read (20_memory.md R86). -/
def Cartridge.read (c : Cartridge) (a : Word) : Byte := c.prg.read (c.offset a)

/-- The mapping a control write inserts (20_memory.md R87). -/
def bankMapping (e : MapperEntry) (prgSize : Nat) (v : Byte) : Mapping :=
  { srcStart := e.srcStart, srcLen := e.srcLen
    destOffset := v.toNat % max 1 (prgSize / e.bankSize) * e.bankSize }

/-- A cartridge write (20_memory.md R87). -/
def Cartridge.write (prm : Params) (c : Cartridge) (a : Word) (v : Byte) : Cartridge :=
  match mapperEntry prm c.mapperId with
  | none => c
  | some e =>
    if e.ctrlLo.toNat ≤ a.toNat ∧ a.toNat ≤ e.ctrlHi.toNat then
      { c with mappings := bankMapping e c.prgSize v :: c.mappings }
    else c

/-! ## The bus -/

/-- The four windows (20_memory.md R72). -/
inductive Window where
  | ram | ppu | apuIo | cartridge
  deriving DecidableEq, Repr

/-- `window(addr)` (20_memory.md R72). -/
def window (a : Word) : Window :=
  if a.toNat < 0x2000 then .ram
  else if a.toNat < 0x4000 then .ppu
  else if a.toNat < 0x8000 then .apuIo
  else .cartridge

/-- What one bus access reaches. -/
inductive BusTarget where
  | ram (i : Nat)
  | ppu (t : PpuReg)
  | apu (t : ApuReg)
  | oamDma
  | cartridge
  | noTarget
  deriving DecidableEq, Repr

/-- The PPU target of an address of its window, `a & 7` (20_memory.md R74). -/
def ppuRegAt (a : Word) : PpuReg :=
  match a.toNat % 8 with
  | 0 => .ctrl
  | 1 => .mask
  | 2 => .status
  | 3 => .oamAddr
  | 4 => .oamData
  | 5 => .scroll
  | 6 => .busAddr
  | _ => .busData

/-- The APU targets that both read and write reach (20_memory.md R75, 50_channel_protocol.md R275). -/
def apuMap : List (Word × ApuReg) :=
  [(0x4000, .pulse1Env), (0x4001, .pulse1Sweep), (0x4002, .pulse1Lo), (0x4003, .pulse1Hi),
   (0x4004, .pulse2Env), (0x4005, .pulse2Sweep), (0x4006, .pulse2Lo), (0x4007, .pulse2Hi),
   (0x4008, .triCounter), (0x400A, .triPeriodLo), (0x400B, .triPeriodHi),
   (0x400C, .noiseVolume), (0x400E, .noisePeriod), (0x4015, .statusEnable)]

/-- What a read of an APU/IO address reaches (20_memory.md R75). -/
def ioReadTarget (a : Word) : BusTarget :=
  if a = 0x4016 then .ppu .joypad
  else
    match apuMap.lookup a with
    | some t => .apu t
    | none => .noTarget

/-- What a write of an APU/IO address reaches (20_memory.md R75, R76). -/
def ioWriteTarget (a : Word) : BusTarget :=
  if a = 0x4016 then .ppu .joypad
  else if a = 0x4014 then .oamDma
  else if a = 0x4017 then .apu .frameCounter
  else
    match apuMap.lookup a with
    | some t => .apu t
    | none => .noTarget

/-- What a bus read reaches (20_memory.md R72 to R75). -/
def readTarget (a : Word) : BusTarget :=
  match window a with
  | .ram => .ram (a.toNat % ramSize)
  | .ppu => .ppu (ppuRegAt a)
  | .apuIo => ioReadTarget a
  | .cartridge => .cartridge

/-- What a bus write reaches (20_memory.md R72 to R76). -/
def writeTarget (a : Word) : BusTarget :=
  match window a with
  | .ram => .ram (a.toNat % ramSize)
  | .ppu => .ppu (ppuRegAt a)
  | .apuIo => ioWriteTarget a
  | .cartridge => .cartridge

/-- A read of an address with no target: a draw (20_memory.md R77). -/
def drawRead (s : State) : Res Byte := .done (Config.freeByte s.draws) { s with draws := s.draws + 1 }

/-- `MemRead(a, 1)` (00_scope.md R12; 20_memory.md R72 to R77, R86). -/
def busRead (a : Word) (s : State) : Res Byte :=
  match readTarget a with
  | .ram i => .done (s.ram.read i) s
  | .cartridge => .done (s.cart.read a) s
  | .ppu t => takeExternal (sendRead (.ppu t)) s
  | .apu t => takeExternal (sendRead (.apu t)) s
  | .oamDma | .noTarget => takeExternal drawRead s

/-- The last `n` of the 256 reads of an OAM bulk transfer, in order (20_memory.md R76). -/
def readPage (page : Byte) : Nat → State → Res (List Byte)
  | 0, s => .done [] s
  | n + 1, s =>
    (busRead (wordOf (BitVec.ofNat 8 (255 - n)) page) s).bind fun v t =>
      (readPage page n t).bind fun vs u => .done (v :: vs) u

/-- The OAM bulk transfer: 256 bus reads, one command, the extra cycles (20_memory.md R76). -/
def oamTransfer (page : Byte) (s : State) : Res Unit :=
  (readPage page 256 s).bind fun buf t =>
    .done () (sendPpu (.oamDma buf) { t with extra := t.params.oamDmaCycles })

/-- `MemWrite(a, 1, v)` (00_scope.md R12; 20_memory.md R72 to R77, R87). -/
def busWrite (a : Word) (v : Byte) (s : State) : Res Unit :=
  match writeTarget a with
  | .ram i => .done () { s with ram := s.ram.write i v }
  | .cartridge => .done () { s with cart := s.cart.write s.params a v }
  | .ppu t => .done () (sendPpu (.reg t v) s)
  | .apu t => .done () (sendApu t v s)
  | .oamDma => oamTransfer v s
  | .noTarget => .done () s

/-! ## Registers and the stack -/

/-- The state with another program counter. -/
def State.setPc (w : Word) (s : State) : State := { s with pc := w }

/-- The state with another flag set. -/
def State.setP (p : Flags) (s : State) : State := { s with p := p }

/-- The RAM cell of the stack byte `0x0100 | SP`: the stack page lies in the RAM window (10_state.md R32, 20_memory.md R73). -/
def stackCell (sp : Byte) : Nat := 0x100 + sp.toNat

/-- `dec(SP)` (40_engine.md R157). -/
def decSp (e : StackEdge) (sp : Byte) : Byte :=
  match e with
  | .wrap => sp - 1
  | .saturate => if sp = 0 then 0 else sp - 1

/-- `inc(SP)` (40_engine.md R157). -/
def incSp (e : StackEdge) (sp : Byte) : Byte :=
  match e with
  | .wrap => sp + 1
  | .saturate => if sp = 0xFF then 0xFF else sp + 1

/-- `Push(v)` (40_engine.md R155). -/
def push (v : Byte) (s : State) : State :=
  { s with ram := s.ram.write (stackCell s.sp) v, sp := decSp s.params.stackEdge s.sp }

/-- `Push16(v)`, high byte first (40_engine.md R158). -/
def push16 (w : Word) (s : State) : State := push (loByte w) (push (hiByte w) s)

/-- The byte `Pull()` returns (40_engine.md R156). -/
def pulled (s : State) : Byte := s.ram.read (stackCell (incSp s.params.stackEdge s.sp))

/-- The state after `Pull()` (40_engine.md R156). -/
def pull (s : State) : State := { s with sp := incSp s.params.stackEdge s.sp }

/-- The word `Pull16()` returns, low byte first (40_engine.md R158). -/
def pulled16 (s : State) : Word := wordOf (pulled s) (pulled (pull s))

/-- The state after `Pull16()` (40_engine.md R158). -/
def pull16 (s : State) : State := pull (pull s)

/-! ## Taking an interrupt and returning from one -/

/-- The NMI vector (60_exceptions.md R353). -/
def nmiVector : Word := 0xFFFA

/-- The reset vector (60_exceptions.md R350). -/
def resetVector : Word := 0xFFFC

/-- The IRQ and BRK vector (60_exceptions.md R354, 43_control_flags.md R242). -/
def irqVector : Word := 0xFFFE

/-- `MemRead(vec, 2)` of a vector, which lies in the cartridge window (20_memory.md R70, R86). -/
def vectorAt (vec : Word) (s : State) : Word := wordOf (s.cart.read vec) (s.cart.read (vec + 1))

/-- The one entry every interrupt takes: PC (high, low) and a flags byte are pushed, I is set, and PC is loaded from the
vector when `jump` holds (60_exceptions.md R352, R353; 43_control_flags.md R242). -/
def enter (flags : Byte) (vec : Word) (jump : Bool) (s : State) : State :=
  let t := push flags (push16 s.pc s)
  (t.setP { t.p with i := true }).setPc (if jump then vectorAt vec t else t.pc)

/-- `interrupt(vec)`, the shared routine: the jump is suppressed when I was already set (60_exceptions.md R352). -/
def sharedInterrupt (vec : Word) (s : State) : State := enter s.p.toByte vec (!s.p.i) s

/-- `nmi_entry()` without its cycles: never masked (60_exceptions.md R353). -/
def nmiEntry (s : State) : State := enter s.p.toByte nmiVector true s

/-- The acceptance of an asserted IRQ: only with B clear; it sets B, then takes the shared routine (60_exceptions.md
R354). -/
def irqAccept (s : State) : State :=
  if s.p.b then s else sharedInterrupt irqVector (s.setP { s.p with b := true })

/-- `reset_entry()` without its cycles: PC only (60_exceptions.md R350). -/
def resetEntry (s : State) : State := s.setPc (vectorAt resetVector s)

/-- Return from an interrupt: the flags byte, then the return address (43_control_flags.md R241, 60_exceptions.md
R358). -/
def interruptReturn (s : State) : State :=
  let t := (pull s).setP (Flags.ofByte (pulled s))
  (pull16 t).setPc (pulled16 t)

/-! ## Ending an instruction -/

/-- The outcome of an instruction that began at `s`: its next state, or, where a channel read has no reply yet, `s` itself
suspended on that read, with the outside bytes it has read so far kept for its resumption (10_state.md R38,
50_channel_protocol.md R261).  Nothing the instruction did before its last channel read has changed the state: in
every rule of the spec the reads precede the writes. -/
def complete (s : State) (r : Res Unit) : Host.Outcome State Fault Refusal :=
  match r with
  | .done _ t => .next t
  | .wait q t => .next (suspend q { s with feed := t.log, log := [], draws := t.draws })

end Sys2Proof.Machine
end

