-- ==== Sys2Proof/Machine/Agents.lean ====
section
/-! DEFINITION. The steps of the agents other than the CPU: the PPU's and APU's ticks and the host's actions
(50_channel_protocol.md R261, R264, R269, R273). -/

namespace Sys2Proof.Machine

/-- The PPU drains at most one pending write (50_channel_protocol.md R264). -/
def ppuDrainOne (s : State) : State :=
  match s.ppuChan.writes with
  | [] => s
  | w :: ws => applyPpuWrite w { s with ppuChan := { s.ppuChan with writes := ws } }

/-- The PPU answers at most one pending read, with exactly one reply (50_channel_protocol.md R264, R265). -/
def ppuAnswerOne (s : State) : State :=
  match s.ppuChan.reads with
  | [] => s
  | t :: ts =>
    let q := answerPpu t s
    { q.2 with ppuChan := { s.ppuChan with reads := ts, results := s.ppuChan.results ++ [q.1] } }

/-- A PPU tick in `async`: shutdown poll, one write, one read, the clock (50_channel_protocol.md R264). -/
def ppuTick (s : State) : State :=
  if s.shutdown then { s with alivePpu := false } else advanceClock (ppuAnswerOne (ppuDrainOne s))

/-- The APU drains at most one pending write (50_channel_protocol.md R264). -/
def apuDrainOne (s : State) : State :=
  match s.apuChan.writes with
  | [] => s
  | w :: ws => applyApuWrite w { s with apuChan := { s.apuChan with writes := ws } }

/-- The APU answers at most one pending read (50_channel_protocol.md R264, R265). -/
def apuAnswerOne (s : State) : State :=
  match s.apuChan.reads with
  | [] => s
  | _ :: ts =>
    let q := answerApu s
    { q.2 with apuChan := { s.apuChan with reads := ts, results := s.apuChan.results ++ [q.1] } }

/-- An APU tick in `async`; its clock has no observable effect (50_channel_protocol.md R264, R276). -/
def apuTick (s : State) : State :=
  if s.shutdown then { s with aliveApu := false } else apuAnswerOne (apuDrainOne s)

/-- The PPU's turn: enabled while it is alive.  In `lockstep` its clock is driven by the CPU's cycles, so of its own it
only sees the shutdown (50_channel_protocol.md R261, R272). -/
def ppuMove (s : State) : State :=
  if s.alivePpu then
    match s.params.syncMode with
    | .async => ppuTick s
    | .lockstep => if s.shutdown then { s with alivePpu := false } else s
  else s

/-- The APU's turn, as the PPU's (50_channel_protocol.md R261, R272). -/
def apuMove (s : State) : State :=
  if s.aliveApu then
    match s.params.syncMode with
    | .async => apuTick s
    | .lockstep => if s.shutdown then { s with aliveApu := false } else s
  else s

/-- The host's turn (50_channel_protocol.md R273). -/
def hostMove (h : HostAction) (s : State) : State :=
  match h with
  | .setButtons b => { s with ppu := { s.ppu with buttons := b } }
  | .setShutdown => { s with shutdown := true }
  | .requestReset => { s with resetRequest := true }
  | .driveIrq level => { s with irqLine := level }

end Sys2Proof.Machine
end

