-- ==== Sys2Proof/Machine/Operands.lean ====
section
/-! DEFINITION. The addressing modes, operand access, and the instruction shapes made of them (40_engine.md R141 to R152,
R160).  The operand bytes have been fetched: PC is the address of the byte after the instruction (R140). -/

namespace Sys2Proof.Machine

/-- A byte of page 0, which lies in the RAM window (20_memory.md R73). -/
def zeroPageByte (z : Byte) (s : State) : Byte := s.ram.read z.toNat

/-- A 16-bit pointer in page 0; its second byte wraps within the page (40_engine.md R149, R150). -/
def zeroPagePointer (z : Byte) (s : State) : Word := wordOf (zeroPageByte z s) (zeroPageByte (z + 1) s)

/-- `resolve` (40_engine.md R142 to R151).  The indirect mode, whose pointer may lie behind a channel, is resolved by
`indirectAddress`. -/
def resolve (o : Operand) (s : State) : Resolved :=
  match o with
  | .implied => .nothing
  | .accumulator => .acc
  | .immediate v => .value v
  | .zeroPage z => .addr (z.setWidth 16)
  | .zeroPageX z => .addr ((z + s.x).setWidth 16)
  | .zeroPageY z => .addr ((z + s.y).setWidth 16)
  | .absolute a => .addr a
  | .absoluteX a => .addr (a + s.x.setWidth 16)
  | .absoluteY a => .addr (a + s.y.setWidth 16)
  | .indirect _ => .nothing
  | .indexedIndirect z => .addr (zeroPagePointer (z + s.x) s)
  | .indirectIndexed z => .addr (zeroPagePointer z s + s.y.setWidth 16)
  | .relative o => .addr (s.pc + o.signExtend 16)

/-- Whether two addresses lie in different pages (40_engine.md R147). -/
def otherPage (base a : Word) : Bool := (base &&& 0xFF00) != (a &&& 0xFF00)

/-- `page_crossed` after the resolver (40_engine.md R147, R150, R151); the other modes do not set it. -/
def crossing (o : Operand) (s : State) : Bool :=
  match o with
  | .absoluteX a => otherPage a (a + s.x.setWidth 16)
  | .absoluteY a => otherPage a (a + s.y.setWidth 16)
  | .indirectIndexed z => otherPage (zeroPagePointer z s) (zeroPagePointer z s + s.y.setWidth 16)
  | .relative o => otherPage s.pc (s.pc + o.signExtend 16)
  | _ => s.pageCrossed

/-- The state after the resolver. -/
def afterResolve (o : Operand) (s : State) : State := { s with pageCrossed := crossing o s }

/-- `load(opnd)` (40_engine.md R152).  For an operand that is `Nothing`, which no instruction of the default table loads, R152
states no value: a free byte (assumption 25). -/
def load (r : Resolved) (s : State) : Res Byte :=
  match r with
  | .value v => .done v s
  | .acc => .done s.a s
  | .addr a => busRead a s
  | .nothing => drawRead s

/-- `store(opnd, v)` (40_engine.md R152).  For an operand that is no place, which no instruction of the default table stores
to, R152 states no effect: nothing is stored (assumption 25). -/
def store (r : Resolved) (v : Byte) (s : State) : Res Unit :=
  match r with
  | .acc => .done () { s with a := v }
  | .addr a => busWrite a v s
  | .value _ | .nothing => .done () s

/-- The operand byte of a reading instruction: resolve, then load. -/
def operandRead (o : Operand) (s : State) : Res Byte := load (resolve o s) (afterResolve o s)

/-- An instruction that reads its operand once and then changes the CPU only. -/
def reading (o : Operand) (f : Byte → State → State) (s : State) : Host.Outcome State Fault Refusal :=
  complete s ((operandRead o s).bind fun v t => .done () (f v t))

/-- An instruction that stores a byte at its operand. -/
def storing (o : Operand) (v : Byte) (s : State) : Host.Outcome State Fault Refusal :=
  complete s (store (resolve o s) v (afterResolve o s))

/-- A read-modify-write instruction: one load, one store at the same operand, and the flags (40_engine.md R152). -/
def modifying (o : Operand) (f : Byte → Flags → Byte × Flags) (s : State) : Host.Outcome State Fault Refusal :=
  complete s
    ((operandRead o s).bind fun v t =>
      (store (resolve o s) (f v s.p).1 t).bind fun _ u => .done () { u with p := (f v s.p).2 })

/-- `branch(cond, opnd)` (40_engine.md R160). -/
def branching (cond : Bool) (o : Byte) (s : State) : Host.Outcome State Fault Refusal :=
  let t := afterResolve (.relative o) s
  .next (if cond then { t with branchTaken := true, pc := s.pc + o.signExtend 16 } else t)

/-- The address of a pointer's high byte (40_engine.md R148). -/
def pointerHigh (bug : Bool) (ptr : Word) : Word :=
  if bug then (ptr &&& 0xFF00) ||| ((ptr + 1) &&& 0x00FF) else ptr + 1

/-- The indirect mode's resolution: the address that stands at a pointer (40_engine.md R148). -/
def indirectAddress (ptr : Word) (s : State) : Res Word :=
  (busRead ptr s).bind fun tl t =>
    (busRead (pointerHigh s.params.jmpIndPageBug ptr) t).bind fun th u => .done (wordOf tl th) u

/-- The jump through a pointer (40_engine.md R148, 43_control_flags.md R238). -/
def jumpIndirect (ptr : Word) (s : State) : Host.Outcome State Fault Refusal :=
  complete s ((indirectAddress ptr s).bind fun a u => .done () { u with pc := a })

end Sys2Proof.Machine
end

