-- ==== Sys2Proof/Machine/Arith.lean ====
section
/-! DEFINITION. Arithmetic, logic and compare: one meaning per constructor of Instr, each over an operation its forms share (42_arith_logic.md R196 to R208). -/

namespace Sys2Proof.Machine

/-- Add with carry, binary whatever D holds (R197), in any mode (R200). -/
def adcWith (o : Operand) (s : State) : Host.Outcome State Fault Refusal :=
  reading o (fun v t => { t with a := addResult t.a v t.p.c, p := t.p.add t.a v }) s

/-- ADC immediate, 69 (R200). -/
def execAdcImm (v : Byte) (s : State) : Host.Outcome State Fault Refusal := adcWith (.immediate v) s

/-- ADC zero-page, 65 (R200). -/
def execAdcZp (z : Byte) (s : State) : Host.Outcome State Fault Refusal := adcWith (.zeroPage z) s

/-- ADC zero-page,X, 75 (R200). -/
def execAdcZpX (z : Byte) (s : State) : Host.Outcome State Fault Refusal := adcWith (.zeroPageX z) s

/-- ADC absolute, 6D (R200). -/
def execAdcAbs (a : Word) (s : State) : Host.Outcome State Fault Refusal := adcWith (.absolute a) s

/-- ADC absolute,X, 7D (R200). -/
def execAdcAbsX (a : Word) (s : State) : Host.Outcome State Fault Refusal := adcWith (.absoluteX a) s

/-- ADC absolute,Y, 79 (R200). -/
def execAdcAbsY (a : Word) (s : State) : Host.Outcome State Fault Refusal := adcWith (.absoluteY a) s

/-- ADC (zp,X), 61 (R200). -/
def execAdcIndX (z : Byte) (s : State) : Host.Outcome State Fault Refusal := adcWith (.indexedIndirect z) s

/-- ADC (zp),Y, 71 (R200). -/
def execAdcIndY (z : Byte) (s : State) : Host.Outcome State Fault Refusal := adcWith (.indirectIndexed z) s

/-- Subtract with borrow: the addition of the complement (R197), in any mode (R201). -/
def sbcWith (o : Operand) (s : State) : Host.Outcome State Fault Refusal :=
  reading o (fun v t => { t with a := addResult t.a (~~~v) t.p.c, p := t.p.add t.a (~~~v) }) s

/-- SBC immediate, E9 (R201). -/
def execSbcImm (v : Byte) (s : State) : Host.Outcome State Fault Refusal := sbcWith (.immediate v) s

/-- SBC zero-page, E5 (R201). -/
def execSbcZp (z : Byte) (s : State) : Host.Outcome State Fault Refusal := sbcWith (.zeroPage z) s

/-- SBC zero-page,X, F5 (R201). -/
def execSbcZpX (z : Byte) (s : State) : Host.Outcome State Fault Refusal := sbcWith (.zeroPageX z) s

/-- SBC absolute, ED (R201). -/
def execSbcAbs (a : Word) (s : State) : Host.Outcome State Fault Refusal := sbcWith (.absolute a) s

/-- SBC absolute,X, FD (R201). -/
def execSbcAbsX (a : Word) (s : State) : Host.Outcome State Fault Refusal := sbcWith (.absoluteX a) s

/-- SBC absolute,Y, F9 (R201). -/
def execSbcAbsY (a : Word) (s : State) : Host.Outcome State Fault Refusal := sbcWith (.absoluteY a) s

/-- SBC (zp,X), E1 (R201). -/
def execSbcIndX (z : Byte) (s : State) : Host.Outcome State Fault Refusal := sbcWith (.indexedIndirect z) s

/-- SBC (zp),Y, F1 (R201). -/
def execSbcIndY (z : Byte) (s : State) : Host.Outcome State Fault Refusal := sbcWith (.indirectIndexed z) s

/-- And with A, in any mode (R202). -/
def andWith (o : Operand) (s : State) : Host.Outcome State Fault Refusal :=
  reading o (fun v t => { t with a := t.a &&& v, p := t.p.setNZ (t.a &&& v) }) s

/-- AND immediate, 29 (R202). -/
def execAndImm (v : Byte) (s : State) : Host.Outcome State Fault Refusal := andWith (.immediate v) s

/-- AND zero-page, 25 (R202). -/
def execAndZp (z : Byte) (s : State) : Host.Outcome State Fault Refusal := andWith (.zeroPage z) s

/-- AND zero-page,X, 35 (R202). -/
def execAndZpX (z : Byte) (s : State) : Host.Outcome State Fault Refusal := andWith (.zeroPageX z) s

/-- AND absolute, 2D (R202). -/
def execAndAbs (a : Word) (s : State) : Host.Outcome State Fault Refusal := andWith (.absolute a) s

/-- AND absolute,X, 3D (R202). -/
def execAndAbsX (a : Word) (s : State) : Host.Outcome State Fault Refusal := andWith (.absoluteX a) s

/-- AND absolute,Y, 39 (R202). -/
def execAndAbsY (a : Word) (s : State) : Host.Outcome State Fault Refusal := andWith (.absoluteY a) s

/-- AND (zp,X), 21 (R202). -/
def execAndIndX (z : Byte) (s : State) : Host.Outcome State Fault Refusal := andWith (.indexedIndirect z) s

/-- AND (zp),Y, 31 (R202). -/
def execAndIndY (z : Byte) (s : State) : Host.Outcome State Fault Refusal := andWith (.indirectIndexed z) s

/-- Or with A, in any mode (R203). -/
def oraWith (o : Operand) (s : State) : Host.Outcome State Fault Refusal :=
  reading o (fun v t => { t with a := t.a ||| v, p := t.p.setNZ (t.a ||| v) }) s

/-- ORA immediate, 09 (R203). -/
def execOraImm (v : Byte) (s : State) : Host.Outcome State Fault Refusal := oraWith (.immediate v) s

/-- ORA zero-page, 05 (R203). -/
def execOraZp (z : Byte) (s : State) : Host.Outcome State Fault Refusal := oraWith (.zeroPage z) s

/-- ORA zero-page,X, 15 (R203). -/
def execOraZpX (z : Byte) (s : State) : Host.Outcome State Fault Refusal := oraWith (.zeroPageX z) s

/-- ORA absolute, 0D (R203). -/
def execOraAbs (a : Word) (s : State) : Host.Outcome State Fault Refusal := oraWith (.absolute a) s

/-- ORA absolute,X, 1D (R203). -/
def execOraAbsX (a : Word) (s : State) : Host.Outcome State Fault Refusal := oraWith (.absoluteX a) s

/-- ORA absolute,Y, 19 (R203). -/
def execOraAbsY (a : Word) (s : State) : Host.Outcome State Fault Refusal := oraWith (.absoluteY a) s

/-- ORA (zp,X), 01 (R203). -/
def execOraIndX (z : Byte) (s : State) : Host.Outcome State Fault Refusal := oraWith (.indexedIndirect z) s

/-- ORA (zp),Y, 11 (R203). -/
def execOraIndY (z : Byte) (s : State) : Host.Outcome State Fault Refusal := oraWith (.indirectIndexed z) s

/-- Exclusive or with A, in any mode (R204). -/
def eorWith (o : Operand) (s : State) : Host.Outcome State Fault Refusal :=
  reading o (fun v t => { t with a := t.a ^^^ v, p := t.p.setNZ (t.a ^^^ v) }) s

/-- EOR immediate, 49 (R204). -/
def execEorImm (v : Byte) (s : State) : Host.Outcome State Fault Refusal := eorWith (.immediate v) s

/-- EOR zero-page, 45 (R204). -/
def execEorZp (z : Byte) (s : State) : Host.Outcome State Fault Refusal := eorWith (.zeroPage z) s

/-- EOR zero-page,X, 55 (R204). -/
def execEorZpX (z : Byte) (s : State) : Host.Outcome State Fault Refusal := eorWith (.zeroPageX z) s

/-- EOR absolute, 4D (R204). -/
def execEorAbs (a : Word) (s : State) : Host.Outcome State Fault Refusal := eorWith (.absolute a) s

/-- EOR absolute,X, 5D (R204). -/
def execEorAbsX (a : Word) (s : State) : Host.Outcome State Fault Refusal := eorWith (.absoluteX a) s

/-- EOR absolute,Y, 59 (R204). -/
def execEorAbsY (a : Word) (s : State) : Host.Outcome State Fault Refusal := eorWith (.absoluteY a) s

/-- EOR (zp,X), 41 (R204). -/
def execEorIndX (z : Byte) (s : State) : Host.Outcome State Fault Refusal := eorWith (.indexedIndirect z) s

/-- EOR (zp),Y, 51 (R204). -/
def execEorIndY (z : Byte) (s : State) : Host.Outcome State Fault Refusal := eorWith (.indirectIndexed z) s

/-- Test bits, in any mode (R205). -/
def bitWith (o : Operand) (s : State) : Host.Outcome State Fault Refusal :=
  reading o (fun v t => { t with p := t.p.bitTest t.a v }) s

/-- BIT zero-page, 24 (R205). -/
def execBitZp (z : Byte) (s : State) : Host.Outcome State Fault Refusal := bitWith (.zeroPage z) s

/-- BIT absolute, 2C (R205). -/
def execBitAbs (a : Word) (s : State) : Host.Outcome State Fault Refusal := bitWith (.absolute a) s

/-- Compare with A, in any mode (R206). -/
def cmpWith (o : Operand) (s : State) : Host.Outcome State Fault Refusal :=
  reading o (fun v t => { t with p := t.p.compare t.a v }) s

/-- CMP immediate, C9 (R206). -/
def execCmpImm (v : Byte) (s : State) : Host.Outcome State Fault Refusal := cmpWith (.immediate v) s

/-- CMP zero-page, C5 (R206). -/
def execCmpZp (z : Byte) (s : State) : Host.Outcome State Fault Refusal := cmpWith (.zeroPage z) s

/-- CMP zero-page,X, D5 (R206). -/
def execCmpZpX (z : Byte) (s : State) : Host.Outcome State Fault Refusal := cmpWith (.zeroPageX z) s

/-- CMP absolute, CD (R206). -/
def execCmpAbs (a : Word) (s : State) : Host.Outcome State Fault Refusal := cmpWith (.absolute a) s

/-- CMP absolute,X, DD (R206). -/
def execCmpAbsX (a : Word) (s : State) : Host.Outcome State Fault Refusal := cmpWith (.absoluteX a) s

/-- CMP absolute,Y, D9 (R206). -/
def execCmpAbsY (a : Word) (s : State) : Host.Outcome State Fault Refusal := cmpWith (.absoluteY a) s

/-- CMP (zp,X), C1 (R206). -/
def execCmpIndX (z : Byte) (s : State) : Host.Outcome State Fault Refusal := cmpWith (.indexedIndirect z) s

/-- CMP (zp),Y, D1 (R206). -/
def execCmpIndY (z : Byte) (s : State) : Host.Outcome State Fault Refusal := cmpWith (.indirectIndexed z) s

/-- Compare with X, in any mode (R207). -/
def cpxWith (o : Operand) (s : State) : Host.Outcome State Fault Refusal :=
  reading o (fun v t => { t with p := t.p.compare t.x v }) s

/-- CPX immediate, E0 (R207). -/
def execCpxImm (v : Byte) (s : State) : Host.Outcome State Fault Refusal := cpxWith (.immediate v) s

/-- CPX zero-page, E4 (R207). -/
def execCpxZp (z : Byte) (s : State) : Host.Outcome State Fault Refusal := cpxWith (.zeroPage z) s

/-- CPX absolute, EC (R207). -/
def execCpxAbs (a : Word) (s : State) : Host.Outcome State Fault Refusal := cpxWith (.absolute a) s

/-- Compare with Y, in any mode (R208). -/
def cpyWith (o : Operand) (s : State) : Host.Outcome State Fault Refusal :=
  reading o (fun v t => { t with p := t.p.compare t.y v }) s

/-- CPY immediate, C0 (R208). -/
def execCpyImm (v : Byte) (s : State) : Host.Outcome State Fault Refusal := cpyWith (.immediate v) s

/-- CPY zero-page, C4 (R208). -/
def execCpyZp (z : Byte) (s : State) : Host.Outcome State Fault Refusal := cpyWith (.zeroPage z) s

/-- CPY absolute, CC (R208). -/
def execCpyAbs (a : Word) (s : State) : Host.Outcome State Fault Refusal := cpyWith (.absolute a) s

end Sys2Proof.Machine
end

