-- ==== Sys2Proof/Machine/Control.lean ====
section
/-! DEFINITION. Branches, jumps, subroutines, interrupt return and break: one meaning per constructor of Instr, each over an operation its forms share (43_control_flags.md R230 to R242). -/

namespace Sys2Proof.Machine

/-- BPL relative, 10 (R230). -/
def execBpl (o : Byte) (s : State) : Host.Outcome State Fault Refusal := branching (!s.p.n) o s

/-- BMI relative, 30 (R231). -/
def execBmi (o : Byte) (s : State) : Host.Outcome State Fault Refusal := branching s.p.n o s

/-- BVC relative, 50 (R232). -/
def execBvc (o : Byte) (s : State) : Host.Outcome State Fault Refusal := branching (!s.p.v) o s

/-- BVS relative, 70 (R233). -/
def execBvs (o : Byte) (s : State) : Host.Outcome State Fault Refusal := branching s.p.v o s

/-- BCC relative, 90 (R234). -/
def execBcc (o : Byte) (s : State) : Host.Outcome State Fault Refusal := branching (!s.p.c) o s

/-- BCS relative, B0 (R235). -/
def execBcs (o : Byte) (s : State) : Host.Outcome State Fault Refusal := branching s.p.c o s

/-- BNE relative, D0 (R236). -/
def execBne (o : Byte) (s : State) : Host.Outcome State Fault Refusal := branching (!s.p.z) o s

/-- BEQ relative, F0 (R237). -/
def execBeq (o : Byte) (s : State) : Host.Outcome State Fault Refusal := branching s.p.z o s

/-- JMP absolute, 4C (R238). -/
def execJmpAbs (a : Word) (s : State) : Host.Outcome State Fault Refusal := .next (s.setPc a)

/-- JMP indirect, 6C (R238). -/
def execJmpInd (a : Word) (s : State) : Host.Outcome State Fault Refusal := jumpIndirect a s

/-- JSR absolute, 20 (R239). -/
def execJsr (a : Word) (s : State) : Host.Outcome State Fault Refusal :=
  .next ((push16 (s.pc - 1) s).setPc a)

/-- RTS implied, 60 (R240). -/
def execRts (s : State) : Host.Outcome State Fault Refusal :=
  .next ((pull16 s).setPc (pulled16 s + 1))

/-- RTI implied, 40 (R241). -/
def execRti (s : State) : Host.Outcome State Fault Refusal := .next (interruptReturn s)

/-- BRK (R242): the signature byte is skipped, then the policy's entry. -/
def brkEntry (s : State) : State :=
  let t := s.setPc (s.pc + 1)
  match s.params.brkPolicy with
  | .standard => enter (t.p.toByte ||| 0x30) irqVector true t
  | .viaIrqPath => irqAccept t

/-- BRK implied, 00 (R242). -/
def execBrk (s : State) : Host.Outcome State Fault Refusal := .next (brkEntry s)

end Sys2Proof.Machine
end

