-- ==== Sys2Proof/Machine/FlagOps.lean ====
section
/-! DEFINITION. Flag instructions and the no-operation: one meaning per constructor of Instr, each over an operation its forms share (43_control_flags.md R243 to R250). -/

namespace Sys2Proof.Machine

/-- CLC implied, 18 (R243). -/
def execClc (s : State) : Host.Outcome State Fault Refusal :=
  .next { s with p := { s.p with c := false } }

/-- SEC implied, 38 (R244). -/
def execSec (s : State) : Host.Outcome State Fault Refusal :=
  .next { s with p := { s.p with c := true } }

/-- CLI implied, 58 (R245). -/
def execCli (s : State) : Host.Outcome State Fault Refusal :=
  .next { s with p := { s.p with i := false } }

/-- SEI implied, 78 (R246). -/
def execSei (s : State) : Host.Outcome State Fault Refusal :=
  .next { s with p := { s.p with i := true } }

/-- CLV implied, B8 (R247). -/
def execClv (s : State) : Host.Outcome State Fault Refusal :=
  .next { s with p := { s.p with v := false } }

/-- CLD implied, D8 (R248). -/
def execCld (s : State) : Host.Outcome State Fault Refusal :=
  .next { s with p := { s.p with d := false } }

/-- SED implied, F8 (R249). -/
def execSed (s : State) : Host.Outcome State Fault Refusal :=
  .next { s with p := { s.p with d := true } }

/-- NOP implied, EA (R250). -/
def execNop (s : State) : Host.Outcome State Fault Refusal :=
  .next s

end Sys2Proof.Machine
end

