-- ==== Sys2Proof/Machine/IncShift.lean ====
section
/-! DEFINITION. Increments, decrements, shifts and rotates: one meaning per constructor of Instr, each over an operation its forms share (42_arith_logic.md R209 to R218). -/

namespace Sys2Proof.Machine

/-- Increment memory, in any mode (R209). -/
def incWith (o : Operand) (s : State) : Host.Outcome State Fault Refusal :=
  modifying o (fun v p => (v + 1, p.setNZ (v + 1))) s

/-- INC zero-page, E6 (R209). -/
def execIncZp (z : Byte) (s : State) : Host.Outcome State Fault Refusal := incWith (.zeroPage z) s

/-- INC zero-page,X, F6 (R209). -/
def execIncZpX (z : Byte) (s : State) : Host.Outcome State Fault Refusal := incWith (.zeroPageX z) s

/-- INC absolute, EE (R209). -/
def execIncAbs (a : Word) (s : State) : Host.Outcome State Fault Refusal := incWith (.absolute a) s

/-- INC absolute,X, FE (R209). -/
def execIncAbsX (a : Word) (s : State) : Host.Outcome State Fault Refusal := incWith (.absoluteX a) s

/-- Decrement memory, in any mode (R210). -/
def decWith (o : Operand) (s : State) : Host.Outcome State Fault Refusal :=
  modifying o (fun v p => (v - 1, p.setNZ (v - 1))) s

/-- DEC zero-page, C6 (R210). -/
def execDecZp (z : Byte) (s : State) : Host.Outcome State Fault Refusal := decWith (.zeroPage z) s

/-- DEC zero-page,X, D6 (R210). -/
def execDecZpX (z : Byte) (s : State) : Host.Outcome State Fault Refusal := decWith (.zeroPageX z) s

/-- DEC absolute, CE (R210). -/
def execDecAbs (a : Word) (s : State) : Host.Outcome State Fault Refusal := decWith (.absolute a) s

/-- DEC absolute,X, DE (R210). -/
def execDecAbsX (a : Word) (s : State) : Host.Outcome State Fault Refusal := decWith (.absoluteX a) s

/-- INX implied, E8 (R211). -/
def execInx (s : State) : Host.Outcome State Fault Refusal :=
  .next { s with x := s.x + 1, p := s.p.setNZ (s.x + 1) }

/-- INY implied, C8 (R212). -/
def execIny (s : State) : Host.Outcome State Fault Refusal :=
  .next { s with y := s.y + 1, p := s.p.setNZ (s.y + 1) }

/-- DEX implied, CA (R213). -/
def execDex (s : State) : Host.Outcome State Fault Refusal :=
  .next { s with x := s.x - 1, p := s.p.setNZ (s.x - 1) }

/-- DEY implied, 88 (R214). -/
def execDey (s : State) : Host.Outcome State Fault Refusal :=
  .next { s with y := s.y - 1, p := s.p.setNZ (s.y - 1) }

/-- Arithmetic shift left, in any mode (R215). -/
def aslWith (o : Operand) (s : State) : Host.Outcome State Fault Refusal :=
  modifying o (fun v p => (shiftAsl v, p.shift (v.getLsbD 7) (shiftAsl v))) s

/-- ASL accumulator, 0A (R215). -/
def execAslAcc (s : State) : Host.Outcome State Fault Refusal := aslWith .accumulator s

/-- ASL zero-page, 06 (R215). -/
def execAslZp (z : Byte) (s : State) : Host.Outcome State Fault Refusal := aslWith (.zeroPage z) s

/-- ASL zero-page,X, 16 (R215). -/
def execAslZpX (z : Byte) (s : State) : Host.Outcome State Fault Refusal := aslWith (.zeroPageX z) s

/-- ASL absolute, 0E (R215). -/
def execAslAbs (a : Word) (s : State) : Host.Outcome State Fault Refusal := aslWith (.absolute a) s

/-- ASL absolute,X, 1E (R215). -/
def execAslAbsX (a : Word) (s : State) : Host.Outcome State Fault Refusal := aslWith (.absoluteX a) s

/-- Logical shift right, in any mode (R216). -/
def lsrWith (o : Operand) (s : State) : Host.Outcome State Fault Refusal :=
  modifying o (fun v p => (shiftLsr v, p.shift (v.getLsbD 0) (shiftLsr v))) s

/-- LSR accumulator, 4A (R216). -/
def execLsrAcc (s : State) : Host.Outcome State Fault Refusal := lsrWith .accumulator s

/-- LSR zero-page, 46 (R216). -/
def execLsrZp (z : Byte) (s : State) : Host.Outcome State Fault Refusal := lsrWith (.zeroPage z) s

/-- LSR zero-page,X, 56 (R216). -/
def execLsrZpX (z : Byte) (s : State) : Host.Outcome State Fault Refusal := lsrWith (.zeroPageX z) s

/-- LSR absolute, 4E (R216). -/
def execLsrAbs (a : Word) (s : State) : Host.Outcome State Fault Refusal := lsrWith (.absolute a) s

/-- LSR absolute,X, 5E (R216). -/
def execLsrAbsX (a : Word) (s : State) : Host.Outcome State Fault Refusal := lsrWith (.absoluteX a) s

/-- Rotate left through carry, in any mode (R217). -/
def rolWith (o : Operand) (s : State) : Host.Outcome State Fault Refusal :=
  modifying o (fun v p => (shiftRol v p.c, p.shift (v.getLsbD 7) (shiftRol v p.c))) s

/-- ROL accumulator, 2A (R217). -/
def execRolAcc (s : State) : Host.Outcome State Fault Refusal := rolWith .accumulator s

/-- ROL zero-page, 26 (R217). -/
def execRolZp (z : Byte) (s : State) : Host.Outcome State Fault Refusal := rolWith (.zeroPage z) s

/-- ROL zero-page,X, 36 (R217). -/
def execRolZpX (z : Byte) (s : State) : Host.Outcome State Fault Refusal := rolWith (.zeroPageX z) s

/-- ROL absolute, 2E (R217). -/
def execRolAbs (a : Word) (s : State) : Host.Outcome State Fault Refusal := rolWith (.absolute a) s

/-- ROL absolute,X, 3E (R217). -/
def execRolAbsX (a : Word) (s : State) : Host.Outcome State Fault Refusal := rolWith (.absoluteX a) s

/-- Rotate right through carry, in any mode (R218). -/
def rorWith (o : Operand) (s : State) : Host.Outcome State Fault Refusal :=
  modifying o (fun v p => (shiftRor v p.c, p.shift (v.getLsbD 0) (shiftRor v p.c))) s

/-- ROR accumulator, 6A (R218). -/
def execRorAcc (s : State) : Host.Outcome State Fault Refusal := rorWith .accumulator s

/-- ROR zero-page, 66 (R218). -/
def execRorZp (z : Byte) (s : State) : Host.Outcome State Fault Refusal := rorWith (.zeroPage z) s

/-- ROR zero-page,X, 76 (R218). -/
def execRorZpX (z : Byte) (s : State) : Host.Outcome State Fault Refusal := rorWith (.zeroPageX z) s

/-- ROR absolute, 6E (R218). -/
def execRorAbs (a : Word) (s : State) : Host.Outcome State Fault Refusal := rorWith (.absolute a) s

/-- ROR absolute,X, 7E (R218). -/
def execRorAbsX (a : Word) (s : State) : Host.Outcome State Fault Refusal := rorWith (.absoluteX a) s

end Sys2Proof.Machine
end

