-- ==== Sys2Proof/Machine/LoadStore.lean ====
section
/-! DEFINITION. Loads and stores: one meaning per constructor of Instr, each over an operation its forms share (41_load_store_transfer.md R180 to R185). -/

namespace Sys2Proof.Machine

/-- Load A, in any mode (R180). -/
def ldaWith (o : Operand) (s : State) : Host.Outcome State Fault Refusal :=
  reading o (fun v t => { t with a := v, p := t.p.setNZ v }) s

/-- LDA immediate, A9 (R180). -/
def execLdaImm (v : Byte) (s : State) : Host.Outcome State Fault Refusal := ldaWith (.immediate v) s

/-- LDA zero-page, A5 (R180). -/
def execLdaZp (z : Byte) (s : State) : Host.Outcome State Fault Refusal := ldaWith (.zeroPage z) s

/-- LDA zero-page,X, B5 (R180). -/
def execLdaZpX (z : Byte) (s : State) : Host.Outcome State Fault Refusal := ldaWith (.zeroPageX z) s

/-- LDA absolute, AD (R180). -/
def execLdaAbs (a : Word) (s : State) : Host.Outcome State Fault Refusal := ldaWith (.absolute a) s

/-- LDA absolute,X, BD (R180). -/
def execLdaAbsX (a : Word) (s : State) : Host.Outcome State Fault Refusal := ldaWith (.absoluteX a) s

/-- LDA absolute,Y, B9 (R180). -/
def execLdaAbsY (a : Word) (s : State) : Host.Outcome State Fault Refusal := ldaWith (.absoluteY a) s

/-- LDA (zp,X), A1 (R180). -/
def execLdaIndX (z : Byte) (s : State) : Host.Outcome State Fault Refusal := ldaWith (.indexedIndirect z) s

/-- LDA (zp),Y, B1 (R180). -/
def execLdaIndY (z : Byte) (s : State) : Host.Outcome State Fault Refusal := ldaWith (.indirectIndexed z) s

/-- Load X, in any mode (R181). -/
def ldxWith (o : Operand) (s : State) : Host.Outcome State Fault Refusal :=
  reading o (fun v t => { t with x := v, p := t.p.setNZ v }) s

/-- LDX immediate, A2 (R181). -/
def execLdxImm (v : Byte) (s : State) : Host.Outcome State Fault Refusal := ldxWith (.immediate v) s

/-- LDX zero-page, A6 (R181). -/
def execLdxZp (z : Byte) (s : State) : Host.Outcome State Fault Refusal := ldxWith (.zeroPage z) s

/-- LDX zero-page,Y, B6 (R181). -/
def execLdxZpY (z : Byte) (s : State) : Host.Outcome State Fault Refusal := ldxWith (.zeroPageY z) s

/-- LDX absolute, AE (R181). -/
def execLdxAbs (a : Word) (s : State) : Host.Outcome State Fault Refusal := ldxWith (.absolute a) s

/-- LDX absolute,Y, BE (R181). -/
def execLdxAbsY (a : Word) (s : State) : Host.Outcome State Fault Refusal := ldxWith (.absoluteY a) s

/-- Load Y, in any mode (R182). -/
def ldyWith (o : Operand) (s : State) : Host.Outcome State Fault Refusal :=
  reading o (fun v t => { t with y := v, p := t.p.setNZ v }) s

/-- LDY immediate, A0 (R182). -/
def execLdyImm (v : Byte) (s : State) : Host.Outcome State Fault Refusal := ldyWith (.immediate v) s

/-- LDY zero-page, A4 (R182). -/
def execLdyZp (z : Byte) (s : State) : Host.Outcome State Fault Refusal := ldyWith (.zeroPage z) s

/-- LDY zero-page,X, B4 (R182). -/
def execLdyZpX (z : Byte) (s : State) : Host.Outcome State Fault Refusal := ldyWith (.zeroPageX z) s

/-- LDY absolute, AC (R182). -/
def execLdyAbs (a : Word) (s : State) : Host.Outcome State Fault Refusal := ldyWith (.absolute a) s

/-- LDY absolute,X, BC (R182). -/
def execLdyAbsX (a : Word) (s : State) : Host.Outcome State Fault Refusal := ldyWith (.absoluteX a) s

/-- Store A, in any mode (R183). -/
def staWith (o : Operand) (s : State) : Host.Outcome State Fault Refusal := storing o s.a s

/-- STA zero-page, 85 (R183). -/
def execStaZp (z : Byte) (s : State) : Host.Outcome State Fault Refusal := staWith (.zeroPage z) s

/-- STA zero-page,X, 95 (R183). -/
def execStaZpX (z : Byte) (s : State) : Host.Outcome State Fault Refusal := staWith (.zeroPageX z) s

/-- STA absolute, 8D (R183). -/
def execStaAbs (a : Word) (s : State) : Host.Outcome State Fault Refusal := staWith (.absolute a) s

/-- STA absolute,X, 9D (R183). -/
def execStaAbsX (a : Word) (s : State) : Host.Outcome State Fault Refusal := staWith (.absoluteX a) s

/-- STA absolute,Y, 99 (R183). -/
def execStaAbsY (a : Word) (s : State) : Host.Outcome State Fault Refusal := staWith (.absoluteY a) s

/-- STA (zp,X), 81 (R183). -/
def execStaIndX (z : Byte) (s : State) : Host.Outcome State Fault Refusal := staWith (.indexedIndirect z) s

/-- STA (zp),Y, 91 (R183). -/
def execStaIndY (z : Byte) (s : State) : Host.Outcome State Fault Refusal := staWith (.indirectIndexed z) s

/-- Store X, in any mode (R184). -/
def stxWith (o : Operand) (s : State) : Host.Outcome State Fault Refusal := storing o s.x s

/-- STX zero-page, 86 (R184). -/
def execStxZp (z : Byte) (s : State) : Host.Outcome State Fault Refusal := stxWith (.zeroPage z) s

/-- STX zero-page,Y, 96 (R184). -/
def execStxZpY (z : Byte) (s : State) : Host.Outcome State Fault Refusal := stxWith (.zeroPageY z) s

/-- STX absolute, 8E (R184). -/
def execStxAbs (a : Word) (s : State) : Host.Outcome State Fault Refusal := stxWith (.absolute a) s

/-- Store Y, in any mode (R185). -/
def styWith (o : Operand) (s : State) : Host.Outcome State Fault Refusal := storing o s.y s

/-- STY zero-page, 84 (R185). -/
def execStyZp (z : Byte) (s : State) : Host.Outcome State Fault Refusal := styWith (.zeroPage z) s

/-- STY zero-page,X, 94 (R185). -/
def execStyZpX (z : Byte) (s : State) : Host.Outcome State Fault Refusal := styWith (.zeroPageX z) s

/-- STY absolute, 8C (R185). -/
def execStyAbs (a : Word) (s : State) : Host.Outcome State Fault Refusal := styWith (.absolute a) s

end Sys2Proof.Machine
end

