-- ==== Sys2Proof/Machine/Transfer.lean ====
section
/-! DEFINITION. Register transfers and stack operations: one meaning per constructor of Instr, each over an operation its forms share (41_load_store_transfer.md R186 to R195). -/

namespace Sys2Proof.Machine

/-- TAX implied, AA (R186). -/
def execTax (s : State) : Host.Outcome State Fault Refusal :=
  .next { s with x := s.a, p := s.p.setNZ s.a }

/-- TAY implied, A8 (R187). -/
def execTay (s : State) : Host.Outcome State Fault Refusal :=
  .next { s with y := s.a, p := s.p.setNZ s.a }

/-- TXA implied, 8A (R188). -/
def execTxa (s : State) : Host.Outcome State Fault Refusal :=
  .next { s with a := s.x, p := s.p.setNZ s.x }

/-- TYA implied, 98 (R189). -/
def execTya (s : State) : Host.Outcome State Fault Refusal :=
  .next { s with a := s.y, p := s.p.setNZ s.y }

/-- TSX implied, BA (R190). -/
def execTsx (s : State) : Host.Outcome State Fault Refusal :=
  .next { s with x := s.sp, p := s.p.setNZ s.sp }

/-- TXS implied, 9A (R191). -/
def execTxs (s : State) : Host.Outcome State Fault Refusal :=
  .next { s with sp := s.x }

/-- PHA implied, 48 (R192). -/
def execPha (s : State) : Host.Outcome State Fault Refusal :=
  .next (push s.a s)

/-- PLA implied, 68 (R193). -/
def execPla (s : State) : Host.Outcome State Fault Refusal :=
  .next { pull s with a := pulled s, p := s.p.setNZ (pulled s) }

/-- PHP implied, 08 (R194). -/
def execPhp (s : State) : Host.Outcome State Fault Refusal :=
  .next (push (s.p.toByte ||| 0x30) s)

/-- PLP implied, 28 (R195). -/
def execPlp (s : State) : Host.Outcome State Fault Refusal :=
  .next { pull s with p := Flags.ofByte (pulled s) }

end Sys2Proof.Machine
end

