-- ==== Sys2Proof/Machine/Program.lean ====
section
/-! DEFINITION. Handler programs: the handlers an `OPCODE_TABLE` brings of its own, made of the operand access, bus access and
stack operations the rules of files 41 to 43 are made of (40_engine.md R140, R141, R152; assumption 25). -/

namespace Sys2Proof.Machine

/-- The address a control transfer takes from its operand; an operand that is no address, which no such instruction of the
default table has, gives a free one (assumption 25). -/
def targetOf (r : Resolved) (s : State) : Word × State :=
  match r with
  | .addr a => (a, s)
  | .nothing | .acc | .value _ =>
    (wordOf (Config.freeByte s.draws) (Config.freeByte (s.draws + 1)), { s with draws := s.draws + 2 })

/-! ## Words -/

/-- A word of 1 or 0. -/
def boolWord (b : Bool) : Word := if b then 1 else 0

/-- The n-th temporary; 0 until it is set. -/
def tempAt (n : Nat) (temps : List Word) : Word := temps.getD n 0

/-- The temporaries with the n-th set. -/
def setTemp : Nat → Word → List Word → List Word
  | 0, w, temps => w :: temps.tail
  | n + 1, w, temps => temps.headD 0 :: setTemp n w temps.tail

/-- The value of a register of a handler program, a byte at its low end. -/
def regValue (r : HandlerReg) (temps : List Word) (s : State) : Word :=
  match r with
  | .a => s.a.setWidth 16
  | .x => s.x.setWidth 16
  | .y => s.y.setWidth 16
  | .sp => s.sp.setWidth 16
  | .pc => s.pc
  | .p => s.p.toByte.setWidth 16
  | .pageCrossed => boolWord s.pageCrossed
  | .branchTaken => boolWord s.branchTaken
  | .temp n => tempAt n temps

/-- The state after a register of a handler program is set; an 8-bit register takes the low byte. -/
def setReg (r : HandlerReg) (w : Word) (s : State) : State :=
  match r with
  | .a => { s with a := loByte w }
  | .x => { s with x := loByte w }
  | .y => { s with y := loByte w }
  | .sp => { s with sp := loByte w }
  | .pc => { s with pc := w }
  | .p => { s with p := Flags.ofByte (loByte w) }
  | .pageCrossed => { s with pageCrossed := w != 0 }
  | .branchTaken => { s with branchTaken := w != 0 }
  | .temp _ => s

/-- The temporaries after a register of a handler program is set. -/
def setTemps (r : HandlerReg) (w : Word) (temps : List Word) : List Word :=
  match r with
  | .temp n => setTemp n w temps
  | .a | .x | .y | .sp | .pc | .p | .pageCrossed | .branchTaken => temps

/-- An operation on words, modulo 2^16; a comparison gives 1 or 0. -/
def wordOp (o : WordOp) (l r : Word) : Word :=
  match o with
  | .add => l + r
  | .sub => l - r
  | .mul => l * r
  | .and => l &&& r
  | .or => l ||| r
  | .xor => l ^^^ r
  | .shl => l <<< r.toNat
  | .shr => l >>> r.toNat
  | .eq => boolWord (l == r)
  | .lt => boolWord (decide (l.toNat < r.toNat))

/-- The value of an expression. -/
def exprValue (temps : List Word) (s : State) : HandlerExpr → Word
  | .lit w => w
  | .get r => regValue r temps s
  | .op o l r => wordOp o (exprValue temps s l) (exprValue temps s r)

/-! ## Operations -/

/-- What an operation leaves to the next: its number, and the temporaries. -/
structure Progress where
  next  : Nat
  temps : List Word

/-- The operation after the one at `c`, a register having been set. -/
def setting (c : Paused) (r : HandlerReg) (w : Word) (s : State) : Res Progress :=
  .done { next := c.next + 1, temps := setTemps r w c.temps } (setReg r w s)

/-- The operation after the one at `c`, no register having been set. -/
def passing (c : Paused) (s : State) : Res Progress := .done { next := c.next + 1, temps := c.temps } s

/-- One operation of a handler program that has come to `c`. -/
def runOp (op : HandlerOp) (c : Paused) (s : State) : Res Progress :=
  match op with
  | .set r e => setting c r (exprValue c.temps s e) s
  | .jump e target => .done { next := if exprValue c.temps s e = 0 then c.next + 1 else target, temps := c.temps } s
  | .address r => setting c r (targetOf c.operand s).1 (targetOf c.operand s).2
  | .load r => (load c.operand s).bind fun v t => setting c r (v.setWidth 16) t
  | .store e => (store c.operand (loByte (exprValue c.temps s e)) s).bind fun _ t => passing c t
  | .read r e => (busRead (exprValue c.temps s e) s).bind fun v t => setting c r (v.setWidth 16) t
  | .write e v =>
    (busWrite (exprValue c.temps s e) (loByte (exprValue c.temps s v)) s).bind fun _ t => passing c t
  | .push e => passing c (push (loByte (exprValue c.temps s e)) s)
  | .pull r => setting c r ((pulled s).setWidth 16) (pull s)

/-! ## Programs -/

/-- A handler program from `c` on, for at most `n` operations.  An operation whose channel read has no reply yet is the one
it goes on with: what the program did before it stands, so writes and reads keep their order (50_channel_protocol.md R262,
R263); the bytes from outside that this operation has already read are kept, as `complete` keeps them for an instruction. -/
def runProgram (p : HandlerProgram) : Nat → Paused → State → Host.Outcome State Fault Refusal
  | 0, _, s => .next s
  | n + 1, c, s =>
    match p.ops[c.next]? with
    | none => .next s
    | some op =>
      match runOp op c { s with log := [] } with
      | .done g t => runProgram p n { c with next := g.next, temps := g.temps } t
      | .wait q t =>
        .next (suspend q { s with feed := t.log, log := [], draws := t.draws, paused := some c })

/-- A handler program that waited, the reply being in `feed`. -/
def continueProgram (p : HandlerProgram) (c : Paused) (s : State) : Host.Outcome State Fault Refusal :=
  runProgram p p.limit c s

/-- A handler program at an operand of any mode but the indirect one (40_engine.md R140). -/
def startProgram (p : HandlerProgram) (o : Operand) (s : State) : Host.Outcome State Fault Refusal :=
  runProgram p p.limit { operand := resolve o s, next := 0, temps := [] } (afterResolve o s)

end Sys2Proof.Machine
end

