-- ==== Sys2Proof/Machine/Forms.lean ====
section
/-! DEFINITION. Every mnemonic's rule at an operand of ANY mode, and what a descriptor of an arbitrary `OPCODE_TABLE` runs: a
mnemonic's rule or a handler program (40_engine.md R140, R141, R152).  On the 151 rows of spec/opcode_table.json these are the
meanings `exec` dispatches to. -/

namespace Sys2Proof.Machine

/-- `branch(cond, opnd)` at any operand (40_engine.md R160). -/
def branchAt (cond : Bool) (o : Operand) (s : State) : Host.Outcome State Fault Refusal :=
  let t := afterResolve o s
  let q := targetOf (resolve o s) t
  .next (if cond then { q.2 with branchTaken := true, pc := q.1 } else t)

/-- JMP at any operand (43_control_flags.md R238). -/
def jmpAt (o : Operand) (s : State) : Host.Outcome State Fault Refusal :=
  let q := targetOf (resolve o s) (afterResolve o s)
  .next (q.2.setPc q.1)

/-- JSR at any operand (43_control_flags.md R239). -/
def jsrAt (o : Operand) (s : State) : Host.Outcome State Fault Refusal :=
  let q := targetOf (resolve o s) (afterResolve o s)
  .next ((push16 (s.pc - 1) q.2).setPc q.1)

/-- The rule of a mnemonic at an operand of any mode but the indirect one (41_load_store_transfer.md, 42_arith_logic.md,
43_control_flags.md).  A rule without operand runs after the resolver. -/
def ruleAt (m : Mnemonic) (o : Operand) (s : State) : Host.Outcome State Fault Refusal :=
  match m with
  | .lda => ldaWith o s
  | .ldx => ldxWith o s
  | .ldy => ldyWith o s
  | .sta => staWith o s
  | .stx => stxWith o s
  | .sty => styWith o s
  | .tax => execTax (afterResolve o s)
  | .tay => execTay (afterResolve o s)
  | .txa => execTxa (afterResolve o s)
  | .tya => execTya (afterResolve o s)
  | .tsx => execTsx (afterResolve o s)
  | .txs => execTxs (afterResolve o s)
  | .pha => execPha (afterResolve o s)
  | .pla => execPla (afterResolve o s)
  | .php => execPhp (afterResolve o s)
  | .plp => execPlp (afterResolve o s)
  | .adc => adcWith o s
  | .sbc => sbcWith o s
  | .and => andWith o s
  | .ora => oraWith o s
  | .eor => eorWith o s
  | .bit => bitWith o s
  | .cmp => cmpWith o s
  | .cpx => cpxWith o s
  | .cpy => cpyWith o s
  | .inc => incWith o s
  | .dec => decWith o s
  | .inx => execInx (afterResolve o s)
  | .iny => execIny (afterResolve o s)
  | .dex => execDex (afterResolve o s)
  | .dey => execDey (afterResolve o s)
  | .asl => aslWith o s
  | .lsr => lsrWith o s
  | .rol => rolWith o s
  | .ror => rorWith o s
  | .bpl => branchAt (!s.p.n) o s
  | .bmi => branchAt s.p.n o s
  | .bvc => branchAt (!s.p.v) o s
  | .bvs => branchAt s.p.v o s
  | .bcc => branchAt (!s.p.c) o s
  | .bcs => branchAt s.p.c o s
  | .bne => branchAt (!s.p.z) o s
  | .beq => branchAt s.p.z o s
  | .jmp => jmpAt o s
  | .jsr => jsrAt o s
  | .rts => execRts (afterResolve o s)
  | .rti => execRti (afterResolve o s)
  | .brk => execBrk (afterResolve o s)
  | .clc => execClc (afterResolve o s)
  | .sec => execSec (afterResolve o s)
  | .cli => execCli (afterResolve o s)
  | .sei => execSei (afterResolve o s)
  | .clv => execClv (afterResolve o s)
  | .cld => execCld (afterResolve o s)
  | .sed => execSed (afterResolve o s)
  | .nop => execNop (afterResolve o s)

/-- A handler at an operand of any mode but the indirect one (40_engine.md R140). -/
def handlerAt (h : Handler) (o : Operand) (s : State) : Host.Outcome State Fault Refusal :=
  match h with
  | .rule m => ruleAt m o s
  | .program p => startProgram p o s

/-- A handler from its start, at an operand of any mode: the indirect one is resolved first, and the handler then sees the
address it found (40_engine.md R140, R148). -/
def handlerFrom (h : Handler) (o : Operand) (s : State) : Host.Outcome State Fault Refusal :=
  match o with
  | .indirect ptr =>
    match indirectAddress ptr s with
    | .done a t => handlerAt h (.absolute a) t
    | .wait q t => complete s (.wait q t)
  | o => handlerAt h o s

/-- A handler at an operand of any mode; a program that waited on a channel read goes on where it stopped (40_engine.md R140,
10_state.md R38). -/
def handlerWith (h : Handler) (o : Operand) (s : State) : Host.Outcome State Fault Refusal :=
  match h with
  | .rule m => handlerFrom (.rule m) o s
  | .program p =>
    match s.paused with
    | none => handlerFrom (.program p) o s
    | some c => continueProgram p c s

/-- What was fetched, executed: an instruction by its meaning, any other pairing by its handler (40_engine.md R140). -/
def execFetched (f : Fetched) (s : State) : Host.Outcome State Fault Refusal :=
  match f with
  | .instr i => exec i s
  | .form h o => handlerWith h o s

end Sys2Proof.Machine
end

