-- ==== Sys2Proof/Machine/Engine.lean ====
section
/-! DEFINITION. The CPU's engine: cycle accounting, fetch, `execute_one`, resuming after a reply, the boundary step, and
whose turn a step is (40_engine.md R140, R153; 50_channel_protocol.md R261, R263, R268, R270, R272; 60_exceptions.md
R350 to R360). -/

namespace Sys2Proof.Machine

/-- The cost of an instruction by its descriptor and the adjustment flags (40_engine.md R153). -/
def rowCost (r : OpcodeRow) (pageCrossed branchTaken : Bool) : Nat :=
  r.baseCycles +
    (match r.penalty with
      | .none => 0
      | .page => if pageCrossed then 1 else 0
      | .branch => if branchTaken then 1 + (if pageCrossed then 1 else 0) else 0)

/-- The cost of the instruction of an opcode byte (40_engine.md R153). -/
def opcodeCost (prm : Params) (opcode : Byte) (pageCrossed branchTaken : Bool) : Nat :=
  match prm.opcodes.descriptor opcode with
  | none => 0
  | some r => rowCost r pageCrossed branchTaken

/-- The end of an instruction: its cost and `extra` are charged (40_engine.md R140). -/
def retire (opcode : Byte) (s : State) : State :=
  { s with
    cycles := s.cycles + opcodeCost s.params opcode s.pageCrossed s.branchTaken + s.extra
    work := .none, feed := [], log := [], paused := none }

/-- Execute what was fetched: it is retired, or suspended with its execution as the remaining work (40_engine.md R140,
10_state.md R38). -/
def runFetched (opcode : Byte) (f : Fetched) (s : State) : Host.Outcome State Fault Refusal :=
  match execFetched f s with
  | .next t => .next (if t.run = .running then retire opcode t else { t with work := .execute opcode f })
  | .fault e => .fault e
  | .refused r => .refused r

/-- The fatal fault of an unknown opcode: the run state records the byte and its address, PC stays past the byte, nothing
else changes (60_exceptions.md R360). -/
def haltUnknown (b : Byte) (s : State) : State :=
  { s with run := .halted (.unknownOpcode b (s.pc - 1)), work := .none }

/-- Fetch on, with at most `n` bytes to come, the instruction whose bytes so far are `got`, then execute it
(40_engine.md R140, R143 to R151; 30_encoding.md R123). -/
def fetchOn : Nat → List Byte → State → Host.Outcome State Fault Refusal
  | n, got, s =>
    match decode s.params.opcodes got with
    | .instr i _ => runFetched (got.headD 0) (.instr i) s
    | .form h o _ => runFetched (got.headD 0) (.form h o) s
    | .unknownOpcode b => .next (haltUnknown b s)
    | .needMore =>
      match n with
      | 0 => .refused .tooLong
      | k + 1 =>
        match busRead s.pc s with
        | .done v t => fetchOn k (got ++ [v]) { t with pc := t.pc + 1, log := [] }
        | .wait r t => .next (suspend r { t with work := .fetch got })

/-- The state an `execute_one` starts from: the adjustment flags cleared (40_engine.md R140). -/
def startInstr (s : State) : State :=
  { s with
    pageCrossed := false, branchTaken := false, extra := 0, work := .none, feed := [], log := [], paused := none }

/-- `execute_one` (40_engine.md R140). -/
def executeOne (s : State) : Host.Outcome State Fault Refusal := fetchOn 3 [] (startInstr s)

/-- Go on with a suspended instruction, the reply being `v` (50_channel_protocol.md R261, R263). -/
def resume (v : Byte) (s : State) : Host.Outcome State Fault Refusal :=
  let t := { s with run := .running, work := .none }
  match s.work with
  | .none => .next t
  | .fetch got => fetchOn (2 - got.length) (got ++ [v]) { t with pc := t.pc + 1 }
  | .execute opcode f => runFetched opcode f { t with feed := t.feed ++ [v] }

/-- The CPU's step in AwaitRead: resume with the reply; with no reply, blocked while the peer lives, and the race of
0x00 against stuck when it has gone (50_channel_protocol.md R261, R263, R268). -/
def awaitStep (r : ReadRequest) (s : State) : Host.Outcome State Fault Refusal :=
  match r with
  | .ppu _ =>
    match s.ppuChan.results with
    | v :: vs => resume v { s with ppuChan := { s.ppuChan with results := vs } }
    | [] =>
      if s.alivePpu then .next s
      else if Config.peerGoneResumes s.draws then
        resume 0 { s with ppuChan := { s.ppuChan with reads := [] }, draws := s.draws + 1 }
      else .next { s with stuck := true, draws := s.draws + 1 }
  | .apu _ =>
    match s.apuChan.results with
    | v :: vs => resume v { s with apuChan := { s.apuChan with results := vs } }
    | [] =>
      if s.aliveApu then .next s
      else if Config.peerGoneResumes s.draws then
        resume 0 { s with apuChan := { s.apuChan with reads := [] }, draws := s.draws + 1 }
      else .next { s with stuck := true, draws := s.draws + 1 }

/-- Seven cycles, charged by every entry of the boundary step (60_exceptions.md R357). -/
def chargeEntry (s : State) : State := { s with cycles := s.cycles + 7 }

/-- The poll of the three signal FIFOs: at most one element of each is consumed; a `frame_end` is reported to the host
(50_channel_protocol.md R270, R271). -/
def pollSignals (s : State) : State :=
  { s with
    vblankStart := s.vblankStart.tail
    vblankEnd := s.vblankEnd - 1
    frameEnd := s.frameEnd - 1
    frameEndsSeen := if s.frameEnd = 0 then s.frameEndsSeen else s.frameEndsSeen + 1 }

/-- The element about to be consumed requests an NMI (60_exceptions.md R351). -/
def nmiRequested (s : State) : Bool := s.params.nmiWired && s.vblankStart.head? == some true

/-- The CPU's exit on shutdown; in `lockstep` the three loops end together (50_channel_protocol.md R269, R272). -/
def shutDown (s : State) : State :=
  match s.params.syncMode with
  | .async => { s with run := .exited }
  | .lockstep => { s with run := .exited, alivePpu := false, aliveApu := false }

/-- The trace tuple of a state (40_engine.md R161). -/
def State.traceTuple (s : State) : TraceTuple :=
  { a := s.a, x := s.x, y := s.y, sp := s.sp, pc := s.pc, p := s.p.toByte }

/-- Record the trace tuple (40_engine.md R161, 60_exceptions.md R355). -/
def recordTrace (s : State) : State := { s with trace := s.trace ++ [s.traceTuple] }

/-- The boundary step: shutdown, reset, signals and NMI, IRQ, the next instruction, in that order (60_exceptions.md
R355). -/
def boundary (s : State) : Host.Outcome State Fault Refusal :=
  if s.shutdown then .next (shutDown s)
  else if s.resetRequest then .next (chargeEntry (resetEntry { s with resetRequest := false }))
  else
    let t := pollSignals s
    if nmiRequested s then .next (chargeEntry (nmiEntry t))
    else if t.irqLine && !t.p.b then .next (chargeEntry (irqAccept t))
    else executeOne (recordTrace t)

/-- In `lockstep` the PPU's clock follows the cycles the CPU's step charged (50_channel_protocol.md R272). -/
def followCpu (before : State) (after : State) : State :=
  match before.params.syncMode with
  | .async => after
  | .lockstep =>
    if after.alivePpu then
      advanceClocks (after.params.ppuTicksPerCpuCycle * (after.cycles - before.cycles)) after
    else after

/-- The CPU's turn (50_channel_protocol.md R261). -/
def cpuMove (s : State) : Host.Outcome State Fault Refusal :=
  match s.run with
  | .running =>
    match boundary s with
    | .next t => .next (followCpu s t)
    | .fault f => .fault f
    | .refused r => .refused r
  | .awaitRead r => if s.stuck then .next s else awaitStep r s
  | .halted _ | .exited => .next s

/-- One agent's turn (50_channel_protocol.md R261).  An agent that is not enabled changes nothing. -/
def act (m : Move) (s : State) : Host.Outcome State Fault Refusal :=
  match m with
  | .cpu => cpuMove s
  | .ppu => .next (ppuMove s)
  | .apu => .next (apuMove s)
  | .host h => .next (hostMove h s)

/-- The turns to come: the scripted ones, or, where none is scripted, free turns up to and with the next due one
(50_channel_protocol.md R261). -/
def upcoming (s : State) : List Move :=
  match s.script with
  | m :: ms => m :: ms
  | [] => Config.burst s.moves ++ [dueMove s.moves]

/-- Whose turn it is (50_channel_protocol.md R261).  The turns to come are never none. -/
def nextMove (s : State) : Move := (upcoming s).headD .cpu

/-- The state once the move is chosen. -/
def moveTaken (s : State) : State :=
  { s with script := (upcoming s).tail, moves := if s.script = [] then s.moves + 1 else s.moves }

/-- Every agent has returned: the CPU has exited or is halted for good, and both responders have gone (50_channel_protocol.md
R261; 60_exceptions.md R360, R369).  A CPU that is stuck has not returned. -/
def allReturned (s : State) : Bool :=
  match s.run with
  | .running | .awaitRead _ => false
  | .halted _ | .exited => !s.alivePpu && !s.aliveApu

/-- How the run stands once every agent has returned (60_exceptions.md R369). -/
def endFault (s : State) : Fault :=
  match s.run with
  | .halted cause => .halted cause
  | .running | .awaitRead _ | .exited => .runEnded

end Sys2Proof.Machine
end

