-- ==== Sys2Proof/Machine/Step.lean ====
section
/-! DEFINITION. The step of the machine: one agent's turn, or, once every agent has returned, the fault that says how the
run ended; and the state that runs a given instruction next. -/

namespace Sys2Proof.Machine

/-- One step of the core (50_channel_protocol.md R261). -/
def step (s : State) : Host.Outcome State Fault Refusal :=
  if allReturned s then .fault (endFault s) else act (nextMove s) (moveTaken s)

/-- Three bytes fetched from `pc` can be stored there: all in RAM, or all at distinct places of the program image. -/
def State.storableAt (s : State) (pc : Word) : Bool :=
  decide (pc.toNat + 2 < 0x2000) ||
    (decide (0x8000 ≤ pc.toNat ∧ pc.toNat + 2 < 0x10000) && s.cart.offset pc != s.cart.offset (pc + 1) &&
      s.cart.offset pc != s.cart.offset (pc + 2) && s.cart.offset (pc + 1) != s.cart.offset (pc + 2))

/-- Store a byte where a fetch of the address reads it. -/
def State.poke (s : State) (a : Word) (v : Byte) : State :=
  match readTarget a with
  | .ram i => { s with ram := s.ram.write i v }
  | .cartridge => { s with cart := { s.cart with prg := s.cart.prg.write (s.cart.offset a) v } }
  | _ => s

/-- Store bytes at successive addresses. -/
def State.pokeAll (s : State) (a : Word) : List Byte → State
  | [] => s
  | v :: vs => State.pokeAll (s.poke a v) (a + 1) vs

/-- `s` with the instruction of a table word stored where the CPU fetches next, and with the next step being the CPU's
fetch of it: no entry pending, no shutdown, the CPU running at a boundary, its move first in the script (assumption 14).
Where PC points at no storable place, PC is 0. -/
def State.withFetchWord (s : State) (nbits w : Nat) : State :=
  let pc := if s.storableAt s.pc then s.pc else 0
  let t :=
    { s with
      pc := pc, run := .running, work := .none, feed := [], log := [], paused := none, stuck := false
      resetRequest := false, irqLine := false, shutdown := false, vblankStart := [], script := .cpu :: s.script }
  t.pokeAll pc (tableBytes nbits w)

end Sys2Proof.Machine
end

