-- ==== Sys2Proof/Machine/Construct.lean ====
section
/-! DEFINITION. Construction of the core from an image, the parameters and the power-on contents: refused as a typed
failure where the spec refuses it (20_memory.md R88, 51_ppu.md R313, 42_arith_logic.md R197, 60_exceptions.md R361,
70_reset_and_hazards.md R380). -/

namespace Sys2Proof.Machine

/-- Why a core is not constructed. -/
inductive ConstructionFailure where
  /-- the program image is empty (20_memory.md R88) -/
  | emptyProgram
  /-- a byte list of the image or of the power-on contents is not in canonical form or exceeds its memory -/
  | malformedImage
  /-- `DECIMAL_MODE = true` (42_arith_logic.md R197) -/
  | decimalMode
  /-- illegal clock parameters (51_ppu.md R313) -/
  | clock
  /-- an ill-formed mapper table (20_memory.md R89) -/
  | mapperTable
  /-- an opcode table with two descriptors for a byte, which is no map (40_engine.md R141) -/
  | opcodeTable
  deriving DecidableEq, Repr

/-- The image's bytes are where the image has room for them. -/
def Image.wf (img : Image) : Bool :=
  decide (Memory.wf img.prgSize img.prg) &&
    (match img.chr with
      | none => true
      | some m => decide (m.Pairwise (fun c d => c.1 < d.1)) && m.all fun c => c.2 != Memory.blank)

/-- The power-on contents fit their memories. -/
def PowerOn.wf (d : PowerOn) : Bool :=
  decide (Memory.wf ramSize d.ram) && decide (Memory.wf 256 d.oam) && decide (Memory.wf 2048 d.vram) &&
    decide (Memory.wf 32 d.palette) && decide (Memory.wf 8192 d.chrRam)

/-- Construct the core, or say why not (20_memory.md R88, 70_reset_and_hazards.md R380). -/
def construct (prm : Params) (img : Image) (d : PowerOn) : Except ConstructionFailure State :=
  if img.prgSize = 0 then .error .emptyProgram
  else if !(img.wf && d.wf) then .error .malformedImage
  else if prm.decimalMode then .error .decimalMode
  else if !prm.clockWf then .error .clock
  else if !prm.mappersWf then .error .mapperTable
  else if !prm.opcodes.wf then .error .opcodeTable
  else .ok (State.powerOn prm img d)

end Sys2Proof.Machine
end

