-- ==== Sys2Proof/Safety.lean ====
section
/-! DEFINITION. What is observed of a run, how a run ends, and the predicates over states that claims are stated in:
observation 40_engine.md R161, ends 60_exceptions.md R369, fairness 50_channel_protocol.md R261, invariants 10_state.md R36, R38, R45, R48 and
50_channel_protocol.md R277. -/

namespace Sys2Proof.Machine

/-- The ends of a run (60_exceptions.md R369): `END_PC` and shutdown are normal ends with their end state, a halt is a
faulted end with its recorded cause.  A CPU stuck in AwaitRead never ends. -/
inductive RunEnd where
  | endPc (s : State)
  | shutdown (s : State)
  | halted (cause : FatalCause)
  deriving DecidableEq, Repr

/-- The CPU is about to take a boundary step at `PC = END_PC` (60_exceptions.md R369). -/
def State.atEndPc (s : State) : Bool :=
  decide (s.run = .running) && decide (s.params.endPc = some s.pc) && decide (nextMove s = .cpu)

/-- How the run stands at a state, if it has ended there (60_exceptions.md R369). -/
def State.runEnd (s : State) : Option RunEnd :=
  match s.run with
  | .halted cause => some (.halted cause)
  | .exited => if !s.alivePpu && !s.aliveApu then some (.shutdown s) else none
  | .running => if s.atEndPc then some (.endPc s) else none
  | .awaitRead _ => none

/-- The observation of a run: the trace tuples of its boundaries, the frames handed to the host, and the end state or the
recorded fault (60_exceptions.md R369). -/
structure Observation where
  trace  : List TraceTuple
  frames : List FrameOut
  ending : RunEnd
  deriving DecidableEq, Repr

/-- What is observed of the run that has come to this state, if it has ended (60_exceptions.md R369; power-on starts with
nothing recorded). -/
def State.observation (s : State) : Option Observation :=
  s.runEnd.map fun e => { trace := s.trace, frames := s.framesOut, ending := e }

/-- Run to the first state at which the run has ended, for at most `n` steps (60_exceptions.md R369). -/
def State.runToEnd : Nat → State → Host.Outcome State Fault Refusal
  | 0, s => .next s
  | n + 1, s =>
    match s.runEnd with
    | some _ => .next s
    | none =>
      match step s with
      | .next t => State.runToEnd n t
      | .fault f => .fault f
      | .refused r => .refused r

/-! ## Runs and fairness -/

/-- When each agent is enabled (the table of 50_channel_protocol.md R261): a CPU that waits is enabled by a reply, or, not
being stuck, by the exit of its responder (R268). -/
def State.enabled (s : State) : Agent → Bool
  | .cpu =>
    match s.run with
    | .running => true
    | .awaitRead (.ppu _) => !s.stuck && (!s.ppuChan.results.isEmpty || !s.alivePpu)
    | .awaitRead (.apu _) => !s.stuck && (!s.apuChan.results.isEmpty || !s.aliveApu)
    | .halted _ | .exited => false
  | .ppu => s.alivePpu
  | .apu => s.aliveApu
  | .host => !allReturned s

/-- A run as a sequence of states: each is the step of the one before; a run in which every agent has returned stays at
its end (50_channel_protocol.md R261). -/
def IsRun (r : Nat → State) : Prop :=
  ∀ n, step (r n) = .next (r (n + 1)) ∨ (allReturned (r n) = true ∧ r (n + 1) = r n)

/-- Weak fairness: an agent that stays enabled takes a step eventually (50_channel_protocol.md R261;
70_reset_and_hazards.md R392). -/
def WeaklyFair (r : Nat → State) : Prop :=
  ∀ (g : Agent) (n : Nat), (∀ k, n ≤ k → (r k).enabled g = true) → ∃ k, n ≤ k ∧ (nextMove (r k)).agent = g

/-! ## Predicates over states -/

/-- Every memory is in its canonical form and within its size. -/
abbrev State.MemoriesWf (s : State) : Prop :=
  Memory.wf ramSize s.ram ∧ Memory.wf s.cart.prgSize s.cart.prg ∧ Memory.wf 256 s.ppu.oam ∧
    Memory.wf 2048 s.ppu.vram ∧ Memory.wf 32 s.ppu.palette ∧ Memory.wf 8192 s.ppu.chr ∧
    Memory.wf 61440 s.ppu.frame ∧ Memory.wf 0x18 s.apuLatch ∧ ∀ f ∈ s.framesOut, Memory.wf 61440 f.frame

/-- The scanline clock is within its bounds, and a hit row is a screen row (10_state.md R45). -/
abbrev State.ClockWf (s : State) : Prop :=
  s.ppu.cycle < s.params.cyclesPerScanline ∧ s.ppu.scanline ≤ s.params.lastLine ∧
    (∀ r, s.ppu.hitRow = some r → r < 240)

/-- How many requests of the PPU channel are outstanding: queued, or answered and not yet taken. -/
def State.ppuOutstanding (s : State) : Nat := s.ppuChan.reads.length + s.ppuChan.results.length

/-- How many requests of the APU channel are outstanding. -/
def State.apuOutstanding (s : State) : Nat := s.apuChan.reads.length + s.apuChan.results.length

/-- At most one request is outstanding over both channels, and only on the channel the CPU awaits
(50_channel_protocol.md R277 (1), (2)). -/
abbrev State.ChannelsWf (s : State) : Prop :=
  match s.run with
  | .awaitRead (.ppu _) => s.ppuOutstanding ≤ 1 ∧ s.apuOutstanding = 0
  | .awaitRead (.apu _) => s.ppuOutstanding = 0 ∧ s.apuOutstanding ≤ 1
  | .running | .halted _ | .exited => s.ppuOutstanding = 0 ∧ s.apuOutstanding = 0

/-- A running CPU has no remaining work and nothing kept from a suspended instruction, and a fetch that waits has no handler
program to go on with (10_state.md R36, R38). -/
abbrev State.WorkWf (s : State) : Prop :=
  match s.run with
  | .running => s.work = .none ∧ s.feed = [] ∧ s.log = [] ∧ s.paused = none
  | .awaitRead _ => s.work ≠ .none ∧ s.log = [] ∧ ∀ got, s.work = .fetch got → s.paused = none
  | .halted _ | .exited => True

/-- In `lockstep` the CPU never awaits and the command FIFOs are empty (50_channel_protocol.md R272). -/
abbrev State.LockstepWf (s : State) : Prop :=
  s.params.syncMode = .lockstep →
    (∀ r, s.run ≠ .awaitRead r) ∧ s.ppuChan.writes = [] ∧ s.apuChan.writes = []

/-- The CPU is at a boundary at which nothing takes precedence over the next instruction: its turn, running, no
shutdown, no reset request, no NMI request, no IRQ that would be accepted (60_exceptions.md R355). -/
abbrev State.ReadyToExecute (s : State) : Prop :=
  nextMove s = .cpu ∧ s.run = .running ∧ s.shutdown = false ∧ s.resetRequest = false ∧ nmiRequested s = false ∧
    (s.irqLine && !s.p.b) = false

/-- The byte a bus read of the address finds in RAM or in the cartridge; `none` where the address belongs to a channel or
to nothing (20_memory.md R73, R86). -/
def State.memoryByte (s : State) (a : Word) : Option Byte :=
  match readTarget a with
  | .ram i => some (s.ram.read i)
  | .cartridge => some (s.cart.read a)
  | .ppu _ | .apu _ | .oamDma | .noTarget => none

/-- The bytes at successive addresses, where all lie in RAM or cartridge. -/
def State.memoryBytes (s : State) : Nat → Word → Option (List Byte)
  | 0, _ => some []
  | n + 1, a =>
    match s.memoryByte a, s.memoryBytes n (a + 1) with
    | some v, some vs => some (v :: vs)
    | _, _ => none

/-- The bytes `bs` are read at PC one after the other from `s`, PC advancing past each, and leave `t`: an instruction fetch,
whatever its reads reach (20_memory.md R105; 40_engine.md R140).  A fetched byte is kept with the instruction, not in `log`. -/
def Fetches : State → List Byte → State → Prop
  | s, [], t => t = s
  | s, b :: bs, t => ∃ u, busRead s.pc s = .done b u ∧ Fetches { u with pc := s.pc + 1, log := [] } bs t

/-- The mnemonics that read their operand and change the CPU only (41_load_store_transfer.md R180 to R182,
42_arith_logic.md R200 to R208). -/
def readingMnemonics : List Mnemonic :=
  [.lda, .ldx, .ldy, .adc, .sbc, .and, .ora, .eor, .bit, .cmp, .cpx, .cpy]

/-- The read-modify-write mnemonics (42_arith_logic.md R209, R210, R215 to R218). -/
def modifyingMnemonics : List Mnemonic := [.inc, .dec, .asl, .lsr, .rol, .ror]

/-- The storing mnemonics (41_load_store_transfer.md R183 to R185). -/
def storingMnemonics : List Mnemonic := [.sta, .stx, .sty]

/-- The mnemonics that push (10_state.md R35). -/
def pushingMnemonics : List Mnemonic := [.pha, .php, .jsr, .brk]

/-- The operand byte of a reading instruction, where it needs no channel: an immediate byte, A, or a byte of RAM or
cartridge at the effective address (40_engine.md R152). -/
def operandByte (o : Operand) (s : State) : Option Byte :=
  match resolve o s with
  | .value v => some v
  | .acc => some s.a
  | .addr a => s.memoryByte a
  | .nothing => none

end Sys2Proof.Machine
end

