-- ==== Sys2Proof/Certificates/Slice0/Obligations.lean ====
section
/-! DEFINITION. The statements for the provers, from the numbered rules of spec/.  Each docstring names the rules it
formalises. -/

open Sys2Proof Sys2Proof.Machine

/-! ## Encoding and decoding -/

/-- 30_encoding.md R120, R123: under every well-formed opcode table, an instruction the table encodes is decoded back
from its bytes, whatever follows them; and so is every other handler and operand the table has a row for. -/
def Obligations.DecodeInvertsEncode : Prop :=
  ∀ (t : OpcodeTable) (rest : List Byte), t.wf = true →
    (∀ i : Instr, i.wf t = true → decode t (encode t i ++ rest) = .instr i rest) ∧
    (∀ (h : Handler) (o : Operand), (t.rowFor h o.mode).isSome = true →
      (∀ m, h = .rule m → Instr.ofParts m o = none) → decode t (encodeParts t h o ++ rest) = .form h o rest)

/-- The base cycles and the penalty of a mnemonic in a mode under the default table (40_engine.md R153; the columns
`base_cycles` and `penalty_policy` of opcode_table.json). -/
def standardCost (m : Mnemonic) (md : Mode) : Nat × Penalty :=
  let modifies := decide (m ∈ modifyingMnemonics)
  let stores := decide (m ∈ storingMnemonics)
  match md with
  | .implied =>
    (if m ∈ [Mnemonic.pha, .php] then 3 else if m ∈ [Mnemonic.pla, .plp] then 4
      else if m ∈ [Mnemonic.rts, .rti] then 6 else if m = .brk then 7 else 2, .none)
  | .accumulator | .immediate => (2, .none)
  | .relative => (2, .branch)
  | .indirect => (5, .none)
  | .zeroPage => (if modifies then 5 else 3, .none)
  | .zeroPageX | .zeroPageY => (if modifies then 6 else 4, .none)
  | .absolute => (if m = .jmp then 3 else if m = .jsr ∨ modifies then 6 else 4, .none)
  | .absoluteX | .absoluteY => if modifies then (7, .none) else if stores then (5, .none) else (4, .page)
  | .indexedIndirect => (6, .none)
  | .indirectIndexed => if stores then (6, .none) else (5, .page)

/-- 30_encoding.md R120, R124, 40_engine.md R153: the default table is well-formed and encodes every instruction, as one
opcode byte and the operand bytes of its mode; the descriptor of that byte has the base cycles and the penalty of
opcode_table.json; and the table makes nothing but instructions. -/
def Obligations.StandardTableEncodesEveryInstruction : Prop :=
  OpcodeTable.standard.wf = true ∧
    (∀ i : Instr, i.wf OpcodeTable.standard = true ∧
      (encode OpcodeTable.standard i).length = 1 + i.mode.operandCount) ∧
    (∀ (i : Instr) (b : Byte), (encode OpcodeTable.standard i).head? = some b →
      ∃ r, OpcodeTable.standard.descriptor b = some r ∧ (r.baseCycles, r.penalty) = standardCost i.mnemonic i.mode) ∧
    (∀ (bs : List Byte) (h : Handler) (o : Operand) (rest : List Byte),
      decode OpcodeTable.standard bs ≠ .form h o rest)

/-- 30_encoding.md R121, R123, 40_engine.md R140, R141: what is decoded has the handler and mode of the opcode byte's
descriptor, and its operand bytes are exactly the bytes that were consumed; it is an instruction where the handler is a
mnemonic's rule that the instruction set has in that mode. -/
def Obligations.DecodingFollowsTheDescriptor : Prop :=
  ∀ (t : OpcodeTable) (b : Byte) (bs : List Byte) (rest : List Byte),
    (∀ i : Instr, decode t (b :: bs) = .instr i rest →
      ∃ r, t.descriptor b = some r ∧ r.handler = .rule i.mnemonic ∧ i.mode = r.mode ∧
        bs = i.operand.bytes ++ rest) ∧
    (∀ (h : Handler) (o : Operand), decode t (b :: bs) = .form h o rest →
      ∃ r, t.descriptor b = some r ∧ r.handler = h ∧ o.mode = r.mode ∧ bs = o.bytes ++ rest ∧
        ∀ m, h = .rule m → Instr.ofParts m o = none)

/-- 30_encoding.md R120, R124: a word of every family, written out from the encoding, decodes to its instruction. -/
def Obligations.SampleWordsDecode : Prop :=
  decode OpcodeTable.standard [0xA9, 0x80] = .instr (.ldaImm 0x80) [] ∧
  decode OpcodeTable.standard [0xB6, 0xFF] = .instr (.ldxZpY 0xFF) [] ∧
  decode OpcodeTable.standard [0xBC, 0xFF, 0x00] = .instr (.ldyAbsX 0x00FF) [] ∧
  decode OpcodeTable.standard [0x8D, 0x00, 0x02] = .instr (.staAbs 0x0200) [] ∧
  decode OpcodeTable.standard [0xAA] = .instr .tax [] ∧
  decode OpcodeTable.standard [0x28] = .instr .plp [] ∧
  decode OpcodeTable.standard [0x61, 0x20] = .instr (.adcIndX 0x20) [] ∧
  decode OpcodeTable.standard [0xD1, 0x40] = .instr (.cmpIndY 0x40) [] ∧
  decode OpcodeTable.standard [0x24, 0x10] = .instr (.bitZp 0x10) [] ∧
  decode OpcodeTable.standard [0xFE, 0xFF, 0x12] = .instr (.incAbsX 0x12FF) [] ∧
  decode OpcodeTable.standard [0x6A] = .instr .rorAcc [] ∧
  decode OpcodeTable.standard [0xD0, 0xF9] = .instr (.bne 0xF9) [] ∧
  decode OpcodeTable.standard [0x6C, 0xFF, 0x02] = .instr (.jmpInd 0x02FF) [] ∧
  decode OpcodeTable.standard [0x20, 0x00, 0x90] = .instr (.jsr 0x9000) [] ∧
  decode OpcodeTable.standard [0x00] = .instr .brk [] ∧
  decode OpcodeTable.standard [0xF8] = .instr .sed [] ∧
  decode OpcodeTable.standard [0xEA] = .instr .nop []

/-! ## The step and the instruction -/

/-- The trace tuple of R161. -/
def tupleOf (s : State) : TraceTuple :=
  { a := s.a, x := s.x, y := s.y, sp := s.sp, pc := s.pc, p := s.p.toByte }

/-- The state after the poll of a boundary step: one element of each of the three signal FIFOs is gone, where there is
one, and a `frame_end` is reported to the host; nothing else is changed (50_channel_protocol.md R270, R271). -/
def polled (s : State) : State :=
  { moveTaken s with
    vblankStart := s.vblankStart.tail, vblankEnd := s.vblankEnd - 1, frameEnd := s.frameEnd - 1
    frameEndsSeen := if s.frameEnd = 0 then s.frameEndsSeen else s.frameEndsSeen + 1 }

/-- The state an instruction starts from: the signals polled, the trace tuple recorded, the adjustment flags and `extra`
cleared, nothing kept from another instruction (40_engine.md R140, R161; 60_exceptions.md R355). -/
def started (s : State) : State :=
  { polled s with
    trace := s.trace ++ [tupleOf s], pageCrossed := false, branchTaken := false, extra := 0
    work := .none, feed := [], log := [], paused := none }

/-- The cost of a descriptor, by the adjustment flags an instruction leaves (40_engine.md R153). -/
def costOf (r : OpcodeRow) (t : State) : Nat :=
  r.baseCycles + (if r.penalty = .page ∧ t.pageCrossed = true then 1 else 0) +
    (if r.penalty = .branch ∧ t.branchTaken = true then (if t.pageCrossed = true then 2 else 1) else 0)

/-- A completed instruction of a descriptor: its cost and `extra` are charged, and nothing of it is kept (40_engine.md
R140). -/
def charged (r : OpcodeRow) (t : State) : State :=
  { t with cycles := t.cycles + costOf r t + t.extra, work := .none, feed := [], log := [], paused := none }

/-- 40_engine.md R140, R153, R161, 60_exceptions.md R355, 50_channel_protocol.md R270, 20_memory.md R77, R105: at a
boundary with nothing of higher priority, when the bytes read at PC decode to `i`, the step is `exec i` from the state
whose signals are polled, whose trace tuple is recorded, whose adjustment flags are cleared and whose PC is past the
instruction; the fetch of bytes in RAM or cartridge changes nothing else, and a byte of an address without target is a
draw; a completed instruction is charged the cost of the opcode byte's descriptor `r` and its extra cycles, a
suspended one keeps its execution as remaining work; in `lockstep` the PPU then follows.  A pairing of a handler with
a mode that is no instruction of spec/opcode_table.json runs its handler in the same way.  The charge is the same
wherever an instruction completes: that is `retire`. -/
def Obligations.StepRunsTheDecodedInstruction : Prop :=
  (∀ (s : State) (bs : List Byte), s.log = [] → s.memoryBytes bs.length s.pc = some bs →
    Fetches s bs { s with pc := s.pc + BitVec.ofNat 16 bs.length }) ∧
  (∀ s : State, readTarget s.pc = .noTarget → s.feed = [] →
    Fetches s [Config.freeByte s.draws] { s with pc := s.pc + 1, draws := s.draws + 1, log := [] }) ∧
  (∀ (s u : State) (b : Byte) (args : List Byte) (r : OpcodeRow),
    s.ReadyToExecute → Fetches (started s) (b :: args) u → s.params.opcodes.descriptor b = some r →
    (∀ i : Instr, decode s.params.opcodes (b :: args) = .instr i [] →
      step s =
        match exec i u with
        | .next t =>
          .next (followCpu (moveTaken s)
            (if t.run = .running then charged r t else { t with work := .execute b (.instr i) }))
        | .fault f => .fault f
        | .refused q => .refused q) ∧
    (∀ (h : Handler) (o : Operand), decode s.params.opcodes (b :: args) = .form h o [] →
      step s =
        match handlerWith h o u with
        | .next t =>
          .next (followCpu (moveTaken s)
            (if t.run = .running then charged r t else { t with work := .execute b (.form h o) }))
        | .fault f => .fault f
        | .refused q => .refused q)) ∧
  (∀ (t : State) (b : Byte) (r : OpcodeRow), t.params.opcodes.descriptor b = some r → retire b t = charged r t)

/-- The mnemonics whose rule has no operand (41_load_store_transfer.md R186 to R195, 42_arith_logic.md R211 to R214,
43_control_flags.md R240 to R250). -/
def operandFreeMnemonics : List Mnemonic :=
  [.tax, .tay, .txa, .tya, .tsx, .txs, .pha, .pla, .php, .plp, .inx, .iny, .dex, .dey, .rts, .rti, .brk,
   .clc, .sec, .cli, .sei, .clv, .cld, .sed, .nop]

/-- The channel request a read of an address makes, if it makes one (20_memory.md R74, R75). -/
def requestAt (a : Word) : Option ReadRequest :=
  match readTarget a with
  | .ppu t => some (.ppu t)
  | .apu t => some (.apu t)
  | .ram _ | .cartridge | .oamDma | .noTarget => none

/-- The CPU in AwaitRead: the request has joined its FIFO, unless the peer has gone (50_channel_protocol.md R263,
R268). -/
def awaiting (r : ReadRequest) (s : State) : State :=
  match r with
  | .ppu t => { s with
      run := .awaitRead r
      ppuChan := { s.ppuChan with reads := if s.alivePpu then s.ppuChan.reads ++ [t] else s.ppuChan.reads } }
  | .apu t => { s with
      run := .awaitRead r
      apuChan := { s.apuChan with reads := if s.aliveApu then s.apuChan.reads ++ [t] else s.apuChan.reads } }

/-- A handler of a table's own: load the word at the operand's address into X and Y. -/
def loadWordHandler : HandlerProgram where
  limit := 3
  ops := [.load .x, .address (.temp 0), .read .y (.op .add (.get (.temp 0)) (.lit 1))]

/-- A handler of a table's own: store X and Y as a word at the operand's address. -/
def storeWordHandler : HandlerProgram where
  limit := 3
  ops := [.store (.get .x), .address (.temp 0), .write (.op .add (.get (.temp 0)) (.lit 1)) (.get .y)]

/-- A handler of a table's own: write A at one address, then read A from another. -/
def exchangeHandler (w r : Word) : HandlerProgram where
  limit := 2
  ops := [.write (.lit w) (.get .a), .read .a (.lit r)]

/-- 40_engine.md R140, R141, R148, R152: the descriptors of an arbitrary `OPCODE_TABLE`. An instruction is its mnemonic's
rule at its operand. A mnemonic's rule runs at an operand of any mode: a reading one as on the byte read, a storing or
modifying one at the address, a branch, JMP or JSR to the address, one without operand after the resolver; through the
indirect mode it is the rule at the address the pointer holds. A handler of the table's own performs its accesses in
order: one that loads a word, one that stores a word, and one that in `async` writes a PPU target and then reads a
channel: the command is queued before the request, the CPU then waits, and the reply ends the handler. No step
of any table, in any state, is refused, and none faults before every agent has returned. That such a handler is written as
a program, and how it waits (`paused`, `feed`, `log`), are the model's (assumptions 4 and 25); of what R152 leaves
unstated at an operand that is no place or no value (assumption 25) nothing is said. -/
def Obligations.EveryDescriptorExecutes : Prop :=
  (∀ (i : Instr) (s : State), exec i s = handlerWith (.rule i.mnemonic) i.operand s) ∧
  (∀ (m : Mnemonic) (o : Operand) (s : State) (v : Byte), m ∈ readingMnemonics → operandByte o s = some v →
    handlerWith (.rule m) o s = handlerWith (.rule m) (.immediate v) { s with pageCrossed := crossing o s }) ∧
  (∀ (m : Mnemonic) (o : Operand) (s : State) (a : Word), resolve o s = .addr a →
    (m ∈ storingMnemonics → a ≠ 0x4014) → (m ∈ modifyingMnemonics → (s.memoryByte a).isSome = true) →
    m ∈ storingMnemonics ++ modifyingMnemonics ++ [.bpl, .bmi, .bvc, .bvs, .bcc, .bcs, .bne, .beq, .jmp, .jsr] →
      handlerWith (.rule m) o s = handlerWith (.rule m) (.absolute a) { s with pageCrossed := crossing o s }) ∧
  (∀ (m : Mnemonic) (c : Bool) (a : Word) (s : State),
    (m, c) ∈ [(Mnemonic.bpl, !s.p.n), (Mnemonic.bmi, s.p.n), (Mnemonic.bvc, !s.p.v), (Mnemonic.bvs, s.p.v),
      (Mnemonic.bcc, !s.p.c), (Mnemonic.bcs, s.p.c), (Mnemonic.bne, !s.p.z), (Mnemonic.beq, s.p.z)] →
    handlerWith (.rule m) (.absolute a) s = .next (if c then { s with branchTaken := true, pc := a } else s)) ∧
  (∀ (m : Mnemonic) (o : Operand) (s : State), m ∈ operandFreeMnemonics → (∀ ptr, o ≠ .indirect ptr) →
    handlerWith (.rule m) o s = handlerWith (.rule m) .implied { s with pageCrossed := crossing o s }) ∧
  (∀ (h : Handler) (ptr : Word) (s : State) (lo hi : Byte), s.memoryByte ptr = some lo →
    s.memoryByte (if s.params.jmpIndPageBug then (ptr &&& 0xFF00) ||| ((ptr + 1) &&& 0x00FF) else ptr + 1) = some hi →
    handlerWith h (.indirect ptr) s = handlerWith h (.absolute (wordOf lo hi)) s) ∧
  (∀ (h : Handler) (ptr : Word) (s t u : State) (lo hi : Byte), s.paused = none → busRead ptr s = .done lo t →
    busRead (if s.params.jmpIndPageBug then (ptr &&& 0xFF00) ||| ((ptr + 1) &&& 0x00FF) else ptr + 1) t = .done hi u →
    handlerWith h (.indirect ptr) s = handlerWith h (.absolute (wordOf lo hi)) u) ∧
  (∀ (o : Operand) (s : State) (a : Word), resolve o s = .addr a → s.paused = none →
    (∀ lo hi : Byte, s.memoryByte a = some lo → s.memoryByte (a + 1) = some hi →
      handlerWith (.program loadWordHandler) o s = .next { s with
        x := lo, y := hi, pageCrossed := crossing o s, log := [] }) ∧
    (a.toNat + 1 < 0x2000 →
      handlerWith (.program storeWordHandler) o s = .next { s with
        ram := (s.ram.write (a.toNat % 2048) s.x).write ((a.toNat + 1) % 2048) s.y
        pageCrossed := crossing o s, log := [] })) ∧
  (∀ (s : State) (w a : Word) (t : PpuReg) (r : ReadRequest), writeTarget w = .ppu t → requestAt a = some r →
    s.params.syncMode = .async → s.alivePpu = true →
    (s.paused = none → s.feed = [] →
      handlerWith (.program (exchangeHandler w a)) .implied s = .next (awaiting r { s with
        ppuChan := { s.ppuChan with writes := s.ppuChan.writes ++ [.reg t s.a] }
        log := [], paused := some { operand := .nothing, next := 1, temps := [] } })) ∧
    (∀ v : Byte, s.paused = some { operand := .nothing, next := 1, temps := [] } → s.feed = [v] →
      handlerWith (.program (exchangeHandler w a)) .implied s = .next { s with a := v, feed := [], log := [v] })) ∧
  (∀ s : State, allReturned s = false → ∃ t, step s = .next t)

/-- 60_exceptions.md R360, 30_encoding.md R129: a byte without descriptor read at PC, wherever it lies, halts the CPU
with the byte and its address recorded and PC past it; nothing else changes but by the read of the byte itself, and no
cycle is charged; a halted CPU's turn changes nothing.  Under the default table these are the 105 bytes of R129. -/
def Obligations.UnknownOpcodeHaltsTheCpu : Prop :=
  (∀ (s : State) (b : Byte), s.ReadyToExecute → s.memoryByte s.pc = some b → s.params.opcodes.descriptor b = none →
      step s = .next { started s with pc := s.pc + 1, run := .halted (.unknownOpcode b s.pc) }) ∧
  (∀ (s u : State) (b : Byte), s.ReadyToExecute → Fetches (started s) [b] u →
      s.params.opcodes.descriptor b = none → step s = .next { u with run := .halted (.unknownOpcode b s.pc) }) ∧
  (∀ (s : State) (c : FatalCause), s.run = .halted c → cpuMove s = .next s) ∧
  (∀ b : Byte, OpcodeTable.standard.descriptor b = none ↔ b ∈ ([
      0x02, 0x03, 0x04, 0x07, 0x0B, 0x0C, 0x0F, 0x12, 0x13, 0x14, 0x17, 0x1A, 0x1B, 0x1C, 0x1F, 0x22, 0x23,
      0x27, 0x2B, 0x2F, 0x32, 0x33, 0x34, 0x37, 0x3A, 0x3B, 0x3C, 0x3F, 0x42, 0x43, 0x44, 0x47, 0x4B, 0x4F, 0x52,
      0x53, 0x54, 0x57, 0x5A, 0x5B, 0x5C, 0x5F, 0x62, 0x63, 0x64, 0x67, 0x6B, 0x6F, 0x72, 0x73, 0x74, 0x77, 0x7A,
      0x7B, 0x7C, 0x7F, 0x80, 0x82, 0x83, 0x87, 0x89, 0x8B, 0x8F, 0x92, 0x93, 0x97, 0x9B, 0x9C, 0x9E, 0x9F, 0xA3,
      0xA7, 0xAB, 0xAF, 0xB2, 0xB3, 0xB7, 0xBB, 0xBF, 0xC2, 0xC3, 0xC7, 0xCB, 0xCF, 0xD2, 0xD3, 0xD4, 0xD7, 0xDA,
      0xDB, 0xDC, 0xDF, 0xE2, 0xE3, 0xE7, 0xEB, 0xEF, 0xF2, 0xF3, 0xF4, 0xF7, 0xFA, 0xFB, 0xFC, 0xFF] : List Byte))

/-! ## Loads, and reading an operand -/

/-- 41_load_store_transfer.md R180 to R182: LDA, LDX and LDY in every mode, on an operand byte of the instruction, of RAM
or of the cartridge, complete: the register is the byte, N and Z are set from it, nothing else changes (the adjustment
flag of R147 apart). -/
def Obligations.LoadResult : Prop :=
  ∀ (i : Instr) (s : State) (v : Byte), operandByte i.operand s = some v →
    (i.mnemonic = .lda → exec i s = .next { s with
      a := v, p := { s.p with n := v.getLsbD 7, z := v == 0 }, pageCrossed := crossing i.operand s }) ∧
    (i.mnemonic = .ldx → exec i s = .next { s with
      x := v, p := { s.p with n := v.getLsbD 7, z := v == 0 }, pageCrossed := crossing i.operand s }) ∧
    (i.mnemonic = .ldy → exec i s = .next { s with
      y := v, p := { s.p with n := v.getLsbD 7, z := v == 0 }, pageCrossed := crossing i.operand s })

/-- The effective address of an operand of a data mode, and `page_crossed` after its resolution: zero page, absolute,
their indexed forms, `(zp,X)` and `(zp),Y` (40_engine.md R144 to R147, R149, R150). -/
def effectiveAddress (o : Operand) (s : State) : Option (Nat × Bool) :=
  let page0 (k : Nat) : Nat := (s.ram.read (k % 256)).toNat
  let indexed (base : Nat) (index : Byte) : Nat × Bool :=
    let n := (base + index.toNat) % 65536
    (n, decide (base / 256 ≠ n / 256))
  match o with
  | .zeroPage z => some (z.toNat, s.pageCrossed)
  | .zeroPageX z => some ((z.toNat + s.x.toNat) % 256, s.pageCrossed)
  | .zeroPageY z => some ((z.toNat + s.y.toNat) % 256, s.pageCrossed)
  | .absolute a => some (a.toNat, s.pageCrossed)
  | .absoluteX a => some (indexed a.toNat s.x)
  | .absoluteY a => some (indexed a.toNat s.y)
  | .indexedIndirect z =>
    some (page0 (z.toNat + s.x.toNat) + 256 * page0 (z.toNat + s.x.toNat + 1), s.pageCrossed)
  | .indirectIndexed z => some (indexed (page0 z.toNat + 256 * page0 (z.toNat + 1)) s.y)
  | .implied | .accumulator | .immediate _ | .indirect _ | .relative _ => none

/-- 40_engine.md R152, R142 to R147, R149, R150: a reading instruction whose operand read answers `v` and leaves `t`, by
whatever bus target, completes as the mnemonic's immediate form with `v` does from `t` (BIT, which has none, as R205
says).  The operand of each data mode: its effective address and `page_crossed`, in every state. -/
def Obligations.EveryReadingFormActsOnTheByteRead : Prop :=
  (∀ (i : Instr) (s t : State) (v : Byte), i.mnemonic ∈ readingMnemonics → operandRead i.operand s = .done v t →
    (∀ j, Instr.ofParts i.mnemonic (.immediate v) = some j → exec i s = exec j t) ∧
    (i.mnemonic = .bit → exec i s = .next { t with
      p := { t.p with z := (t.a &&& v) == 0, n := v.getLsbD 7, v := v.getLsbD 6 } })) ∧
  (∀ (o : Operand) (s : State) (n : Nat) (crossed : Bool), effectiveAddress o s = some (n, crossed) →
    resolve o s = .addr (BitVec.ofNat 16 n) ∧ crossing o s = crossed) ∧
  (∀ (s : State) (v : Byte), resolve .implied s = .nothing ∧ resolve .accumulator s = .acc ∧
    resolve (.immediate v) s = .value v ∧ crossing .implied s = s.pageCrossed ∧
    crossing .accumulator s = s.pageCrossed ∧ crossing (.immediate v) s = s.pageCrossed)

/-- 50_channel_protocol.md R261, R263, R268, 20_memory.md R105: in `async`, a read of a channel target sends the request
(a peer that has gone gets none) and leaves the CPU in AwaitRead, with nothing else of the instruction's work done: the
operand of an instruction, a byte of the pointer of JMP (ind), and a byte of the instruction itself.  That nothing else is
changed, `page_crossed` included, which R147 sets before the load, is the model's way to split the instruction (assumption
4: it is run again from its start with the bytes received, kept in `feed`); so are the premises on `feed` and `log`. -/
def Obligations.ChannelReadSuspendsTheCpu : Prop :=
  (∀ (i : Instr) (s : State) (a : Word) (r : ReadRequest), i.mnemonic ∈ readingMnemonics ++ modifyingMnemonics →
    resolve i.operand s = .addr a → requestAt a = some r → s.params.syncMode = .async → s.feed = [] → s.log = [] →
      exec i s = .next (awaiting r s)) ∧
  (∀ (s : State) (a b : Word) (r : ReadRequest), s.params.syncMode = .async → s.log = [] →
    b = (if s.params.jmpIndPageBug then (a &&& 0xFF00) ||| ((a + 1) &&& 0x00FF) else a + 1) →
    (requestAt a = some r → s.feed = [] → exec (.jmpInd a) s = .next (awaiting r s)) ∧
    (∀ lo, s.memoryByte a = some lo → requestAt b = some r → s.feed = [] →
      exec (.jmpInd a) s = .next (awaiting r s)) ∧
    (∀ lo, s.memoryByte a = none → requestAt b = some r → s.feed = [lo] →
      exec (.jmpInd a) s = .next (awaiting r s)) ∧
    (∀ lo t, busRead a s = .done lo t → requestAt b = some r → t.feed = [] →
      exec (.jmpInd a) s = .next (awaiting r { s with feed := t.log, log := [], draws := t.draws }))) ∧
  (∀ (s u : State) (got : List Byte) (r : ReadRequest), s.ReadyToExecute → s.params.syncMode = .async →
    Fetches (started s) got u → (∀ k, k ≤ got.length → decode s.params.opcodes (got.take k) = .needMore) →
    requestAt u.pc = some r → step s = .next (awaiting r { u with work := .fetch got }))

/-- The replies queued for a request (10_state.md R42). -/
def resultsFor (r : ReadRequest) (s : State) : List Byte :=
  match r with
  | .ppu _ => s.ppuChan.results
  | .apu _ => s.apuChan.results

/-- The state with other replies queued for a request. -/
def withResults (r : ReadRequest) (vs : List Byte) (s : State) : State :=
  match r with
  | .ppu _ => { s with ppuChan := { s.ppuChan with results := vs } }
  | .apu _ => { s with apuChan := { s.apuChan with results := vs } }

/-- 50_channel_protocol.md R261, R263: with a reply on the result FIFO, the CPU's turn takes the head of the FIFO and
goes on: a suspended execution reads that byte, and a reading instruction then acts on it; a suspended fetch takes it
as the next byte of the instruction, reads on, and runs what the bytes decode to, waits again at a channel, or, where
the byte taken is an opcode byte without descriptor, halts with it and its address recorded (60_exceptions.md R360).
That the execution goes on by being run again from its start with the bytes received in `feed`, and the keeping of
`feed` and `log`, are the model's way to split an instruction at a read (assumption 4). -/
def Obligations.ReplyResumesTheInstruction : Prop :=
  (∀ (s : State) (r : ReadRequest) (v : Byte) (vs : List Byte) (opcode : Byte) (i : Instr),
      nextMove s = .cpu → s.run = .awaitRead r → s.stuck = false → resultsFor r s = v :: vs →
      s.work = .execute opcode (.instr i) →
        step s =
          match exec i (withResults r vs { moveTaken s with
              run := .running, work := .none, feed := s.feed ++ [v] }) with
          | .next t =>
            .next (if t.run = .running then retire opcode t else { t with work := .execute opcode (.instr i) })
          | .fault f => .fault f
          | .refused q => .refused q) ∧
  (∀ (i j : Instr) (s : State) (a : Word) (v : Byte) (rest : List Byte),
      i.mnemonic ∈ readingMnemonics → resolve i.operand s = .addr a → s.memoryByte a = none → s.feed = v :: rest →
      Instr.ofParts i.mnemonic (.immediate v) = some j →
        exec i s = exec j { s with
          pageCrossed := crossing i.operand s, feed := rest, log := s.log ++ [v] }) ∧
  (∀ (s w u : State) (r : ReadRequest) (v b : Byte) (vs got more args : List Byte),
      nextMove s = .cpu → s.run = .awaitRead r → s.stuck = false → resultsFor r s = v :: vs → s.log = [] →
      s.work = .fetch got → got ++ v :: more = b :: args →
      w = withResults r vs { moveTaken s with run := .running, work := .none, pc := s.pc + 1 } →
      Fetches w more u →
        (∀ i, decode s.params.opcodes (b :: args) = .instr i [] →
          step s =
            match exec i u with
            | .next t => .next (if t.run = .running then retire b t else { t with work := .execute b (.instr i) })
            | .fault f => .fault f
            | .refused q => .refused q) ∧
        (∀ h o, decode s.params.opcodes (b :: args) = .form h o [] →
          step s =
            match handlerWith h o u with
            | .next t => .next (if t.run = .running then retire b t else { t with work := .execute b (.form h o) })
            | .fault f => .fault f
            | .refused q => .refused q) ∧
        (∀ q, (∀ k, k ≤ args.length → decode s.params.opcodes (b :: args.take k) = .needMore) →
          s.params.syncMode = .async → s.feed = [] → requestAt u.pc = some q →
            step s = .next (awaiting q { u with work := .fetch (b :: args) })) ∧
        (got = [] → s.params.opcodes.descriptor v = none →
          step s = .next { w with run := .halted (.unknownOpcode v s.pc) }))

/-! ## Stores -/

/-- 41_load_store_transfer.md R183 to R185, 20_memory.md R73, R87: a store whose address lies in the RAM window writes the
register to that cell of RAM; in the cartridge window it is a cartridge write; it completes and nothing else changes. -/
def Obligations.StoreToMemoryResult : Prop :=
  ∀ (i : Instr) (s : State) (a : Word) (v : Byte), resolve i.operand s = .addr a →
    (i.mnemonic, v) ∈ [(Mnemonic.sta, s.a), (Mnemonic.stx, s.x), (Mnemonic.sty, s.y)] →
    (a.toNat < 0x2000 → exec i s = .next { s with
      ram := s.ram.write (a.toNat % 2048) v, pageCrossed := crossing i.operand s }) ∧
    (0x8000 ≤ a.toNat → exec i s = .next { s with
      cart := s.cart.write s.params a v, pageCrossed := crossing i.operand s })

/-- 50_channel_protocol.md R262, R268, 20_memory.md R74, R75, R77: in `async` a store to a channel target appends the
command to the write FIFO of a live peer and is swallowed by one that has gone; a store to no target has no effect; each
completes. -/
def Obligations.StoreToChannelResult : Prop :=
  ∀ (i : Instr) (s : State) (a : Word) (v : Byte), resolve i.operand s = .addr a → s.params.syncMode = .async →
    (i.mnemonic, v) ∈ [(Mnemonic.sta, s.a), (Mnemonic.stx, s.x), (Mnemonic.sty, s.y)] →
    (∀ t, writeTarget a = .ppu t → exec i s = .next { s with
      pageCrossed := crossing i.operand s
      ppuChan := { s.ppuChan with
        writes := if s.alivePpu then s.ppuChan.writes ++ [.reg t v] else s.ppuChan.writes } }) ∧
    (∀ t, writeTarget a = .apu t → exec i s = .next { s with
      pageCrossed := crossing i.operand s
      apuChan := { s.apuChan with
        writes := if s.aliveApu then s.apuChan.writes ++ [(t, v)] else s.apuChan.writes } }) ∧
    (writeTarget a = .noTarget → exec i s = .next { s with pageCrossed := crossing i.operand s })

/-- The 256 bus reads of a page in order, from `s`: they give the bytes `buf` and leave `t` (20_memory.md R76). -/
def PageRead (page : Byte) (s : State) (buf : List Byte) (t : State) : Prop :=
  ∃ st : Nat → State, st 0 = s ∧ st 256 = t ∧ buf.length = 256 ∧ ∀ k, k < 256 →
    ∃ b, buf[k]? = some b ∧ busRead (wordOf (BitVec.ofNat 8 k) page) (st k) = .done b (st (k + 1))

/-- One of the 256 bus reads of a page has no reply yet; those before it are done (20_memory.md R76). -/
def PageWaits (page : Byte) (s : State) (q : ReadRequest) (u : State) : Prop :=
  ∃ (n : Nat) (st : Nat → State), n < 256 ∧ st 0 = s ∧
    (∀ k, k < n → ∃ b, busRead (wordOf (BitVec.ofNat 8 k) page) (st k) = .done b (st (k + 1))) ∧
    busRead (wordOf (BitVec.ofNat 8 n) page) (st n) = .wait q u

/-- After the reads of a bulk transfer: ONE command with the 256 bytes is queued (in `lockstep` applied, after those
queued), which a PPU that has gone does not get; the extra cycles are set (20_memory.md R76; 50_channel_protocol.md R262,
R268, R272). -/
def bulkSent (buf : List Byte) (t : State) : State :=
  if t.alivePpu then
    match t.params.syncMode with
    | .async => { t with
      extra := t.params.oamDmaCycles, ppuChan := { t.ppuChan with writes := t.ppuChan.writes ++ [.oamDma buf] } }
    | .lockstep => { t with
      extra := t.params.oamDmaCycles, ppuChan := { t.ppuChan with writes := [] }
      ppu := (t.ppuChan.writes ++ [PpuWrite.oamDma buf]).foldl Ppu.applyWrite t.ppu }
  else { t with extra := t.params.oamDmaCycles }

/-- 20_memory.md R76, 50_channel_protocol.md R262, R268, R272: a store of `v` to 0x4014 reads the 256 bytes of page `v` in
order, whatever they reach, and then sends one command with them and sets the extra cycles; a read with no reply yet
suspends it.  A page of RAM or cartridge gives its bytes; a page of no target gives draws; a page of the PPU's registers
(and 0x40, whose first address is an APU target) waits, in `async`, for its first reply, and with all 256 replies received
gives them.  The replies standing in `feed`, and what becomes of `feed` and `log`, are the model's way to resume an
instruction (assumption 4). -/
def Obligations.OamBulkTransferResult : Prop :=
  ∀ (i : Instr) (s u : State) (v : Byte), resolve i.operand s = .addr 0x4014 →
    (i.mnemonic, v) ∈ [(Mnemonic.sta, s.a), (Mnemonic.stx, s.x), (Mnemonic.sty, s.y)] →
    u = { s with pageCrossed := crossing i.operand s } →
    (∀ buf t, PageRead v u buf t → exec i s = .next (bulkSent buf t)) ∧
    (∀ q w, PageWaits v u q w → exec i s = .next (awaiting q { s with feed := w.log, log := [], draws := w.draws })) ∧
    (v.toNat < 0x20 ∨ 0x80 ≤ v.toNat → ∃ buf : List Byte, buf.length = 256 ∧
      (∀ k, k < 256 → s.memoryByte (wordOf (BitVec.ofNat 8 k) v) = buf[k]?) ∧
      exec i s = .next (bulkSent buf u)) ∧
    (0x41 ≤ v.toNat → v.toNat < 0x80 → s.feed = [] → ∃ buf : List Byte, buf.length = 256 ∧
      (∀ k, k < 256 → buf[k]? = some (Config.freeByte (s.draws + k))) ∧
      exec i s = .next (bulkSent buf { u with draws := s.draws + 256, log := s.log ++ buf })) ∧
    (0x20 ≤ v.toNat → v.toNat < 0x40 → s.feed.length = 256 →
      exec i s = .next (bulkSent s.feed { u with feed := [], log := s.log ++ s.feed })) ∧
    (0x20 ≤ v.toNat → v.toNat ≤ 0x40 → s.params.syncMode = .async → s.feed = [] → s.log = [] →
      ∃ q, requestAt (wordOf 0 v) = some q ∧ exec i s = .next (awaiting q s))

/-! ## Transfers and the stack -/

/-- 41_load_store_transfer.md R192 to R195, 40_engine.md R155 to R157: PHA and PHP store at `0x0100 | SP` and then
decrement SP; PLA and PLP increment SP and then load; at the window's edges SP wraps, or stays under `saturate`.  With
the encodings. -/
def Obligations.StackInstructionResult : Prop :=
  encode OpcodeTable.standard .pha = [0x48] ∧ encode OpcodeTable.standard .pla = [0x68] ∧
  encode OpcodeTable.standard .php = [0x08] ∧ encode OpcodeTable.standard .plp = [0x28] ∧
  ∀ (s : State) (down up : Byte),
    (down = if s.params.stackEdge = .saturate ∧ s.sp = 0x00 then 0x00 else s.sp - 1) →
    (up = if s.params.stackEdge = .saturate ∧ s.sp = 0xFF then 0xFF else s.sp + 1) →
    exec .pha s = .next { s with ram := s.ram.write (0x100 + s.sp.toNat) s.a, sp := down } ∧
    exec .php s = .next { s with ram := s.ram.write (0x100 + s.sp.toNat) (s.p.toByte ||| 0x30), sp := down } ∧
    (∀ v, s.ram.read (0x100 + up.toNat) = v →
      exec .pla s = .next { s with sp := up, a := v, p := { s.p with n := v.getLsbD 7, z := v == 0 } }) ∧
    (∀ v, s.ram.read (0x100 + up.toNat) = v →
      exec .plp s = .next { s with
        sp := up
        p := { n := v.getLsbD 7, v := v.getLsbD 6, r := v.getLsbD 5, b := v.getLsbD 4
               d := v.getLsbD 3, i := v.getLsbD 2, z := v.getLsbD 1, c := v.getLsbD 0 } })

/-- 10_state.md R34: the packed flags byte has N, V, R, B, D, I, Z, C in bits 7 to 0, unpacking sets each flag to the
bit at its position, and the two conversions are inverse, both ways. -/
def Obligations.FlagsByteRoundTrip : Prop :=
  (∀ p : Flags,
    p.toByte.toNat = 128 * p.n.toNat + 64 * p.v.toNat + 32 * p.r.toNat + 16 * p.b.toNat + 8 * p.d.toNat +
      4 * p.i.toNat + 2 * p.z.toNat + p.c.toNat) ∧
  (∀ b : Byte, Flags.ofByte b =
    { n := b.getLsbD 7, v := b.getLsbD 6, r := b.getLsbD 5, b := b.getLsbD 4
      d := b.getLsbD 3, i := b.getLsbD 2, z := b.getLsbD 1, c := b.getLsbD 0 }) ∧
  (∀ p : Flags, Flags.ofByte p.toByte = p) ∧ (∀ b : Byte, (Flags.ofByte b).toByte = b)

/-! ## Arithmetic, logic and compare -/

/-- 42_arith_logic.md R196, R197, R200, R201, 10_state.md R33: ADC adds and SBC subtracts modulo 256, whatever D holds;
C is the carry, or no borrow; V is signed overflow of the exact sum or difference; N and Z are of the result; nothing
else changes. -/
def Obligations.AddSubtractResult : Prop :=
  ∀ (i : Instr) (s : State) (m : Byte), operandByte i.operand s = some m →
    (i.mnemonic = .adc →
      ∃ r : Byte, r.toNat = (s.a.toNat + m.toNat + s.p.c.toNat) % 256 ∧
        exec i s = .next { s with
          a := r, pageCrossed := crossing i.operand s
          p := { s.p with
            n := r.getLsbD 7, z := r == 0
            v := decide (s.a.toInt + m.toInt + s.p.c.toNat < -128 ∨ 127 < s.a.toInt + m.toInt + s.p.c.toNat)
            c := decide (255 < s.a.toNat + m.toNat + s.p.c.toNat) } }) ∧
    (i.mnemonic = .sbc →
      ∃ r : Byte, (r.toNat : Int) = ((s.a.toNat : Int) - m.toNat - (1 - s.p.c.toNat)) % 256 ∧
        exec i s = .next { s with
          a := r, pageCrossed := crossing i.operand s
          p := { s.p with
            n := r.getLsbD 7, z := r == 0
            v := decide (s.a.toInt - m.toInt - (1 - s.p.c.toNat) < -128 ∨
              127 < s.a.toInt - m.toInt - (1 - s.p.c.toNat))
            c := decide ((m.toNat : Int) + (1 - s.p.c.toNat) ≤ s.a.toNat) } })

/-- 42_arith_logic.md R202 to R205: AND, ORA and EOR with A set N and Z from the result; BIT sets Z from `A & m`, N and V
from bits 7 and 6 of the operand byte; nothing else changes. -/
def Obligations.LogicResult : Prop :=
  ∀ (i : Instr) (s : State) (m : Byte), operandByte i.operand s = some m →
    (∀ r, (i.mnemonic, r) ∈ [(Mnemonic.and, s.a &&& m), (Mnemonic.ora, s.a ||| m), (Mnemonic.eor, s.a ^^^ m)] →
      exec i s = .next { s with
        a := r, pageCrossed := crossing i.operand s, p := { s.p with n := r.getLsbD 7, z := r == 0 } }) ∧
    (i.mnemonic = .bit → exec i s = .next { s with
      pageCrossed := crossing i.operand s
      p := { s.p with z := (s.a &&& m) == 0, n := m.getLsbD 7, v := m.getLsbD 6 } })

/-- 42_arith_logic.md R198, R206 to R208: a compare sets C when the register is at least the operand, Z when they are
equal, N from the difference modulo 256; no register and no other flag changes. -/
def Obligations.CompareResult : Prop :=
  ∀ (i : Instr) (s : State) (r m : Byte), operandByte i.operand s = some m →
    (i.mnemonic, r) ∈ [(Mnemonic.cmp, s.a), (Mnemonic.cpx, s.x), (Mnemonic.cpy, s.y)] →
      exec i s = .next { s with
        pageCrossed := crossing i.operand s
        p := { s.p with c := decide (m.toNat ≤ r.toNat), z := decide (r = m), n := (r - m).getLsbD 7 } }

/-! ## Increments, shifts and rotates -/

/-- 42_arith_logic.md R209, R210, 20_memory.md R73, R87: INC and DEC at an address of RAM write the byte plus or minus one
there and set N and Z from it; at a cartridge address the write is a cartridge write; nothing else changes. -/
def Obligations.IncDecMemoryResult : Prop :=
  ∀ (i : Instr) (s : State) (a : Word) (v r : Byte), resolve i.operand s = .addr a → s.memoryByte a = some v →
    (i.mnemonic, r) ∈ [(Mnemonic.inc, v + 1), (Mnemonic.dec, v - 1)] →
    (a.toNat < 0x2000 → exec i s = .next { s with
      ram := s.ram.write (a.toNat % 2048) r, pageCrossed := crossing i.operand s
      p := { s.p with n := r.getLsbD 7, z := r == 0 } }) ∧
    (0x8000 ≤ a.toNat → exec i s = .next { s with
      cart := s.cart.write s.params a r, pageCrossed := crossing i.operand s
      p := { s.p with n := r.getLsbD 7, z := r == 0 } })

/-- 41_load_store_transfer.md R186 to R191, 42_arith_logic.md R211 to R214: the register transfers, INX, INY, DEX and
DEY, with their encodings. -/
def Obligations.RegisterTransferAndCountResult : Prop :=
  (encode OpcodeTable.standard .tax = [0xAA] ∧ encode OpcodeTable.standard .tay = [0xA8] ∧
    encode OpcodeTable.standard .txa = [0x8A] ∧ encode OpcodeTable.standard .tya = [0x98] ∧
    encode OpcodeTable.standard .tsx = [0xBA] ∧ encode OpcodeTable.standard .txs = [0x9A] ∧
    encode OpcodeTable.standard .inx = [0xE8] ∧ encode OpcodeTable.standard .iny = [0xC8] ∧
    encode OpcodeTable.standard .dex = [0xCA] ∧ encode OpcodeTable.standard .dey = [0x88]) ∧
  (∀ s : State,
    exec .tax s = .next { s with x := s.a, p := { s.p with n := s.a.getLsbD 7, z := s.a == 0 } } ∧
    exec .tay s = .next { s with y := s.a, p := { s.p with n := s.a.getLsbD 7, z := s.a == 0 } } ∧
    exec .txa s = .next { s with a := s.x, p := { s.p with n := s.x.getLsbD 7, z := s.x == 0 } } ∧
    exec .tya s = .next { s with a := s.y, p := { s.p with n := s.y.getLsbD 7, z := s.y == 0 } } ∧
    exec .tsx s = .next { s with x := s.sp, p := { s.p with n := s.sp.getLsbD 7, z := s.sp == 0 } } ∧
    exec .txs s = .next { s with sp := s.x }) ∧
  ∀ (s : State) (r : Byte),
    (r.toNat = (s.x.toNat + 1) % 256 →
      exec .inx s = .next { s with x := r, p := { s.p with n := r.getLsbD 7, z := r == 0 } }) ∧
    (r.toNat = (s.y.toNat + 1) % 256 →
      exec .iny s = .next { s with y := r, p := { s.p with n := r.getLsbD 7, z := r == 0 } }) ∧
    (r.toNat = (s.x.toNat + 255) % 256 →
      exec .dex s = .next { s with x := r, p := { s.p with n := r.getLsbD 7, z := r == 0 } }) ∧
    (r.toNat = (s.y.toNat + 255) % 256 →
      exec .dey s = .next { s with y := r, p := { s.p with n := r.getLsbD 7, z := r == 0 } })

/-- 42_arith_logic.md R215 to R218, 40_engine.md R152: the shifts and rotates of A, of a byte of RAM and at a cartridge
address: the result goes to the operand, C is the bit shifted out, N and Z are of the result; nothing else changes. -/
def Obligations.ShiftResult : Prop :=
  ∀ (i : Instr) (s : State) (v r : Byte) (out : Bool), operandByte i.operand s = some v →
    (i.mnemonic, out, r.toNat) ∈
      [(Mnemonic.asl, v.getLsbD 7, v.toNat * 2 % 256), (Mnemonic.lsr, v.getLsbD 0, v.toNat / 2),
       (Mnemonic.rol, v.getLsbD 7, (v.toNat * 2 + s.p.c.toNat) % 256),
       (Mnemonic.ror, v.getLsbD 0, v.toNat / 2 + 128 * s.p.c.toNat)] →
    (resolve i.operand s = .acc → exec i s = .next { s with
      a := r, p := { s.p with c := out, n := r.getLsbD 7, z := r == 0 } }) ∧
    (∀ a, resolve i.operand s = .addr a → a.toNat < 0x2000 → exec i s = .next { s with
      ram := s.ram.write (a.toNat % 2048) r, pageCrossed := crossing i.operand s
      p := { s.p with c := out, n := r.getLsbD 7, z := r == 0 } }) ∧
    (∀ a, resolve i.operand s = .addr a → 0x8000 ≤ a.toNat → exec i s = .next { s with
      cart := s.cart.write s.params a r, pageCrossed := crossing i.operand s
      p := { s.p with c := out, n := r.getLsbD 7, z := r == 0 } })

/-- 20_memory.md R104, R76, R77, 42_arith_logic.md R209, R210, R215 to R218: in `async`, a read-modify-write
instruction at an address that is neither RAM nor cartridge sets its flags from the byte `v` it reads and writes the
modified byte `r` back to the same address.  A PPU or APU target, resumed with the reply `v`: one command, which a
peer that has gone does not get.  An address no read reaches, `v` being a draw: no effect where no write reaches it
either, one command at 0x4017, and at 0x4014 the bulk transfer of page `r`, whatever the page, which a read with no
reply yet suspends.  The reply standing in `feed`, and what becomes of `feed` and `log`, are the model's way to resume
an instruction (assumption 4). -/
def Obligations.ModifyOnChannelSendsTheResult : Prop :=
  ∀ (i : Instr) (s u : State) (a : Word) (v r : Byte) (c : Bool), resolve i.operand s = .addr a →
    s.params.syncMode = .async →
    (i.mnemonic, c, r.toNat) ∈
      [(Mnemonic.inc, s.p.c, (v.toNat + 1) % 256), (Mnemonic.dec, s.p.c, (v.toNat + 255) % 256),
       (Mnemonic.asl, v.getLsbD 7, v.toNat * 2 % 256), (Mnemonic.lsr, v.getLsbD 0, v.toNat / 2),
       (Mnemonic.rol, v.getLsbD 7, (v.toNat * 2 + s.p.c.toNat) % 256),
       (Mnemonic.ror, v.getLsbD 0, v.toNat / 2 + 128 * s.p.c.toNat)] →
    u = { s with
      feed := [], log := s.log ++ [v], pageCrossed := crossing i.operand s
      p := { s.p with c := c, n := r.getLsbD 7, z := r == 0 } } →
    (∀ t, readTarget a = .ppu t → s.feed = [v] → exec i s = .next { u with
      ppuChan := { s.ppuChan with
        writes := if s.alivePpu then s.ppuChan.writes ++ [.reg t r] else s.ppuChan.writes } }) ∧
    (∀ t, readTarget a = .apu t → s.feed = [v] → exec i s = .next { u with
      apuChan := { s.apuChan with
        writes := if s.aliveApu then s.apuChan.writes ++ [(t, r)] else s.apuChan.writes } }) ∧
    (readTarget a = .noTarget → s.feed = [] → v = Config.freeByte s.draws →
      (writeTarget a = .noTarget → exec i s = .next { u with draws := s.draws + 1 }) ∧
      (a = 0x4017 → exec i s = .next { u with
        draws := s.draws + 1
        apuChan := { s.apuChan with
          writes := if s.aliveApu then s.apuChan.writes ++ [(.frameCounter, r)] else s.apuChan.writes } }) ∧
      (a = 0x4014 → r.toNat < 0x20 ∨ 0x80 ≤ r.toNat → ∃ buf : List Byte, buf.length = 256 ∧
        (∀ k, k < 256 → s.memoryByte (wordOf (BitVec.ofNat 8 k) r) = buf[k]?) ∧
        exec i s = .next { u with
          draws := s.draws + 1, extra := s.params.oamDmaCycles
          ppuChan := { s.ppuChan with
            writes := if s.alivePpu then s.ppuChan.writes ++ [.oamDma buf] else s.ppuChan.writes } })) ∧
    (a = 0x4014 → ∀ (rest : List Byte) (draws : Nat),
      (s.feed = [] ∧ rest = [] ∧ v = Config.freeByte s.draws ∧ draws = s.draws + 1) ∨
        (s.feed = v :: rest ∧ draws = s.draws) →
      (∀ buf t, PageRead r { u with p := s.p, feed := rest, draws := draws } buf t →
        exec i s = .next { bulkSent buf t with p := u.p }) ∧
      (∀ q w, PageWaits r { u with p := s.p, feed := rest, draws := draws } q w →
        exec i s = .next (awaiting q { s with feed := w.log, log := [], draws := w.draws })))

/-! ## Control transfer and flags -/

/-- 43_control_flags.md R230 to R237, 40_engine.md R151, R160: a branch goes to PC plus the signed offset when its flag
has its value, and to the next instruction otherwise; the adjustment flags say whether it was taken and whether the
target lies in another page; no flag of P changes.  With the encodings. -/
def Obligations.BranchResult : Prop :=
  (∀ o : Byte,
    encode OpcodeTable.standard (.bpl o) = [0x10, o] ∧ encode OpcodeTable.standard (.bmi o) = [0x30, o] ∧
    encode OpcodeTable.standard (.bvc o) = [0x50, o] ∧ encode OpcodeTable.standard (.bvs o) = [0x70, o] ∧
    encode OpcodeTable.standard (.bcc o) = [0x90, o] ∧ encode OpcodeTable.standard (.bcs o) = [0xB0, o] ∧
    encode OpcodeTable.standard (.bne o) = [0xD0, o] ∧ encode OpcodeTable.standard (.beq o) = [0xF0, o]) ∧
  ∀ (s : State) (o : Byte) (t : Word) (cross : Bool), t = s.pc + o.signExtend 16 →
    cross = decide (s.pc.toNat / 256 ≠ t.toNat / 256) →
    let taken : State := { s with pc := t, branchTaken := true, pageCrossed := cross }
    let notTaken : State := { s with pageCrossed := cross }
    exec (.bpl o) s = .next (if s.p.n = false then taken else notTaken) ∧
    exec (.bmi o) s = .next (if s.p.n = true then taken else notTaken) ∧
    exec (.bvc o) s = .next (if s.p.v = false then taken else notTaken) ∧
    exec (.bvs o) s = .next (if s.p.v = true then taken else notTaken) ∧
    exec (.bcc o) s = .next (if s.p.c = false then taken else notTaken) ∧
    exec (.bcs o) s = .next (if s.p.c = true then taken else notTaken) ∧
    exec (.bne o) s = .next (if s.p.z = false then taken else notTaken) ∧
    exec (.beq o) s = .next (if s.p.z = true then taken else notTaken)

/-- 43_control_flags.md R238 to R240, 40_engine.md R148, R158: JMP loads PC, through a pointer whose high byte comes
from within the pointer's page under the default parameter, the two bytes being read in order, whatever they reach;
JSR pushes the address of its last byte, high byte first; RTS pulls an address and goes to the one after it.  With the
encodings of JMP absolute, JSR and RTS. -/
def Obligations.JumpAndSubroutineResult : Prop :=
  (∀ a : Word, encode OpcodeTable.standard (.jmpAbs a) = [0x4C, loByte a, hiByte a] ∧
    encode OpcodeTable.standard (.jsr a) = [0x20, loByte a, hiByte a]) ∧
  encode OpcodeTable.standard .rts = [0x60] ∧
  ∀ (s : State) (a : Word) (dec inc : Byte → Byte),
    dec = decSp s.params.stackEdge → inc = incSp s.params.stackEdge →
    exec (.jmpAbs a) s = .next { s with pc := a } ∧
    (∀ b, b = (if s.params.jmpIndPageBug then (a &&& 0xFF00) ||| ((a + 1) &&& 0x00FF) else a + 1) →
      (∀ lo hi, s.memoryByte a = some lo → s.memoryByte b = some hi →
        exec (.jmpInd a) s = .next { s with pc := wordOf lo hi }) ∧
      (∀ lo hi t u, busRead a s = .done lo t → busRead b t = .done hi u →
        exec (.jmpInd a) s = .next { u with pc := wordOf lo hi })) ∧
    exec (.jsr a) s = .next { s with
      ram := (s.ram.write (0x100 + s.sp.toNat) (hiByte (s.pc - 1))).write (0x100 + (dec s.sp).toNat)
        (loByte (s.pc - 1))
      sp := dec (dec s.sp), pc := a } ∧
    exec .rts s = .next { s with
      sp := inc (inc s.sp)
      pc := wordOf (s.ram.read (0x100 + (inc s.sp).toNat)) (s.ram.read (0x100 + (inc (inc s.sp)).toNat)) + 1 }

/-- 43_control_flags.md R241, 60_exceptions.md R358: RTI pulls the flags byte into all eight flags and then the return
address, low byte first, not incremented. -/
def Obligations.InterruptReturnResult : Prop :=
  ∀ (s : State) (inc : Byte → Byte) (v : Byte), inc = incSp s.params.stackEdge →
    v = s.ram.read (0x100 + (inc s.sp).toNat) →
    exec .rti s = .next { s with
      sp := inc (inc (inc s.sp))
      p := { n := v.getLsbD 7, v := v.getLsbD 6, r := v.getLsbD 5, b := v.getLsbD 4
             d := v.getLsbD 3, i := v.getLsbD 2, z := v.getLsbD 1, c := v.getLsbD 0 }
      pc := wordOf (s.ram.read (0x100 + (inc (inc s.sp)).toNat))
        (s.ram.read (0x100 + (inc (inc (inc s.sp))).toNat)) }

/-- The RAM after PC (high, low) and a flags byte are pushed (40_engine.md R155, R158; 60_exceptions.md R352). -/
def pushedThree (s : State) (pc : Word) (flags : Byte) : Memory :=
  let d := decSp s.params.stackEdge
  ((s.ram.write (0x100 + s.sp.toNat) (hiByte pc)).write (0x100 + (d s.sp).toNat) (loByte pc)).write
    (0x100 + (d (d s.sp)).toNat) flags

/-- SP after three pushes (40_engine.md R155). -/
def pushedThreeSp (s : State) : Byte :=
  decSp s.params.stackEdge (decSp s.params.stackEdge (decSp s.params.stackEdge s.sp))

/-- 43_control_flags.md R242, 30_encoding.md R132: BRK under both policies.  `standard`: the byte after BRK is skipped,
PC and the flags byte with bits 5 and 4 set are pushed, I is set, PC is loaded from 0xFFFE.  `via_irq_path`: with B set
only the skip; with B clear, B is set before the push and the jump is taken only when I was clear. -/
def Obligations.BreakResult : Prop :=
  ∀ s : State,
    (s.params.brkPolicy = .standard → exec .brk s = .next { s with
      ram := pushedThree s (s.pc + 1) (s.p.toByte ||| 0x30), sp := pushedThreeSp s, p := { s.p with i := true }
      pc := wordOf (s.cart.read 0xFFFE) (s.cart.read 0xFFFF) }) ∧
    (s.params.brkPolicy = .viaIrqPath → s.p.b = true → exec .brk s = .next { s with pc := s.pc + 1 }) ∧
    (s.params.brkPolicy = .viaIrqPath → s.p.b = false → exec .brk s = .next { s with
      ram := pushedThree s (s.pc + 1) ({ s.p with b := true } : Flags).toByte, sp := pushedThreeSp s
      p := { s.p with b := true, i := true }
      pc := if s.p.i then s.pc + 1 else wordOf (s.cart.read 0xFFFE) (s.cart.read 0xFFFF) })

/-- 43_control_flags.md R243 to R250: the flag instructions and NOP, with their encodings.  NOP changes nothing but what
every instruction does: PC has advanced by its one byte, and two cycles are charged. -/
def Obligations.FlagAndNopResult : Prop :=
  encode OpcodeTable.standard .clc = [0x18] ∧ encode OpcodeTable.standard .sec = [0x38] ∧
  encode OpcodeTable.standard .cli = [0x58] ∧ encode OpcodeTable.standard .sei = [0x78] ∧
  encode OpcodeTable.standard .clv = [0xB8] ∧ encode OpcodeTable.standard .cld = [0xD8] ∧
  encode OpcodeTable.standard .sed = [0xF8] ∧ encode OpcodeTable.standard .nop = [0xEA] ∧
  (∀ crossed taken, opcodeCost Params.standard 0xEA crossed taken = 2) ∧
  ∀ s : State,
    exec .clc s = .next { s with p := { s.p with c := false } } ∧
    exec .sec s = .next { s with p := { s.p with c := true } } ∧
    exec .cli s = .next { s with p := { s.p with i := false } } ∧
    exec .sei s = .next { s with p := { s.p with i := true } } ∧
    exec .clv s = .next { s with p := { s.p with v := false } } ∧
    exec .cld s = .next { s with p := { s.p with d := false } } ∧
    exec .sed s = .next { s with p := { s.p with d := true } } ∧
    exec .nop s = .next s

/-! ## Frames -/

/-- 10_state.md R35: which instructions can change each register and each flag; an instruction of no such list leaves it
as it was, whatever bus target it reads or writes. -/
def Obligations.RegistersAndFlagsChangeOnlyWhereListed : Prop :=
  ∀ (i : Instr) (s t : State), exec i s = .next t →
    (i.mnemonic ∉ [.lda, .txa, .tya, .pla, .adc, .sbc, .and, .ora, .eor] → i.operand ≠ .accumulator → t.a = s.a) ∧
    (i.mnemonic ∉ [.ldx, .tax, .tsx, .inx, .dex] → t.x = s.x) ∧
    (i.mnemonic ∉ [.ldy, .tay, .iny, .dey] → t.y = s.y) ∧
    (i.mnemonic ∉ [.txs, .pha, .php, .pla, .plp, .jsr, .rts, .rti, .brk] → t.sp = s.sp) ∧
    (i.mnemonic ∉ [.bpl, .bmi, .bvc, .bvs, .bcc, .bcs, .bne, .beq, .jmp, .jsr, .rts, .rti, .brk] → t.pc = s.pc) ∧
    (i.mnemonic ∉ readingMnemonics ++ modifyingMnemonics ++
        [.tax, .tay, .txa, .tya, .tsx, .pla, .inx, .iny, .dex, .dey, .plp, .rti] →
      t.p.n = s.p.n ∧ t.p.z = s.p.z) ∧
    (i.mnemonic ∉ [.adc, .sbc, .bit, .clv, .plp, .rti] → t.p.v = s.p.v) ∧
    (i.mnemonic ∉ [.adc, .sbc, .cmp, .cpx, .cpy, .asl, .lsr, .rol, .ror, .clc, .sec, .plp, .rti] → t.p.c = s.p.c) ∧
    (i.mnemonic ∉ [.cld, .sed, .plp, .rti] → t.p.d = s.p.d) ∧
    (i.mnemonic ∉ [.cli, .sei, .plp, .rti, .brk] → t.p.i = s.p.i) ∧
    (i.mnemonic ∉ [.plp, .rti, .brk] → t.p.b = s.p.b) ∧
    (i.mnemonic ∉ [.plp, .rti] → t.p.r = s.p.r)

/-- 20_memory.md R73, R79, 40_engine.md R152, R155: the RAM frame of every instruction.  A store or read-modify-write
leaves every cell but the one its effective address names; a pushing instruction leaves every cell outside the stack
page; every other instruction leaves all of RAM. -/
def Obligations.RamFrame : Prop :=
  ∀ (i : Instr) (s t : State) (k : Nat), exec i s = .next t →
    (∀ a, i.mnemonic ∈ storingMnemonics ++ modifyingMnemonics → resolve i.operand s = .addr a →
      ¬ (a.toNat < 0x2000 ∧ k = a.toNat % 2048) → t.ram.read k = s.ram.read k) ∧
    (i.mnemonic ∈ modifyingMnemonics → resolve i.operand s = .acc → t.ram = s.ram) ∧
    (i.mnemonic ∈ pushingMnemonics → ¬ (0x100 ≤ k ∧ k < 0x200) → t.ram.read k = s.ram.read k) ∧
    (i.mnemonic ∉ storingMnemonics ++ modifyingMnemonics ++ pushingMnemonics → t.ram = s.ram)

/-- 20_memory.md R101, 50_channel_protocol.md R260, 10_state.md R52: in `async` no instruction changes the PPU, an APU
latch, a signal FIFO, a result FIFO, the shutdown flag, the program bytes, the parameters or the cycle count; a mapping
is only ever added, and by stores and read-modify-writes only. -/
def Obligations.InstructionsLeaveTheOtherUnits : Prop :=
  ∀ (i : Instr) (s t : State), s.params.syncMode = .async → exec i s = .next t →
    t.ppu = s.ppu ∧ t.apuLatch = s.apuLatch ∧ t.vblankStart = s.vblankStart ∧ t.vblankEnd = s.vblankEnd ∧
    t.frameEnd = s.frameEnd ∧ t.ppuChan.results = s.ppuChan.results ∧ t.apuChan.results = s.apuChan.results ∧
    t.alivePpu = s.alivePpu ∧ t.aliveApu = s.aliveApu ∧ t.shutdown = s.shutdown ∧
    t.resetRequest = s.resetRequest ∧ t.irqLine = s.irqLine ∧ t.params = s.params ∧ t.cycles = s.cycles ∧
    t.framesOut = s.framesOut ∧ t.cart.prg = s.cart.prg ∧ t.cart.prgSize = s.cart.prgSize ∧
    t.cart.mapperId = s.cart.mapperId ∧ (∃ added, t.cart.mappings = added ++ s.cart.mappings) ∧
    (i.mnemonic ∉ storingMnemonics ++ modifyingMnemonics → t.cart = s.cart)

/-! ## Interrupt entries and the boundary -/

/-- 60_exceptions.md R350, R355, R357: with a reset request at a boundary, whatever signals or IRQ are present, the step
is the reset entry: the request is cleared, PC is loaded from 0xFFFC through the cartridge, seven cycles are charged,
nothing else of the CPU changes (in `lockstep` the PPU follows). -/
def Obligations.ResetEntryLoadsPc : Prop :=
  ∀ s : State, nextMove s = .cpu → s.run = .running → s.shutdown = false → s.resetRequest = true →
    step s = .next (followCpu (moveTaken s) { moveTaken s with
      resetRequest := false, cycles := s.cycles + 7
      pc := wordOf (s.cart.read 0xFFFC) (s.cart.read 0xFFFD) })

/-- 60_exceptions.md R351, R353, R355, R357, 50_channel_protocol.md R270, R271: a consumed `vblank_start` element with
`nmi_enable` requests an NMI, taken whatever I and the IRQ line are: PC and the flags byte as it stands are pushed, I
is set, PC is loaded from 0xFFFA, seven cycles are charged, B is unchanged. -/
def Obligations.NmiEntryIsNeverMasked : Prop :=
  ∀ (s : State) (rest : List Bool), nextMove s = .cpu → s.run = .running → s.shutdown = false →
    s.resetRequest = false → s.params.nmiWired = true → s.vblankStart = true :: rest →
    step s = .next (followCpu (moveTaken s) { polled s with
      vblankStart := rest, ram := pushedThree s s.pc s.p.toByte, sp := pushedThreeSp s, p := { s.p with i := true }
      pc := wordOf (s.cart.read 0xFFFA) (s.cart.read 0xFFFB), cycles := s.cycles + 7 })

/-- 60_exceptions.md R352, R354, R355, R357, 50_channel_protocol.md R270: an asserted IRQ at a boundary without NMI
request is accepted only with B clear: B is set, then PC and the flags byte (B set in it) are pushed, I is set, seven
cycles are charged, and PC is loaded from 0xFFFE only if I was clear.  With B set the line is ignored: the boundary
executes the next instruction. -/
def Obligations.IrqEntryGatedByBreak : Prop :=
  ∀ s : State, nextMove s = .cpu → s.run = .running → s.shutdown = false → s.resetRequest = false →
    s.params.nmiWired = false ∨ s.vblankStart.head? ≠ some true → s.irqLine = true →
    (s.p.b = false →
      step s = .next (followCpu (moveTaken s) { polled s with
        ram := pushedThree s s.pc ({ s.p with b := true } : Flags).toByte, sp := pushedThreeSp s
        p := { s.p with b := true, i := true }, cycles := s.cycles + 7
        pc := if s.p.i then s.pc else wordOf (s.cart.read 0xFFFE) (s.cart.read 0xFFFF) })) ∧
    (s.p.b = true →
      step s =
        match executeOne { polled s with trace := s.trace ++ [tupleOf s] } with
        | .next t => .next (followCpu (moveTaken s) t)
        | .fault f => .fault f
        | .refused r => .refused r)

/-- 50_channel_protocol.md R269, R272, 60_exceptions.md R355: with shutdown set, the CPU's boundary step takes the CPU
to Exited, whatever else is pending, and does nothing else in `async`; in `lockstep` it ends the loops of the PPU and
the APU as well ("shutdown ends all three loops at the next boundary", R272), which the model does in this step
(assumption 17). -/
def Obligations.ShutdownExitsAtTheBoundary : Prop :=
  ∀ s : State, nextMove s = .cpu → s.run = .running → s.shutdown = true →
    (s.params.syncMode = .async → step s = .next { moveTaken s with run := .exited }) ∧
    (s.params.syncMode = .lockstep →
      step s = .next { moveTaken s with run := .exited, alivePpu := false, aliveApu := false })

/-- 43_control_flags.md R239 to R241, 60_exceptions.md R353, R358: when the stack pointer wraps, RTS after JSR goes on
after the JSR, and RTI after an NMI entry restores PC and all eight flags; SP and the registers are as they were. -/
def Obligations.ReturnsUndoEntries : Prop :=
  ∀ s : State, s.params.stackEdge = .wrap →
    (∀ a : Word, ∃ t u, exec (.jsr a) s = .next t ∧ exec .rts t = .next u ∧
      u.pc = s.pc ∧ u.p = s.p ∧ u.sp = s.sp ∧ u.a = s.a ∧ u.x = s.x ∧ u.y = s.y) ∧
    (∃ u, exec .rti (nmiEntry s) = .next u ∧
      u.pc = s.pc ∧ u.p = s.p ∧ u.sp = s.sp ∧ u.a = s.a ∧ u.x = s.x ∧ u.y = s.y)

/-- 60_exceptions.md R354, 10_state.md R33: only PLP and RTI clear B: the turns of the PPU, the APU and the host leave P,
the NMI, IRQ and reset entries keep a set B, and an instruction that clears B is a PLP or an RTI. -/
def Obligations.BreakFlagClearedOnlyByPulls : Prop :=
  (∀ (s t : State) (m : Move), m ≠ .cpu → act m s = .next t → t.p = s.p) ∧
  (∀ s : State, s.p.b = true → (nmiEntry s).p.b = true ∧ (irqAccept s).p.b = true ∧ (resetEntry s).p.b = true) ∧
  (∀ (i : Instr) (s t : State), exec i s = .next t → s.p.b = true → t.p.b = false →
    i.mnemonic = .plp ∨ i.mnemonic = .rti)

/-! ## The bus and the cartridge -/

/-- 20_memory.md R72, R73: the four windows and their boundaries; a byte written in the RAM window is read at every mirror
of its cell and nowhere else in the window, and neither access blocks or has any other effect. -/
def Obligations.WindowsAndRamMirrors : Prop :=
  (∀ a : Word,
    (window a = .ram ↔ a.toNat ≤ 0x1FFF) ∧ (window a = .ppu ↔ 0x2000 ≤ a.toNat ∧ a.toNat ≤ 0x3FFF) ∧
    (window a = .apuIo ↔ 0x4000 ≤ a.toNat ∧ a.toNat ≤ 0x7FFF) ∧ (window a = .cartridge ↔ 0x8000 ≤ a.toNat)) ∧
  ∀ (s : State) (a b : Word) (v : Byte), a.toNat < 0x2000 → b.toNat < 0x2000 →
    ∃ t, busWrite a v s = .done () t ∧ t = { s with ram := t.ram } ∧
      busRead b t = .done (if b.toNat % 2048 = a.toNat % 2048 then v else s.ram.read (b.toNat % 2048)) t

/-- 20_memory.md R86, R90, R93: a cartridge read goes through the newest mapping that holds the address, else it is the
identity from 0x8000, modulo the image size; it has no side effect. -/
def Obligations.CartridgeReadUsesTheNewestMapping : Prop :=
  ∀ (s : State) (a : Word), 0x8000 ≤ a.toNat →
    (∀ (older : List Mapping) (m : Mapping) (newer : List Mapping),
      s.cart.mappings = newer ++ m :: older →
      (∀ n ∈ newer, ¬ (n.srcStart.toNat ≤ a.toNat ∧ a.toNat < n.srcStart.toNat + n.srcLen)) →
      m.srcStart.toNat ≤ a.toNat → a.toNat < m.srcStart.toNat + m.srcLen →
      busRead a s = .done (s.cart.prg.read ((m.destOffset + (a.toNat - m.srcStart.toNat)) % s.cart.prgSize)) s) ∧
    ((∀ n ∈ s.cart.mappings, ¬ (n.srcStart.toNat ≤ a.toNat ∧ a.toNat < n.srcStart.toNat + n.srcLen)) →
      busRead a s = .done (s.cart.prg.read ((a.toNat - 0x8000) % s.cart.prgSize)) s)

/-- 20_memory.md R87, R89, R90: a write to the control range inserts exactly one mapping, as the newest: every address
of the source range then reads from the bank the value names, modulo the number of banks, and every other address as
before; a write outside the range, and every write on mapper 0 or an id without record, changes nothing.  The record
of another id is the table's, held as a list: the first that has the id. -/
def Obligations.BankSwitchSelectsTheBank : Prop :=
  ∀ (prm : Params) (c : Cartridge) (a : Word) (v : Byte),
    (c.mapperId = 0 → c.write prm a v = c) ∧
    (mapperEntry prm c.mapperId = none → c.write prm a v = c) ∧
    (c.mapperId ≠ 0 →
      mapperEntry prm c.mapperId = (prm.mapperTable.find? fun e => e.1 == c.mapperId).map (·.2)) ∧
    (∀ e, mapperEntry prm c.mapperId = some e →
      (¬ (e.ctrlLo.toNat ≤ a.toNat ∧ a.toNat ≤ e.ctrlHi.toNat) → c.write prm a v = c) ∧
      (e.ctrlLo.toNat ≤ a.toNat → a.toNat ≤ e.ctrlHi.toNat →
        c.write prm a v = { c with
          mappings := { srcStart := e.srcStart, srcLen := e.srcLen
                        destOffset := v.toNat % max 1 (c.prgSize / e.bankSize) * e.bankSize } :: c.mappings } ∧
        (∀ b : Word, ¬ (e.srcStart.toNat ≤ b.toNat ∧ b.toNat < e.srcStart.toNat + e.srcLen) →
          (c.write prm a v).read b = c.read b) ∧
        ∀ b : Word, e.srcStart.toNat ≤ b.toNat → b.toNat < e.srcStart.toNat + e.srcLen →
          (c.write prm a v).read b =
            c.prg.read ((v.toNat % max 1 (c.prgSize / e.bankSize) * e.bankSize +
              (b.toNat - e.srcStart.toNat)) % c.prgSize)))

/-- The PPU targets of the window 0x2000 to 0x3FFF, by the address modulo 8 (20_memory.md R74). -/
def ppuRegisters : List (Nat × PpuReg) :=
  [(0, .ctrl), (1, .mask), (2, .status), (3, .oamAddr), (4, .oamData), (5, .scroll), (6, .busAddr), (7, .busData)]

/-- The APU targets that a read and a write reach, by address (20_memory.md R75, 50_channel_protocol.md R275). -/
def apuRegisters : List (Nat × ApuReg) :=
  [(0x4000, .pulse1Env), (0x4001, .pulse1Sweep), (0x4002, .pulse1Lo), (0x4003, .pulse1Hi), (0x4004, .pulse2Env),
   (0x4005, .pulse2Sweep), (0x4006, .pulse2Lo), (0x4007, .pulse2Hi), (0x4008, .triCounter), (0x400A, .triPeriodLo),
   (0x400B, .triPeriodHi), (0x400C, .noiseVolume), (0x400E, .noisePeriod), (0x4015, .statusEnable)]

/-- The addresses that name no target for reads and for writes (20_memory.md R75). -/
def hasNoTarget (a : Word) : Prop :=
  a.toNat = 0x4009 ∨ a.toNat = 0x400D ∨ (0x400F ≤ a.toNat ∧ a.toNat ≤ 0x4013) ∨
    (0x4018 ≤ a.toNat ∧ a.toNat ≤ 0x7FFF)

/-- 20_memory.md R73 to R77, R86, 50_channel_protocol.md R263, R275: which address names which target, for reads and
for writes, in all four windows, and the latch of an APU target; a read of an address without target is a draw and
sends nothing, and a write to one changes nothing.  Such are 0x4009, 0x400D, 0x400F to 0x4013 and 0x4018 to 0x7FFF,
and for reads 0x4014 and 0x4017.  What a read answers in `async` (R263): a byte of RAM or cartridge, a reply already
received (`feed`, assumption 4), a request that waits. -/
def Obligations.NoTargetAccess : Prop :=
  (∀ (s : State) (a : Word),
    (∀ v, s.memoryByte a = some v → busRead a s = .done v s) ∧
    (∀ v rest, s.memoryByte a = none → s.feed = v :: rest →
      busRead a s = .done v { s with feed := rest, log := s.log ++ [v] }) ∧
    (∀ r, requestAt a = some r → s.params.syncMode = .async → s.feed = [] → busRead a s = .wait r s)) ∧
  (∀ (s : State) (a : Word), hasNoTarget a →
    (∀ v, busWrite a v s = .done () s) ∧
    (s.feed = [] → busRead a s = .done (Config.freeByte s.draws)
      { s with draws := s.draws + 1, log := s.log ++ [Config.freeByte s.draws] }) ∧
    (s.feed = [] → ∀ a' : Word, a' = 0x4014 ∨ a' = 0x4017 → busRead a' s = .done (Config.freeByte s.draws)
      { s with draws := s.draws + 1, log := s.log ++ [Config.freeByte s.draws] })) ∧
  ∀ a : Word,
    (a.toNat < 0x2000 → readTarget a = .ram (a.toNat % 2048) ∧ writeTarget a = .ram (a.toNat % 2048)) ∧
    (∀ t, 0x2000 ≤ a.toNat → a.toNat < 0x4000 → (a.toNat % 8, t) ∈ ppuRegisters →
      readTarget a = .ppu t ∧ writeTarget a = .ppu t) ∧
    (∀ t, (a.toNat, t) ∈ apuRegisters →
      readTarget a = .apu t ∧ writeTarget a = .apu t ∧ t.offset = a.toNat - 0x4000) ∧
    (a = 0x4014 → readTarget a = .noTarget ∧ writeTarget a = .oamDma) ∧
    (a = 0x4016 → readTarget a = .ppu .joypad ∧ writeTarget a = .ppu .joypad) ∧
    (a = 0x4017 → readTarget a = .noTarget ∧ writeTarget a = .apu .frameCounter ∧
      ApuReg.frameCounter.offset = 0x17) ∧
    (hasNoTarget a → readTarget a = .noTarget ∧ writeTarget a = .noTarget) ∧
    (0x8000 ≤ a.toNat → readTarget a = .cartridge ∧ writeTarget a = .cartridge)

/-! ## Channels and agents -/

/-- 50_channel_protocol.md R264, R265, R266, R269: the PPU's turn in `async`: a shutdown ends its loop; otherwise it
applies the oldest queued write, if any, then answers the oldest request, if any, with exactly one reply (read from the
PPU as that write left it, with the read's own effect), then advances its clock.  Nothing else changes. -/
def Obligations.PpuTickDrainsOneWriteAndOneRead : Prop :=
  ∀ (s : State) (drained : Ppu), nextMove s = .ppu → allReturned s = false → s.alivePpu = true →
    s.params.syncMode = .async →
    (drained = match s.ppuChan.writes with
      | [] => s.ppu
      | w :: _ => s.ppu.applyWrite w) →
    (s.shutdown = true → step s = .next { moveTaken s with alivePpu := false }) ∧
    (s.shutdown = false → s.ppuChan.reads = [] →
      step s = .next (advanceClock { moveTaken s with
        ppu := drained, ppuChan := { s.ppuChan with writes := s.ppuChan.writes.tail } })) ∧
    (∀ r rs reply answered, s.shutdown = false → s.ppuChan.reads = r :: rs →
      (reply, answered) = drained.applyRead s.params.ppudataReadBuffered (Config.freeByte s.draws) r →
      step s = .next (advanceClock { moveTaken s with
        ppu := answered, draws := if r.draws then s.draws + 1 else s.draws
        ppuChan := { writes := s.ppuChan.writes.tail, reads := rs, results := s.ppuChan.results ++ [reply] } }))

/-- 50_channel_protocol.md R276, R264, R269: the APU's turn in `async`: a shutdown ends its loop; otherwise it stores the
oldest queued write, if any, in its latch and answers the oldest request, if any, with a draw.  Nothing else changes. -/
def Obligations.ApuTickStoresAndReplies : Prop :=
  ∀ (s : State) (latch : Memory), nextMove s = .apu → allReturned s = false → s.aliveApu = true →
    s.params.syncMode = .async →
    (latch = match s.apuChan.writes with
      | [] => s.apuLatch
      | (r, v) :: _ => s.apuLatch.write r.offset v) →
    (s.shutdown = true → step s = .next { moveTaken s with aliveApu := false }) ∧
    (s.shutdown = false → s.apuChan.reads = [] →
      step s = .next { moveTaken s with
        apuLatch := latch, apuChan := { s.apuChan with writes := s.apuChan.writes.tail } }) ∧
    (∀ r rs, s.shutdown = false → s.apuChan.reads = r :: rs →
      step s = .next { moveTaken s with
        apuLatch := latch, draws := s.draws + 1
        apuChan := { writes := s.apuChan.writes.tail, reads := rs
                     results := s.apuChan.results ++ [Config.freeByte s.draws] } })

/-- 50_channel_protocol.md R268, R273: a CPU awaiting a responder that has gone without answering resumes with 0x00 or
is stuck for ever, as the free race decides; once stuck its turn changes nothing, and it has not returned: the host's
turns go on (R261).  Each of the host's four actions changes the buttons, the shutdown flag, the reset request or the
IRQ level, and nothing else.  That the race is drawn at the CPU's first turn after that, and that the unanswered
request is dropped when it resumes, are the model's choice (assumption 5). -/
def Obligations.PeerGoneIsARace : Prop :=
  (∀ (s : State) (r : PpuReg), s.run = .awaitRead (.ppu r) → s.stuck = false → s.alivePpu = false →
      s.ppuChan.results = [] →
      cpuMove s =
        if Config.peerGoneResumes s.draws = true then
          resume 0x00 { s with ppuChan := { s.ppuChan with reads := [] }, draws := s.draws + 1 }
        else .next { s with stuck := true, draws := s.draws + 1 }) ∧
  (∀ (s : State) (r : ApuReg), s.run = .awaitRead (.apu r) → s.stuck = false → s.aliveApu = false →
      s.apuChan.results = [] →
      cpuMove s =
        if Config.peerGoneResumes s.draws = true then
          resume 0x00 { s with apuChan := { s.apuChan with reads := [] }, draws := s.draws + 1 }
        else .next { s with stuck := true, draws := s.draws + 1 }) ∧
  (∀ (s : State) (r : ReadRequest), s.run = .awaitRead r → s.stuck = true → cpuMove s = .next s) ∧
  (∀ (s : State) (r : ReadRequest), s.run = .awaitRead r → allReturned s = false) ∧
  (∀ s : State, allReturned s = false →
    (∀ b, nextMove s = .host (.setButtons b) →
      step s = .next { moveTaken s with ppu := { s.ppu with buttons := b } }) ∧
    (nextMove s = .host .setShutdown → step s = .next { moveTaken s with shutdown := true }) ∧
    (nextMove s = .host .requestReset → step s = .next { moveTaken s with resetRequest := true }) ∧
    (∀ level, nextMove s = .host (.driveIrq level) → step s = .next { moveTaken s with irqLine := level }))

/-- 50_channel_protocol.md R261, R267, R269, 70_reset_and_hazards.md R392: every run is weakly fair, by the way turns
are chosen (assumption 3); so in every run in `async` a request queued with a live responder comes to that responder's
turn, nothing having changed in the channel's requests and replies before; that turn gives the request exactly one
reply, or, with shutdown set, ends the responder's loop. -/
def Obligations.EveryRequestIsAnsweredOnce : Prop :=
  (∀ r : Nat → State, IsRun r → WeaklyFair r) ∧
  (∀ (r : Nat → State) (n : Nat) (t : PpuReg), IsRun r → (r n).params.syncMode = .async →
    (r n).run = .awaitRead (.ppu t) → (r n).ppuChan.reads = [t] → (r n).ppuChan.results = [] →
    (r n).alivePpu = true →
      ∃ k, n ≤ k ∧ (∀ j, n ≤ j → j ≤ k → (r j).ppuChan.reads = [t] ∧ (r j).ppuChan.results = []) ∧
        nextMove (r k) = .ppu ∧
        ((r k).shutdown = false → (r (k + 1)).ppuChan.reads = [] ∧ ∃ v, (r (k + 1)).ppuChan.results = [v]) ∧
        ((r k).shutdown = true → (r (k + 1)).alivePpu = false)) ∧
  (∀ (r : Nat → State) (n : Nat) (t : ApuReg), IsRun r → (r n).params.syncMode = .async →
    (r n).run = .awaitRead (.apu t) → (r n).apuChan.reads = [t] → (r n).apuChan.results = [] →
    (r n).aliveApu = true →
      ∃ k, n ≤ k ∧ (∀ j, n ≤ j → j ≤ k → (r j).apuChan.reads = [t] ∧ (r j).apuChan.results = []) ∧
        nextMove (r k) = .apu ∧
        ((r k).shutdown = false → (r (k + 1)).apuChan.reads = [] ∧ ∃ v, (r (k + 1)).apuChan.results = [v]) ∧
        ((r k).shutdown = true → (r (k + 1)).aliveApu = false))

/-! ## The PPU -/

/-- 51_ppu.md R292 to R299, R303: what each write command but JOYPAD does to the PPU: nothing else changes.  `BUS_DATA`
stores at `vaddr` and advances it by 1 or 32 modulo 0x4000; the bulk transfer writes the k-th of its 256 bytes to OAM at
`oam_addr + k` modulo 256 and leaves `oam_addr`. -/
def Obligations.PpuRegisterWrites : Prop :=
  ∀ (p : Ppu) (v : Byte),
    p.applyWrite (.reg .ctrl v) = { p with ctrl := v } ∧
    p.applyWrite (.reg .mask v) = { p with mask := v } ∧
    p.applyWrite (.reg .status v) = p ∧
    p.applyWrite (.reg .oamAddr v) = { p with oamAddr := v } ∧
    p.applyWrite (.reg .oamData v) = { p with oam := p.oam.write p.oamAddr.toNat v, oamAddr := p.oamAddr + 1 } ∧
    (p.latch = .first → p.applyWrite (.reg .scroll v) = { p with scrollX := v, latch := .second }) ∧
    (p.latch = .second → p.applyWrite (.reg .scroll v) = { p with scrollY := v, latch := .first }) ∧
    (∀ w : VAddr, p.latch = .first → w.toNat = v.toNat % 0x40 * 256 + p.vaddr.toNat % 256 →
      p.applyWrite (.reg .busAddr v) = { p with vaddr := w, latch := .second }) ∧
    (∀ w : VAddr, p.latch = .second → w.toNat = p.vaddr.toNat / 256 * 256 + v.toNat →
      p.applyWrite (.reg .busAddr v) = { p with vaddr := w, latch := .first }) ∧
    (∀ w : VAddr, w.toNat = (p.vaddr.toNat + (if p.ctrl.getLsbD 2 then 32 else 1)) % 0x4000 →
      p.applyWrite (.reg .busData v) = { p.write p.vaddr v with vaddr := w }) ∧
    (∀ (buf : List Byte) (k : Nat), buf.length = 256 → k < 256 → ∃ oam,
      p.applyWrite (.oamDma buf) = { p with oam := oam } ∧
      some (oam.read ((p.oamAddr.toNat + k) % 256)) = buf[k]?)

/-- 51_ppu.md R298, R300 to R302: what each read but JOYPAD's replies and leaves; `draw` is the free byte. -/
def Obligations.PpuRegisterReads : Prop :=
  ∀ (p : Ppu) (draw : Byte) (buffered : Bool),
    (∀ t, t ∈ [PpuReg.ctrl, .mask, .oamAddr, .scroll, .busAddr] → p.applyRead buffered draw t = (draw, p)) ∧
    (∃ r, p.applyRead buffered draw .status =
        (r, { p with status := { p.status with vblank := false }, latch := .first }) ∧
      r.getLsbD 7 = p.status.vblank ∧ r.getLsbD 6 = p.status.spr0Hit ∧ r.getLsbD 5 = p.status.overflow ∧
      r.toNat % 32 = draw.toNat % 32) ∧
    p.applyRead buffered draw .oamData = (p.oam.read p.oamAddr.toNat, p) ∧
    (∀ next : VAddr, next.toNat = (p.vaddr.toNat + (if p.ctrl.getLsbD 2 then 32 else 1)) % 0x4000 →
      (buffered = true → p.vaddr.toNat < 0x3F00 → p.applyRead buffered draw .busData =
        (p.readBuffer, { p with readBuffer := p.read p.vaddr, vaddr := next })) ∧
      (buffered = true → 0x3F00 ≤ p.vaddr.toNat → p.applyRead buffered draw .busData =
        (p.read p.vaddr, { p with readBuffer := p.read (p.vaddr - 0x1000), vaddr := next })) ∧
      (buffered = false → p.applyRead buffered draw .busData = (p.read p.vaddr, { p with vaddr := next })))

/-- The canonical PPU address of a PPU address: the 0x3000 mirror, the nametable mirroring and the palette mirrors
folded (51_ppu.md R304, R305, R307). -/
def ppuFold (mir : Mirroring) (n : Nat) : Nat :=
  let m := if 0x3000 ≤ n ∧ n < 0x3F00 then n - 0x1000 else n
  if m < 0x2000 then m
  else if m < 0x3000 then
    match mir with
    | .horizontal => 0x2000 + (m - 0x2000) / 0x800 * 0x400 + m % 0x400
    | .vertical => 0x2000 + (m - 0x2000) % 0x800
  else
    let i := m % 0x20
    if i % 4 = 0 ∧ 0x10 ≤ i then 0x3F00 + (i - 0x10) else 0x3F00 + i

/-- 51_ppu.md R304 to R307: after a write at a PPU address, exactly the addresses that fold to the same place read the
byte, all eight bits of it; a write to CHR-ROM changes nothing. -/
def Obligations.PpuMemoryReadAfterWrite : Prop :=
  ∀ (p : Ppu) (a b : VAddr) (v : Byte),
    (0x2000 ≤ a.toNat ∨ p.chrRam = true →
      (p.write a v).read b =
        if ppuFold p.mirroring b.toNat = ppuFold p.mirroring a.toNat then v else p.read b) ∧
    (a.toNat < 0x2000 → p.chrRam = false → p.write a v = p)

/-- 51_ppu.md R310, R312, R317 to R319: a clock advance counts the cycle, and at the end of a scanline the scanline,
wrapping after the last; entering scanline 0 clears the flags, runs the detector, composes the frame and emits
`vblank_end`; entering the hit row sets the hit flag; entering the vblank line sets the vblank flag, hands the frame
over and emits `vblank_start` with the enable bit and `frame_end`; any other boundary has no effect, and none has any
other effect. -/
def Obligations.ClockRaisesTheFrameEvents : Prop :=
  ∀ s : State,
    (s.ppu.cycle + 1 ≠ s.params.cyclesPerScanline →
      advanceClock s = { s with ppu := { s.ppu with cycle := s.ppu.cycle + 1 } }) ∧
    (s.ppu.cycle + 1 = s.params.cyclesPerScanline →
      ∀ (n : Nat) (hit : Option Nat) (frame : Memory),
      n = (if s.ppu.scanline = s.params.lastLine then 0 else s.ppu.scanline + 1) →
      hit = (if n = 0 then s.ppu.detect s.params else s.ppu.hitRow) →
      frame = (if n = 0 then s.ppu.compose s.params else s.ppu.frame) →
      let vblank := decide (n = s.params.vblankStartLine)
      advanceClock s = { s with
        ppu := { s.ppu with
          cycle := 0, scanline := n, hitRow := hit, frame := frame
          status := { s.ppu.status with
            vblank := vblank || (decide (n ≠ 0) && s.ppu.status.vblank)
            spr0Hit := decide (hit = some n) || (decide (n ≠ 0) && s.ppu.status.spr0Hit) } }
        vblankEnd := if n = 0 then s.vblankEnd + 1 else s.vblankEnd
        vblankStart := if vblank then s.vblankStart ++ [s.ppu.ctrl.getLsbD 7] else s.vblankStart
        frameEnd := if vblank then s.frameEnd + 1 else s.frameEnd
        framesOut := if vblank then s.framesOut ++ [{ frame := frame, mask := s.ppu.mask }] else s.framesOut } ∧
      (n ≠ 0 → hit ≠ some n → n ≠ s.params.vblankStartLine →
        advanceClock s = { s with ppu := { s.ppu with cycle := 0, scanline := n } }))

/-- The colour of a tile's pixel, from the two bytes of its row (51_ppu.md R323). -/
def patternColourAt (p : Ppu) (base tile row col : Nat) : Nat :=
  let lo := (p.read (BitVec.ofNat 14 (base + 16 * tile + row))).toNat
  let hi := (p.read (BitVec.ofNat 14 (base + 16 * tile + row + 8))).toNat
  2 * (hi / 2 ^ (7 - col) % 2) + lo / 2 ^ (7 - col) % 2

/-- Byte `k` of OAM record `i` (51_ppu.md R320). -/
def oamByte (p : Ppu) (i k : Nat) : Nat := (p.oam.read (4 * i + k)).toNat

/-- The colour of sprite record `i` at screen (x, y), from OAM and the pattern tables: its box, its flips and its
tile, 8 or 16 tall; 0 outside the box (51_ppu.md R320 to R324). -/
def spriteColourAt (prm : Params) (p : Ppu) (i x y : Nat) : Nat :=
  let tall := p.ctrl.toNat / 32 % 2 = 1
  let height := if tall then 16 else 8
  let top := oamByte p i 0 + prm.spriteYOffset
  let left := oamByte p i 3
  let tile := oamByte p i 1
  if left ≤ x ∧ x < left + 8 ∧ top ≤ y ∧ y < top + height then
    let row := if oamByte p i 2 / 128 % 2 = 1 then height - 1 - (y - top) else y - top
    let col := if oamByte p i 2 / 64 % 2 = 1 then 7 - (x - left) else x - left
    if tall then
      patternColourAt p (if tile % 2 = 1 then 0x1000 else 0)
        (if row < 8 then tile / 2 * 2 else tile / 2 * 2 + 1) (row % 8) col
    else patternColourAt p (if p.ctrl.toNat / 8 % 2 = 1 then 0x1000 else 0) tile row col
  else 0

/-- Whether sprite record `i` has background priority (51_ppu.md R320). -/
def isBehind (p : Ppu) (i : Nat) : Bool := decide (oamByte p i 2 / 32 % 2 = 1)

/-- The background layer at screen (x, y), from the scroll, the nametables and the pattern tables: its two-bit palette and
its colour (51_ppu.md R330). -/
def backgroundAt (p : Ppu) (x y : Nat) : Nat × Nat :=
  let planeX := (x + p.scrollX.toNat + 256 * (p.ctrl.toNat % 2)) % 512
  let planeY := (y + p.scrollY.toNat + 240 * (p.ctrl.toNat / 2 % 2)) % 480
  let table := 0x2000 + 0x400 * (planeX / 256 + 2 * (planeY / 240))
  let tx := planeX % 256 / 8
  let ty := planeY % 240 / 8
  let tile := (p.read (BitVec.ofNat 14 (table + 32 * ty + tx))).toNat
  let attr := (p.read (BitVec.ofNat 14 (table + 0x3C0 + 8 * (ty / 4) + tx / 4))).toNat
  (attr / 2 ^ (4 * (ty % 4 / 2) + 2 * (tx % 4 / 2)) % 4,
    patternColourAt p (if p.ctrl.toNat / 16 % 2 = 1 then 0x1000 else 0) tile (planeY % 8) (planeX % 8))

/-- 51_ppu.md R320 to R328, R330: the detector's row is the first screen row with an interior cell set in both grids, and
there is none exactly when no interior cell is set in both.  The cell of a screen pixel is set in the sprite grid where
sprite record 0 is opaque, flips and height counted, and in the background grid where the background layer is opaque or,
with the parameter, a background-priority sprite but record 0 is; every border cell is set in both. -/
def Obligations.DetectorFindsTheFirstHitRow : Prop :=
  ∀ (prm : Params) (p : Ppu),
    let hit (y : Nat) : Prop := ∃ gx, 8 ≤ gx ∧ gx < 264 ∧
      p.gridSprite prm gx (y + 8) = true ∧ p.gridBackground prm gx (y + 8) = true
    (∀ y, p.detect prm = some y → y < 240 ∧ hit y ∧ ∀ y', y' < y → ¬ hit y') ∧
    (p.detect prm = none → ∀ y, y < 240 → ¬ hit y) ∧
    (∀ x y, x < 256 → y < 240 →
      (p.gridSprite prm (x + 8) (y + 8) = true ↔ spriteColourAt prm p 0 x y ≠ 0) ∧
      (p.gridBackground prm (x + 8) (y + 8) = true ↔
        (backgroundAt p x y).2 ≠ 0 ∨
          (prm.sprite0BgIncludesBackSprites = true ∧
            ∃ i, 1 ≤ i ∧ i < 64 ∧ isBehind p i = true ∧ spriteColourAt prm p i x y ≠ 0))) ∧
    (∀ gx gy, gx < 8 ∨ 264 ≤ gx ∨ gy < 8 ∨ 248 ≤ gy →
      p.gridSprite prm gx gy = true ∧ p.gridBackground prm gx gy = true)

/-- The palette entry of the lowest-index sprite of a priority that is opaque and visible at (x, y) (51_ppu.md R321,
R331). -/
def spriteLayer (prm : Params) (p : Ppu) (behind : Bool) (x y : Nat) : Option Nat :=
  if p.mask.getLsbD 4 = true ∧ (8 ≤ x ∨ p.mask.getLsbD 2 = true) then
    ((List.range 64).find? fun i => isBehind p i == behind && spriteColourAt prm p i x y != 0).map fun i =>
      0x10 + 4 * (oamByte p i 2 % 4) + spriteColourAt prm p i x y
  else none

/-- The palette entry of the background layer where it is opaque and visible (51_ppu.md R331). -/
def backgroundLayer (p : Ppu) (x y : Nat) : Option Nat :=
  let pixel := backgroundAt p x y
  if p.mask.getLsbD 3 = true ∧ (8 ≤ x ∨ p.mask.getLsbD 1 = true) ∧ pixel.2 ≠ 0 then some (4 * pixel.1 + pixel.2) else none

/-- 51_ppu.md R320 to R324, R330, R331: the composed frame holds at every pixel the palette byte of its layering: the
first opaque foreground-priority sprite, else the opaque visible background, else the first opaque background-priority
sprite, else the backdrop; a sprite's colour comes from its OAM record and the pattern tables, the background's from
the scroll, the nametables and the pattern tables. -/
def Obligations.FrameHoldsTheLayeredPixels : Prop :=
  ∀ (prm : Params) (p : Ppu) (x y : Nat), x < 256 → y < 240 →
    (p.compose prm).read (256 * y + x) =
      p.read (BitVec.ofNat 14 (0x3F00 +
        (match spriteLayer prm p false x y, backgroundLayer p x y, spriteLayer prm p true x y with
          | some e, _, _ => e
          | none, some e, _ => e
          | none, none, some e => e
          | none, none, none => 0)))

/-- The PPU after `n` joypad reads. -/
def joypadReads : Nat → Ppu → Ppu
  | 0, p => p
  | n + 1, p => joypadReads n p.readJoypad.2

/-- 51_ppu.md R341, R342: after a write with strobe off the n-th read replies button n modulo 8 in bit 0; with strobe on
every read replies the first button; bits 7:1 are 0.  A write changes the strobe and the index only; a read changes the
index only, and not with the strobe on. -/
def Obligations.JoypadShiftsTheButtons : Prop :=
  (∀ (p : Ppu) (v : Byte) (n : Nat),
    let q := joypadReads n (p.applyWrite (.reg .joypad v))
    (v.getLsbD 0 = false → q.readJoypad.1.toNat = (p.buttons.getLsbD (n % 8)).toNat) ∧
    (v.getLsbD 0 = true → q.readJoypad.1.toNat = (p.buttons.getLsbD 0).toNat)) ∧
  (∀ (p : Ppu) (v : Byte), p.applyWrite (.reg .joypad v) = { p with strobe := v.getLsbD 0, index := 0 }) ∧
  (∀ (p : Ppu) (draw : Byte) (buffered : Bool),
    (p.applyRead buffered draw .joypad).1 = p.readJoypad.1 ∧
    (p.strobe = true → (p.applyRead buffered draw .joypad).2 = p) ∧
    (p.strobe = false → ∀ k : Fin 8, k.val = (p.index.val + 1) % 8 →
      (p.applyRead buffered draw .joypad).2 = { p with index := k }))

/-! ## Lockstep -/

/-- In `lockstep`, the reply of a read of an address outside RAM and cartridge and the state after it: a PPU target
answers by its rule and takes its read's effect, an APU target and an address without target by a draw; a responder
that has gone, which no CPU meets in `lockstep`, by 0x00 (50_channel_protocol.md R272, R276; 20_memory.md R77;
assumption 17). -/
def lockstepReply (a : Word) (s : State) : Option (Byte × State) :=
  match readTarget a with
  | .ppu t =>
    if s.alivePpu then
      let q := s.ppu.applyRead s.params.ppudataReadBuffered (Config.freeByte s.draws) t
      some (q.1, { s with ppu := q.2, draws := if t.draws then s.draws + 1 else s.draws })
    else some (0x00, s)
  | .apu _ => some (if s.aliveApu then (Config.freeByte s.draws, { s with draws := s.draws + 1 }) else (0x00, s))
  | .oamDma | .noTarget => some (Config.freeByte s.draws, { s with draws := s.draws + 1 })
  | .ram _ | .cartridge => none

/-- 50_channel_protocol.md R272, R262, R276, 20_memory.md R74 to R76, R104: in `lockstep` every instruction completes,
whatever target it reads or writes, and leaves no request and no reply.  With no command queued, a store to a PPU or
APU target is applied within the instruction (a responder that has gone gets nothing), a read of one is answered
within it, and a read-modify-write does both in turn, at an address no read reaches too; the command FIFOs stay empty.
 After a CPU step that charged cycles, the live PPU's clock has advanced `PPU_TICKS_PER_CPU_CYCLE` times as often; in
`async` it has not. -/
def Obligations.LockstepIsSynchronous : Prop :=
  (∀ s : State, s.params.syncMode = .lockstep →
    (∀ i : Instr, ∃ t, exec i s = .next t ∧ t.run = s.run ∧ t.ppuChan.reads = s.ppuChan.reads ∧
      t.apuChan.reads = s.apuChan.reads ∧ t.ppuChan.results = s.ppuChan.results ∧
      t.apuChan.results = s.apuChan.results) ∧
    (s.ppuChan.writes = [] → s.apuChan.writes = [] →
      (∀ (i : Instr) (a : Word) (v : Byte), resolve i.operand s = .addr a →
        (i.mnemonic, v) ∈ [(Mnemonic.sta, s.a), (Mnemonic.stx, s.x), (Mnemonic.sty, s.y)] →
        (∀ t, writeTarget a = .ppu t → exec i s = .next { s with
          ppu := if s.alivePpu then s.ppu.applyWrite (.reg t v) else s.ppu, pageCrossed := crossing i.operand s }) ∧
        (∀ t, writeTarget a = .apu t → exec i s = .next { s with
          apuLatch := if s.aliveApu then s.apuLatch.write t.offset v else s.apuLatch
          pageCrossed := crossing i.operand s }) ∧
        (writeTarget a = .noTarget → exec i s = .next { s with pageCrossed := crossing i.operand s })) ∧
      (∀ (o : Operand) (a : Word) (v : Byte) (t : State), resolve o s = .addr a → s.feed = [] →
        lockstepReply a s = some (v, t) → busRead a s = .done v { t with log := s.log ++ [v] } ∧
        operandRead o s = .done v { t with pageCrossed := crossing o s, log := s.log ++ [v] }) ∧
      (∀ (i : Instr) (a : Word) (v r : Byte) (c : Bool) (t u : State), resolve i.operand s = .addr a → s.feed = [] →
        lockstepReply a s = some (v, t) →
        (i.mnemonic, c, r.toNat) ∈
          [(Mnemonic.inc, s.p.c, (v.toNat + 1) % 256), (Mnemonic.dec, s.p.c, (v.toNat + 255) % 256),
           (Mnemonic.asl, v.getLsbD 7, v.toNat * 2 % 256), (Mnemonic.lsr, v.getLsbD 0, v.toNat / 2),
           (Mnemonic.rol, v.getLsbD 7, (v.toNat * 2 + s.p.c.toNat) % 256),
           (Mnemonic.ror, v.getLsbD 0, v.toNat / 2 + 128 * s.p.c.toNat)] →
        u = { t with
          log := s.log ++ [v], pageCrossed := crossing i.operand s
          p := { s.p with c := c, n := r.getLsbD 7, z := r == 0 } } →
        (∀ g, writeTarget a = .ppu g → exec i s = .next { u with
          ppu := if s.alivePpu then t.ppu.applyWrite (.reg g r) else t.ppu }) ∧
        (∀ g, writeTarget a = .apu g → exec i s = .next { u with
          apuLatch := if s.aliveApu then s.apuLatch.write g.offset r else s.apuLatch }) ∧
        (writeTarget a = .noTarget → exec i s = .next u) ∧
        (writeTarget a = .oamDma → ∀ buf w, PageRead r { u with p := s.p } buf w →
          exec i s = .next { bulkSent buf w with p := u.p }))) ∧
    (∀ t : State, t.params = s.params →
      followCpu s t =
        if t.alivePpu then
          Nat.repeat advanceClock (s.params.ppuTicksPerCpuCycle * (t.cycles - s.cycles)) t
        else t)) ∧
  (∀ s t : State, s.params.syncMode = .async → followCpu s t = t)

/-! ## Invariants of every step -/

/-- 10_state.md R40, R41, R45, R49, R51: every memory keeps its canonical form and its size, in every step of every
agent. -/
def Obligations.MemoriesStayCanonical : Prop :=
  ∀ s t : State, s.MemoriesWf → step s = .next t → t.MemoriesWf

/-- 10_state.md R45, 51_ppu.md R310: the scanline counter stays at most LAST_LINE, the cycle counter below
CYCLES_PER_SCANLINE, and a hit row is a screen row. -/
def Obligations.ClockStaysInRange : Prop :=
  ∀ s t : State, s.ClockWf → step s = .next t → t.ClockWf

/-- 50_channel_protocol.md R277, 10_state.md R36, R38, 50_channel_protocol.md R272: at most one request is outstanding
and only while the CPU awaits it; a running CPU has no remaining work and a waiting one has, and only a waiting
execution has a handler program to go on with (the form of that work is the model's, assumption 4); in `lockstep` the
CPU never waits and the command FIFOs stay empty. -/
def Obligations.ChannelsAndWorkStayConsistent : Prop :=
  ∀ s t : State, s.ChannelsWf → s.WorkWf → s.LockstepWf → step s = .next t →
    t.ChannelsWf ∧ t.WorkWf ∧ t.LockstepWf

/-- 10_state.md R52, 20_memory.md R91, 40_engine.md R141: no step changes the parameters, the program bytes, the mapper
id, the mirroring or a character ROM, and none removes a mapping. -/
def Obligations.ParametersAndRomNeverChange : Prop :=
  ∀ s t : State, step s = .next t →
    t.params = s.params ∧ t.cart.prg = s.cart.prg ∧ t.cart.prgSize = s.cart.prgSize ∧
    t.cart.mapperId = s.cart.mapperId ∧ t.ppu.mirroring = s.ppu.mirroring ∧ t.ppu.chrRam = s.ppu.chrRam ∧
    (s.ppu.chrRam = false → t.ppu.chr = s.ppu.chr) ∧ (∃ added, t.cart.mappings = added ++ s.cart.mappings)

/-- 10_state.md R38, R44, R43, 10_state.md R48: a halted or exited CPU, a set shutdown flag and a responder that has gone
stay so in every step; cycles never decrease; the overflow flag, never set in this machine, stays clear. -/
def Obligations.StoppedAgentsStayStopped : Prop :=
  ∀ s t : State, step s = .next t →
    (∀ c, s.run = .halted c → t.run = .halted c) ∧ (s.run = .exited → t.run = .exited) ∧
    (s.shutdown = true → t.shutdown = true) ∧ (s.alivePpu = false → t.alivePpu = false) ∧
    (s.aliveApu = false → t.aliveApu = false) ∧ s.cycles ≤ t.cycles ∧
    (s.ppu.status.overflow = false → t.ppu.status.overflow = false)

/-- 10_state.md R53, 70_reset_and_hazards.md R380 to R382: the power-on state for every parameter set, image and draw of
the memories, before and after the reset entry that is the CPU's first step.  The pending request that makes the reset
entry the first step is the model's way to say R380 (assumption 6); that character data beyond its first 8192 bytes is not
held is R306 as the model reads it (assumption 21). -/
def Obligations.PowerOnAndFirstStep : Prop :=
  ∀ (prm : Params) (img : Image) (d : PowerOn),
    let s := State.powerOn prm img d
    (s.a = 0 ∧ s.x = 0 ∧ s.y = 0 ∧ s.sp = 0 ∧ s.pc = 0 ∧ s.p.toByte = 0x10 ∧ s.pageCrossed = false ∧
      s.branchTaken = false ∧ s.cycles = 0 ∧ s.run = .running ∧ s.ram = d.ram ∧ s.cart.mappings = []) ∧
    (s.ppuChan.writes = [] ∧ s.ppuChan.reads = [] ∧ s.ppuChan.results = [] ∧ s.apuChan.writes = [] ∧
      s.apuChan.reads = [] ∧ s.apuChan.results = [] ∧ s.vblankStart = [] ∧ s.vblankEnd = 0 ∧ s.frameEnd = 0 ∧
      s.alivePpu = true ∧ s.aliveApu = true ∧ s.shutdown = false) ∧
    (s.ppu.ctrl = 0 ∧ s.ppu.mask = 0 ∧ s.ppu.status = { vblank := false, spr0Hit := false, overflow := false } ∧
      s.ppu.oamAddr = 0 ∧ s.ppu.scrollX = 0 ∧ s.ppu.scrollY = 0 ∧ s.ppu.vaddr = 0 ∧ s.ppu.readBuffer = 0 ∧
      s.ppu.latch = .first ∧ s.ppu.scanline = prm.lastLine ∧ s.ppu.cycle = prm.cyclesPerScanline - 1 ∧
      s.ppu.hitRow = none ∧ (∀ k, s.ppu.frame.read k = 0) ∧ s.ppu.strobe = false ∧ s.ppu.index = 0 ∧
      s.ppu.buttons = d.buttons) ∧
    (s.ppu.oam = d.oam ∧ s.ppu.vram = d.vram ∧ s.ppu.palette = d.palette ∧
      (∀ k, k < 8192 → img.chr = none → s.ppu.chr.read k = d.chrRam.read k) ∧
      (∀ k m, k < 8192 → img.chr = some m → s.ppu.chr.read k = m.read k)) ∧
    ∀ script, ∃ t, step { s with script := .cpu :: script } = .next t ∧
        t.a = 0 ∧ t.x = 0 ∧ t.y = 0 ∧ t.sp = 0 ∧ t.p.toByte = 0x10 ∧ t.cycles = 7 ∧
        t.pc = wordOf (img.prg.read (0x7FFC % img.prgSize)) (img.prg.read (0x7FFD % img.prgSize))

/-- The ground of each refusal of construction: no program bytes (20_memory.md R88), `DECIMAL_MODE` (42_arith_logic.md
R197), the clock parameters (51_ppu.md R313), a record of `MAPPER_TABLE` outside R89, two descriptors for a byte
(40_engine.md R141), bytes beyond the size of what they fill or not in canonical form (the model's form of bytes; that
`src_len` is a u16 is 10_state.md R41, assumption 27). -/
def refusalGround (prm : Params) (img : Image) (d : PowerOn) : ConstructionFailure → Prop
  | .emptyProgram => img.prgSize = 0
  | .decimalMode => prm.decimalMode = true
  | .clock => prm.cyclesPerScanline < 1 ∨ prm.vblankStartLine < 1 ∨ prm.lastLine < prm.vblankStartLine
  | .mapperTable => ∃ e ∈ prm.mapperTable, e.1 = 0 ∨ e.2.ctrlLo.toNat < 0x8000 ∨ e.2.ctrlHi.toNat < 0x8000 ∨
      e.2.srcStart.toNat < 0x8000 ∨ e.2.srcLen < 1 ∨ 0xFFFF < e.2.srcLen ∨ e.2.bankSize < 1
  | .opcodeTable => ¬ (prm.opcodes.map (·.opcode)).Nodup
  | .malformedImage => img.wf = false ∨ d.wf = false

/-- 10_state.md R53, 20_memory.md R88, R89, 42_arith_logic.md R197, 51_ppu.md R313, 40_engine.md R141: construction is
refused, as a typed failure, for an image or parameters the spec refuses, each failure naming a ground that holds, and
for those only; else it gives the power-on state.  The invariants hold there, for every constructible set of
parameters, image and draws, and at `State.reset`. -/
def Obligations.InvariantsHoldAtPowerOn : Prop :=
  (∀ (prm : Params) (img : Image) (d : PowerOn) (f : ConstructionFailure),
    (refusalGround prm img d f → ∃ g, construct prm img d = .error g) ∧
    (construct prm img d = .error f → refusalGround prm img d f)) ∧
  (∀ (prm : Params) (img : Image) (d : PowerOn), (∀ f, ¬ refusalGround prm img d f) →
    construct prm img d = .ok (State.powerOn prm img d)) ∧
  (∀ (prm : Params) (img : Image) (d : PowerOn) (s : State), construct prm img d = .ok s →
    s = State.powerOn prm img d ∧ s.MemoriesWf ∧ s.ClockWf ∧ s.ChannelsWf ∧ s.WorkWf ∧ s.LockstepWf) ∧
  State.reset.MemoriesWf ∧ State.reset.ClockWf ∧ State.reset.ChannelsWf ∧ State.reset.WorkWf ∧
    State.reset.LockstepWf
end

