-- ==== Sys2Proof/Laws/Ppu.lean ====
section
/-! SUPPORT. What a command can change of the PPU: its registers and memories, never its clock, its frame, its mirroring
or a character ROM; its memories keep their canonical form. -/

namespace Sys2Proof.Machine

/-- What register accesses can change of the PPU. -/
def Ppu.AccessFrame (p q : Ppu) : Prop :=
  ∃ ctrl mask vblank oamAddr latch scrollX scrollY vaddr readBuffer oam vram palette chr strobe index,
    (Memory.wf 256 p.oam → Memory.wf 256 oam) ∧ (Memory.wf 2048 p.vram → Memory.wf 2048 vram) ∧
    (Memory.wf 32 p.palette → Memory.wf 32 palette) ∧ (Memory.wf 8192 p.chr → Memory.wf 8192 chr) ∧
    (p.chrRam = false → chr = p.chr) ∧
    q = { p with
      ctrl := ctrl, mask := mask, status := { p.status with vblank := vblank }, oamAddr := oamAddr, latch := latch
      scrollX := scrollX, scrollY := scrollY, vaddr := vaddr, readBuffer := readBuffer, oam := oam, vram := vram
      palette := palette, chr := chr, strobe := strobe, index := index }

theorem Ppu.AccessFrame.refl (p : Ppu) : p.AccessFrame p :=
  ⟨_, _, _, _, _, _, _, _, _, _, _, _, _, _, _, id, id, id, id, fun _ => rfl, rfl⟩

theorem Ppu.AccessFrame.trans {p q r : Ppu} : p.AccessFrame q → q.AccessFrame r → p.AccessFrame r := by
  rintro ⟨_, _, _, _, _, _, _, _, _, _, _, _, _, _, _, h1, h2, h3, h4, h5, rfl⟩
    ⟨_, _, _, _, _, _, _, _, _, _, _, _, _, _, _, k1, k2, k3, k4, k5, rfl⟩
  exact ⟨_, _, _, _, _, _, _, _, _, _, _, _, _, _, _, k1 ∘ h1, k2 ∘ h2, k3 ∘ h3, k4 ∘ h4,
    fun h => (k5 h).trans (h5 h), rfl⟩

theorem ntIndex_lt (mir : Mirroring) (a : Nat) : ntIndex mir a < 2048 := by
  unfold ntIndex
  cases mir <;> dsimp only <;> omega

theorem palIndex_lt (a : Nat) : palIndex a < 32 := by
  unfold palIndex
  dsimp only
  split <;> omega

/-- Each cell of the PPU's memory map lies in its memory. -/
theorem ppuCell_lt (mir : Mirroring) (a : VAddr) :
    match ppuCell mir a with
    | .chr i => i < 8192
    | .vram i => i < 2048
    | .palette i => i < 32 := by
  by_cases h1 : a.toNat < 0x2000
  · simp only [ppuCell, if_pos h1]
    omega
  · by_cases h2 : a.toNat < 0x3000
    · simp only [ppuCell, if_neg h1, if_pos h2]
      exact ntIndex_lt _ _
    · by_cases h3 : a.toNat < 0x3F00
      · simp only [ppuCell, if_neg h1, if_neg h2, if_pos h3]
        exact ntIndex_lt _ _
      · simp only [ppuCell, if_neg h1, if_neg h2, if_neg h3]
        exact palIndex_lt _

theorem Ppu.write_frame (p : Ppu) (a : VAddr) (v : Byte) : p.AccessFrame (p.write a v) := by
  have h := ppuCell_lt p.mirroring a
  unfold Ppu.write
  split
  · rename_i i hc
    rw [hc] at h
    split
    · rename_i hr
      exact ⟨_, _, _, _, _, _, _, _, _, _, _, _, _, _, _, id, id, id, fun hw => Memory.write_wf v hw h,
        fun hf => by simp [hf] at hr, rfl⟩
    · exact .refl p
  · rename_i i hc
    rw [hc] at h
    exact ⟨_, _, _, _, _, _, _, _, _, _, _, _, _, _, _, id, fun hw => Memory.write_wf v hw h, id, id,
      fun _ => rfl, rfl⟩
  · rename_i i hc
    rw [hc] at h
    exact ⟨_, _, _, _, _, _, _, _, _, _, _, _, _, _, _, id, id, fun hw => Memory.write_wf v hw h, id,
      fun _ => rfl, rfl⟩

/-- Every write command stays within the access frame. -/
theorem Ppu.applyWrite_frame (p : Ppu) (w : PpuWrite) : p.AccessFrame (p.applyWrite w) := by
  cases w with
  | oamDma buf =>
    exact ⟨_, _, _, _, _, _, _, _, _, _, _, _, _, _, _, fun h => Memory.writeAll_wf buf _ h (by decide), id, id, id,
      fun _ => rfl, rfl⟩
  | reg t v =>
    cases t with
    | ctrl => exact ⟨_, _, _, _, _, _, _, _, _, _, _, _, _, _, _, id, id, id, id, fun _ => rfl, rfl⟩
    | mask => exact ⟨_, _, _, _, _, _, _, _, _, _, _, _, _, _, _, id, id, id, id, fun _ => rfl, rfl⟩
    | status => exact .refl p
    | oamAddr => exact ⟨_, _, _, _, _, _, _, _, _, _, _, _, _, _, _, id, id, id, id, fun _ => rfl, rfl⟩
    | oamData =>
      exact ⟨_, _, _, _, _, _, _, _, _, _, _, _, _, _, _, fun h => Memory.write_wf v h p.oamAddr.isLt, id, id, id,
        fun _ => rfl, rfl⟩
    | scroll =>
      show p.AccessFrame (p.writeScroll v)
      unfold Ppu.writeScroll
      split <;> exact ⟨_, _, _, _, _, _, _, _, _, _, _, _, _, _, _, id, id, id, id, fun _ => rfl, rfl⟩
    | busAddr =>
      show p.AccessFrame (p.writeBusAddr v)
      unfold Ppu.writeBusAddr
      split <;> exact ⟨_, _, _, _, _, _, _, _, _, _, _, _, _, _, _, id, id, id, id, fun _ => rfl, rfl⟩
    | busData =>
      refine (p.write_frame p.vaddr v).trans ?_
      exact ⟨_, _, _, _, _, _, _, _, _, _, _, _, _, _, _, id, id, id, id, fun _ => rfl, rfl⟩
    | joypad => exact ⟨_, _, _, _, _, _, _, _, _, _, _, _, _, _, _, id, id, id, id, fun _ => rfl, rfl⟩

/-- Every read command stays within the access frame. -/
theorem Ppu.applyRead_frame (buffered : Bool) (draw : Byte) (p : Ppu) (t : PpuReg) :
    p.AccessFrame (p.applyRead buffered draw t).2 := by
  cases t with
  | status => exact ⟨_, _, _, _, _, _, _, _, _, _, _, _, _, _, _, id, id, id, id, fun _ => rfl, rfl⟩
  | busData =>
    show p.AccessFrame (Ppu.readBusData buffered p).2
    unfold Ppu.readBusData
    dsimp only
    split
    · split <;> exact ⟨_, _, _, _, _, _, _, _, _, _, _, _, _, _, _, id, id, id, id, fun _ => rfl, rfl⟩
    · exact ⟨_, _, _, _, _, _, _, _, _, _, _, _, _, _, _, id, id, id, id, fun _ => rfl, rfl⟩
  | joypad =>
    show p.AccessFrame p.readJoypad.2
    unfold Ppu.readJoypad
    split
    · exact .refl p
    · exact ⟨_, _, _, _, _, _, _, _, _, _, _, _, _, _, _, id, id, id, id, fun _ => rfl, rfl⟩
  | ctrl => exact .refl p
  | mask => exact .refl p
  | oamAddr => exact .refl p
  | oamData => exact .refl p
  | scroll => exact .refl p
  | busAddr => exact .refl p

theorem Ppu.foldl_applyWrite_frame (ws : List PpuWrite) (p : Ppu) : p.AccessFrame (ws.foldl Ppu.applyWrite p) := by
  induction ws generalizing p with
  | nil => exact .refl p
  | cons w ws ih => exact (p.applyWrite_frame w).trans (ih _)

end Sys2Proof.Machine
end

