-- ==== Sys2Proof/Laws/Ops.lean ====
section
/-! SUPPORT. The shared operations over the bus, the channels, the stack and the clock: for each, once, everything it can
do to the state.  Later proofs cite these and never unfold the operation. -/

namespace Sys2Proof.Machine

/-! ## Computations that may wait -/

/-- Every state a computation can leave, done or waiting, has the property. -/
def Res.All {α : Type} (P : State → Prop) : Res α → Prop
  | .done _ t => P t
  | .wait _ t => P t

@[simp] theorem Res.bind_done {α β : Type} (a : α) (s : State) (f : α → State → Res β) :
    (Res.done a s).bind f = f a s := rfl

@[simp] theorem Res.bind_wait {α β : Type} (q : ReadRequest) (s : State) (f : α → State → Res β) :
    (Res.wait q s : Res α).bind f = .wait q s := rfl

@[simp] theorem Res.all_done {α : Type} (P : State → Prop) (a : α) (s : State) : (Res.done a s).All P ↔ P s := Iff.rfl

@[simp] theorem Res.all_wait {α : Type} (P : State → Prop) (q : ReadRequest) (s : State) :
    (Res.wait q s : Res α).All P ↔ P s := Iff.rfl

theorem Res.All.bind {α β : Type} {P Q : State → Prop} {r : Res α} {f : α → State → Res β} (h : r.All P)
    (hPQ : ∀ t, P t → Q t) (hf : ∀ a t, P t → (f a t).All Q) : (r.bind f).All Q := by
  cases r with
  | done a t => exact hf a t h
  | wait q t => exact hPQ t h

theorem Res.All.mono {α : Type} {P Q : State → Prop} {r : Res α} (h : r.All P) (hPQ : ∀ t, P t → Q t) :
    r.All Q := by
  cases r with
  | done a t => exact hPQ t h
  | wait q t => exact hPQ t h

/-! ## The frames of the bus -/

/-- What serving channel commands can change of the responders: the PPU within its access frame, the latches within their
canonical form; in `lockstep` empty command FIFOs stay empty. -/
def Served (s : State) (ppu : Ppu) (apuLatch : Memory) (pw : List PpuWrite) (aw : List (ApuReg × Byte)) : Prop :=
  s.ppu.AccessFrame ppu ∧ (Memory.wf 0x18 s.apuLatch → Memory.wf 0x18 apuLatch) ∧
    (s.params.syncMode = .lockstep → (s.ppuChan.writes = [] → pw = []) ∧ (s.apuChan.writes = [] → aw = []))

/-- What bus reads can change: the bytes taken from outside, the draw counter, and (in `lockstep`) the responders and
their write FIFOs. -/
def ReadFrame (s t : State) : Prop :=
  ∃ feed log draws ppu apuLatch pw aw, Served s ppu apuLatch pw aw ∧
    t = { s with
      feed := feed, log := log, draws := draws, ppu := ppu, apuLatch := apuLatch
      ppuChan := { s.ppuChan with writes := pw }, apuChan := { s.apuChan with writes := aw } }

/-- What bus reads can change in `async`. -/
def AsyncReadFrame (s t : State) : Prop :=
  ∃ feed log draws, t = { s with feed := feed, log := log, draws := draws }

/-- RAM after a bus write of `v` at `a`: only an address of the RAM window changes it, at its mirror's cell. -/
def writtenRam (a : Word) (v : Byte) (m : Memory) : Memory :=
  if a.toNat < 0x2000 then m.write (a.toNat % 2048) v else m

/-- The cartridge after a bus write of `v` at `a`: only an address of the cartridge window changes it. -/
def writtenCart (prm : Params) (a : Word) (v : Byte) (c : Cartridge) : Cartridge :=
  if 0x8000 ≤ a.toNat then c.write prm a v else c

/-- What a bus write can change: what reads can, the extra cycles, and RAM and the cartridge as given. -/
def WriteFrame (ram : Memory) (cart : Cartridge) (s t : State) : Prop :=
  ∃ feed log draws ppu apuLatch pw aw extra, Served s ppu apuLatch pw aw ∧
    t = { s with
      feed := feed, log := log, draws := draws, ppu := ppu, apuLatch := apuLatch
      ppuChan := { s.ppuChan with writes := pw }, apuChan := { s.apuChan with writes := aw }
      ram := ram, cart := cart, extra := extra }

/-- What a bus write can change in `async`: of the channels only the write FIFOs. -/
def AsyncWriteFrame (ram : Memory) (cart : Cartridge) (s t : State) : Prop :=
  ∃ feed log draws pw aw extra,
    t = { s with
      feed := feed, log := log, draws := draws, ppuChan := { s.ppuChan with writes := pw }
      apuChan := { s.apuChan with writes := aw }, ram := ram, cart := cart, extra := extra }

theorem Served.refl (s : State) : Served s s.ppu s.apuLatch s.ppuChan.writes s.apuChan.writes :=
  ⟨.refl _, id, fun _ => ⟨id, id⟩⟩

theorem ReadFrame.refl (s : State) : ReadFrame s s := ⟨_, _, _, _, _, _, _, .refl s, rfl⟩

theorem ReadFrame.trans {s t u : State} : ReadFrame s t → ReadFrame t u → ReadFrame s u := by
  rintro ⟨_, _, _, _, _, _, _, ⟨h1, h2, h3⟩, rfl⟩ ⟨_, _, _, _, _, _, _, ⟨k1, k2, k3⟩, rfl⟩
  exact ⟨_, _, _, _, _, _, _, ⟨h1.trans k1, fun h => k2 (h2 h),
    fun h => ⟨fun hw => (k3 h).1 ((h3 h).1 hw), fun hw => (k3 h).2 ((h3 h).2 hw)⟩⟩, rfl⟩

theorem AsyncReadFrame.refl (s : State) : AsyncReadFrame s s := ⟨_, _, _, rfl⟩

theorem AsyncReadFrame.trans {s t u : State} : AsyncReadFrame s t → AsyncReadFrame t u → AsyncReadFrame s u := by
  rintro ⟨_, _, _, rfl⟩ ⟨_, _, _, rfl⟩
  exact ⟨_, _, _, rfl⟩

theorem ReadFrame.toWrite {s t : State} : ReadFrame s t → WriteFrame s.ram s.cart s t := by
  rintro ⟨_, _, _, _, _, _, _, h, rfl⟩
  exact ⟨_, _, _, _, _, _, _, _, h, rfl⟩

theorem AsyncReadFrame.toWrite {s t : State} : AsyncReadFrame s t → AsyncWriteFrame s.ram s.cart s t := by
  rintro ⟨_, _, _, rfl⟩
  exact ⟨_, _, _, _, _, _, rfl⟩

theorem AsyncReadFrame.params {s t : State} (h : AsyncReadFrame s t) : t.params = s.params := by
  obtain ⟨_, _, _, rfl⟩ := h
  rfl

theorem ApuReg.offset_lt (r : ApuReg) : r.offset < 0x18 := by cases r <;> decide

theorem foldl_apuLatch_wf (ws : List (ApuReg × Byte)) {m : Memory} (h : Memory.wf 0x18 m) :
    Memory.wf 0x18 (ws.foldl (fun m w => m.write w.1.offset w.2) m) := by
  induction ws generalizing m with
  | nil => exact h
  | cons w ws ih => exact ih (Memory.write_wf w.2 h w.1.offset_lt)

theorem answerPpu_frame (t : PpuReg) (s : State) : ReadFrame s (answerPpu t s).2 :=
  ⟨_, _, _, _, _, _, _, ⟨Ppu.applyRead_frame _ _ _ _, id, fun _ => ⟨id, id⟩⟩, rfl⟩

theorem answerApu_frame (s : State) : ReadFrame s (answerApu s).2 :=
  ⟨_, _, _, _, _, _, _, ⟨.refl _, id, fun _ => ⟨id, id⟩⟩, rfl⟩

theorem drainPpu_frame (s : State) : ReadFrame s (drainPpu s) :=
  ⟨_, _, _, _, _, _, _, ⟨Ppu.foldl_applyWrite_frame _ _, id, fun _ => ⟨fun _ => rfl, id⟩⟩, rfl⟩

theorem drainApu_frame (s : State) : ReadFrame s (drainApu s) :=
  ⟨_, _, _, _, _, _, _, ⟨.refl _, foldl_apuLatch_wf _, fun _ => ⟨id, fun _ => rfl⟩⟩, rfl⟩

theorem applyPpuWrite_frame (w : PpuWrite) (s : State) : ReadFrame s (applyPpuWrite w s) :=
  ⟨_, _, _, _, _, _, _, ⟨Ppu.applyWrite_frame _ _, id, fun _ => ⟨id, id⟩⟩, rfl⟩

theorem applyApuWrite_frame (w : ApuReg × Byte) (s : State) : ReadFrame s (applyApuWrite w s) :=
  ⟨_, _, _, _, _, _, _, ⟨.refl _, fun h => Memory.write_wf w.2 h w.1.offset_lt, fun _ => ⟨id, id⟩⟩, rfl⟩

/-- Every channel request answers, or waits, within the read frame. -/
theorem sendRead_frame (r : ReadRequest) (s : State) : (sendRead r s).All (ReadFrame s) := by
  unfold sendRead
  split
  · exact .refl s
  · cases r with
    | ppu t =>
      dsimp only
      split
      · exact (drainPpu_frame s).trans (answerPpu_frame t _)
      · exact .refl s
    | apu t =>
      dsimp only
      split
      · exact (drainApu_frame s).trans (answerApu_frame _)
      · exact .refl s

theorem drainPpu_nil {s : State} (h : s.ppuChan.writes = []) : drainPpu s = s := by
  simp only [drainPpu, h, List.foldl_nil]
  rw [← h]

theorem drainApu_nil {s : State} (h : s.apuChan.writes = []) : drainApu s = s := by
  simp only [drainApu, h, List.foldl_nil]
  rw [← h]

/-- In `lockstep`, with nothing queued, a command is applied at once; a responder that has gone gets nothing. -/
theorem sendPpu_lockstep {s : State} (hm : s.params.syncMode = .lockstep) (h : s.ppuChan.writes = []) (w : PpuWrite) :
    sendPpu w s = { s with ppu := if s.alivePpu then s.ppu.applyWrite w else s.ppu } := by
  simp only [sendPpu, hm, drainPpu_nil h]
  split <;> rfl

theorem sendApu_lockstep {s : State} (hm : s.params.syncMode = .lockstep) (h : s.apuChan.writes = []) (t : ApuReg)
    (v : Byte) :
    sendApu t v s = { s with apuLatch := if s.aliveApu then s.apuLatch.write t.offset v else s.apuLatch } := by
  simp only [sendApu, hm, drainApu_nil h]
  split <;> rfl

/-- In `lockstep`, with nothing queued, a request is answered at once. -/
theorem sendRead_lockstep_ppu {s : State} (hm : s.params.syncMode = .lockstep) (h : s.ppuChan.writes = [])
    (t : PpuReg) :
    sendRead (.ppu t) s = if s.alivePpu then .done (answerPpu t s).1 (answerPpu t s).2 else .done 0 s := by
  simp only [sendRead, hm, drainPpu_nil h]

theorem sendRead_lockstep_apu {s : State} (hm : s.params.syncMode = .lockstep) (h : s.apuChan.writes = [])
    (t : ApuReg) :
    sendRead (.apu t) s = if s.aliveApu then .done (answerApu s).1 (answerApu s).2 else .done 0 s := by
  simp only [sendRead, hm, drainApu_nil h]

theorem sendRead_async {s : State} (h : s.params.syncMode = .async) (r : ReadRequest) :
    sendRead r s = .wait r s := by
  unfold sendRead
  rw [h]

theorem takeExternal_nil {fresh : State → Res Byte} {s : State} (h : s.feed = []) :
    takeExternal fresh s = (fresh s).bind fun v t => .done v { t with log := t.log ++ [v] } := by
  simp only [takeExternal, h]

theorem takeExternal_cons {fresh : State → Res Byte} {s : State} {v : Byte} {vs : List Byte} (h : s.feed = v :: vs) :
    takeExternal fresh s = .done v { s with feed := vs, log := s.log ++ [v] } := by
  simp only [takeExternal, h]

/-- A channel read in `async` with nothing kept waits. -/
theorem busRead_async_ppu {s : State} {a : Word} {t : PpuReg} (hm : s.params.syncMode = .async) (hf : s.feed = [])
    (h : readTarget a = .ppu t) : busRead a s = .wait (.ppu t) s := by
  simp only [busRead, h, takeExternal_nil hf, sendRead_async hm, Res.bind_wait]

theorem busRead_async_apu {s : State} {a : Word} {t : ApuReg} (hm : s.params.syncMode = .async) (hf : s.feed = [])
    (h : readTarget a = .apu t) : busRead a s = .wait (.apu t) s := by
  simp only [busRead, h, takeExternal_nil hf, sendRead_async hm, Res.bind_wait]

/-- A read outside RAM and cartridge takes the oldest kept byte. -/
theorem busRead_kept {s : State} {a : Word} {v : Byte} {vs : List Byte} (hr : ∀ i, readTarget a ≠ .ram i)
    (hc : readTarget a ≠ .cartridge) (hf : s.feed = v :: vs) :
    busRead a s = .done v { s with feed := vs, log := s.log ++ [v] } := by
  unfold busRead
  split
  · exact absurd (by assumption) (hr _)
  · exact absurd (by assumption) hc
  all_goals exact takeExternal_cons hf

theorem takeExternal_frame {fresh : State → Res Byte} {s : State} (h : (fresh s).All (ReadFrame s)) :
    (takeExternal fresh s).All (ReadFrame s) := by
  have hk (feed log : List Byte) (u : State) : ReadFrame u { u with feed := feed, log := log } :=
    ⟨_, _, _, _, _, _, _, .refl u, rfl⟩
  unfold takeExternal
  split
  · exact hk _ _ s
  · exact h.bind (fun _ ht => ht) fun _ t ht => ht.trans (hk t.feed _ t)

theorem takeExternal_async_frame {fresh : State → Res Byte} {s : State} (h : (fresh s).All (AsyncReadFrame s)) :
    (takeExternal fresh s).All (AsyncReadFrame s) := by
  unfold takeExternal
  split
  · exact ⟨_, _, _, rfl⟩
  · exact h.bind (fun _ ht => ht) fun _ _ ht => ht.trans ⟨_, _, _, rfl⟩

/-- A draw moves the draw counter only. -/
theorem drawRead_frame (s : State) : (drawRead s).All (ReadFrame s) := ⟨_, _, _, _, _, _, _, .refl s, rfl⟩

theorem drawRead_async_frame (s : State) : (drawRead s).All (AsyncReadFrame s) := ⟨_, _, _, rfl⟩

/-- A bus read stays within the read frame, whatever it reaches. -/
theorem busRead_frame (a : Word) (s : State) : (busRead a s).All (ReadFrame s) := by
  unfold busRead
  split
  · exact .refl s
  · exact .refl s
  · exact takeExternal_frame (sendRead_frame _ s)
  · exact takeExternal_frame (sendRead_frame _ s)
  · exact takeExternal_frame (drawRead_frame s)
  · exact takeExternal_frame (drawRead_frame s)

theorem busRead_async_frame {s : State} (h : s.params.syncMode = .async) (a : Word) :
    (busRead a s).All (AsyncReadFrame s) := by
  unfold busRead
  split
  · exact .refl s
  · exact .refl s
  · exact takeExternal_async_frame (by rw [sendRead_async h]; exact .refl s)
  · exact takeExternal_async_frame (by rw [sendRead_async h]; exact .refl s)
  · exact takeExternal_async_frame (drawRead_async_frame s)
  · exact takeExternal_async_frame (drawRead_async_frame s)

theorem readPage_frame (page : Byte) (n : Nat) (s : State) : (readPage page n s).All (ReadFrame s) := by
  induction n generalizing s with
  | zero => exact .refl s
  | succ n ih =>
    exact (busRead_frame _ s).bind (fun _ h => h) fun _ t ht =>
      ((ih t).mono fun _ hu => ht.trans hu).bind (fun _ h => h) fun _ _ hu => hu

theorem readPage_async_frame (page : Byte) (n : Nat) {s : State} (h : s.params.syncMode = .async) :
    (readPage page n s).All (AsyncReadFrame s) := by
  induction n generalizing s with
  | zero => exact .refl s
  | succ n ih =>
    exact (busRead_async_frame h _).bind (fun _ h => h) fun _ t ht =>
      ((ih (by rw [ht.params, h])).mono fun _ hu => ht.trans hu).bind (fun _ h => h) fun _ _ hu => hu

/-- The reads of a page from the m-th on, each done in the state the one before left. -/
theorem readPage_done {page : Byte} {st : Nat → State} {bytes : Nat → Byte} {m n : Nat} (hn : m + n = 256)
    (h : ∀ k, m ≤ k → k < 256 →
      busRead (wordOf (BitVec.ofNat 8 k) page) (st k) = .done (bytes k) (st (k + 1))) :
    readPage page n (st m) = .done ((List.range' m n).map bytes) (st 256) := by
  induction n generalizing m with
  | zero =>
    obtain rfl : m = 256 := hn
    rfl
  | succ n ih =>
    rw [readPage, show 255 - n = m by omega, h m (Nat.le_refl _) (by omega), Res.bind_done,
      ih (by omega) fun k hk => h k (by omega), Res.bind_done, List.range'_succ, List.map_cons]

/-- The reads of a page from the m-th on, the w-th of which waits. -/
theorem readPage_wait {page : Byte} {st : Nat → State} {m n w : Nat} {q : ReadRequest} {u : State} (hn : m + n = 256)
    (hm : m ≤ w) (hw : w < 256)
    (h : ∀ k, m ≤ k → k < w →
      ∃ b, busRead (wordOf (BitVec.ofNat 8 k) page) (st k) = .done b (st (k + 1)))
    (hq : busRead (wordOf (BitVec.ofNat 8 w) page) (st w) = .wait q u) : readPage page n (st m) = .wait q u := by
  induction n generalizing m with
  | zero => omega
  | succ n ih =>
    rw [readPage, show 255 - n = m by omega]
    rcases Nat.eq_or_lt_of_le hm with rfl | hlt
    · rw [hq]
      rfl
    · obtain ⟨b, hb⟩ := h m (Nat.le_refl _) hlt
      rw [hb, Res.bind_done, ih (by omega) hlt fun k hk => h k (by omega)]
      rfl

theorem sendPpu_frame (w : PpuWrite) (s : State) : ReadFrame s (sendPpu w s) := by
  unfold sendPpu
  split
  · split
    · rename_i hm
      exact ⟨_, _, _, _, _, _, _, ⟨.refl _, id, fun h => by simp [h] at hm⟩, rfl⟩
    · exact (drainPpu_frame s).trans (applyPpuWrite_frame w _)
  · exact .refl s

theorem sendApu_frame (t : ApuReg) (v : Byte) (s : State) : ReadFrame s (sendApu t v s) := by
  unfold sendApu
  split
  · split
    · rename_i hm
      exact ⟨_, _, _, _, _, _, _, ⟨.refl _, id, fun h => by simp [h] at hm⟩, rfl⟩
    · exact (drainApu_frame s).trans (applyApuWrite_frame (t, v) _)
  · exact .refl s

theorem sendPpu_async {s : State} (h : s.params.syncMode = .async) (w : PpuWrite) :
    sendPpu w s = { s with
      ppuChan := { s.ppuChan with
        writes := if s.alivePpu then s.ppuChan.writes ++ [w] else s.ppuChan.writes } } := by
  unfold sendPpu
  rw [h]
  split <;> rfl

theorem sendApu_async {s : State} (h : s.params.syncMode = .async) (t : ApuReg) (v : Byte) :
    sendApu t v s = { s with
      apuChan := { s.apuChan with
        writes := if s.aliveApu then s.apuChan.writes ++ [(t, v)] else s.apuChan.writes } } := by
  unfold sendApu
  rw [h]
  split <;> rfl

theorem ReadFrame.thenExtra {s t u : State} {e : Nat} : ReadFrame s t → ReadFrame { t with extra := e } u →
    WriteFrame s.ram s.cart s u := by
  rintro ⟨_, _, _, _, _, _, _, ⟨h1, h2, h3⟩, rfl⟩ ⟨_, _, _, _, _, _, _, ⟨k1, k2, k3⟩, rfl⟩
  exact ⟨_, _, _, _, _, _, _, _, ⟨h1.trans k1, fun h => k2 (h2 h),
    fun h => ⟨fun hw => (k3 h).1 ((h3 h).1 hw), fun hw => (k3 h).2 ((h3 h).2 hw)⟩⟩, rfl⟩

theorem oamTransfer_frame (page : Byte) (s : State) : (oamTransfer page s).All (WriteFrame s.ram s.cart s) :=
  (readPage_frame page 256 s).bind (fun _ h => h.toWrite) fun _ _ ht => ht.thenExtra (sendPpu_frame _ _)

theorem oamTransfer_async_frame (page : Byte) {s : State} (h : s.params.syncMode = .async) :
    (oamTransfer page s).All (AsyncWriteFrame s.ram s.cart s) := by
  refine (readPage_async_frame page 256 h).bind (fun _ h => h.toWrite) fun buf t ht => ?_
  have hm : ({ t with extra := t.params.oamDmaCycles } : State).params.syncMode = .async := by
    show t.params.syncMode = .async
    rw [ht.params, h]
  rw [Res.all_done, sendPpu_async hm]
  obtain ⟨_, _, _, rfl⟩ := ht
  exact ⟨_, _, _, _, _, _, rfl⟩

/-! ## Waiting happens in `async` only -/

/-- A computation that waits does so in a state of `async`. -/
def Res.WaitsInAsync {α : Type} (s : State) : Res α → Prop
  | .done _ t => t.params = s.params
  | .wait _ _ => s.params.syncMode = .async

theorem Res.WaitsInAsync.bind {α β : Type} {s : State} {r : Res α} {f : α → State → Res β} (h : r.WaitsInAsync s)
    (hf : ∀ a t, t.params = s.params → (f a t).WaitsInAsync t) : (r.bind f).WaitsInAsync s := by
  cases r with
  | wait q t => exact h
  | done a t =>
    have hp : t.params = s.params := h
    have := hf a t hp
    rw [Res.bind_done]
    cases hr : f a t with
    | done b u =>
      rw [hr] at this
      exact Eq.trans this hp
    | wait q u =>
      rw [hr] at this
      show s.params.syncMode = .async
      rw [← hp]
      exact this

theorem sendRead_waits (r : ReadRequest) (s : State) : (sendRead r s).WaitsInAsync s := by
  have hf := sendRead_frame r s
  cases h : sendRead r s with
  | done a t =>
    rw [h] at hf
    obtain ⟨_, _, _, _, _, _, _, -, rfl⟩ := hf
    rfl
  | wait q t =>
    show s.params.syncMode = .async
    cases hm : s.params.syncMode with
    | async => rfl
    | lockstep =>
      unfold sendRead at h
      rw [hm] at h
      cases r <;> dsimp only at h <;> split at h <;> exact nomatch h

theorem takeExternal_waits {fresh : State → Res Byte} {s : State} (h : (fresh s).WaitsInAsync s) :
    (takeExternal fresh s).WaitsInAsync s := by
  unfold takeExternal
  split
  · rfl
  · exact h.bind fun _ _ _ => rfl

theorem busRead_waits (a : Word) (s : State) : (busRead a s).WaitsInAsync s := by
  unfold busRead
  split
  · rfl
  · rfl
  · exact takeExternal_waits (sendRead_waits _ s)
  · exact takeExternal_waits (sendRead_waits _ s)
  · exact takeExternal_waits (s := s) (fresh := drawRead) rfl
  · exact takeExternal_waits (s := s) (fresh := drawRead) rfl

theorem readPage_waits (page : Byte) (n : Nat) (s : State) : (readPage page n s).WaitsInAsync s := by
  induction n generalizing s with
  | zero => rfl
  | succ n ih => exact (busRead_waits _ s).bind fun _ t _ => (ih t).bind fun _ _ _ => rfl

theorem sendPpu_params (w : PpuWrite) (s : State) : (sendPpu w s).params = s.params := by
  obtain ⟨_, _, _, _, _, _, _, -, h⟩ := sendPpu_frame w s
  rw [h]

theorem sendApu_params (t : ApuReg) (v : Byte) (s : State) : (sendApu t v s).params = s.params := by
  obtain ⟨_, _, _, _, _, _, _, -, h⟩ := sendApu_frame t v s
  rw [h]

theorem busWrite_waits (a : Word) (v : Byte) (s : State) : (busWrite a v s).WaitsInAsync s := by
  unfold busWrite
  split
  · rfl
  · rfl
  · exact sendPpu_params _ s
  · exact sendApu_params _ _ s
  · exact (readPage_waits v 256 s).bind fun _ _ _ => sendPpu_params _ _
  · rfl

/-! ## Where an address leads -/

theorem window_ram {a : Word} (h : a.toNat < 0x2000) : window a = .ram := by simp [window, h]

theorem window_cartridge {a : Word} (h : 0x8000 ≤ a.toNat) : window a = .cartridge := by
  simp only [window]
  rw [if_neg (by omega), if_neg (by omega), if_neg (by omega)]

theorem readTarget_ram {a : Word} (h : a.toNat < 0x2000) : readTarget a = .ram (a.toNat % 2048) := by
  simp [readTarget, window_ram h, ramSize]

theorem writeTarget_ram {a : Word} (h : a.toNat < 0x2000) : writeTarget a = .ram (a.toNat % 2048) := by
  simp [writeTarget, window_ram h, ramSize]

theorem readTarget_cartridge {a : Word} (h : 0x8000 ≤ a.toNat) : readTarget a = .cartridge := by
  simp [readTarget, window_cartridge h]

theorem writeTarget_cartridge {a : Word} (h : 0x8000 ≤ a.toNat) : writeTarget a = .cartridge := by
  simp [writeTarget, window_cartridge h]

/-- An address of the middle windows leads neither to RAM nor to the cartridge, for reads and for writes. -/
theorem targets_middle {a : Word} (h : ¬ a.toNat < 0x2000) (h' : ¬ 0x8000 ≤ a.toNat) :
    (∀ i, readTarget a ≠ .ram i ∧ writeTarget a ≠ .ram i) ∧ readTarget a ≠ .cartridge ∧
      writeTarget a ≠ .cartridge := by
  by_cases hp : a.toNat < 0x4000
  · simp [readTarget, writeTarget, window, h, hp]
  · simp only [readTarget, writeTarget, window, if_neg h, if_neg hp, if_pos (show a.toNat < 0x8000 by omega),
      ioReadTarget, ioWriteTarget]
    refine ⟨fun i => ⟨?_, ?_⟩, ?_, ?_⟩ <;> repeat' split
    all_goals simp

theorem readTarget_eq_ram {a : Word} {i : Nat} (h : readTarget a = .ram i) :
    a.toNat < 0x2000 ∧ i = a.toNat % 2048 := by
  by_cases h1 : a.toNat < 0x2000
  · rw [readTarget_ram h1] at h
    exact ⟨h1, by injection h with h; exact h.symm⟩
  · by_cases h2 : 0x8000 ≤ a.toNat
    · simp [readTarget_cartridge h2] at h
    · exact absurd h ((targets_middle h1 h2).1 i).1

theorem readTarget_eq_cartridge {a : Word} (h : readTarget a = .cartridge) : 0x8000 ≤ a.toNat := by
  by_cases h1 : a.toNat < 0x2000
  · simp [readTarget_ram h1] at h
  · by_cases h2 : 0x8000 ≤ a.toNat
    · exact h2
    · exact absurd h (targets_middle h1 h2).2.1

/-- A bus write stays within the write frame, whatever it reaches. -/
theorem busWrite_frame (a : Word) (v : Byte) (s : State) :
    (busWrite a v s).All (WriteFrame (writtenRam a v s.ram) (writtenCart s.params a v s.cart) s) := by
  by_cases h1 : a.toNat < 0x2000
  · simp only [busWrite, writeTarget_ram h1, writtenRam, writtenCart, if_pos h1,
      if_neg (show ¬ 0x8000 ≤ a.toNat by omega)]
    exact ⟨_, _, _, _, _, _, _, _, .refl s, rfl⟩
  · by_cases h2 : 0x8000 ≤ a.toNat
    · simp only [busWrite, writeTarget_cartridge h2, writtenRam, writtenCart, if_neg h1, if_pos h2]
      exact ⟨_, _, _, _, _, _, _, _, .refl s, rfl⟩
    · simp only [writtenRam, writtenCart, if_neg h1, if_neg h2]
      unfold busWrite
      split
      · rename_i i h
        exact absurd h ((targets_middle h1 h2).1 i).2
      · rename_i h
        exact absurd h (targets_middle h1 h2).2.2
      · exact (sendPpu_frame _ s).toWrite
      · exact (sendApu_frame _ _ s).toWrite
      · exact oamTransfer_frame v s
      · exact (ReadFrame.refl s).toWrite

theorem busWrite_async_frame (a : Word) (v : Byte) {s : State} (h : s.params.syncMode = .async) :
    (busWrite a v s).All (AsyncWriteFrame (writtenRam a v s.ram) (writtenCart s.params a v s.cart) s) := by
  by_cases h1 : a.toNat < 0x2000
  · simp only [busWrite, writeTarget_ram h1, writtenRam, writtenCart, if_pos h1,
      if_neg (show ¬ 0x8000 ≤ a.toNat by omega)]
    exact ⟨_, _, _, _, _, _, rfl⟩
  · by_cases h2 : 0x8000 ≤ a.toNat
    · simp only [busWrite, writeTarget_cartridge h2, writtenRam, writtenCart, if_neg h1, if_pos h2]
      exact ⟨_, _, _, _, _, _, rfl⟩
    · simp only [writtenRam, writtenCart, if_neg h1, if_neg h2]
      unfold busWrite
      split
      · rename_i i h
        exact absurd h ((targets_middle h1 h2).1 i).2
      · rename_i h
        exact absurd h (targets_middle h1 h2).2.2
      · rw [Res.all_done, sendPpu_async h]
        exact ⟨_, _, _, _, _, _, rfl⟩
      · rw [Res.all_done, sendApu_async h]
        exact ⟨_, _, _, _, _, _, rfl⟩
      · exact oamTransfer_async_frame v h
      · exact (AsyncReadFrame.refl s).toWrite

/-! ## The cartridge -/

/-- A cartridge write changes at most the mapping list, by one new mapping at its front. -/
theorem Cartridge.write_adds (prm : Params) (c : Cartridge) (a : Word) (v : Byte) :
    ∃ added, c.write prm a v = { c with mappings := added ++ c.mappings } := by
  unfold Cartridge.write
  split
  · exact ⟨[], rfl⟩
  · split
    · exact ⟨[_], rfl⟩
    · exact ⟨[], rfl⟩

theorem writtenCart_adds (prm : Params) (a : Word) (v : Byte) (c : Cartridge) :
    ∃ added, writtenCart prm a v c = { c with mappings := added ++ c.mappings } := by
  unfold writtenCart
  split
  · exact Cartridge.write_adds prm c a v
  · exact ⟨[], rfl⟩

theorem writtenRam_wf {a : Word} {v : Byte} {m : Memory} (h : Memory.wf ramSize m) :
    Memory.wf ramSize (writtenRam a v m) := by
  unfold writtenRam
  split
  · exact Memory.write_wf v h (Nat.mod_lt _ (by decide))
  · exact h

/-! ## The stack -/

theorem stackCell_lt (sp : Byte) : stackCell sp < ramSize := by
  have := sp.isLt
  simp only [stackCell, ramSize]
  omega

/-- Two pushes, as one update. -/
theorem push16_eq (w : Word) (s : State) : push16 w s = { s with
    ram := (s.ram.write (stackCell s.sp) (hiByte w)).write (stackCell (decSp s.params.stackEdge s.sp)) (loByte w)
    sp := decSp s.params.stackEdge (decSp s.params.stackEdge s.sp) } := rfl

/-- An interrupt entry, as one update. -/
theorem enter_eq (flags : Byte) (vec : Word) (jump : Bool) (s : State) : enter flags vec jump s = { s with
    ram := ((s.ram.write (stackCell s.sp) (hiByte s.pc)).write (stackCell (decSp s.params.stackEdge s.sp))
      (loByte s.pc)).write (stackCell (decSp s.params.stackEdge (decSp s.params.stackEdge s.sp))) flags
    sp := decSp s.params.stackEdge (decSp s.params.stackEdge (decSp s.params.stackEdge s.sp))
    p := { s.p with i := true }
    pc := if jump then vectorAt vec s else s.pc } := rfl

/-- The return from an interrupt, as one update. -/
theorem interruptReturn_eq (s : State) : interruptReturn s = { s with
    sp := incSp s.params.stackEdge (incSp s.params.stackEdge (incSp s.params.stackEdge s.sp))
    p := Flags.ofByte (pulled s)
    pc := wordOf (pulled (pull s)) (pulled (pull (pull s))) } := rfl

theorem stackCell_injective {a b : Byte} (h : stackCell a = stackCell b) : a = b :=
  BitVec.eq_of_toNat_eq (by unfold stackCell at h; omega)

theorem incSp_decSp (sp : Byte) : incSp .wrap (decSp .wrap sp) = sp := by simp [incSp, decSp]

end Sys2Proof.Machine
end

