-- ==== Sys2Proof/Laws/Render.lean ====
section
/-! SUPPORT. The frame and the detector: the composed frame is a canonical memory that holds every pixel, and a row the
detector answers is a screen row. -/

namespace Sys2Proof.Machine

/-- A memory made of the non-blank values of a function on 0..n-1. -/
def Memory.ofFn (n : Nat) (f : Nat → Byte) : Memory :=
  (List.range n).filterMap fun k => if f k = Memory.blank then none else some (k, f k)

theorem Memory.ofFn_mem {n : Nat} {f : Nat → Byte} {c : Host.Cell} (h : c ∈ Memory.ofFn n f) :
    c.1 < n ∧ c.2 = f c.1 ∧ c.2 ≠ Memory.blank := by
  simp only [Memory.ofFn, List.mem_filterMap, List.mem_range] at h
  obtain ⟨k, hk, h⟩ := h
  split at h
  · exact nomatch h
  · injection h with h
    subst h
    exact ⟨hk, rfl, by assumption⟩

theorem Memory.ofFn_wf (n : Nat) (f : Nat → Byte) : Memory.wf n (Memory.ofFn n f) := by
  refine ⟨?_, fun c hc => ⟨(Memory.ofFn_mem hc).1, (Memory.ofFn_mem hc).2.2⟩⟩
  refine List.Pairwise.filterMap _ ?_ List.pairwise_lt_range
  intro a b hab c hc d hd
  split at hc <;> simp at hc
  split at hd <;> simp at hd
  subst hc hd
  exact hab

/-- A byte that some cell lists is read, when no other cell lists its address. -/
theorem Memory.read_of_mem {m : Memory} {a : Nat} {v : Byte} (h : (a, v) ∈ m)
    (hu : ∀ c ∈ m, c.1 = a → c.2 = v) : m.read a = v := by
  induction m with
  | nil => exact nomatch h
  | cons c m ih =>
    simp only [Memory.read]
    split
    · exact hu c (List.mem_cons_self ..) (by assumption)
    · rcases List.mem_cons.1 h with rfl | h
      · simp_all
      · exact ih h fun d hd => hu d (List.mem_cons_of_mem _ hd)

theorem Memory.read_of_not_mem {m : Memory} {a : Nat} (h : ∀ c ∈ m, c.1 ≠ a) : m.read a = Memory.blank := by
  induction m with
  | nil => rfl
  | cons c m ih =>
    simp only [Memory.read]
    rw [if_neg (h c (List.mem_cons_self ..))]
    exact ih fun d hd => h d (List.mem_cons_of_mem _ hd)

theorem Memory.read_ofFn {n k : Nat} (f : Nat → Byte) (h : k < n) : (Memory.ofFn n f).read k = f k := by
  by_cases hb : f k = Memory.blank
  · rw [hb]
    refine Memory.read_of_not_mem fun c hc he => (Memory.ofFn_mem hc).2.2 ?_
    rw [(Memory.ofFn_mem hc).2.1, he, hb]
  · refine Memory.read_of_mem ?_ fun c hc he => by rw [(Memory.ofFn_mem hc).2.1, he]
    simp only [Memory.ofFn, List.mem_filterMap, List.mem_range]
    exact ⟨k, h, by simp [hb]⟩

theorem Ppu.compose_eq (prm : Params) (p : Ppu) :
    p.compose prm = Memory.ofFn 61440 fun k => p.pixel prm (k % 256) (k / 256) := rfl

theorem Ppu.compose_wf (prm : Params) (p : Ppu) : Memory.wf 61440 (p.compose prm) := Memory.ofFn_wf _ _

/-- The detector answers screen rows only. -/
theorem Ppu.detect_lt {prm : Params} {p : Ppu} {y : Nat} (h : p.detect prm = some y) : y < 240 := by
  simp only [Ppu.detect, Option.map_eq_some_iff] at h
  obtain ⟨sy, h, rfl⟩ := h
  have := List.find?_some h
  simp only [List.any_eq_true, Bool.and_eq_true, gridBorder] at this
  obtain ⟨sx, -, ⟨hb, -⟩, -⟩ := this
  simp at hb
  omega

end Sys2Proof.Machine
end

