-- ==== Sys2Proof/Laws/Agents.lean ====
section
/-! SUPPORT. The steps of the agents, of the clock and of the interrupt entries: what each can change. -/

namespace Sys2Proof.Machine

/-! ## The clock -/

/-- What clock advances can change: the scanline counters, two status bits, the hit row, the frame, the signal FIFOs and
the host's frames; frames are canonical, hit rows are screen rows, and the overflow bit stays. -/
def ClockFrame (s t : State) : Prop :=
  ∃ vblank spr0Hit hitRow frame scanline cycle frames vs ve fe,
    (hitRow = s.ppu.hitRow ∨ ∀ r, hitRow = some r → r < 240) ∧
    (Memory.wf 61440 s.ppu.frame ∧ (∀ f ∈ s.framesOut, Memory.wf 61440 f.frame) →
      Memory.wf 61440 frame ∧ ∀ f ∈ frames, Memory.wf 61440 f.frame) ∧
    t = { s with
      ppu := { s.ppu with
        status := { s.ppu.status with vblank := vblank, spr0Hit := spr0Hit }
        hitRow := hitRow, frame := frame, scanline := scanline, cycle := cycle }
      framesOut := frames, vblankStart := vs, vblankEnd := ve, frameEnd := fe }

theorem ClockFrame.refl (s : State) : ClockFrame s s := ⟨_, _, _, _, _, _, _, _, _, _, .inl rfl, id, rfl⟩

theorem ClockFrame.trans {s t u : State} : ClockFrame s t → ClockFrame t u → ClockFrame s u := by
  rintro ⟨_, _, r, f, _, _, o, _, _, _, hr, hf, rfl⟩ ⟨_, _, r', f', _, _, o', _, _, _, hr', hf', rfl⟩
  refine ⟨_, _, r', f', _, _, o', _, _, _, ?_, fun h => hf' (hf h), rfl⟩
  rcases hr' with h | h
  · rcases hr with h2 | h2
    · exact .inl (h.trans h2)
    · have h : r' = r := h
      exact .inr (h ▸ h2)
  · exact .inr h

theorem frameStart_frame (s : State) : ClockFrame s (frameStart s) :=
  ⟨_, _, _, _, _, _, _, _, _, _, .inr fun _ h => Ppu.detect_lt h, fun h => ⟨Ppu.compose_wf _ _, h.2⟩, rfl⟩

theorem spriteZeroHit_frame (s : State) : ClockFrame s (spriteZeroHit s) :=
  ⟨_, _, _, _, _, _, _, _, _, _, .inl rfl, id, rfl⟩

theorem vblankStart_frame (s : State) : ClockFrame s (vblankStart s) := by
  refine ⟨_, _, _, _, _, _, _, _, _, _, .inl rfl, fun h => ⟨h.1, fun f hf => ?_⟩, rfl⟩
  rcases List.mem_append.1 hf with hf | hf
  · exact h.2 f hf
  · rw [List.mem_singleton.1 hf]
    exact h.1

theorem onScanline_frame (n : Nat) (s : State) : ClockFrame s (onScanline n s) := by
  have h1 : ClockFrame s (if n = 0 then frameStart s else s) := by
    split
    · exact frameStart_frame s
    · exact .refl s
  refine h1.trans ?_
  have h2 (t : State) : ClockFrame t (if t.ppu.hitRow = some n then spriteZeroHit t else t) := by
    split
    · exact spriteZeroHit_frame t
    · exact .refl t
  refine (h2 _).trans ?_
  have h3 (t : State) : ClockFrame t (if n = t.params.vblankStartLine then vblankStart t else t) := by
    split
    · exact vblankStart_frame t
    · exact .refl t
  exact h3 _

theorem advanceClock_frame (s : State) : ClockFrame s (advanceClock s) := by
  unfold advanceClock
  split
  · exact ClockFrame.trans ⟨_, _, _, _, _, _, _, _, _, _, .inl rfl, id, rfl⟩ (onScanline_frame _ _)
  · exact ⟨_, _, _, _, _, _, _, _, _, _, .inl rfl, id, rfl⟩

theorem advanceClocks_frame (n : Nat) (s : State) : ClockFrame s (advanceClocks n s) := by
  induction n generalizing s with
  | zero => exact .refl s
  | succ n ih => exact (advanceClock_frame s).trans (ih _)

/-! ## The responders' turns -/

/-- What serving its FIFOs can change of the PPU's side: the PPU within its access frame, its FIFOs with as many
outstanding requests as before, and the draw counter. -/
def PpuServed (s t : State) : Prop :=
  ∃ ppu pw pr res draws, s.ppu.AccessFrame ppu ∧ pr.length + res.length = s.ppuOutstanding ∧
    t = { s with ppu := ppu, ppuChan := { writes := pw, reads := pr, results := res }, draws := draws }

/-- What serving its FIFOs can change of the APU's side. -/
def ApuServed (s t : State) : Prop :=
  ∃ latch aw ar res draws, (Memory.wf 0x18 s.apuLatch → Memory.wf 0x18 latch) ∧
    ar.length + res.length = s.apuOutstanding ∧
    t = { s with apuLatch := latch, apuChan := { writes := aw, reads := ar, results := res }, draws := draws }

theorem PpuServed.trans {s t u : State} : PpuServed s t → PpuServed t u → PpuServed s u := by
  rintro ⟨_, _, _, _, _, h1, h2, rfl⟩ ⟨_, _, _, _, _, k1, k2, rfl⟩
  exact ⟨_, _, _, _, _, h1.trans k1, k2.trans h2, rfl⟩

theorem ApuServed.trans {s t u : State} : ApuServed s t → ApuServed t u → ApuServed s u := by
  rintro ⟨_, _, _, _, _, h1, h2, rfl⟩ ⟨_, _, _, _, _, k1, k2, rfl⟩
  exact ⟨_, _, _, _, _, fun h => k1 (h1 h), k2.trans h2, rfl⟩

theorem ppuDrainOne_served (s : State) : PpuServed s (ppuDrainOne s) := by
  unfold ppuDrainOne
  split
  · exact ⟨_, _, _, _, _, .refl _, rfl, rfl⟩
  · exact ⟨_, _, _, _, _, Ppu.applyWrite_frame _ _, rfl, rfl⟩

theorem ppuAnswerOne_served (s : State) : PpuServed s (ppuAnswerOne s) := by
  unfold ppuAnswerOne
  split
  · exact ⟨_, _, _, _, _, .refl _, rfl, rfl⟩
  · rename_i t ts h
    exact ⟨_, _, _, _, _, Ppu.applyRead_frame _ _ _ _, by simp [State.ppuOutstanding, h]; omega, rfl⟩

theorem apuDrainOne_served (s : State) : ApuServed s (apuDrainOne s) := by
  unfold apuDrainOne
  split
  · exact ⟨_, _, _, _, _, id, rfl, rfl⟩
  · rename_i w ws h
    exact ⟨_, _, _, _, _, fun h => Memory.write_wf w.2 h w.1.offset_lt, rfl, rfl⟩

theorem apuAnswerOne_served (s : State) : ApuServed s (apuAnswerOne s) := by
  unfold apuAnswerOne
  split
  · exact ⟨_, _, _, _, _, id, rfl, rfl⟩
  · rename_i t ts h
    exact ⟨_, _, _, _, _, id, by simp [State.apuOutstanding, h]; omega, rfl⟩

/-- The PPU's turn: nothing, its end, or (in `async`) serving its FIFOs and one clock advance. -/
theorem ppuMove_cases (s : State) :
    ppuMove s = s ∨ ppuMove s = { s with alivePpu := false } ∨
      (s.params.syncMode = .async ∧ ∃ u, PpuServed s u ∧ ppuMove s = advanceClock u) := by
  unfold ppuMove
  split
  · split
    · rename_i hm
      unfold ppuTick
      split
      · exact .inr (.inl rfl)
      · exact .inr (.inr ⟨hm, _, (ppuDrainOne_served s).trans (ppuAnswerOne_served _), rfl⟩)
    · split
      · exact .inr (.inl rfl)
      · exact .inl rfl
  · exact .inl rfl

/-- The APU's turn: nothing, its end, or (in `async`) serving its FIFOs. -/
theorem apuMove_cases (s : State) :
    apuMove s = s ∨ apuMove s = { s with aliveApu := false } ∨
      (s.params.syncMode = .async ∧ ApuServed s (apuMove s)) := by
  unfold apuMove
  split
  · split
    · rename_i hm
      unfold apuTick
      split
      · exact .inr (.inl rfl)
      · exact .inr (.inr ⟨hm, (apuDrainOne_served s).trans (apuAnswerOne_served _)⟩)
    · split
      · exact .inr (.inl rfl)
      · exact .inl rfl
  · exact .inl rfl

/-- The host's turn touches the buttons, the shutdown flag, the reset request and the IRQ line only. -/
theorem hostMove_eq (h : HostAction) (s : State) :
    ∃ buttons shutdown reset irq, (s.shutdown = true → shutdown = true) ∧ hostMove h s = { s with
      ppu := { s.ppu with buttons := buttons }, shutdown := shutdown, resetRequest := reset, irqLine := irq } := by
  cases h with
  | setButtons b => exact ⟨_, _, _, _, id, rfl⟩
  | setShutdown => exact ⟨_, _, _, _, fun _ => rfl, rfl⟩
  | requestReset => exact ⟨_, _, _, _, id, rfl⟩
  | driveIrq l => exact ⟨_, _, _, _, id, rfl⟩

end Sys2Proof.Machine
end

