-- ==== Sys2Proof/Laws/Exec.lean ====
section
/-! SUPPORT. The meaning of an instruction by its mnemonic: every form of a mnemonic is the mnemonic's operation at the
form's operand.  Provers cite these instead of splitting over the 151 constructors. -/

namespace Sys2Proof.Machine

theorem exec_lda (i : Instr) (s : State) (h : i.mnemonic = .lda) : exec i s = ldaWith i.operand s := by
  cases i <;> first | rfl | exact nomatch h

theorem exec_ldx (i : Instr) (s : State) (h : i.mnemonic = .ldx) : exec i s = ldxWith i.operand s := by
  cases i <;> first | rfl | exact nomatch h

theorem exec_ldy (i : Instr) (s : State) (h : i.mnemonic = .ldy) : exec i s = ldyWith i.operand s := by
  cases i <;> first | rfl | exact nomatch h

theorem exec_sta (i : Instr) (s : State) (h : i.mnemonic = .sta) : exec i s = staWith i.operand s := by
  cases i <;> first | rfl | exact nomatch h

theorem exec_stx (i : Instr) (s : State) (h : i.mnemonic = .stx) : exec i s = stxWith i.operand s := by
  cases i <;> first | rfl | exact nomatch h

theorem exec_sty (i : Instr) (s : State) (h : i.mnemonic = .sty) : exec i s = styWith i.operand s := by
  cases i <;> first | rfl | exact nomatch h

theorem exec_adc (i : Instr) (s : State) (h : i.mnemonic = .adc) : exec i s = adcWith i.operand s := by
  cases i <;> first | rfl | exact nomatch h

theorem exec_sbc (i : Instr) (s : State) (h : i.mnemonic = .sbc) : exec i s = sbcWith i.operand s := by
  cases i <;> first | rfl | exact nomatch h

theorem exec_and (i : Instr) (s : State) (h : i.mnemonic = .and) : exec i s = andWith i.operand s := by
  cases i <;> first | rfl | exact nomatch h

theorem exec_ora (i : Instr) (s : State) (h : i.mnemonic = .ora) : exec i s = oraWith i.operand s := by
  cases i <;> first | rfl | exact nomatch h

theorem exec_eor (i : Instr) (s : State) (h : i.mnemonic = .eor) : exec i s = eorWith i.operand s := by
  cases i <;> first | rfl | exact nomatch h

theorem exec_bit (i : Instr) (s : State) (h : i.mnemonic = .bit) : exec i s = bitWith i.operand s := by
  cases i <;> first | rfl | exact nomatch h

theorem exec_cmp (i : Instr) (s : State) (h : i.mnemonic = .cmp) : exec i s = cmpWith i.operand s := by
  cases i <;> first | rfl | exact nomatch h

theorem exec_cpx (i : Instr) (s : State) (h : i.mnemonic = .cpx) : exec i s = cpxWith i.operand s := by
  cases i <;> first | rfl | exact nomatch h

theorem exec_cpy (i : Instr) (s : State) (h : i.mnemonic = .cpy) : exec i s = cpyWith i.operand s := by
  cases i <;> first | rfl | exact nomatch h

theorem exec_inc (i : Instr) (s : State) (h : i.mnemonic = .inc) : exec i s = incWith i.operand s := by
  cases i <;> first | rfl | exact nomatch h

theorem exec_dec (i : Instr) (s : State) (h : i.mnemonic = .dec) : exec i s = decWith i.operand s := by
  cases i <;> first | rfl | exact nomatch h

theorem exec_asl (i : Instr) (s : State) (h : i.mnemonic = .asl) : exec i s = aslWith i.operand s := by
  cases i <;> first | rfl | exact nomatch h

theorem exec_lsr (i : Instr) (s : State) (h : i.mnemonic = .lsr) : exec i s = lsrWith i.operand s := by
  cases i <;> first | rfl | exact nomatch h

theorem exec_rol (i : Instr) (s : State) (h : i.mnemonic = .rol) : exec i s = rolWith i.operand s := by
  cases i <;> first | rfl | exact nomatch h

theorem exec_ror (i : Instr) (s : State) (h : i.mnemonic = .ror) : exec i s = rorWith i.operand s := by
  cases i <;> first | rfl | exact nomatch h

theorem exec_bpl (o : Byte) (s : State) : exec (.bpl o) s = branching (!s.p.n) o s := rfl

theorem exec_bmi (o : Byte) (s : State) : exec (.bmi o) s = branching s.p.n o s := rfl

theorem exec_bvc (o : Byte) (s : State) : exec (.bvc o) s = branching (!s.p.v) o s := rfl

theorem exec_bvs (o : Byte) (s : State) : exec (.bvs o) s = branching s.p.v o s := rfl

theorem exec_bcc (o : Byte) (s : State) : exec (.bcc o) s = branching (!s.p.c) o s := rfl

theorem exec_bcs (o : Byte) (s : State) : exec (.bcs o) s = branching s.p.c o s := rfl

theorem exec_bne (o : Byte) (s : State) : exec (.bne o) s = branching (!s.p.z) o s := rfl

theorem exec_beq (o : Byte) (s : State) : exec (.beq o) s = branching s.p.z o s := rfl

theorem exec_tax (s : State) : exec .tax s = execTax s := rfl

theorem exec_tay (s : State) : exec .tay s = execTay s := rfl

theorem exec_txa (s : State) : exec .txa s = execTxa s := rfl

theorem exec_tya (s : State) : exec .tya s = execTya s := rfl

theorem exec_tsx (s : State) : exec .tsx s = execTsx s := rfl

theorem exec_txs (s : State) : exec .txs s = execTxs s := rfl

theorem exec_pha (s : State) : exec .pha s = execPha s := rfl

theorem exec_pla (s : State) : exec .pla s = execPla s := rfl

theorem exec_php (s : State) : exec .php s = execPhp s := rfl

theorem exec_plp (s : State) : exec .plp s = execPlp s := rfl

theorem exec_inx (s : State) : exec .inx s = execInx s := rfl

theorem exec_iny (s : State) : exec .iny s = execIny s := rfl

theorem exec_dex (s : State) : exec .dex s = execDex s := rfl

theorem exec_dey (s : State) : exec .dey s = execDey s := rfl

theorem exec_jmpAbs (a : Word) (s : State) : exec (.jmpAbs a) s = execJmpAbs a s := rfl

theorem exec_jmpInd (a : Word) (s : State) : exec (.jmpInd a) s = execJmpInd a s := rfl

theorem exec_jsr (a : Word) (s : State) : exec (.jsr a) s = execJsr a s := rfl

theorem exec_rts (s : State) : exec .rts s = execRts s := rfl

theorem exec_rti (s : State) : exec .rti s = execRti s := rfl

theorem exec_brk (s : State) : exec .brk s = execBrk s := rfl

theorem exec_clc (s : State) : exec .clc s = execClc s := rfl

theorem exec_sec (s : State) : exec .sec s = execSec s := rfl

theorem exec_cli (s : State) : exec .cli s = execCli s := rfl

theorem exec_sei (s : State) : exec .sei s = execSei s := rfl

theorem exec_clv (s : State) : exec .clv s = execClv s := rfl

theorem exec_cld (s : State) : exec .cld s = execCld s := rfl

theorem exec_sed (s : State) : exec .sed s = execSed s := rfl

theorem exec_nop (s : State) : exec .nop s = execNop s := rfl

/-! ## The instructions with one form, by their mnemonic -/

theorem eq_tax {i : Instr} (h : i.mnemonic = .tax) : i = .tax := by
  cases i <;> first | rfl | exact nomatch h

theorem eq_tay {i : Instr} (h : i.mnemonic = .tay) : i = .tay := by
  cases i <;> first | rfl | exact nomatch h

theorem eq_txa {i : Instr} (h : i.mnemonic = .txa) : i = .txa := by
  cases i <;> first | rfl | exact nomatch h

theorem eq_tya {i : Instr} (h : i.mnemonic = .tya) : i = .tya := by
  cases i <;> first | rfl | exact nomatch h

theorem eq_tsx {i : Instr} (h : i.mnemonic = .tsx) : i = .tsx := by
  cases i <;> first | rfl | exact nomatch h

theorem eq_txs {i : Instr} (h : i.mnemonic = .txs) : i = .txs := by
  cases i <;> first | rfl | exact nomatch h

theorem eq_pha {i : Instr} (h : i.mnemonic = .pha) : i = .pha := by
  cases i <;> first | rfl | exact nomatch h

theorem eq_pla {i : Instr} (h : i.mnemonic = .pla) : i = .pla := by
  cases i <;> first | rfl | exact nomatch h

theorem eq_php {i : Instr} (h : i.mnemonic = .php) : i = .php := by
  cases i <;> first | rfl | exact nomatch h

theorem eq_plp {i : Instr} (h : i.mnemonic = .plp) : i = .plp := by
  cases i <;> first | rfl | exact nomatch h

theorem eq_inx {i : Instr} (h : i.mnemonic = .inx) : i = .inx := by
  cases i <;> first | rfl | exact nomatch h

theorem eq_iny {i : Instr} (h : i.mnemonic = .iny) : i = .iny := by
  cases i <;> first | rfl | exact nomatch h

theorem eq_dex {i : Instr} (h : i.mnemonic = .dex) : i = .dex := by
  cases i <;> first | rfl | exact nomatch h

theorem eq_dey {i : Instr} (h : i.mnemonic = .dey) : i = .dey := by
  cases i <;> first | rfl | exact nomatch h

theorem eq_rts {i : Instr} (h : i.mnemonic = .rts) : i = .rts := by
  cases i <;> first | rfl | exact nomatch h

theorem eq_rti {i : Instr} (h : i.mnemonic = .rti) : i = .rti := by
  cases i <;> first | rfl | exact nomatch h

theorem eq_brk {i : Instr} (h : i.mnemonic = .brk) : i = .brk := by
  cases i <;> first | rfl | exact nomatch h

theorem eq_clc {i : Instr} (h : i.mnemonic = .clc) : i = .clc := by
  cases i <;> first | rfl | exact nomatch h

theorem eq_sec {i : Instr} (h : i.mnemonic = .sec) : i = .sec := by
  cases i <;> first | rfl | exact nomatch h

theorem eq_cli {i : Instr} (h : i.mnemonic = .cli) : i = .cli := by
  cases i <;> first | rfl | exact nomatch h

theorem eq_sei {i : Instr} (h : i.mnemonic = .sei) : i = .sei := by
  cases i <;> first | rfl | exact nomatch h

theorem eq_clv {i : Instr} (h : i.mnemonic = .clv) : i = .clv := by
  cases i <;> first | rfl | exact nomatch h

theorem eq_cld {i : Instr} (h : i.mnemonic = .cld) : i = .cld := by
  cases i <;> first | rfl | exact nomatch h

theorem eq_sed {i : Instr} (h : i.mnemonic = .sed) : i = .sed := by
  cases i <;> first | rfl | exact nomatch h

theorem eq_nop {i : Instr} (h : i.mnemonic = .nop) : i = .nop := by
  cases i <;> first | rfl | exact nomatch h

theorem eq_bpl {i : Instr} (h : i.mnemonic = .bpl) : ∃ o, i = .bpl o := by
  cases i <;> first | exact ⟨_, rfl⟩ | exact nomatch h

theorem eq_bmi {i : Instr} (h : i.mnemonic = .bmi) : ∃ o, i = .bmi o := by
  cases i <;> first | exact ⟨_, rfl⟩ | exact nomatch h

theorem eq_bvc {i : Instr} (h : i.mnemonic = .bvc) : ∃ o, i = .bvc o := by
  cases i <;> first | exact ⟨_, rfl⟩ | exact nomatch h

theorem eq_bvs {i : Instr} (h : i.mnemonic = .bvs) : ∃ o, i = .bvs o := by
  cases i <;> first | exact ⟨_, rfl⟩ | exact nomatch h

theorem eq_bcc {i : Instr} (h : i.mnemonic = .bcc) : ∃ o, i = .bcc o := by
  cases i <;> first | exact ⟨_, rfl⟩ | exact nomatch h

theorem eq_bcs {i : Instr} (h : i.mnemonic = .bcs) : ∃ o, i = .bcs o := by
  cases i <;> first | exact ⟨_, rfl⟩ | exact nomatch h

theorem eq_bne {i : Instr} (h : i.mnemonic = .bne) : ∃ o, i = .bne o := by
  cases i <;> first | exact ⟨_, rfl⟩ | exact nomatch h

theorem eq_beq {i : Instr} (h : i.mnemonic = .beq) : ∃ o, i = .beq o := by
  cases i <;> first | exact ⟨_, rfl⟩ | exact nomatch h

theorem eq_jsr {i : Instr} (h : i.mnemonic = .jsr) : ∃ a, i = .jsr a := by
  cases i <;> first | exact ⟨_, rfl⟩ | exact nomatch h

theorem eq_jmp {i : Instr} (h : i.mnemonic = .jmp) : ∃ a, i = .jmpAbs a ∨ i = .jmpInd a := by
  cases i <;> first | exact ⟨_, .inl rfl⟩ | exact ⟨_, .inr rfl⟩ | exact nomatch h

end Sys2Proof.Machine
end

