-- ==== Sys2Proof/Laws/Operands.lean ====
section
/-! SUPPORT. The instruction shapes of Machine/Operands.lean: what a next state of each can be, and how each completes on
an operand that needs no channel. -/

namespace Sys2Proof.Machine

/-! ## The end of an instruction -/

/-- An instruction always answers a next state. -/
theorem complete_total (s : State) (r : Res Unit) : ∃ t, complete s r = .next t := by
  cases r <;> exact ⟨_, rfl⟩

/-- A next state is the completed instruction's, or the state it began at, suspended. -/
theorem complete_cases {s t : State} {r : Res Unit} (h : complete s r = .next t) :
    r = .done () t ∨
      ∃ q u, r = .wait q u ∧ t = suspend q { s with feed := u.log, log := [], draws := u.draws } := by
  cases r with
  | done a u =>
    injection h with h
    exact .inl (h ▸ rfl)
  | wait q u =>
    injection h with h
    exact .inr ⟨q, u, rfl, h.symm⟩

/-- What suspending changes: the run state, one read FIFO, the kept bytes and the draw counter. -/
theorem suspend_frame (q : ReadRequest) (s : State) :
    ∃ pr ar, suspend q s = { s with
      run := .awaitRead q
      ppuChan := { s.ppuChan with reads := pr }, apuChan := { s.apuChan with reads := ar } } := by
  cases q with
  | ppu t => exact ⟨_, _, rfl⟩
  | apu t => exact ⟨_, _, rfl⟩

/-- A suspended instruction, which happens in `async` only: the state it began at with the request sent, the bytes read
so far kept, and the draw counter. -/
def Suspended (s t : State) : Prop :=
  s.params.syncMode = .async ∧
    ∃ q feed draws, t = suspend q { s with feed := feed, log := [], draws := draws }

theorem Suspended.frame {s t : State} (h : Suspended s t) : ∃ q feed draws pr ar, t = { s with
    run := .awaitRead q, feed := feed, log := [], draws := draws
    ppuChan := { s.ppuChan with reads := pr }, apuChan := { s.apuChan with reads := ar } } := by
  obtain ⟨-, q, feed, draws, rfl⟩ := h
  obtain ⟨pr, ar, h⟩ := suspend_frame q { s with feed := feed, log := [], draws := draws }
  exact ⟨q, feed, draws, pr, ar, h⟩

theorem operandRead_waits (o : Operand) (s : State) : (operandRead o s).WaitsInAsync (afterResolve o s) := by
  unfold operandRead load
  split
  · rfl
  · rfl
  · exact busRead_waits _ _
  · rfl

theorem store_waits (r : Resolved) (v : Byte) (s : State) : (store r v s).WaitsInAsync s := by
  unfold store
  split
  · rfl
  · exact busWrite_waits _ _ _
  · rfl
  · rfl

/-! ## What a next state of each shape can be -/

theorem operandRead_frame (o : Operand) (s : State) : (operandRead o s).All (ReadFrame (afterResolve o s)) := by
  unfold operandRead load
  split
  · exact .refl _
  · exact .refl _
  · exact busRead_frame _ _
  · exact drawRead_frame _

theorem operandRead_async_frame (o : Operand) {s : State} (h : s.params.syncMode = .async) :
    (operandRead o s).All (AsyncReadFrame (afterResolve o s)) := by
  unfold operandRead load
  split
  · exact .refl _
  · exact .refl _
  · exact busRead_async_frame (s := afterResolve o s) h _
  · exact drawRead_async_frame _

/-- A next state of a reading instruction. -/
theorem reading_cases {o : Operand} {f : Byte → State → State} {s t : State} (h : reading o f s = .next t) :
    (∃ v u, operandRead o s = .done v u ∧ ReadFrame (afterResolve o s) u ∧
      (s.params.syncMode = .async → AsyncReadFrame (afterResolve o s) u) ∧ t = f v u) ∨ Suspended s t := by
  unfold reading at h
  have hf := operandRead_frame o s
  have hw := operandRead_waits o s
  cases hr : operandRead o s with
  | wait q u =>
    rw [hr] at h hw
    injection h with h
    exact .inr ⟨hw, q, u.log, u.draws, h.symm⟩
  | done v u =>
    rw [hr] at h hf
    injection h with h
    refine .inl ⟨v, u, rfl, hf, fun ha => ?_, h.symm⟩
    have := operandRead_async_frame o ha
    rwa [hr] at this

/-- RAM after a store of `v` at a resolved operand. -/
def storedRam (r : Resolved) (v : Byte) (m : Memory) : Memory :=
  match r with
  | .addr a => writtenRam a v m
  | .nothing | .acc | .value _ => m

/-- The cartridge after a store of `v` at a resolved operand. -/
def storedCart (prm : Params) (r : Resolved) (v : Byte) (c : Cartridge) : Cartridge :=
  match r with
  | .addr a => writtenCart prm a v c
  | .nothing | .acc | .value _ => c

/-- The accumulator after a store of `v` at a resolved operand. -/
def storedA (r : Resolved) (v : Byte) (a : Byte) : Byte :=
  match r with
  | .acc => v
  | .addr _ | .nothing | .value _ => a

theorem store_frame (r : Resolved) (v : Byte) (s : State) :
    (store r v s).All fun t => ∃ u, WriteFrame (storedRam r v s.ram) (storedCart s.params r v s.cart) s u ∧
      t = { u with a := storedA r v s.a } := by
  cases r with
  | addr a =>
    refine (busWrite_frame a v s).mono fun t ht => ⟨t, ht, ?_⟩
    obtain ⟨_, _, _, _, _, _, _, _, -, rfl⟩ := ht
    rfl
  | nothing => exact ⟨s, (ReadFrame.refl s).toWrite, rfl⟩
  | acc => exact ⟨s, (ReadFrame.refl s).toWrite, rfl⟩
  | value w => exact ⟨s, (ReadFrame.refl s).toWrite, rfl⟩

theorem store_async_frame (r : Resolved) (v : Byte) {s : State} (h : s.params.syncMode = .async) :
    (store r v s).All fun t => ∃ u, AsyncWriteFrame (storedRam r v s.ram) (storedCart s.params r v s.cart) s u ∧
      t = { u with a := storedA r v s.a } := by
  cases r with
  | addr a =>
    refine (busWrite_async_frame a v h).mono fun t ht => ⟨t, ht, ?_⟩
    obtain ⟨_, _, _, _, _, _, rfl⟩ := ht
    rfl
  | nothing => exact ⟨s, (AsyncReadFrame.refl s).toWrite, rfl⟩
  | acc => exact ⟨s, (AsyncReadFrame.refl s).toWrite, rfl⟩
  | value w => exact ⟨s, (AsyncReadFrame.refl s).toWrite, rfl⟩

/-- A next state of a storing instruction. -/
theorem storing_cases {o : Operand} {v : Byte} {s t : State} (h : storing o v s = .next t) :
    (∃ u, WriteFrame (storedRam (resolve o s) v s.ram) (storedCart s.params (resolve o s) v s.cart)
        (afterResolve o s) u ∧
      (s.params.syncMode = .async → ∃ u', AsyncWriteFrame (storedRam (resolve o s) v s.ram)
        (storedCart s.params (resolve o s) v s.cart) (afterResolve o s) u' ∧
        t = { u' with a := storedA (resolve o s) v s.a }) ∧
      t = { u with a := storedA (resolve o s) v s.a }) ∨ Suspended s t := by
  unfold storing at h
  have hf := store_frame (resolve o s) v (afterResolve o s)
  have hw := store_waits (resolve o s) v (afterResolve o s)
  cases hr : store (resolve o s) v (afterResolve o s) with
  | wait q u =>
    rw [hr] at h hw
    injection h with h
    exact .inr ⟨hw, q, u.log, u.draws, h.symm⟩
  | done b u =>
    rw [hr] at h hf
    injection h with h
    subst h
    obtain ⟨u', hu, ht⟩ := hf
    refine .inl ⟨u', hu, fun ha => ?_, ht⟩
    have := store_async_frame (resolve o s) v (s := afterResolve o s) ha
    rwa [hr] at this

/-- A next state of a read-modify-write instruction. -/
theorem modifying_cases {o : Operand} {f : Byte → Flags → Byte × Flags} {s t : State}
    (h : modifying o f s = .next t) :
    (∃ v w u, operandRead o s = .done v w ∧ ReadFrame (afterResolve o s) w ∧
      WriteFrame (storedRam (resolve o s) (f v s.p).1 w.ram)
        (storedCart w.params (resolve o s) (f v s.p).1 w.cart) w u ∧
      (s.params.syncMode = .async → AsyncReadFrame (afterResolve o s) w ∧ ∃ u',
        AsyncWriteFrame (storedRam (resolve o s) (f v s.p).1 w.ram)
          (storedCart w.params (resolve o s) (f v s.p).1 w.cart) w u' ∧
        t = { u' with a := storedA (resolve o s) (f v s.p).1 w.a, p := (f v s.p).2 }) ∧
      t = { u with a := storedA (resolve o s) (f v s.p).1 w.a, p := (f v s.p).2 }) ∨ Suspended s t := by
  unfold modifying at h
  have hf := operandRead_frame o s
  have hw := operandRead_waits o s
  cases hr : operandRead o s with
  | wait q u =>
    rw [hr] at h hw
    injection h with h
    exact .inr ⟨hw, q, u.log, u.draws, h.symm⟩
  | done v w =>
    rw [hr] at h hf hw
    rw [Res.bind_done] at h
    have hs := store_frame (resolve o s) (f v s.p).1 w
    have hsw := store_waits (resolve o s) (f v s.p).1 w
    cases hr' : store (resolve o s) (f v s.p).1 w with
    | wait q u =>
      rw [hr'] at h hsw
      injection h with h
      refine .inr ⟨?_, q, u.log, u.draws, h.symm⟩
      have hp : w.params = s.params := hw
      rw [← hp]
      exact hsw
    | done a u =>
      rw [hr'] at h hs
      obtain ⟨u, hu, rfl⟩ := hs
      injection h with h
      refine .inl ⟨v, w, u, rfl, hf, hu, fun ha => ?_, h.symm⟩
      have h1 := operandRead_async_frame o ha
      rw [hr] at h1
      have h2 := store_async_frame (resolve o s) (f v s.p).1 (s := w)
        (by rw [AsyncReadFrame.params h1]; exact ha)
      rw [hr'] at h2
      obtain ⟨u', hu', ht'⟩ := h2
      refine ⟨h1, u', hu', h.symm.trans ?_⟩
      rw [ht']

/-! ## The indirect mode -/

theorem indirectAddress_frame (ptr : Word) (s : State) : (indirectAddress ptr s).All (ReadFrame s) :=
  (busRead_frame ptr s).bind (fun _ h => h) fun _ t ht =>
    ((busRead_frame _ t).mono fun _ hu => ht.trans hu).bind (fun _ h => h) fun _ _ hu => hu

theorem indirectAddress_async_frame (ptr : Word) {s : State} (h : s.params.syncMode = .async) :
    (indirectAddress ptr s).All (AsyncReadFrame s) :=
  (busRead_async_frame h ptr).bind (fun _ h => h) fun _ t ht =>
    ((busRead_async_frame (by rw [ht.params, h]) _).mono fun _ hu => ht.trans hu).bind (fun _ h => h)
      fun _ _ hu => hu

theorem indirectAddress_waits (ptr : Word) (s : State) : (indirectAddress ptr s).WaitsInAsync s :=
  (busRead_waits ptr s).bind fun _ t _ => (busRead_waits _ t).bind fun _ _ _ => rfl

/-- A next state of the jump through a pointer. -/
theorem jumpIndirect_cases {ptr : Word} {s t : State} (h : jumpIndirect ptr s = .next t) :
    (∃ u pc, ReadFrame s u ∧ (s.params.syncMode = .async → AsyncReadFrame s u) ∧ t = { u with pc := pc }) ∨
      Suspended s t := by
  unfold jumpIndirect at h
  have hf := indirectAddress_frame ptr s
  have hw := indirectAddress_waits ptr s
  cases hr : indirectAddress ptr s with
  | wait q u =>
    rw [hr] at h hw
    injection h with h
    exact .inr ⟨hw, q, u.log, u.draws, h.symm⟩
  | done a u =>
    rw [hr] at h hf
    injection h with h
    refine .inl ⟨u, a, hf, fun ha => ?_, h.symm⟩
    have h1 := indirectAddress_async_frame ptr ha
    rwa [hr] at h1

/-! ## Operands that need no channel -/

theorem busRead_memoryByte {s : State} {a : Word} {v : Byte} (h : s.memoryByte a = some v) :
    busRead a s = .done v s := by
  unfold State.memoryByte at h
  unfold busRead
  split at h <;> simp_all

/-- The operand read of a byte that needs no channel. -/
theorem operandRead_operandByte {o : Operand} {s : State} {v : Byte} (h : operandByte o s = some v) :
    operandRead o s = .done v (afterResolve o s) := by
  unfold operandByte at h
  unfold operandRead load
  cases hr : resolve o s with
  | nothing => simp [hr] at h
  | acc => simp_all [afterResolve]
  | value w => simp_all
  | addr a =>
    simp only [hr] at h
    exact busRead_memoryByte (s := afterResolve o s) h

/-- A reading instruction completes on a byte that needs no channel. -/
theorem reading_operandByte {o : Operand} {s : State} {v : Byte} (f : Byte → State → State)
    (h : operandByte o s = some v) : reading o f s = .next (f v (afterResolve o s)) := by
  simp [reading, operandRead_operandByte h, complete]

/-- A read-modify-write instruction on a byte that needs no channel stores the result at the operand. -/
theorem modifying_operandByte {o : Operand} {s : State} {v : Byte} (f : Byte → Flags → Byte × Flags)
    (h : operandByte o s = some v) :
    modifying o f s = complete s ((store (resolve o s) (f v s.p).1 (afterResolve o s)).bind
      fun _ u => .done () { u with p := (f v s.p).2 }) := by
  simp [modifying, operandRead_operandByte h]

theorem store_ram {a : Word} (v : Byte) (s : State) (h : a.toNat < 0x2000) :
    store (.addr a) v s = .done () { s with ram := s.ram.write (a.toNat % 2048) v } := by
  simp [store, busWrite, writeTarget_ram h]

theorem store_cartridge {a : Word} (v : Byte) (s : State) (h : 0x8000 ≤ a.toNat) :
    store (.addr a) v s = .done () { s with cart := s.cart.write s.params a v } := by
  simp [store, busWrite, writeTarget_cartridge h]

/-- `page_crossed` of a mode without a crossing is left as it was. -/
theorem afterResolve_acc (s : State) : afterResolve .accumulator s = s := rfl

theorem afterResolve_immediate (v : Byte) (s : State) : afterResolve (.immediate v) s = s := rfl

theorem resolve_acc {o : Operand} {s : State} (h : resolve o s = .acc) : o = .accumulator := by
  cases o <;> simp [resolve] at h
  rfl

/-! ## Pages -/

/-- Two addresses lie in different pages when their high bytes differ (40_engine.md R147). -/
theorem otherPage_eq (a b : Word) : otherPage a b = decide (a.toNat / 256 ≠ b.toNat / 256) := by
  have page (x : Word) : x &&& 0xFF00 = BitVec.ofNat 16 (x.toNat / 256 * 256) := by
    have h : x &&& (0xFF00 : Word) = x >>> 8 <<< 8 := by
      apply BitVec.eq_of_getLsbD_eq
      intro k hk
      interval_cases k <;> simp
    apply BitVec.eq_of_toNat_eq
    rw [h, BitVec.toNat_shiftLeft, BitVec.toNat_ushiftRight, BitVec.toNat_ofNat, Nat.shiftRight_eq_div_pow, Nat.shiftLeft_eq]
  unfold otherPage
  rw [page, page, bne, Bool.not_eq_eq_eq_not, Bool.eq_iff_iff]
  simp only [beq_iff_eq, Bool.not_eq_true', decide_eq_false_iff_not, not_not]
  refine ⟨fun h => ?_, fun h => by rw [h]⟩
  have := congrArg BitVec.toNat h
  simp only [BitVec.toNat_ofNat] at this
  omega

end Sys2Proof.Machine
end

