-- ==== Sys2Proof/Laws/State.lean ====
section
/-! SUPPORT. One lemma per field per named update of the state, true by unfolding once, so that later proofs never unfold
a record update. -/

namespace Sys2Proof.Machine

@[simp] theorem push_a (v : Byte) (s : State) : (push v s).a = s.a := rfl
@[simp] theorem push_x (v : Byte) (s : State) : (push v s).x = s.x := rfl
@[simp] theorem push_y (v : Byte) (s : State) : (push v s).y = s.y := rfl
@[simp] theorem push_sp (v : Byte) (s : State) : (push v s).sp = decSp s.params.stackEdge s.sp := rfl
@[simp] theorem push_pc (v : Byte) (s : State) : (push v s).pc = s.pc := rfl
@[simp] theorem push_p (v : Byte) (s : State) : (push v s).p = s.p := rfl
@[simp] theorem push_pageCrossed (v : Byte) (s : State) : (push v s).pageCrossed = s.pageCrossed := rfl
@[simp] theorem push_branchTaken (v : Byte) (s : State) : (push v s).branchTaken = s.branchTaken := rfl
@[simp] theorem push_extra (v : Byte) (s : State) : (push v s).extra = s.extra := rfl
@[simp] theorem push_cycles (v : Byte) (s : State) : (push v s).cycles = s.cycles := rfl
@[simp] theorem push_run (v : Byte) (s : State) : (push v s).run = s.run := rfl
@[simp] theorem push_work (v : Byte) (s : State) : (push v s).work = s.work := rfl
@[simp] theorem push_feed (v : Byte) (s : State) : (push v s).feed = s.feed := rfl
@[simp] theorem push_log (v : Byte) (s : State) : (push v s).log = s.log := rfl
@[simp] theorem push_paused (v : Byte) (s : State) : (push v s).paused = s.paused := rfl
@[simp] theorem push_stuck (v : Byte) (s : State) : (push v s).stuck = s.stuck := rfl
@[simp] theorem push_resetRequest (v : Byte) (s : State) : (push v s).resetRequest = s.resetRequest := rfl
@[simp] theorem push_irqLine (v : Byte) (s : State) : (push v s).irqLine = s.irqLine := rfl
@[simp] theorem push_ram (v : Byte) (s : State) : (push v s).ram = s.ram.write (stackCell s.sp) v := rfl
@[simp] theorem push_cart (v : Byte) (s : State) : (push v s).cart = s.cart := rfl
@[simp] theorem push_ppuChan (v : Byte) (s : State) : (push v s).ppuChan = s.ppuChan := rfl
@[simp] theorem push_apuChan (v : Byte) (s : State) : (push v s).apuChan = s.apuChan := rfl
@[simp] theorem push_vblankStart (v : Byte) (s : State) : (push v s).vblankStart = s.vblankStart := rfl
@[simp] theorem push_vblankEnd (v : Byte) (s : State) : (push v s).vblankEnd = s.vblankEnd := rfl
@[simp] theorem push_frameEnd (v : Byte) (s : State) : (push v s).frameEnd = s.frameEnd := rfl
@[simp] theorem push_alivePpu (v : Byte) (s : State) : (push v s).alivePpu = s.alivePpu := rfl
@[simp] theorem push_aliveApu (v : Byte) (s : State) : (push v s).aliveApu = s.aliveApu := rfl
@[simp] theorem push_shutdown (v : Byte) (s : State) : (push v s).shutdown = s.shutdown := rfl
@[simp] theorem push_ppu (v : Byte) (s : State) : (push v s).ppu = s.ppu := rfl
@[simp] theorem push_apuLatch (v : Byte) (s : State) : (push v s).apuLatch = s.apuLatch := rfl
@[simp] theorem push_framesOut (v : Byte) (s : State) : (push v s).framesOut = s.framesOut := rfl
@[simp] theorem push_frameEndsSeen (v : Byte) (s : State) : (push v s).frameEndsSeen = s.frameEndsSeen := rfl
@[simp] theorem push_trace (v : Byte) (s : State) : (push v s).trace = s.trace := rfl
@[simp] theorem push_params (v : Byte) (s : State) : (push v s).params = s.params := rfl
@[simp] theorem push_draws (v : Byte) (s : State) : (push v s).draws = s.draws := rfl
@[simp] theorem push_script (v : Byte) (s : State) : (push v s).script = s.script := rfl
@[simp] theorem push_moves (v : Byte) (s : State) : (push v s).moves = s.moves := rfl

@[simp] theorem pull_a (s : State) : (pull s).a = s.a := rfl
@[simp] theorem pull_x (s : State) : (pull s).x = s.x := rfl
@[simp] theorem pull_y (s : State) : (pull s).y = s.y := rfl
@[simp] theorem pull_sp (s : State) : (pull s).sp = incSp s.params.stackEdge s.sp := rfl
@[simp] theorem pull_pc (s : State) : (pull s).pc = s.pc := rfl
@[simp] theorem pull_p (s : State) : (pull s).p = s.p := rfl
@[simp] theorem pull_pageCrossed (s : State) : (pull s).pageCrossed = s.pageCrossed := rfl
@[simp] theorem pull_branchTaken (s : State) : (pull s).branchTaken = s.branchTaken := rfl
@[simp] theorem pull_extra (s : State) : (pull s).extra = s.extra := rfl
@[simp] theorem pull_cycles (s : State) : (pull s).cycles = s.cycles := rfl
@[simp] theorem pull_run (s : State) : (pull s).run = s.run := rfl
@[simp] theorem pull_work (s : State) : (pull s).work = s.work := rfl
@[simp] theorem pull_feed (s : State) : (pull s).feed = s.feed := rfl
@[simp] theorem pull_log (s : State) : (pull s).log = s.log := rfl
@[simp] theorem pull_paused (s : State) : (pull s).paused = s.paused := rfl
@[simp] theorem pull_stuck (s : State) : (pull s).stuck = s.stuck := rfl
@[simp] theorem pull_resetRequest (s : State) : (pull s).resetRequest = s.resetRequest := rfl
@[simp] theorem pull_irqLine (s : State) : (pull s).irqLine = s.irqLine := rfl
@[simp] theorem pull_ram (s : State) : (pull s).ram = s.ram := rfl
@[simp] theorem pull_cart (s : State) : (pull s).cart = s.cart := rfl
@[simp] theorem pull_ppuChan (s : State) : (pull s).ppuChan = s.ppuChan := rfl
@[simp] theorem pull_apuChan (s : State) : (pull s).apuChan = s.apuChan := rfl
@[simp] theorem pull_vblankStart (s : State) : (pull s).vblankStart = s.vblankStart := rfl
@[simp] theorem pull_vblankEnd (s : State) : (pull s).vblankEnd = s.vblankEnd := rfl
@[simp] theorem pull_frameEnd (s : State) : (pull s).frameEnd = s.frameEnd := rfl
@[simp] theorem pull_alivePpu (s : State) : (pull s).alivePpu = s.alivePpu := rfl
@[simp] theorem pull_aliveApu (s : State) : (pull s).aliveApu = s.aliveApu := rfl
@[simp] theorem pull_shutdown (s : State) : (pull s).shutdown = s.shutdown := rfl
@[simp] theorem pull_ppu (s : State) : (pull s).ppu = s.ppu := rfl
@[simp] theorem pull_apuLatch (s : State) : (pull s).apuLatch = s.apuLatch := rfl
@[simp] theorem pull_framesOut (s : State) : (pull s).framesOut = s.framesOut := rfl
@[simp] theorem pull_frameEndsSeen (s : State) : (pull s).frameEndsSeen = s.frameEndsSeen := rfl
@[simp] theorem pull_trace (s : State) : (pull s).trace = s.trace := rfl
@[simp] theorem pull_params (s : State) : (pull s).params = s.params := rfl
@[simp] theorem pull_draws (s : State) : (pull s).draws = s.draws := rfl
@[simp] theorem pull_script (s : State) : (pull s).script = s.script := rfl
@[simp] theorem pull_moves (s : State) : (pull s).moves = s.moves := rfl

@[simp] theorem afterResolve_a (o : Operand) (s : State) : (afterResolve o s).a = s.a := rfl
@[simp] theorem afterResolve_x (o : Operand) (s : State) : (afterResolve o s).x = s.x := rfl
@[simp] theorem afterResolve_y (o : Operand) (s : State) : (afterResolve o s).y = s.y := rfl
@[simp] theorem afterResolve_sp (o : Operand) (s : State) : (afterResolve o s).sp = s.sp := rfl
@[simp] theorem afterResolve_pc (o : Operand) (s : State) : (afterResolve o s).pc = s.pc := rfl
@[simp] theorem afterResolve_p (o : Operand) (s : State) : (afterResolve o s).p = s.p := rfl
@[simp] theorem afterResolve_pageCrossed (o : Operand) (s : State) : (afterResolve o s).pageCrossed = crossing o s := rfl
@[simp] theorem afterResolve_branchTaken (o : Operand) (s : State) : (afterResolve o s).branchTaken = s.branchTaken := rfl
@[simp] theorem afterResolve_extra (o : Operand) (s : State) : (afterResolve o s).extra = s.extra := rfl
@[simp] theorem afterResolve_cycles (o : Operand) (s : State) : (afterResolve o s).cycles = s.cycles := rfl
@[simp] theorem afterResolve_run (o : Operand) (s : State) : (afterResolve o s).run = s.run := rfl
@[simp] theorem afterResolve_work (o : Operand) (s : State) : (afterResolve o s).work = s.work := rfl
@[simp] theorem afterResolve_feed (o : Operand) (s : State) : (afterResolve o s).feed = s.feed := rfl
@[simp] theorem afterResolve_log (o : Operand) (s : State) : (afterResolve o s).log = s.log := rfl
@[simp] theorem afterResolve_paused (o : Operand) (s : State) : (afterResolve o s).paused = s.paused := rfl
@[simp] theorem afterResolve_stuck (o : Operand) (s : State) : (afterResolve o s).stuck = s.stuck := rfl
@[simp] theorem afterResolve_resetRequest (o : Operand) (s : State) : (afterResolve o s).resetRequest = s.resetRequest := rfl
@[simp] theorem afterResolve_irqLine (o : Operand) (s : State) : (afterResolve o s).irqLine = s.irqLine := rfl
@[simp] theorem afterResolve_ram (o : Operand) (s : State) : (afterResolve o s).ram = s.ram := rfl
@[simp] theorem afterResolve_cart (o : Operand) (s : State) : (afterResolve o s).cart = s.cart := rfl
@[simp] theorem afterResolve_ppuChan (o : Operand) (s : State) : (afterResolve o s).ppuChan = s.ppuChan := rfl
@[simp] theorem afterResolve_apuChan (o : Operand) (s : State) : (afterResolve o s).apuChan = s.apuChan := rfl
@[simp] theorem afterResolve_vblankStart (o : Operand) (s : State) : (afterResolve o s).vblankStart = s.vblankStart := rfl
@[simp] theorem afterResolve_vblankEnd (o : Operand) (s : State) : (afterResolve o s).vblankEnd = s.vblankEnd := rfl
@[simp] theorem afterResolve_frameEnd (o : Operand) (s : State) : (afterResolve o s).frameEnd = s.frameEnd := rfl
@[simp] theorem afterResolve_alivePpu (o : Operand) (s : State) : (afterResolve o s).alivePpu = s.alivePpu := rfl
@[simp] theorem afterResolve_aliveApu (o : Operand) (s : State) : (afterResolve o s).aliveApu = s.aliveApu := rfl
@[simp] theorem afterResolve_shutdown (o : Operand) (s : State) : (afterResolve o s).shutdown = s.shutdown := rfl
@[simp] theorem afterResolve_ppu (o : Operand) (s : State) : (afterResolve o s).ppu = s.ppu := rfl
@[simp] theorem afterResolve_apuLatch (o : Operand) (s : State) : (afterResolve o s).apuLatch = s.apuLatch := rfl
@[simp] theorem afterResolve_framesOut (o : Operand) (s : State) : (afterResolve o s).framesOut = s.framesOut := rfl
@[simp] theorem afterResolve_frameEndsSeen (o : Operand) (s : State) : (afterResolve o s).frameEndsSeen = s.frameEndsSeen := rfl
@[simp] theorem afterResolve_trace (o : Operand) (s : State) : (afterResolve o s).trace = s.trace := rfl
@[simp] theorem afterResolve_params (o : Operand) (s : State) : (afterResolve o s).params = s.params := rfl
@[simp] theorem afterResolve_draws (o : Operand) (s : State) : (afterResolve o s).draws = s.draws := rfl
@[simp] theorem afterResolve_script (o : Operand) (s : State) : (afterResolve o s).script = s.script := rfl
@[simp] theorem afterResolve_moves (o : Operand) (s : State) : (afterResolve o s).moves = s.moves := rfl

@[simp] theorem startInstr_a (s : State) : (startInstr s).a = s.a := rfl
@[simp] theorem startInstr_x (s : State) : (startInstr s).x = s.x := rfl
@[simp] theorem startInstr_y (s : State) : (startInstr s).y = s.y := rfl
@[simp] theorem startInstr_sp (s : State) : (startInstr s).sp = s.sp := rfl
@[simp] theorem startInstr_pc (s : State) : (startInstr s).pc = s.pc := rfl
@[simp] theorem startInstr_p (s : State) : (startInstr s).p = s.p := rfl
@[simp] theorem startInstr_pageCrossed (s : State) : (startInstr s).pageCrossed = false := rfl
@[simp] theorem startInstr_branchTaken (s : State) : (startInstr s).branchTaken = false := rfl
@[simp] theorem startInstr_extra (s : State) : (startInstr s).extra = 0 := rfl
@[simp] theorem startInstr_cycles (s : State) : (startInstr s).cycles = s.cycles := rfl
@[simp] theorem startInstr_run (s : State) : (startInstr s).run = s.run := rfl
@[simp] theorem startInstr_work (s : State) : (startInstr s).work = .none := rfl
@[simp] theorem startInstr_feed (s : State) : (startInstr s).feed = [] := rfl
@[simp] theorem startInstr_log (s : State) : (startInstr s).log = [] := rfl
@[simp] theorem startInstr_paused (s : State) : (startInstr s).paused = none := rfl
@[simp] theorem startInstr_stuck (s : State) : (startInstr s).stuck = s.stuck := rfl
@[simp] theorem startInstr_resetRequest (s : State) : (startInstr s).resetRequest = s.resetRequest := rfl
@[simp] theorem startInstr_irqLine (s : State) : (startInstr s).irqLine = s.irqLine := rfl
@[simp] theorem startInstr_ram (s : State) : (startInstr s).ram = s.ram := rfl
@[simp] theorem startInstr_cart (s : State) : (startInstr s).cart = s.cart := rfl
@[simp] theorem startInstr_ppuChan (s : State) : (startInstr s).ppuChan = s.ppuChan := rfl
@[simp] theorem startInstr_apuChan (s : State) : (startInstr s).apuChan = s.apuChan := rfl
@[simp] theorem startInstr_vblankStart (s : State) : (startInstr s).vblankStart = s.vblankStart := rfl
@[simp] theorem startInstr_vblankEnd (s : State) : (startInstr s).vblankEnd = s.vblankEnd := rfl
@[simp] theorem startInstr_frameEnd (s : State) : (startInstr s).frameEnd = s.frameEnd := rfl
@[simp] theorem startInstr_alivePpu (s : State) : (startInstr s).alivePpu = s.alivePpu := rfl
@[simp] theorem startInstr_aliveApu (s : State) : (startInstr s).aliveApu = s.aliveApu := rfl
@[simp] theorem startInstr_shutdown (s : State) : (startInstr s).shutdown = s.shutdown := rfl
@[simp] theorem startInstr_ppu (s : State) : (startInstr s).ppu = s.ppu := rfl
@[simp] theorem startInstr_apuLatch (s : State) : (startInstr s).apuLatch = s.apuLatch := rfl
@[simp] theorem startInstr_framesOut (s : State) : (startInstr s).framesOut = s.framesOut := rfl
@[simp] theorem startInstr_frameEndsSeen (s : State) : (startInstr s).frameEndsSeen = s.frameEndsSeen := rfl
@[simp] theorem startInstr_trace (s : State) : (startInstr s).trace = s.trace := rfl
@[simp] theorem startInstr_params (s : State) : (startInstr s).params = s.params := rfl
@[simp] theorem startInstr_draws (s : State) : (startInstr s).draws = s.draws := rfl
@[simp] theorem startInstr_script (s : State) : (startInstr s).script = s.script := rfl
@[simp] theorem startInstr_moves (s : State) : (startInstr s).moves = s.moves := rfl

@[simp] theorem pollSignals_a (s : State) : (pollSignals s).a = s.a := rfl
@[simp] theorem pollSignals_x (s : State) : (pollSignals s).x = s.x := rfl
@[simp] theorem pollSignals_y (s : State) : (pollSignals s).y = s.y := rfl
@[simp] theorem pollSignals_sp (s : State) : (pollSignals s).sp = s.sp := rfl
@[simp] theorem pollSignals_pc (s : State) : (pollSignals s).pc = s.pc := rfl
@[simp] theorem pollSignals_p (s : State) : (pollSignals s).p = s.p := rfl
@[simp] theorem pollSignals_pageCrossed (s : State) : (pollSignals s).pageCrossed = s.pageCrossed := rfl
@[simp] theorem pollSignals_branchTaken (s : State) : (pollSignals s).branchTaken = s.branchTaken := rfl
@[simp] theorem pollSignals_extra (s : State) : (pollSignals s).extra = s.extra := rfl
@[simp] theorem pollSignals_cycles (s : State) : (pollSignals s).cycles = s.cycles := rfl
@[simp] theorem pollSignals_run (s : State) : (pollSignals s).run = s.run := rfl
@[simp] theorem pollSignals_work (s : State) : (pollSignals s).work = s.work := rfl
@[simp] theorem pollSignals_feed (s : State) : (pollSignals s).feed = s.feed := rfl
@[simp] theorem pollSignals_log (s : State) : (pollSignals s).log = s.log := rfl
@[simp] theorem pollSignals_paused (s : State) : (pollSignals s).paused = s.paused := rfl
@[simp] theorem pollSignals_stuck (s : State) : (pollSignals s).stuck = s.stuck := rfl
@[simp] theorem pollSignals_resetRequest (s : State) : (pollSignals s).resetRequest = s.resetRequest := rfl
@[simp] theorem pollSignals_irqLine (s : State) : (pollSignals s).irqLine = s.irqLine := rfl
@[simp] theorem pollSignals_ram (s : State) : (pollSignals s).ram = s.ram := rfl
@[simp] theorem pollSignals_cart (s : State) : (pollSignals s).cart = s.cart := rfl
@[simp] theorem pollSignals_ppuChan (s : State) : (pollSignals s).ppuChan = s.ppuChan := rfl
@[simp] theorem pollSignals_apuChan (s : State) : (pollSignals s).apuChan = s.apuChan := rfl
@[simp] theorem pollSignals_vblankStart (s : State) : (pollSignals s).vblankStart = s.vblankStart.tail := rfl
@[simp] theorem pollSignals_vblankEnd (s : State) : (pollSignals s).vblankEnd = s.vblankEnd - 1 := rfl
@[simp] theorem pollSignals_frameEnd (s : State) : (pollSignals s).frameEnd = s.frameEnd - 1 := rfl
@[simp] theorem pollSignals_alivePpu (s : State) : (pollSignals s).alivePpu = s.alivePpu := rfl
@[simp] theorem pollSignals_aliveApu (s : State) : (pollSignals s).aliveApu = s.aliveApu := rfl
@[simp] theorem pollSignals_shutdown (s : State) : (pollSignals s).shutdown = s.shutdown := rfl
@[simp] theorem pollSignals_ppu (s : State) : (pollSignals s).ppu = s.ppu := rfl
@[simp] theorem pollSignals_apuLatch (s : State) : (pollSignals s).apuLatch = s.apuLatch := rfl
@[simp] theorem pollSignals_framesOut (s : State) : (pollSignals s).framesOut = s.framesOut := rfl
@[simp] theorem pollSignals_frameEndsSeen (s : State) : (pollSignals s).frameEndsSeen = if s.frameEnd = 0 then s.frameEndsSeen else s.frameEndsSeen + 1 := rfl
@[simp] theorem pollSignals_trace (s : State) : (pollSignals s).trace = s.trace := rfl
@[simp] theorem pollSignals_params (s : State) : (pollSignals s).params = s.params := rfl
@[simp] theorem pollSignals_draws (s : State) : (pollSignals s).draws = s.draws := rfl
@[simp] theorem pollSignals_script (s : State) : (pollSignals s).script = s.script := rfl
@[simp] theorem pollSignals_moves (s : State) : (pollSignals s).moves = s.moves := rfl

@[simp] theorem recordTrace_a (s : State) : (recordTrace s).a = s.a := rfl
@[simp] theorem recordTrace_x (s : State) : (recordTrace s).x = s.x := rfl
@[simp] theorem recordTrace_y (s : State) : (recordTrace s).y = s.y := rfl
@[simp] theorem recordTrace_sp (s : State) : (recordTrace s).sp = s.sp := rfl
@[simp] theorem recordTrace_pc (s : State) : (recordTrace s).pc = s.pc := rfl
@[simp] theorem recordTrace_p (s : State) : (recordTrace s).p = s.p := rfl
@[simp] theorem recordTrace_pageCrossed (s : State) : (recordTrace s).pageCrossed = s.pageCrossed := rfl
@[simp] theorem recordTrace_branchTaken (s : State) : (recordTrace s).branchTaken = s.branchTaken := rfl
@[simp] theorem recordTrace_extra (s : State) : (recordTrace s).extra = s.extra := rfl
@[simp] theorem recordTrace_cycles (s : State) : (recordTrace s).cycles = s.cycles := rfl
@[simp] theorem recordTrace_run (s : State) : (recordTrace s).run = s.run := rfl
@[simp] theorem recordTrace_work (s : State) : (recordTrace s).work = s.work := rfl
@[simp] theorem recordTrace_feed (s : State) : (recordTrace s).feed = s.feed := rfl
@[simp] theorem recordTrace_log (s : State) : (recordTrace s).log = s.log := rfl
@[simp] theorem recordTrace_paused (s : State) : (recordTrace s).paused = s.paused := rfl
@[simp] theorem recordTrace_stuck (s : State) : (recordTrace s).stuck = s.stuck := rfl
@[simp] theorem recordTrace_resetRequest (s : State) : (recordTrace s).resetRequest = s.resetRequest := rfl
@[simp] theorem recordTrace_irqLine (s : State) : (recordTrace s).irqLine = s.irqLine := rfl
@[simp] theorem recordTrace_ram (s : State) : (recordTrace s).ram = s.ram := rfl
@[simp] theorem recordTrace_cart (s : State) : (recordTrace s).cart = s.cart := rfl
@[simp] theorem recordTrace_ppuChan (s : State) : (recordTrace s).ppuChan = s.ppuChan := rfl
@[simp] theorem recordTrace_apuChan (s : State) : (recordTrace s).apuChan = s.apuChan := rfl
@[simp] theorem recordTrace_vblankStart (s : State) : (recordTrace s).vblankStart = s.vblankStart := rfl
@[simp] theorem recordTrace_vblankEnd (s : State) : (recordTrace s).vblankEnd = s.vblankEnd := rfl
@[simp] theorem recordTrace_frameEnd (s : State) : (recordTrace s).frameEnd = s.frameEnd := rfl
@[simp] theorem recordTrace_alivePpu (s : State) : (recordTrace s).alivePpu = s.alivePpu := rfl
@[simp] theorem recordTrace_aliveApu (s : State) : (recordTrace s).aliveApu = s.aliveApu := rfl
@[simp] theorem recordTrace_shutdown (s : State) : (recordTrace s).shutdown = s.shutdown := rfl
@[simp] theorem recordTrace_ppu (s : State) : (recordTrace s).ppu = s.ppu := rfl
@[simp] theorem recordTrace_apuLatch (s : State) : (recordTrace s).apuLatch = s.apuLatch := rfl
@[simp] theorem recordTrace_framesOut (s : State) : (recordTrace s).framesOut = s.framesOut := rfl
@[simp] theorem recordTrace_frameEndsSeen (s : State) : (recordTrace s).frameEndsSeen = s.frameEndsSeen := rfl
@[simp] theorem recordTrace_trace (s : State) : (recordTrace s).trace = s.trace ++ [s.traceTuple] := rfl
@[simp] theorem recordTrace_params (s : State) : (recordTrace s).params = s.params := rfl
@[simp] theorem recordTrace_draws (s : State) : (recordTrace s).draws = s.draws := rfl
@[simp] theorem recordTrace_script (s : State) : (recordTrace s).script = s.script := rfl
@[simp] theorem recordTrace_moves (s : State) : (recordTrace s).moves = s.moves := rfl

@[simp] theorem chargeEntry_a (s : State) : (chargeEntry s).a = s.a := rfl
@[simp] theorem chargeEntry_x (s : State) : (chargeEntry s).x = s.x := rfl
@[simp] theorem chargeEntry_y (s : State) : (chargeEntry s).y = s.y := rfl
@[simp] theorem chargeEntry_sp (s : State) : (chargeEntry s).sp = s.sp := rfl
@[simp] theorem chargeEntry_pc (s : State) : (chargeEntry s).pc = s.pc := rfl
@[simp] theorem chargeEntry_p (s : State) : (chargeEntry s).p = s.p := rfl
@[simp] theorem chargeEntry_pageCrossed (s : State) : (chargeEntry s).pageCrossed = s.pageCrossed := rfl
@[simp] theorem chargeEntry_branchTaken (s : State) : (chargeEntry s).branchTaken = s.branchTaken := rfl
@[simp] theorem chargeEntry_extra (s : State) : (chargeEntry s).extra = s.extra := rfl
@[simp] theorem chargeEntry_cycles (s : State) : (chargeEntry s).cycles = s.cycles + 7 := rfl
@[simp] theorem chargeEntry_run (s : State) : (chargeEntry s).run = s.run := rfl
@[simp] theorem chargeEntry_work (s : State) : (chargeEntry s).work = s.work := rfl
@[simp] theorem chargeEntry_feed (s : State) : (chargeEntry s).feed = s.feed := rfl
@[simp] theorem chargeEntry_log (s : State) : (chargeEntry s).log = s.log := rfl
@[simp] theorem chargeEntry_paused (s : State) : (chargeEntry s).paused = s.paused := rfl
@[simp] theorem chargeEntry_stuck (s : State) : (chargeEntry s).stuck = s.stuck := rfl
@[simp] theorem chargeEntry_resetRequest (s : State) : (chargeEntry s).resetRequest = s.resetRequest := rfl
@[simp] theorem chargeEntry_irqLine (s : State) : (chargeEntry s).irqLine = s.irqLine := rfl
@[simp] theorem chargeEntry_ram (s : State) : (chargeEntry s).ram = s.ram := rfl
@[simp] theorem chargeEntry_cart (s : State) : (chargeEntry s).cart = s.cart := rfl
@[simp] theorem chargeEntry_ppuChan (s : State) : (chargeEntry s).ppuChan = s.ppuChan := rfl
@[simp] theorem chargeEntry_apuChan (s : State) : (chargeEntry s).apuChan = s.apuChan := rfl
@[simp] theorem chargeEntry_vblankStart (s : State) : (chargeEntry s).vblankStart = s.vblankStart := rfl
@[simp] theorem chargeEntry_vblankEnd (s : State) : (chargeEntry s).vblankEnd = s.vblankEnd := rfl
@[simp] theorem chargeEntry_frameEnd (s : State) : (chargeEntry s).frameEnd = s.frameEnd := rfl
@[simp] theorem chargeEntry_alivePpu (s : State) : (chargeEntry s).alivePpu = s.alivePpu := rfl
@[simp] theorem chargeEntry_aliveApu (s : State) : (chargeEntry s).aliveApu = s.aliveApu := rfl
@[simp] theorem chargeEntry_shutdown (s : State) : (chargeEntry s).shutdown = s.shutdown := rfl
@[simp] theorem chargeEntry_ppu (s : State) : (chargeEntry s).ppu = s.ppu := rfl
@[simp] theorem chargeEntry_apuLatch (s : State) : (chargeEntry s).apuLatch = s.apuLatch := rfl
@[simp] theorem chargeEntry_framesOut (s : State) : (chargeEntry s).framesOut = s.framesOut := rfl
@[simp] theorem chargeEntry_frameEndsSeen (s : State) : (chargeEntry s).frameEndsSeen = s.frameEndsSeen := rfl
@[simp] theorem chargeEntry_trace (s : State) : (chargeEntry s).trace = s.trace := rfl
@[simp] theorem chargeEntry_params (s : State) : (chargeEntry s).params = s.params := rfl
@[simp] theorem chargeEntry_draws (s : State) : (chargeEntry s).draws = s.draws := rfl
@[simp] theorem chargeEntry_script (s : State) : (chargeEntry s).script = s.script := rfl
@[simp] theorem chargeEntry_moves (s : State) : (chargeEntry s).moves = s.moves := rfl

@[simp] theorem retire_a (b : Byte) (s : State) : (retire b s).a = s.a := rfl
@[simp] theorem retire_x (b : Byte) (s : State) : (retire b s).x = s.x := rfl
@[simp] theorem retire_y (b : Byte) (s : State) : (retire b s).y = s.y := rfl
@[simp] theorem retire_sp (b : Byte) (s : State) : (retire b s).sp = s.sp := rfl
@[simp] theorem retire_pc (b : Byte) (s : State) : (retire b s).pc = s.pc := rfl
@[simp] theorem retire_p (b : Byte) (s : State) : (retire b s).p = s.p := rfl
@[simp] theorem retire_pageCrossed (b : Byte) (s : State) : (retire b s).pageCrossed = s.pageCrossed := rfl
@[simp] theorem retire_branchTaken (b : Byte) (s : State) : (retire b s).branchTaken = s.branchTaken := rfl
@[simp] theorem retire_extra (b : Byte) (s : State) : (retire b s).extra = s.extra := rfl
@[simp] theorem retire_cycles (b : Byte) (s : State) : (retire b s).cycles = s.cycles + opcodeCost s.params b s.pageCrossed s.branchTaken + s.extra := rfl
@[simp] theorem retire_run (b : Byte) (s : State) : (retire b s).run = s.run := rfl
@[simp] theorem retire_work (b : Byte) (s : State) : (retire b s).work = .none := rfl
@[simp] theorem retire_feed (b : Byte) (s : State) : (retire b s).feed = [] := rfl
@[simp] theorem retire_log (b : Byte) (s : State) : (retire b s).log = [] := rfl
@[simp] theorem retire_paused (b : Byte) (s : State) : (retire b s).paused = none := rfl
@[simp] theorem retire_stuck (b : Byte) (s : State) : (retire b s).stuck = s.stuck := rfl
@[simp] theorem retire_resetRequest (b : Byte) (s : State) : (retire b s).resetRequest = s.resetRequest := rfl
@[simp] theorem retire_irqLine (b : Byte) (s : State) : (retire b s).irqLine = s.irqLine := rfl
@[simp] theorem retire_ram (b : Byte) (s : State) : (retire b s).ram = s.ram := rfl
@[simp] theorem retire_cart (b : Byte) (s : State) : (retire b s).cart = s.cart := rfl
@[simp] theorem retire_ppuChan (b : Byte) (s : State) : (retire b s).ppuChan = s.ppuChan := rfl
@[simp] theorem retire_apuChan (b : Byte) (s : State) : (retire b s).apuChan = s.apuChan := rfl
@[simp] theorem retire_vblankStart (b : Byte) (s : State) : (retire b s).vblankStart = s.vblankStart := rfl
@[simp] theorem retire_vblankEnd (b : Byte) (s : State) : (retire b s).vblankEnd = s.vblankEnd := rfl
@[simp] theorem retire_frameEnd (b : Byte) (s : State) : (retire b s).frameEnd = s.frameEnd := rfl
@[simp] theorem retire_alivePpu (b : Byte) (s : State) : (retire b s).alivePpu = s.alivePpu := rfl
@[simp] theorem retire_aliveApu (b : Byte) (s : State) : (retire b s).aliveApu = s.aliveApu := rfl
@[simp] theorem retire_shutdown (b : Byte) (s : State) : (retire b s).shutdown = s.shutdown := rfl
@[simp] theorem retire_ppu (b : Byte) (s : State) : (retire b s).ppu = s.ppu := rfl
@[simp] theorem retire_apuLatch (b : Byte) (s : State) : (retire b s).apuLatch = s.apuLatch := rfl
@[simp] theorem retire_framesOut (b : Byte) (s : State) : (retire b s).framesOut = s.framesOut := rfl
@[simp] theorem retire_frameEndsSeen (b : Byte) (s : State) : (retire b s).frameEndsSeen = s.frameEndsSeen := rfl
@[simp] theorem retire_trace (b : Byte) (s : State) : (retire b s).trace = s.trace := rfl
@[simp] theorem retire_params (b : Byte) (s : State) : (retire b s).params = s.params := rfl
@[simp] theorem retire_draws (b : Byte) (s : State) : (retire b s).draws = s.draws := rfl
@[simp] theorem retire_script (b : Byte) (s : State) : (retire b s).script = s.script := rfl
@[simp] theorem retire_moves (b : Byte) (s : State) : (retire b s).moves = s.moves := rfl

@[simp] theorem State.setPc_a (w : Word) (s : State) : (s.setPc w).a = s.a := rfl
@[simp] theorem State.setPc_x (w : Word) (s : State) : (s.setPc w).x = s.x := rfl
@[simp] theorem State.setPc_y (w : Word) (s : State) : (s.setPc w).y = s.y := rfl
@[simp] theorem State.setPc_sp (w : Word) (s : State) : (s.setPc w).sp = s.sp := rfl
@[simp] theorem State.setPc_pc (w : Word) (s : State) : (s.setPc w).pc = w := rfl
@[simp] theorem State.setPc_p (w : Word) (s : State) : (s.setPc w).p = s.p := rfl
@[simp] theorem State.setPc_pageCrossed (w : Word) (s : State) : (s.setPc w).pageCrossed = s.pageCrossed := rfl
@[simp] theorem State.setPc_branchTaken (w : Word) (s : State) : (s.setPc w).branchTaken = s.branchTaken := rfl
@[simp] theorem State.setPc_extra (w : Word) (s : State) : (s.setPc w).extra = s.extra := rfl
@[simp] theorem State.setPc_cycles (w : Word) (s : State) : (s.setPc w).cycles = s.cycles := rfl
@[simp] theorem State.setPc_run (w : Word) (s : State) : (s.setPc w).run = s.run := rfl
@[simp] theorem State.setPc_work (w : Word) (s : State) : (s.setPc w).work = s.work := rfl
@[simp] theorem State.setPc_feed (w : Word) (s : State) : (s.setPc w).feed = s.feed := rfl
@[simp] theorem State.setPc_log (w : Word) (s : State) : (s.setPc w).log = s.log := rfl
@[simp] theorem State.setPc_paused (w : Word) (s : State) : (s.setPc w).paused = s.paused := rfl
@[simp] theorem State.setPc_stuck (w : Word) (s : State) : (s.setPc w).stuck = s.stuck := rfl
@[simp] theorem State.setPc_resetRequest (w : Word) (s : State) : (s.setPc w).resetRequest = s.resetRequest := rfl
@[simp] theorem State.setPc_irqLine (w : Word) (s : State) : (s.setPc w).irqLine = s.irqLine := rfl
@[simp] theorem State.setPc_ram (w : Word) (s : State) : (s.setPc w).ram = s.ram := rfl
@[simp] theorem State.setPc_cart (w : Word) (s : State) : (s.setPc w).cart = s.cart := rfl
@[simp] theorem State.setPc_ppuChan (w : Word) (s : State) : (s.setPc w).ppuChan = s.ppuChan := rfl
@[simp] theorem State.setPc_apuChan (w : Word) (s : State) : (s.setPc w).apuChan = s.apuChan := rfl
@[simp] theorem State.setPc_vblankStart (w : Word) (s : State) : (s.setPc w).vblankStart = s.vblankStart := rfl
@[simp] theorem State.setPc_vblankEnd (w : Word) (s : State) : (s.setPc w).vblankEnd = s.vblankEnd := rfl
@[simp] theorem State.setPc_frameEnd (w : Word) (s : State) : (s.setPc w).frameEnd = s.frameEnd := rfl
@[simp] theorem State.setPc_alivePpu (w : Word) (s : State) : (s.setPc w).alivePpu = s.alivePpu := rfl
@[simp] theorem State.setPc_aliveApu (w : Word) (s : State) : (s.setPc w).aliveApu = s.aliveApu := rfl
@[simp] theorem State.setPc_shutdown (w : Word) (s : State) : (s.setPc w).shutdown = s.shutdown := rfl
@[simp] theorem State.setPc_ppu (w : Word) (s : State) : (s.setPc w).ppu = s.ppu := rfl
@[simp] theorem State.setPc_apuLatch (w : Word) (s : State) : (s.setPc w).apuLatch = s.apuLatch := rfl
@[simp] theorem State.setPc_framesOut (w : Word) (s : State) : (s.setPc w).framesOut = s.framesOut := rfl
@[simp] theorem State.setPc_frameEndsSeen (w : Word) (s : State) : (s.setPc w).frameEndsSeen = s.frameEndsSeen := rfl
@[simp] theorem State.setPc_trace (w : Word) (s : State) : (s.setPc w).trace = s.trace := rfl
@[simp] theorem State.setPc_params (w : Word) (s : State) : (s.setPc w).params = s.params := rfl
@[simp] theorem State.setPc_draws (w : Word) (s : State) : (s.setPc w).draws = s.draws := rfl
@[simp] theorem State.setPc_script (w : Word) (s : State) : (s.setPc w).script = s.script := rfl
@[simp] theorem State.setPc_moves (w : Word) (s : State) : (s.setPc w).moves = s.moves := rfl

@[simp] theorem State.setP_a (p : Flags) (s : State) : (s.setP p).a = s.a := rfl
@[simp] theorem State.setP_x (p : Flags) (s : State) : (s.setP p).x = s.x := rfl
@[simp] theorem State.setP_y (p : Flags) (s : State) : (s.setP p).y = s.y := rfl
@[simp] theorem State.setP_sp (p : Flags) (s : State) : (s.setP p).sp = s.sp := rfl
@[simp] theorem State.setP_pc (p : Flags) (s : State) : (s.setP p).pc = s.pc := rfl
@[simp] theorem State.setP_p (p : Flags) (s : State) : (s.setP p).p = p := rfl
@[simp] theorem State.setP_pageCrossed (p : Flags) (s : State) : (s.setP p).pageCrossed = s.pageCrossed := rfl
@[simp] theorem State.setP_branchTaken (p : Flags) (s : State) : (s.setP p).branchTaken = s.branchTaken := rfl
@[simp] theorem State.setP_extra (p : Flags) (s : State) : (s.setP p).extra = s.extra := rfl
@[simp] theorem State.setP_cycles (p : Flags) (s : State) : (s.setP p).cycles = s.cycles := rfl
@[simp] theorem State.setP_run (p : Flags) (s : State) : (s.setP p).run = s.run := rfl
@[simp] theorem State.setP_work (p : Flags) (s : State) : (s.setP p).work = s.work := rfl
@[simp] theorem State.setP_feed (p : Flags) (s : State) : (s.setP p).feed = s.feed := rfl
@[simp] theorem State.setP_log (p : Flags) (s : State) : (s.setP p).log = s.log := rfl
@[simp] theorem State.setP_paused (p : Flags) (s : State) : (s.setP p).paused = s.paused := rfl
@[simp] theorem State.setP_stuck (p : Flags) (s : State) : (s.setP p).stuck = s.stuck := rfl
@[simp] theorem State.setP_resetRequest (p : Flags) (s : State) : (s.setP p).resetRequest = s.resetRequest := rfl
@[simp] theorem State.setP_irqLine (p : Flags) (s : State) : (s.setP p).irqLine = s.irqLine := rfl
@[simp] theorem State.setP_ram (p : Flags) (s : State) : (s.setP p).ram = s.ram := rfl
@[simp] theorem State.setP_cart (p : Flags) (s : State) : (s.setP p).cart = s.cart := rfl
@[simp] theorem State.setP_ppuChan (p : Flags) (s : State) : (s.setP p).ppuChan = s.ppuChan := rfl
@[simp] theorem State.setP_apuChan (p : Flags) (s : State) : (s.setP p).apuChan = s.apuChan := rfl
@[simp] theorem State.setP_vblankStart (p : Flags) (s : State) : (s.setP p).vblankStart = s.vblankStart := rfl
@[simp] theorem State.setP_vblankEnd (p : Flags) (s : State) : (s.setP p).vblankEnd = s.vblankEnd := rfl
@[simp] theorem State.setP_frameEnd (p : Flags) (s : State) : (s.setP p).frameEnd = s.frameEnd := rfl
@[simp] theorem State.setP_alivePpu (p : Flags) (s : State) : (s.setP p).alivePpu = s.alivePpu := rfl
@[simp] theorem State.setP_aliveApu (p : Flags) (s : State) : (s.setP p).aliveApu = s.aliveApu := rfl
@[simp] theorem State.setP_shutdown (p : Flags) (s : State) : (s.setP p).shutdown = s.shutdown := rfl
@[simp] theorem State.setP_ppu (p : Flags) (s : State) : (s.setP p).ppu = s.ppu := rfl
@[simp] theorem State.setP_apuLatch (p : Flags) (s : State) : (s.setP p).apuLatch = s.apuLatch := rfl
@[simp] theorem State.setP_framesOut (p : Flags) (s : State) : (s.setP p).framesOut = s.framesOut := rfl
@[simp] theorem State.setP_frameEndsSeen (p : Flags) (s : State) : (s.setP p).frameEndsSeen = s.frameEndsSeen := rfl
@[simp] theorem State.setP_trace (p : Flags) (s : State) : (s.setP p).trace = s.trace := rfl
@[simp] theorem State.setP_params (p : Flags) (s : State) : (s.setP p).params = s.params := rfl
@[simp] theorem State.setP_draws (p : Flags) (s : State) : (s.setP p).draws = s.draws := rfl
@[simp] theorem State.setP_script (p : Flags) (s : State) : (s.setP p).script = s.script := rfl
@[simp] theorem State.setP_moves (p : Flags) (s : State) : (s.setP p).moves = s.moves := rfl

end Sys2Proof.Machine
end

