-- ==== Sys2Proof/Laws/Frame.lean ====
section
/-! SUPPORT. Everything an instruction, and every handler at every operand, can do to the state, said once for all: it
always answers a next state, and that state is within the frame below, or is suspended on a channel read: an instruction
as the state it began at, a handler program with what it did before that read. -/

namespace Sys2Proof.Machine

/-- What a completed instruction can change: the CPU's registers and bookkeeping, RAM within its canonical form, the
cartridge by added mappings only, and (in `lockstep`) the responders it was served by. -/
def CpuFrame (s t : State) : Prop :=
  ∃ a x y sp pc p crossed taken extra feed log draws ram cart ppu latch pw aw,
    Served s ppu latch pw aw ∧ (Memory.wf ramSize s.ram → Memory.wf ramSize ram) ∧
    (∃ added, cart = { s.cart with mappings := added ++ s.cart.mappings }) ∧
    t = { s with
      a := a, x := x, y := y, sp := sp, pc := pc, p := p, pageCrossed := crossed, branchTaken := taken, extra := extra
      feed := feed, log := log, draws := draws, ram := ram, cart := cart, ppu := ppu, apuLatch := latch
      ppuChan := { s.ppuChan with writes := pw }, apuChan := { s.apuChan with writes := aw } }

theorem storedRam_wf (r : Resolved) (v : Byte) {m : Memory} (h : Memory.wf ramSize m) :
    Memory.wf ramSize (storedRam r v m) := by
  cases r with
  | addr a => exact writtenRam_wf h
  | nothing => exact h
  | acc => exact h
  | value w => exact h

theorem storedCart_adds (prm : Params) (r : Resolved) (v : Byte) (c : Cartridge) :
    ∃ added, storedCart prm r v c = { c with mappings := added ++ c.mappings } := by
  cases r with
  | addr a => exact writtenCart_adds prm a v c
  | nothing => exact ⟨[], rfl⟩
  | acc => exact ⟨[], rfl⟩
  | value w => exact ⟨[], rfl⟩

theorem Served.trans {s : State} {ppu ppu' : Ppu} {latch latch' : Memory} {pw pw' : List PpuWrite}
    {aw aw' : List (ApuReg × Byte)} (h : Served s ppu latch pw aw)
    (k : Served { s with
      ppu := ppu, apuLatch := latch, ppuChan := { s.ppuChan with writes := pw }
      apuChan := { s.apuChan with writes := aw } } ppu' latch' pw' aw') : Served s ppu' latch' pw' aw' :=
  ⟨h.1.trans k.1, fun hw => k.2.1 (h.2.1 hw),
    fun hm => ⟨fun hw => (k.2.2 hm).1 ((h.2.2 hm).1 hw), fun hw => (k.2.2 hm).2 ((h.2.2 hm).2 hw)⟩⟩

/-- An update of the CPU's registers and of RAM is within the frame. -/
theorem CpuFrame.cpu {s : State} (a x y sp : Byte) (pc : Word) (p : Flags) (crossed taken : Bool) (ram : Memory)
    (h : Memory.wf ramSize s.ram → Memory.wf ramSize ram) : CpuFrame s { s with
      a := a, x := x, y := y, sp := sp, pc := pc, p := p, pageCrossed := crossed, branchTaken := taken, ram := ram } :=
  ⟨_, _, _, _, _, _, _, _, _, _, _, _, _, _, _, _, _, _, .refl s, h, ⟨[], rfl⟩, rfl⟩

theorem reading_frame {o : Operand} {f : Byte → State → State} {s t : State} (h : reading o f s = .next t)
    (hf : ∀ v u, ∃ a x y p, f v u = { u with a := a, x := x, y := y, p := p }) : CpuFrame s t ∨ Suspended s t := by
  rcases reading_cases h with ⟨v, u, -, ⟨_, _, _, _, _, _, _, hs, rfl⟩, -, rfl⟩ | h
  · obtain ⟨_, _, _, _, he⟩ := hf v _
    exact .inl ⟨_, _, _, _, _, _, _, _, _, _, _, _, _, _, _, _, _, _, hs, id, ⟨[], rfl⟩, he⟩
  · exact .inr h

theorem storing_frame {o : Operand} {v : Byte} {s t : State} (h : storing o v s = .next t) :
    CpuFrame s t ∨ Suspended s t := by
  rcases storing_cases h with ⟨u, ⟨_, _, _, _, _, _, _, _, hs, rfl⟩, -, rfl⟩ | h
  · exact .inl ⟨_, _, _, _, _, _, _, _, _, _, _, _, _, _, _, _, _, _, hs, storedRam_wf _ _,
      storedCart_adds _ _ _ _, rfl⟩
  · exact .inr h

theorem modifying_frame {o : Operand} {f : Byte → Flags → Byte × Flags} {s t : State}
    (h : modifying o f s = .next t) : CpuFrame s t ∨ Suspended s t := by
  rcases modifying_cases h with
    ⟨v, w, u, -, ⟨_, _, _, _, _, _, _, hs, rfl⟩, ⟨_, _, _, _, _, _, _, _, ks, rfl⟩, -, rfl⟩ | h
  · exact .inl ⟨_, _, _, _, _, _, _, _, _, _, _, _, _, _, _, _, _, _, Served.trans hs ks, storedRam_wf _ _,
      storedCart_adds _ _ _ _, rfl⟩
  · exact .inr h

theorem branching_frame {c : Bool} {o : Byte} {s t : State} (h : branching c o s = .next t) :
    CpuFrame s t ∨ Suspended s t := by
  injection h with h
  subst h
  cases c
  · exact .inl (.cpu _ _ _ _ _ _ _ _ _ id)
  · exact .inl (.cpu _ _ _ _ _ _ _ _ _ id)

theorem jumpIndirect_frame {ptr : Word} {s t : State} (h : jumpIndirect ptr s = .next t) :
    CpuFrame s t ∨ Suspended s t := by
  rcases jumpIndirect_cases h with ⟨u, pc, ⟨_, _, _, _, _, _, _, hs, rfl⟩, -, rfl⟩ | h
  · exact .inl ⟨_, _, _, _, _, _, _, _, _, _, _, _, _, _, _, _, _, _, hs, id, ⟨[], rfl⟩, rfl⟩
  · exact .inr h

theorem push_wf {s : State} (v : Byte) (h : Memory.wf ramSize s.ram) : Memory.wf ramSize (push v s).ram :=
  Memory.write_wf v h (stackCell_lt _)

theorem enter_frame (flags : Byte) (vec : Word) (jump : Bool) (s : State) : CpuFrame s (enter flags vec jump s) := by
  rw [enter_eq]
  exact .cpu _ _ _ _ _ _ _ _ _ fun h =>
    Memory.write_wf _ (Memory.write_wf _ (Memory.write_wf _ h (stackCell_lt _)) (stackCell_lt _)) (stackCell_lt _)

theorem irqAccept_frame (s : State) : CpuFrame s (irqAccept s) := by
  unfold irqAccept
  split
  · exact .cpu _ _ _ _ _ _ _ _ _ id
  · rw [sharedInterrupt, enter_eq]
    exact .cpu _ _ _ _ _ _ _ _ _ fun h =>
      Memory.write_wf _ (Memory.write_wf _ (Memory.write_wf _ h (stackCell_lt _)) (stackCell_lt _)) (stackCell_lt _)

theorem brkEntry_frame (s : State) : CpuFrame s (brkEntry s) := by
  have hp : ∀ u, CpuFrame (s.setPc (s.pc + 1)) u → CpuFrame s u := by
    rintro u ⟨_, _, _, _, _, _, _, _, _, _, _, _, _, _, _, _, _, _, h1, h2, h3, rfl⟩
    exact ⟨_, _, _, _, _, _, _, _, _, _, _, _, _, _, _, _, _, _, h1, h2, h3, rfl⟩
  unfold brkEntry
  dsimp only
  split
  · exact hp _ (enter_frame _ _ _ _)
  · exact hp _ (irqAccept_frame _)

/-- What comes after bus reads, seen from before them. -/
theorem ReadFrame.thenCpu {s t u : State} : ReadFrame s t → CpuFrame t u → CpuFrame s u := by
  rintro ⟨_, _, _, _, _, _, _, h, rfl⟩ ⟨_, _, _, _, _, _, _, _, _, _, _, _, _, _, _, _, _, _, k1, k2, k3, rfl⟩
  exact ⟨_, _, _, _, _, _, _, _, _, _, _, _, _, _, _, _, _, _, Served.trans h k1, k2, k3, rfl⟩

theorem afterResolve_thenCpu (o : Operand) {s u : State} : CpuFrame (afterResolve o s) u → CpuFrame s u := by
  rintro ⟨_, _, _, _, _, _, _, _, _, _, _, _, _, _, _, _, _, _, k1, k2, k3, rfl⟩
  exact ⟨_, _, _, _, _, _, _, _, _, _, _, _, _, _, _, _, _, _, k1, k2, k3, rfl⟩

/-- Taking a target moves the draw counter at most. -/
theorem targetOf_eq (r : Resolved) (s : State) : ∃ draws, (targetOf r s).2 = { s with draws := draws } := by
  cases r <;> exact ⟨_, rfl⟩

theorem CpuFrame.draws {s : State} (draws : Nat) : CpuFrame s { s with draws := draws } :=
  ⟨_, _, _, _, _, _, _, _, _, _, _, _, _, _, _, _, _, _, .refl s, id, ⟨[], rfl⟩, rfl⟩

theorem CpuFrame.trans {s t u : State} : CpuFrame s t → CpuFrame t u → CpuFrame s u := by
  rintro ⟨_, _, _, _, _, _, _, _, _, _, _, _, _, _, _, _, _, _, h1, h2, ⟨l, rfl⟩, rfl⟩
    ⟨_, _, _, _, _, _, _, _, _, _, _, _, _, _, _, _, _, _, k1, k2, ⟨m, rfl⟩, rfl⟩
  exact ⟨_, _, _, _, _, _, _, _, _, _, _, _, _, _, _, _, _, _, Served.trans h1 k1, fun h => k2 (h2 h),
    ⟨m ++ l, by simp⟩, rfl⟩

theorem branchAt_frame {c : Bool} {o : Operand} {s t : State} (h : branchAt c o s = .next t) : CpuFrame s t := by
  injection h with h
  subst h
  obtain ⟨d, hd⟩ := targetOf_eq (resolve o s) (afterResolve o s)
  cases c
  · exact .cpu _ _ _ _ _ _ _ _ _ id
  · rw [if_pos rfl, hd]
    exact afterResolve_thenCpu o (.trans (.draws d) (.cpu _ _ _ _ _ _ _ _ _ id))

theorem jmpAt_frame {o : Operand} {s t : State} (h : jmpAt o s = .next t) : CpuFrame s t := by
  injection h with h
  subst h
  obtain ⟨d, hd⟩ := targetOf_eq (resolve o s) (afterResolve o s)
  rw [hd]
  exact afterResolve_thenCpu o (.trans (.draws d) (.cpu _ _ _ _ _ _ _ _ _ id))

theorem push_frame (v : Byte) (s : State) : CpuFrame s (push v s) := .cpu _ _ _ _ _ _ _ _ _ (push_wf v)

theorem jsrAt_frame {o : Operand} {s t : State} (h : jsrAt o s = .next t) : CpuFrame s t := by
  injection h with h
  subst h
  obtain ⟨d, hd⟩ := targetOf_eq (resolve o s) (afterResolve o s)
  rw [hd]
  refine afterResolve_thenCpu o (.trans (.draws d)
    (.trans (push_frame (hiByte (s.pc - 1)) _) (.trans (push_frame (loByte (s.pc - 1)) _) ?_)))
  exact .cpu _ _ _ _ _ _ _ _ _ id

/-- A mnemonic's rule at any operand stays within the frame, or is suspended. -/
theorem ruleAt_frame {m : Mnemonic} {o : Operand} {s t : State} (h : ruleAt m o s = .next t) :
    CpuFrame s t ∨ Suspended s t := by
  cases m
  case lda => exact reading_frame h fun _ _ => ⟨_, _, _, _, rfl⟩
  case ldx => exact reading_frame h fun _ _ => ⟨_, _, _, _, rfl⟩
  case ldy => exact reading_frame h fun _ _ => ⟨_, _, _, _, rfl⟩
  case adc => exact reading_frame h fun _ _ => ⟨_, _, _, _, rfl⟩
  case sbc => exact reading_frame h fun _ _ => ⟨_, _, _, _, rfl⟩
  case and => exact reading_frame h fun _ _ => ⟨_, _, _, _, rfl⟩
  case ora => exact reading_frame h fun _ _ => ⟨_, _, _, _, rfl⟩
  case eor => exact reading_frame h fun _ _ => ⟨_, _, _, _, rfl⟩
  case bit => exact reading_frame h fun _ _ => ⟨_, _, _, _, rfl⟩
  case cmp => exact reading_frame h fun _ _ => ⟨_, _, _, _, rfl⟩
  case cpx => exact reading_frame h fun _ _ => ⟨_, _, _, _, rfl⟩
  case cpy => exact reading_frame h fun _ _ => ⟨_, _, _, _, rfl⟩
  case sta => exact storing_frame h
  case stx => exact storing_frame h
  case sty => exact storing_frame h
  case inc => exact modifying_frame (show incWith o s = .next t from h)
  case dec => exact modifying_frame (show decWith o s = .next t from h)
  case asl => exact modifying_frame (show aslWith o s = .next t from h)
  case lsr => exact modifying_frame (show lsrWith o s = .next t from h)
  case rol => exact modifying_frame (show rolWith o s = .next t from h)
  case ror => exact modifying_frame (show rorWith o s = .next t from h)
  case bpl => exact .inl (branchAt_frame h)
  case bmi => exact .inl (branchAt_frame h)
  case bvc => exact .inl (branchAt_frame h)
  case bvs => exact .inl (branchAt_frame h)
  case bcc => exact .inl (branchAt_frame h)
  case bcs => exact .inl (branchAt_frame h)
  case bne => exact .inl (branchAt_frame h)
  case beq => exact .inl (branchAt_frame h)
  case jmp => exact .inl (jmpAt_frame h)
  case jsr => exact .inl (jsrAt_frame h)
  case pha =>
    injection h with h
    subst h
    exact .inl (afterResolve_thenCpu o (push_frame _ _))
  case php =>
    injection h with h
    subst h
    exact .inl (afterResolve_thenCpu o (push_frame _ _))
  case brk =>
    injection h with h
    subst h
    exact .inl (afterResolve_thenCpu o (brkEntry_frame _))
  all_goals
    injection h with h
    subst h
    exact .inl (.cpu _ _ _ _ _ _ _ _ _ id)

theorem WriteFrame.toCpu {a : Word} {v : Byte} {s t : State} :
    WriteFrame (writtenRam a v s.ram) (writtenCart s.params a v s.cart) s t → CpuFrame s t := by
  rintro ⟨_, _, _, _, _, _, _, _, h, rfl⟩
  exact ⟨_, _, _, _, _, _, _, _, _, _, _, _, _, _, _, _, _, _, h, writtenRam_wf, writtenCart_adds _ _ _ _, rfl⟩

/-! ## Handler programs -/

theorem store_cpu (r : Resolved) (v : Byte) (s : State) : (store r v s).All (CpuFrame s) :=
  (store_frame r v s).mono fun _ ht => by
    obtain ⟨u, ⟨_, _, _, _, _, _, _, _, hs, rfl⟩, rfl⟩ := ht
    exact ⟨_, _, _, _, _, _, _, _, _, _, _, _, _, _, _, _, _, _, hs, storedRam_wf _ _, storedCart_adds _ _ _ _, rfl⟩

theorem busWrite_cpu (a : Word) (v : Byte) (s : State) : (busWrite a v s).All (CpuFrame s) :=
  (busWrite_frame a v s).mono fun _ => WriteFrame.toCpu

theorem ReadFrame.toCpu {s t : State} (h : ReadFrame s t) : CpuFrame s t := h.thenCpu (.draws _)

theorem load_cpu (r : Resolved) (s : State) : (load r s).All (CpuFrame s) := by
  cases r with
  | addr a => exact (busRead_frame a s).mono fun _ => ReadFrame.toCpu
  | nothing => exact (drawRead_frame s).toCpu
  | acc => exact .draws _
  | value v => exact .draws _

theorem load_waits (r : Resolved) (s : State) : (load r s).WaitsInAsync s := by
  cases r with
  | addr a => exact busRead_waits a s
  | nothing => rfl
  | acc => rfl
  | value v => rfl

/-- A byte that a handler program carries as a word is that byte. -/
@[simp] theorem loByte_setWidth (v : Byte) : loByte (v.setWidth 16) = v := by
  ext i hi
  simp [loByte, hi]
  omega

/-- Setting a register of a handler program is within the frame. -/
theorem setReg_frame (r : HandlerReg) (w : Word) (s : State) : CpuFrame s (setReg r w s) := by
  cases r <;> exact .cpu _ _ _ _ _ _ _ _ _ id

theorem CpuFrame.params {s t : State} : CpuFrame s t → t.params = s.params := by
  rintro ⟨_, _, _, _, _, _, _, _, _, _, _, _, _, _, _, _, _, _, -, -, -, rfl⟩
  rfl

/-- An operation that completes is within the frame. -/
theorem runOp_frame (op : HandlerOp) (c : Paused) (s : State) : (runOp op c s).All (CpuFrame s) := by
  cases op with
  | set r e => exact setReg_frame _ _ _
  | jump e n => exact .draws _
  | address r =>
    obtain ⟨d, hd⟩ := targetOf_eq c.operand s
    exact CpuFrame.trans (hd ▸ CpuFrame.draws d) (setReg_frame _ _ _)
  | load r => exact (load_cpu _ s).bind (fun _ h => h) fun _ _ h => h.trans (setReg_frame _ _ _)
  | store e => exact (store_cpu _ _ s).bind (fun _ h => h) fun _ _ h => h
  | read r e =>
    exact (busRead_frame _ s).bind (fun _ h => h.toCpu) fun _ _ h => h.toCpu.trans (setReg_frame _ _ _)
  | write e v => exact (busWrite_cpu _ _ s).bind (fun _ h => h) fun _ _ h => h
  | push e => exact push_frame _ _
  | pull r => exact CpuFrame.trans (.cpu _ _ _ _ _ _ _ _ _ id) (setReg_frame _ _ _)

theorem setting_waits (c : Paused) (r : HandlerReg) (w : Word) (s : State) :
    (setting c r w s).WaitsInAsync s := (setReg_frame r w s).params

/-- An operation waits in `async` only. -/
theorem runOp_waits (op : HandlerOp) (c : Paused) (s : State) : (runOp op c s).WaitsInAsync s := by
  cases op with
  | load r => exact (load_waits _ s).bind fun _ _ _ => setting_waits _ _ _ _
  | store e => exact (store_waits _ _ s).bind fun _ _ _ => rfl
  | read r e => exact (busRead_waits _ s).bind fun _ _ _ => setting_waits _ _ _ _
  | write e v => exact (busWrite_waits _ _ s).bind fun _ _ _ => rfl
  | push e => rfl
  | jump e n => rfl
  | set r e => exact (runOp_frame (.set r e) c s).params
  | address r => exact (runOp_frame (.address r) c s).params
  | pull r => exact (runOp_frame (.pull r) c s).params

/-- What was fetched, suspended on a channel read, which happens in `async` only: what it did before that read stands. -/
def SuspendedAfter (s t : State) : Prop :=
  s.params.syncMode = .async ∧ ∃ u q feed draws paused, CpuFrame s u ∧
    t = suspend q { u with feed := feed, log := [], draws := draws, paused := paused }

theorem Suspended.after {s t : State} : Suspended s t → SuspendedAfter s t := fun ⟨hm, q, feed, draws, h⟩ =>
  ⟨hm, s, q, feed, draws, s.paused, .draws _, h⟩

/-- What comes after a frame, seen from before it. -/
theorem CpuFrame.thenEnds {s t u : State} (h : CpuFrame s t) :
    CpuFrame t u ∨ SuspendedAfter t u → CpuFrame s u ∨ SuspendedAfter s u
  | .inl k => .inl (h.trans k)
  | .inr ⟨hm, w, q, feed, draws, paused, k, hu⟩ =>
    .inr ⟨h.params ▸ hm, w, q, feed, draws, paused, h.trans k, hu⟩

theorem CpuFrame.noLog (s : State) : CpuFrame s { s with log := [] } :=
  ⟨_, _, _, _, _, _, _, _, _, _, _, _, _, _, _, _, _, _, .refl s, id, ⟨[], rfl⟩, rfl⟩

theorem afterResolve_frame (o : Operand) (s : State) : CpuFrame s (afterResolve o s) := afterResolve_thenCpu o (.draws _)

/-- A handler program stays within the frame, or is suspended. -/
theorem runProgram_frame {p : HandlerProgram} {n : Nat} {c : Paused} {s t : State}
    (h : runProgram p n c s = .next t) : CpuFrame s t ∨ SuspendedAfter s t := by
  induction n generalizing c s with
  | zero =>
    injection h with h
    exact .inl (h ▸ .draws _)
  | succ n ih =>
    rw [runProgram] at h
    split at h
    · injection h with h
      exact .inl (h ▸ .draws _)
    · rename_i op _
      have hf := runOp_frame op c { s with log := [] }
      have hw := runOp_waits op c { s with log := [] }
      split at h
      · rename_i g u hu
        rw [hu] at hf
        exact ((CpuFrame.noLog s).trans hf).thenEnds (ih h)
      · rename_i q u hu
        rw [hu] at hw
        injection h with h
        exact .inr ⟨hw, s, q, u.log, u.draws, some c, .draws _, h.symm⟩

/-- An operation that completes leaves the rest of the program to run. -/
theorem runProgram_done {p : HandlerProgram} {n : Nat} {c : Paused} {s t : State} {op : HandlerOp} {g : Progress}
    (ho : p.ops[c.next]? = some op) (h : runOp op c { s with log := [] } = .done g t) :
    runProgram p (n + 1) c s = runProgram p n { c with next := g.next, temps := g.temps } t := by
  simp only [runProgram, ho, h]

/-- An operation that waits suspends the program at it. -/
theorem runProgram_wait {p : HandlerProgram} {n : Nat} {c : Paused} {s t : State} {op : HandlerOp} {q : ReadRequest}
    (ho : p.ops[c.next]? = some op) (h : runOp op c { s with log := [] } = .wait q t) :
    runProgram p (n + 1) c s =
      .next (suspend q { s with feed := t.log, log := [], draws := t.draws, paused := some c }) := by
  simp only [runProgram, ho, h]

theorem runProgram_total (p : HandlerProgram) (n : Nat) (c : Paused) (s : State) : ∃ t, runProgram p n c s = .next t := by
  induction n generalizing c s with
  | zero => exact ⟨_, rfl⟩
  | succ n ih =>
    rw [runProgram]
    split
    · exact ⟨_, rfl⟩
    · split
      · exact ih _ _
      · exact ⟨_, rfl⟩

/-! ## Handlers -/

/-- Every handler at every operand stays within the frame, or is suspended. -/
theorem handlerAt_frame {hd : Handler} {o : Operand} {s t : State} (h : handlerAt hd o s = .next t) :
    CpuFrame s t ∨ SuspendedAfter s t := by
  cases hd with
  | rule m => exact (ruleAt_frame h).imp_right Suspended.after
  | program p => exact (afterResolve_frame o s).thenEnds (runProgram_frame h)

theorem handlerFrom_direct {h : Handler} {o : Operand} {s : State} (hne : ∀ ptr, o ≠ .indirect ptr) :
    handlerFrom h o s = handlerAt h o s := by
  cases o
  case indirect ptr => exact absurd rfl (hne ptr)
  all_goals rfl

theorem handlerWith_start {p : HandlerProgram} {o : Operand} {s : State} (h : s.paused = none) :
    handlerWith (.program p) o s = handlerFrom (.program p) o s := by
  simp only [handlerWith, h]

theorem handlerWith_paused {p : HandlerProgram} {o : Operand} {s : State} {c : Paused} (h : s.paused = some c) :
    handlerWith (.program p) o s = runProgram p p.limit c s := by
  simp only [handlerWith, h, continueProgram]

/-- Every handler from its start, the indirect mode too, stays within the frame, or is suspended. -/
theorem handlerFrom_frame {hd : Handler} {o : Operand} {s t : State} (h : handlerFrom hd o s = .next t) :
    CpuFrame s t ∨ SuspendedAfter s t := by
  unfold handlerFrom at h
  split at h
  · rename_i ptr
    have hf := indirectAddress_frame ptr s
    have hw := indirectAddress_waits ptr s
    cases hr : indirectAddress ptr s with
    | wait q u =>
      rw [hr] at h hw
      injection h with h
      exact .inr (Suspended.after ⟨hw, q, u.log, u.draws, h.symm⟩)
    | done a u =>
      rw [hr] at h hf
      exact hf.toCpu.thenEnds (handlerAt_frame h)
  · exact handlerAt_frame h

/-- Every handler at every operand, from its start or going on, stays within the frame, or is suspended. -/
theorem handlerWith_frame {hd : Handler} {o : Operand} {s t : State} (h : handlerWith hd o s = .next t) :
    CpuFrame s t ∨ SuspendedAfter s t := by
  cases hd with
  | rule m => exact handlerFrom_frame h
  | program p =>
    unfold handlerWith at h
    dsimp only at h
    split at h
    · exact handlerFrom_frame h
    · exact runProgram_frame h

/-- A mnemonic's rule at any operand, the indirect mode too, stays within the frame, or is suspended where it began. -/
theorem ruleWith_frame {m : Mnemonic} {o : Operand} {s t : State} (h : handlerWith (.rule m) o s = .next t) :
    CpuFrame s t ∨ Suspended s t := by
  change handlerFrom (.rule m) o s = .next t at h
  unfold handlerFrom at h
  split at h
  · rename_i ptr
    have hf := indirectAddress_frame ptr s
    have hw := indirectAddress_waits ptr s
    have ha := fun hm => indirectAddress_async_frame ptr (s := s) hm
    cases hr : indirectAddress ptr s with
    | wait q u =>
      rw [hr] at h hw
      injection h with h
      exact .inr ⟨hw, q, u.log, u.draws, h.symm⟩
    | done a u =>
      rw [hr] at h hf ha
      rcases ruleAt_frame h with k | ⟨hm, q, feed, draws, rfl⟩
      · exact .inl (hf.thenCpu k)
      · rw [hf.toCpu.params] at hm
        obtain ⟨_, _, _, rfl⟩ := ha hm
        exact .inr ⟨hm, q, feed, draws, rfl⟩
  · exact ruleAt_frame h

theorem ruleAt_total (m : Mnemonic) (o : Operand) (s : State) : ∃ t, ruleAt m o s = .next t := by
  cases m <;> first | exact complete_total _ _ | exact ⟨_, rfl⟩

theorem handlerAt_total (h : Handler) (o : Operand) (s : State) : ∃ t, handlerAt h o s = .next t := by
  cases h with
  | rule m => exact ruleAt_total m o s
  | program p => exact runProgram_total _ _ _ _

theorem handlerFrom_total (h : Handler) (o : Operand) (s : State) : ∃ t, handlerFrom h o s = .next t := by
  unfold handlerFrom
  split
  · split
    · exact handlerAt_total _ _ _
    · exact complete_total _ _
  · exact handlerAt_total _ _ _

/-- Every handler at every operand answers a next state. -/
theorem handlerWith_total (h : Handler) (o : Operand) (s : State) : ∃ t, handlerWith h o s = .next t := by
  cases h with
  | rule m => exact handlerFrom_total _ _ _
  | program p =>
    unfold handlerWith
    dsimp only
    split
    · exact handlerFrom_total _ _ _
    · exact runProgram_total _ _ _ _

/-! ## Instructions -/

/-- An instruction is its mnemonic's rule at its operand. -/
theorem exec_eq_handler (i : Instr) (s : State) : exec i s = handlerWith (.rule i.mnemonic) i.operand s := by
  cases i
  case jmpInd a =>
    show complete s ((indirectAddress a s).bind fun w u => .done () { u with pc := w }) =
      handlerWith (.rule .jmp) (.indirect a) s
    unfold handlerWith handlerFrom
    dsimp only
    cases indirectAddress a s <;> rfl
  all_goals rfl

/-- Every next state of every instruction is within the frame, or is the suspended instruction. -/
theorem exec_frame {i : Instr} {s t : State} (h : exec i s = .next t) : CpuFrame s t ∨ Suspended s t :=
  ruleWith_frame (exec_eq_handler i s ▸ h)

/-- Every instruction answers a next state. -/
theorem exec_total (i : Instr) (s : State) : ∃ t, exec i s = .next t :=
  exec_eq_handler i s ▸ handlerWith_total _ _ s

/-- What was fetched stays within the frame, or is suspended. -/
theorem execFetched_frame {f : Fetched} {s t : State} (h : execFetched f s = .next t) :
    CpuFrame s t ∨ SuspendedAfter s t := by
  cases f with
  | instr i => exact (exec_frame h).imp_right Suspended.after
  | form hd o => exact handlerWith_frame h

theorem execFetched_total (f : Fetched) (s : State) : ∃ t, execFetched f s = .next t := by
  cases f with
  | instr i => exact exec_total i s
  | form h o => exact handlerWith_total h o s

end Sys2Proof.Machine
end

