-- ==== Sys2Proof/Laws/PerInstr.lean ====
section
/-! SUPPORT. Statements made per instruction: the family Parts says that an instruction is the one its mnemonic and its
operand make, and that its operand is read back from its bytes. -/

namespace Sys2Proof.Laws

/-- An instruction is rebuilt from its parts, and its operand from its bytes, whatever follows. -/
def Parts.Statement (i : Instr) : Prop :=
  Instr.ofParts i.mnemonic i.operand = some i ∧
    ∀ rest, Operand.read i.mode (i.operand.bytes ++ rest) = some (i.operand, rest)

/-- A word is put together from its two bytes. -/
theorem wordOf_lo_hi (w : Word) : wordOf (loByte w) (hiByte w) = w := by
  simp only [wordOf, loByte, hiByte]
  apply BitVec.eq_of_getLsbD_eq
  intro k hk
  rw [BitVec.getLsbD_append]
  by_cases h : k < 8
  · simp [h]
  · have h2 : k - 8 < 8 := by omega
    have h3 : 8 + (k - 8) = k := by omega
    simp [h, h2, h3]

theorem wordOf_toNat (lo hi : Byte) : (wordOf lo hi).toNat = lo.toNat + 256 * hi.toNat := by
  rw [wordOf, BitVec.toNat_append, ← Nat.shiftLeft_add_eq_or_of_lt lo.isLt, Nat.shiftLeft_eq]
  omega

theorem loByte_wordOf (lo hi : Byte) : loByte (wordOf lo hi) = lo := by
  apply BitVec.eq_of_getLsbD_eq
  intro k hk
  simp only [wordOf, loByte, BitVec.getLsbD_extractLsb']
  rw [BitVec.getLsbD_append]
  simp [hk]

theorem hiByte_wordOf (lo hi : Byte) : hiByte (wordOf lo hi) = hi := by
  apply BitVec.eq_of_getLsbD_eq
  intro k hk
  simp only [wordOf, hiByte, BitVec.getLsbD_extractLsb']
  rw [BitVec.getLsbD_append]
  simp [hk]

/-- The operand of a mode is read back from its bytes, whatever follows. -/
theorem operand_read_bytes (o : Operand) (rest : List Byte) :
    Operand.read o.mode (o.bytes ++ rest) = some (o, rest) := by
  cases o <;> simp [Operand.mode, Operand.bytes, Operand.read, wordOf_lo_hi]

/-- What an operand is read from is its mode and its bytes. -/
theorem bytes_of_read {md : Mode} {bs rest : List Byte} {o : Operand} (h : Operand.read md bs = some (o, rest)) :
    o.mode = md ∧ bs = o.bytes ++ rest := by
  unfold Operand.read at h
  split at h <;> cases h <;> simp [Operand.mode, Operand.bytes, loByte_wordOf, hiByte_wordOf]

/-- An instruction made of a mnemonic and an operand has them. -/
theorem parts_of_ofParts {m : Mnemonic} {o : Operand} {i : Instr} (h : Instr.ofParts m o = some i) :
    i.mnemonic = m ∧ i.operand = o := by
  cases m <;> cases o <;> (cases h <;> exact ⟨rfl, rfl⟩)

/-- Every instruction is made of its mnemonic and its operand. -/
theorem ofParts_parts (i : Instr) : Instr.ofParts i.mnemonic i.operand = some i := by
  cases i <;> rfl

/-- In a table without a repeated byte, a row is the descriptor of its byte. -/
theorem descriptor_of_mem {t : OpcodeTable} {r : OpcodeRow} (hn : (t.map (·.opcode)).Nodup) (h : r ∈ t) :
    t.descriptor r.opcode = some r := by
  unfold OpcodeTable.descriptor
  induction t with
  | nil => exact nomatch h
  | cons c t ih =>
    simp only [List.map_cons, List.nodup_cons] at hn
    rcases List.mem_cons.1 h with rfl | h
    · simp [List.find?]
    · have : c.opcode ≠ r.opcode := fun e => hn.1 (e ▸ List.mem_map_of_mem h)
      simp only [List.find?]
      rw [show (c.opcode == r.opcode) = false by simp [this]]
      exact ih hn.2 h

theorem Parts.ldaImm (v : Byte) : Parts.Statement (.ldaImm v) := ⟨rfl, operand_read_bytes _⟩
theorem Parts.ldaZp (z : Byte) : Parts.Statement (.ldaZp z) := ⟨rfl, operand_read_bytes _⟩
theorem Parts.ldaZpX (z : Byte) : Parts.Statement (.ldaZpX z) := ⟨rfl, operand_read_bytes _⟩
theorem Parts.ldaAbs (a : Word) : Parts.Statement (.ldaAbs a) := ⟨rfl, operand_read_bytes _⟩
theorem Parts.ldaAbsX (a : Word) : Parts.Statement (.ldaAbsX a) := ⟨rfl, operand_read_bytes _⟩
theorem Parts.ldaAbsY (a : Word) : Parts.Statement (.ldaAbsY a) := ⟨rfl, operand_read_bytes _⟩
theorem Parts.ldaIndX (z : Byte) : Parts.Statement (.ldaIndX z) := ⟨rfl, operand_read_bytes _⟩
theorem Parts.ldaIndY (z : Byte) : Parts.Statement (.ldaIndY z) := ⟨rfl, operand_read_bytes _⟩
theorem Parts.ldxImm (v : Byte) : Parts.Statement (.ldxImm v) := ⟨rfl, operand_read_bytes _⟩
theorem Parts.ldxZp (z : Byte) : Parts.Statement (.ldxZp z) := ⟨rfl, operand_read_bytes _⟩
theorem Parts.ldxZpY (z : Byte) : Parts.Statement (.ldxZpY z) := ⟨rfl, operand_read_bytes _⟩
theorem Parts.ldxAbs (a : Word) : Parts.Statement (.ldxAbs a) := ⟨rfl, operand_read_bytes _⟩
theorem Parts.ldxAbsY (a : Word) : Parts.Statement (.ldxAbsY a) := ⟨rfl, operand_read_bytes _⟩
theorem Parts.ldyImm (v : Byte) : Parts.Statement (.ldyImm v) := ⟨rfl, operand_read_bytes _⟩
theorem Parts.ldyZp (z : Byte) : Parts.Statement (.ldyZp z) := ⟨rfl, operand_read_bytes _⟩
theorem Parts.ldyZpX (z : Byte) : Parts.Statement (.ldyZpX z) := ⟨rfl, operand_read_bytes _⟩
theorem Parts.ldyAbs (a : Word) : Parts.Statement (.ldyAbs a) := ⟨rfl, operand_read_bytes _⟩
theorem Parts.ldyAbsX (a : Word) : Parts.Statement (.ldyAbsX a) := ⟨rfl, operand_read_bytes _⟩
theorem Parts.staZp (z : Byte) : Parts.Statement (.staZp z) := ⟨rfl, operand_read_bytes _⟩
theorem Parts.staZpX (z : Byte) : Parts.Statement (.staZpX z) := ⟨rfl, operand_read_bytes _⟩
theorem Parts.staAbs (a : Word) : Parts.Statement (.staAbs a) := ⟨rfl, operand_read_bytes _⟩
theorem Parts.staAbsX (a : Word) : Parts.Statement (.staAbsX a) := ⟨rfl, operand_read_bytes _⟩
theorem Parts.staAbsY (a : Word) : Parts.Statement (.staAbsY a) := ⟨rfl, operand_read_bytes _⟩
theorem Parts.staIndX (z : Byte) : Parts.Statement (.staIndX z) := ⟨rfl, operand_read_bytes _⟩
theorem Parts.staIndY (z : Byte) : Parts.Statement (.staIndY z) := ⟨rfl, operand_read_bytes _⟩
theorem Parts.stxZp (z : Byte) : Parts.Statement (.stxZp z) := ⟨rfl, operand_read_bytes _⟩
theorem Parts.stxZpY (z : Byte) : Parts.Statement (.stxZpY z) := ⟨rfl, operand_read_bytes _⟩
theorem Parts.stxAbs (a : Word) : Parts.Statement (.stxAbs a) := ⟨rfl, operand_read_bytes _⟩
theorem Parts.styZp (z : Byte) : Parts.Statement (.styZp z) := ⟨rfl, operand_read_bytes _⟩
theorem Parts.styZpX (z : Byte) : Parts.Statement (.styZpX z) := ⟨rfl, operand_read_bytes _⟩
theorem Parts.styAbs (a : Word) : Parts.Statement (.styAbs a) := ⟨rfl, operand_read_bytes _⟩
theorem Parts.tax : Parts.Statement .tax := ⟨rfl, operand_read_bytes _⟩
theorem Parts.tay : Parts.Statement .tay := ⟨rfl, operand_read_bytes _⟩
theorem Parts.txa : Parts.Statement .txa := ⟨rfl, operand_read_bytes _⟩
theorem Parts.tya : Parts.Statement .tya := ⟨rfl, operand_read_bytes _⟩
theorem Parts.tsx : Parts.Statement .tsx := ⟨rfl, operand_read_bytes _⟩
theorem Parts.txs : Parts.Statement .txs := ⟨rfl, operand_read_bytes _⟩
theorem Parts.pha : Parts.Statement .pha := ⟨rfl, operand_read_bytes _⟩
theorem Parts.pla : Parts.Statement .pla := ⟨rfl, operand_read_bytes _⟩
theorem Parts.php : Parts.Statement .php := ⟨rfl, operand_read_bytes _⟩
theorem Parts.plp : Parts.Statement .plp := ⟨rfl, operand_read_bytes _⟩
theorem Parts.adcImm (v : Byte) : Parts.Statement (.adcImm v) := ⟨rfl, operand_read_bytes _⟩
theorem Parts.adcZp (z : Byte) : Parts.Statement (.adcZp z) := ⟨rfl, operand_read_bytes _⟩
theorem Parts.adcZpX (z : Byte) : Parts.Statement (.adcZpX z) := ⟨rfl, operand_read_bytes _⟩
theorem Parts.adcAbs (a : Word) : Parts.Statement (.adcAbs a) := ⟨rfl, operand_read_bytes _⟩
theorem Parts.adcAbsX (a : Word) : Parts.Statement (.adcAbsX a) := ⟨rfl, operand_read_bytes _⟩
theorem Parts.adcAbsY (a : Word) : Parts.Statement (.adcAbsY a) := ⟨rfl, operand_read_bytes _⟩
theorem Parts.adcIndX (z : Byte) : Parts.Statement (.adcIndX z) := ⟨rfl, operand_read_bytes _⟩
theorem Parts.adcIndY (z : Byte) : Parts.Statement (.adcIndY z) := ⟨rfl, operand_read_bytes _⟩
theorem Parts.sbcImm (v : Byte) : Parts.Statement (.sbcImm v) := ⟨rfl, operand_read_bytes _⟩
theorem Parts.sbcZp (z : Byte) : Parts.Statement (.sbcZp z) := ⟨rfl, operand_read_bytes _⟩
theorem Parts.sbcZpX (z : Byte) : Parts.Statement (.sbcZpX z) := ⟨rfl, operand_read_bytes _⟩
theorem Parts.sbcAbs (a : Word) : Parts.Statement (.sbcAbs a) := ⟨rfl, operand_read_bytes _⟩
theorem Parts.sbcAbsX (a : Word) : Parts.Statement (.sbcAbsX a) := ⟨rfl, operand_read_bytes _⟩
theorem Parts.sbcAbsY (a : Word) : Parts.Statement (.sbcAbsY a) := ⟨rfl, operand_read_bytes _⟩
theorem Parts.sbcIndX (z : Byte) : Parts.Statement (.sbcIndX z) := ⟨rfl, operand_read_bytes _⟩
theorem Parts.sbcIndY (z : Byte) : Parts.Statement (.sbcIndY z) := ⟨rfl, operand_read_bytes _⟩
theorem Parts.andImm (v : Byte) : Parts.Statement (.andImm v) := ⟨rfl, operand_read_bytes _⟩
theorem Parts.andZp (z : Byte) : Parts.Statement (.andZp z) := ⟨rfl, operand_read_bytes _⟩
theorem Parts.andZpX (z : Byte) : Parts.Statement (.andZpX z) := ⟨rfl, operand_read_bytes _⟩
theorem Parts.andAbs (a : Word) : Parts.Statement (.andAbs a) := ⟨rfl, operand_read_bytes _⟩
theorem Parts.andAbsX (a : Word) : Parts.Statement (.andAbsX a) := ⟨rfl, operand_read_bytes _⟩
theorem Parts.andAbsY (a : Word) : Parts.Statement (.andAbsY a) := ⟨rfl, operand_read_bytes _⟩
theorem Parts.andIndX (z : Byte) : Parts.Statement (.andIndX z) := ⟨rfl, operand_read_bytes _⟩
theorem Parts.andIndY (z : Byte) : Parts.Statement (.andIndY z) := ⟨rfl, operand_read_bytes _⟩
theorem Parts.oraImm (v : Byte) : Parts.Statement (.oraImm v) := ⟨rfl, operand_read_bytes _⟩
theorem Parts.oraZp (z : Byte) : Parts.Statement (.oraZp z) := ⟨rfl, operand_read_bytes _⟩
theorem Parts.oraZpX (z : Byte) : Parts.Statement (.oraZpX z) := ⟨rfl, operand_read_bytes _⟩
theorem Parts.oraAbs (a : Word) : Parts.Statement (.oraAbs a) := ⟨rfl, operand_read_bytes _⟩
theorem Parts.oraAbsX (a : Word) : Parts.Statement (.oraAbsX a) := ⟨rfl, operand_read_bytes _⟩
theorem Parts.oraAbsY (a : Word) : Parts.Statement (.oraAbsY a) := ⟨rfl, operand_read_bytes _⟩
theorem Parts.oraIndX (z : Byte) : Parts.Statement (.oraIndX z) := ⟨rfl, operand_read_bytes _⟩
theorem Parts.oraIndY (z : Byte) : Parts.Statement (.oraIndY z) := ⟨rfl, operand_read_bytes _⟩
theorem Parts.eorImm (v : Byte) : Parts.Statement (.eorImm v) := ⟨rfl, operand_read_bytes _⟩
theorem Parts.eorZp (z : Byte) : Parts.Statement (.eorZp z) := ⟨rfl, operand_read_bytes _⟩
theorem Parts.eorZpX (z : Byte) : Parts.Statement (.eorZpX z) := ⟨rfl, operand_read_bytes _⟩
theorem Parts.eorAbs (a : Word) : Parts.Statement (.eorAbs a) := ⟨rfl, operand_read_bytes _⟩
theorem Parts.eorAbsX (a : Word) : Parts.Statement (.eorAbsX a) := ⟨rfl, operand_read_bytes _⟩
theorem Parts.eorAbsY (a : Word) : Parts.Statement (.eorAbsY a) := ⟨rfl, operand_read_bytes _⟩
theorem Parts.eorIndX (z : Byte) : Parts.Statement (.eorIndX z) := ⟨rfl, operand_read_bytes _⟩
theorem Parts.eorIndY (z : Byte) : Parts.Statement (.eorIndY z) := ⟨rfl, operand_read_bytes _⟩
theorem Parts.bitZp (z : Byte) : Parts.Statement (.bitZp z) := ⟨rfl, operand_read_bytes _⟩
theorem Parts.bitAbs (a : Word) : Parts.Statement (.bitAbs a) := ⟨rfl, operand_read_bytes _⟩
theorem Parts.cmpImm (v : Byte) : Parts.Statement (.cmpImm v) := ⟨rfl, operand_read_bytes _⟩
theorem Parts.cmpZp (z : Byte) : Parts.Statement (.cmpZp z) := ⟨rfl, operand_read_bytes _⟩
theorem Parts.cmpZpX (z : Byte) : Parts.Statement (.cmpZpX z) := ⟨rfl, operand_read_bytes _⟩
theorem Parts.cmpAbs (a : Word) : Parts.Statement (.cmpAbs a) := ⟨rfl, operand_read_bytes _⟩
theorem Parts.cmpAbsX (a : Word) : Parts.Statement (.cmpAbsX a) := ⟨rfl, operand_read_bytes _⟩
theorem Parts.cmpAbsY (a : Word) : Parts.Statement (.cmpAbsY a) := ⟨rfl, operand_read_bytes _⟩
theorem Parts.cmpIndX (z : Byte) : Parts.Statement (.cmpIndX z) := ⟨rfl, operand_read_bytes _⟩
theorem Parts.cmpIndY (z : Byte) : Parts.Statement (.cmpIndY z) := ⟨rfl, operand_read_bytes _⟩
theorem Parts.cpxImm (v : Byte) : Parts.Statement (.cpxImm v) := ⟨rfl, operand_read_bytes _⟩
theorem Parts.cpxZp (z : Byte) : Parts.Statement (.cpxZp z) := ⟨rfl, operand_read_bytes _⟩
theorem Parts.cpxAbs (a : Word) : Parts.Statement (.cpxAbs a) := ⟨rfl, operand_read_bytes _⟩
theorem Parts.cpyImm (v : Byte) : Parts.Statement (.cpyImm v) := ⟨rfl, operand_read_bytes _⟩
theorem Parts.cpyZp (z : Byte) : Parts.Statement (.cpyZp z) := ⟨rfl, operand_read_bytes _⟩
theorem Parts.cpyAbs (a : Word) : Parts.Statement (.cpyAbs a) := ⟨rfl, operand_read_bytes _⟩
theorem Parts.incZp (z : Byte) : Parts.Statement (.incZp z) := ⟨rfl, operand_read_bytes _⟩
theorem Parts.incZpX (z : Byte) : Parts.Statement (.incZpX z) := ⟨rfl, operand_read_bytes _⟩
theorem Parts.incAbs (a : Word) : Parts.Statement (.incAbs a) := ⟨rfl, operand_read_bytes _⟩
theorem Parts.incAbsX (a : Word) : Parts.Statement (.incAbsX a) := ⟨rfl, operand_read_bytes _⟩
theorem Parts.decZp (z : Byte) : Parts.Statement (.decZp z) := ⟨rfl, operand_read_bytes _⟩
theorem Parts.decZpX (z : Byte) : Parts.Statement (.decZpX z) := ⟨rfl, operand_read_bytes _⟩
theorem Parts.decAbs (a : Word) : Parts.Statement (.decAbs a) := ⟨rfl, operand_read_bytes _⟩
theorem Parts.decAbsX (a : Word) : Parts.Statement (.decAbsX a) := ⟨rfl, operand_read_bytes _⟩
theorem Parts.inx : Parts.Statement .inx := ⟨rfl, operand_read_bytes _⟩
theorem Parts.iny : Parts.Statement .iny := ⟨rfl, operand_read_bytes _⟩
theorem Parts.dex : Parts.Statement .dex := ⟨rfl, operand_read_bytes _⟩
theorem Parts.dey : Parts.Statement .dey := ⟨rfl, operand_read_bytes _⟩
theorem Parts.aslAcc : Parts.Statement .aslAcc := ⟨rfl, operand_read_bytes _⟩
theorem Parts.aslZp (z : Byte) : Parts.Statement (.aslZp z) := ⟨rfl, operand_read_bytes _⟩
theorem Parts.aslZpX (z : Byte) : Parts.Statement (.aslZpX z) := ⟨rfl, operand_read_bytes _⟩
theorem Parts.aslAbs (a : Word) : Parts.Statement (.aslAbs a) := ⟨rfl, operand_read_bytes _⟩
theorem Parts.aslAbsX (a : Word) : Parts.Statement (.aslAbsX a) := ⟨rfl, operand_read_bytes _⟩
theorem Parts.lsrAcc : Parts.Statement .lsrAcc := ⟨rfl, operand_read_bytes _⟩
theorem Parts.lsrZp (z : Byte) : Parts.Statement (.lsrZp z) := ⟨rfl, operand_read_bytes _⟩
theorem Parts.lsrZpX (z : Byte) : Parts.Statement (.lsrZpX z) := ⟨rfl, operand_read_bytes _⟩
theorem Parts.lsrAbs (a : Word) : Parts.Statement (.lsrAbs a) := ⟨rfl, operand_read_bytes _⟩
theorem Parts.lsrAbsX (a : Word) : Parts.Statement (.lsrAbsX a) := ⟨rfl, operand_read_bytes _⟩
theorem Parts.rolAcc : Parts.Statement .rolAcc := ⟨rfl, operand_read_bytes _⟩
theorem Parts.rolZp (z : Byte) : Parts.Statement (.rolZp z) := ⟨rfl, operand_read_bytes _⟩
theorem Parts.rolZpX (z : Byte) : Parts.Statement (.rolZpX z) := ⟨rfl, operand_read_bytes _⟩
theorem Parts.rolAbs (a : Word) : Parts.Statement (.rolAbs a) := ⟨rfl, operand_read_bytes _⟩
theorem Parts.rolAbsX (a : Word) : Parts.Statement (.rolAbsX a) := ⟨rfl, operand_read_bytes _⟩
theorem Parts.rorAcc : Parts.Statement .rorAcc := ⟨rfl, operand_read_bytes _⟩
theorem Parts.rorZp (z : Byte) : Parts.Statement (.rorZp z) := ⟨rfl, operand_read_bytes _⟩
theorem Parts.rorZpX (z : Byte) : Parts.Statement (.rorZpX z) := ⟨rfl, operand_read_bytes _⟩
theorem Parts.rorAbs (a : Word) : Parts.Statement (.rorAbs a) := ⟨rfl, operand_read_bytes _⟩
theorem Parts.rorAbsX (a : Word) : Parts.Statement (.rorAbsX a) := ⟨rfl, operand_read_bytes _⟩
theorem Parts.bpl (o : Byte) : Parts.Statement (.bpl o) := ⟨rfl, operand_read_bytes _⟩
theorem Parts.bmi (o : Byte) : Parts.Statement (.bmi o) := ⟨rfl, operand_read_bytes _⟩
theorem Parts.bvc (o : Byte) : Parts.Statement (.bvc o) := ⟨rfl, operand_read_bytes _⟩
theorem Parts.bvs (o : Byte) : Parts.Statement (.bvs o) := ⟨rfl, operand_read_bytes _⟩
theorem Parts.bcc (o : Byte) : Parts.Statement (.bcc o) := ⟨rfl, operand_read_bytes _⟩
theorem Parts.bcs (o : Byte) : Parts.Statement (.bcs o) := ⟨rfl, operand_read_bytes _⟩
theorem Parts.bne (o : Byte) : Parts.Statement (.bne o) := ⟨rfl, operand_read_bytes _⟩
theorem Parts.beq (o : Byte) : Parts.Statement (.beq o) := ⟨rfl, operand_read_bytes _⟩
theorem Parts.jmpAbs (a : Word) : Parts.Statement (.jmpAbs a) := ⟨rfl, operand_read_bytes _⟩
theorem Parts.jmpInd (a : Word) : Parts.Statement (.jmpInd a) := ⟨rfl, operand_read_bytes _⟩
theorem Parts.jsr (a : Word) : Parts.Statement (.jsr a) := ⟨rfl, operand_read_bytes _⟩
theorem Parts.rts : Parts.Statement .rts := ⟨rfl, operand_read_bytes _⟩
theorem Parts.rti : Parts.Statement .rti := ⟨rfl, operand_read_bytes _⟩
theorem Parts.brk : Parts.Statement .brk := ⟨rfl, operand_read_bytes _⟩
theorem Parts.clc : Parts.Statement .clc := ⟨rfl, operand_read_bytes _⟩
theorem Parts.sec : Parts.Statement .sec := ⟨rfl, operand_read_bytes _⟩
theorem Parts.cli : Parts.Statement .cli := ⟨rfl, operand_read_bytes _⟩
theorem Parts.sei : Parts.Statement .sei := ⟨rfl, operand_read_bytes _⟩
theorem Parts.clv : Parts.Statement .clv := ⟨rfl, operand_read_bytes _⟩
theorem Parts.cld : Parts.Statement .cld := ⟨rfl, operand_read_bytes _⟩
theorem Parts.sed : Parts.Statement .sed := ⟨rfl, operand_read_bytes _⟩
theorem Parts.nop : Parts.Statement .nop := ⟨rfl, operand_read_bytes _⟩

end Sys2Proof.Laws
end

