-- ==== Sys2Proof/Laws/Step.lean ====
section
/-! SUPPORT. The step and the CPU's turn: what choosing a move changes, one lemma per entry of the boundary step, the fetch
of an instruction whose bytes lie in RAM or cartridge, and that every turn answers a next state. -/

namespace Sys2Proof.Machine

/-! ## Choosing the move -/

/-- Choosing a move changes the model's own script and counter only. -/
theorem moveTaken_eq (s : State) : ∃ script moves, moveTaken s = { s with script := script, moves := moves } := ⟨_, _, rfl⟩

@[simp] theorem moveTaken_a (s : State) : (moveTaken s).a = s.a := rfl
@[simp] theorem moveTaken_x (s : State) : (moveTaken s).x = s.x := rfl
@[simp] theorem moveTaken_y (s : State) : (moveTaken s).y = s.y := rfl
@[simp] theorem moveTaken_sp (s : State) : (moveTaken s).sp = s.sp := rfl
@[simp] theorem moveTaken_pc (s : State) : (moveTaken s).pc = s.pc := rfl
@[simp] theorem moveTaken_p (s : State) : (moveTaken s).p = s.p := rfl
@[simp] theorem moveTaken_pageCrossed (s : State) : (moveTaken s).pageCrossed = s.pageCrossed := rfl
@[simp] theorem moveTaken_branchTaken (s : State) : (moveTaken s).branchTaken = s.branchTaken := rfl
@[simp] theorem moveTaken_extra (s : State) : (moveTaken s).extra = s.extra := rfl
@[simp] theorem moveTaken_cycles (s : State) : (moveTaken s).cycles = s.cycles := rfl
@[simp] theorem moveTaken_run (s : State) : (moveTaken s).run = s.run := rfl
@[simp] theorem moveTaken_work (s : State) : (moveTaken s).work = s.work := rfl
@[simp] theorem moveTaken_feed (s : State) : (moveTaken s).feed = s.feed := rfl
@[simp] theorem moveTaken_log (s : State) : (moveTaken s).log = s.log := rfl
@[simp] theorem moveTaken_paused (s : State) : (moveTaken s).paused = s.paused := rfl
@[simp] theorem moveTaken_stuck (s : State) : (moveTaken s).stuck = s.stuck := rfl
@[simp] theorem moveTaken_resetRequest (s : State) : (moveTaken s).resetRequest = s.resetRequest := rfl
@[simp] theorem moveTaken_irqLine (s : State) : (moveTaken s).irqLine = s.irqLine := rfl
@[simp] theorem moveTaken_ram (s : State) : (moveTaken s).ram = s.ram := rfl
@[simp] theorem moveTaken_cart (s : State) : (moveTaken s).cart = s.cart := rfl
@[simp] theorem moveTaken_ppuChan (s : State) : (moveTaken s).ppuChan = s.ppuChan := rfl
@[simp] theorem moveTaken_apuChan (s : State) : (moveTaken s).apuChan = s.apuChan := rfl
@[simp] theorem moveTaken_vblankStart (s : State) : (moveTaken s).vblankStart = s.vblankStart := rfl
@[simp] theorem moveTaken_vblankEnd (s : State) : (moveTaken s).vblankEnd = s.vblankEnd := rfl
@[simp] theorem moveTaken_frameEnd (s : State) : (moveTaken s).frameEnd = s.frameEnd := rfl
@[simp] theorem moveTaken_alivePpu (s : State) : (moveTaken s).alivePpu = s.alivePpu := rfl
@[simp] theorem moveTaken_aliveApu (s : State) : (moveTaken s).aliveApu = s.aliveApu := rfl
@[simp] theorem moveTaken_shutdown (s : State) : (moveTaken s).shutdown = s.shutdown := rfl
@[simp] theorem moveTaken_ppu (s : State) : (moveTaken s).ppu = s.ppu := rfl
@[simp] theorem moveTaken_apuLatch (s : State) : (moveTaken s).apuLatch = s.apuLatch := rfl
@[simp] theorem moveTaken_framesOut (s : State) : (moveTaken s).framesOut = s.framesOut := rfl
@[simp] theorem moveTaken_frameEndsSeen (s : State) : (moveTaken s).frameEndsSeen = s.frameEndsSeen := rfl
@[simp] theorem moveTaken_trace (s : State) : (moveTaken s).trace = s.trace := rfl
@[simp] theorem moveTaken_params (s : State) : (moveTaken s).params = s.params := rfl
@[simp] theorem moveTaken_draws (s : State) : (moveTaken s).draws = s.draws := rfl

@[simp] theorem moveTaken_nmiRequested (s : State) : nmiRequested (moveTaken s) = nmiRequested s := by
  simp [nmiRequested]

/-- While the CPU runs, a step is the chosen agent's turn. -/
theorem step_running {s : State} (h : s.run = .running) : step s = act (nextMove s) (moveTaken s) := by
  simp [step, allReturned, h]

/-- The CPU's turn while it runs is the boundary step, followed in `lockstep` by the PPU. -/
theorem step_boundary {s : State} (hn : nextMove s = .cpu) (h : s.run = .running) :
    step s =
      match boundary (moveTaken s) with
      | .next t => .next (followCpu (moveTaken s) t)
      | .fault f => .fault f
      | .refused r => .refused r := by
  rw [step_running h, hn]
  cases hb : boundary (moveTaken s) <;> simp [act, cpuMove, h, hb]

/-! ## The boundary step -/

theorem boundary_shutdown {s : State} (h : s.shutdown = true) : boundary s = .next (shutDown s) := by
  simp only [boundary, if_pos h]

theorem boundary_reset {s : State} (h : s.shutdown = false) (hr : s.resetRequest = true) :
    boundary s = .next (chargeEntry (resetEntry { s with resetRequest := false })) := by
  unfold boundary
  rw [if_neg (by simp [h]), if_pos hr]

theorem boundary_nmi {s : State} (h : s.shutdown = false) (hr : s.resetRequest = false) (hn : nmiRequested s = true) :
    boundary s = .next (chargeEntry (nmiEntry (pollSignals s))) := by
  unfold boundary
  rw [if_neg (by simp [h]), if_neg (by simp [hr]), if_pos hn]

theorem boundary_irq {s : State} (h : s.shutdown = false) (hr : s.resetRequest = false) (hn : nmiRequested s = false)
    (hi : s.irqLine = true) (hb : s.p.b = false) :
    boundary s = .next (chargeEntry (irqAccept (pollSignals s))) := by
  unfold boundary
  rw [if_neg (by simp [h]), if_neg (by simp [hr]), if_neg (by simp [hn]), if_pos (by simp [hi, hb])]

theorem boundary_execute {s : State} (h : s.shutdown = false) (hr : s.resetRequest = false)
    (hn : nmiRequested s = false) (hi : (s.irqLine && !s.p.b) = false) :
    boundary s = executeOne (recordTrace (pollSignals s)) := by
  unfold boundary
  rw [if_neg (by simp [h]), if_neg (by simp [hr]), if_neg (by simp [hn]), if_neg (by simp [hi])]

/-! ## The fetch -/

theorem memoryByte_congr {s t : State} (hr : t.ram = s.ram) (hc : t.cart = s.cart) (a : Word) :
    t.memoryByte a = s.memoryByte a := by
  unfold State.memoryByte
  rw [hr, hc]

theorem memoryBytes_congr {s t : State} (hr : t.ram = s.ram) (hc : t.cart = s.cart) (n : Nat) (a : Word) :
    t.memoryBytes n a = s.memoryBytes n a := by
  induction n generalizing a with
  | zero => rfl
  | succ n ih => simp only [State.memoryBytes, ih, memoryByte_congr hr hc]

/-- The bytes fetched are complete: what they make runs. -/
theorem fetchOn_fetched {n : Nat} {b : Byte} {args : List Byte} {f : Fetched} {rest : List Byte} {s : State}
    (hd : decode s.params.opcodes (b :: args) = f.decoded rest) : fetchOn n (b :: args) s = runFetched b f s := by
  cases f <;> cases n <;> rw [fetchOn, hd] <;> rfl

/-- The bytes fetched are an instruction: it runs. -/
theorem fetchOn_instr {n : Nat} {b : Byte} {args : List Byte} {i : Instr} {rest : List Byte} {s : State}
    (hd : decode s.params.opcodes (b :: args) = .instr i rest) :
    fetchOn n (b :: args) s = runFetched b (.instr i) s := fetchOn_fetched (f := .instr i) hd

/-- The byte fetched has no descriptor: the CPU halts. -/
theorem fetchOn_unknown {n : Nat} {b : Byte} {s : State} (hd : s.params.opcodes.descriptor b = none) :
    fetchOn n [b] s = .next (haltUnknown b s) := by
  have h : decode s.params.opcodes [b] = .unknownOpcode b := by simp [decode, hd]
  cases n <;> rw [fetchOn, h]

/-- As many bytes as the mode has are enough for its operand. -/
theorem read_isSome {md : Mode} {bs : List Byte} (h : md.operandCount ≤ bs.length) :
    ∃ o rest, Operand.read md bs = some (o, rest) := by
  match md, bs with
  | .implied, _ | .accumulator, _ => exact ⟨_, _, rfl⟩
  | .immediate, _ :: _ | .zeroPage, _ :: _ | .zeroPageX, _ :: _ | .zeroPageY, _ :: _ | .indexedIndirect, _ :: _
  | .indirectIndexed, _ :: _ | .relative, _ :: _ => exact ⟨_, _, rfl⟩
  | .absolute, _ :: _ :: _ | .absoluteX, _ :: _ :: _ | .absoluteY, _ :: _ :: _ | .indirect, _ :: _ :: _ =>
    exact ⟨_, _, rfl⟩
  | .immediate, [] | .zeroPage, [] | .zeroPageX, [] | .zeroPageY, [] | .indexedIndirect, []
  | .indirectIndexed, [] | .relative, [] | .absolute, [] | .absoluteX, [] | .absoluteY, [] | .indirect, []
  | .absolute, [_] | .absoluteX, [_] | .absoluteY, [_] | .indirect, [_] => simp [Mode.operandCount] at h

/-- Where no operand is read, bytes are missing. -/
theorem read_eq_none {md : Mode} {bs : List Byte} (h : Operand.read md bs = none) : bs.length < md.operandCount := by
  by_contra hn
  obtain ⟨o, rest, hr⟩ := read_isSome (md := md) (bs := bs) (by omega)
  rw [hr] at h
  exact nomatch h

theorem operandCount_le (md : Mode) : md.operandCount ≤ 2 := by cases md <;> decide

/-- Three bytes always complete an instruction. -/
theorem length_of_needMore {t : OpcodeTable} {bs : List Byte} (h : decode t bs = .needMore) : bs.length < 3 := by
  match bs with
  | [] => decide
  | b :: args =>
    rw [decode] at h
    split at h
    · exact nomatch h
    · rename_i r hr
      split at h
      · rename_i hn
        have h1 := read_eq_none hn
        have h2 := operandCount_le r.mode
        simp only [List.length_cons]
        omega
      · generalize Fetched.ofParts _ _ = f at h
        cases f <;> exact nomatch h

theorem operand_bytes_length (o : Operand) : o.bytes.length = o.mode.operandCount := by cases o <;> rfl

theorem decoded_inj {f g : Fetched} {bs cs : List Byte} (h : f.decoded bs = g.decoded cs) : f = g ∧ bs = cs := by
  cases f <;> cases g <;> simp_all [Fetched.decoded]

/-- What the bytes of a complete instruction are. -/
theorem decoded_iff {t : OpcodeTable} {b : Byte} {args rest : List Byte} {f : Fetched}
    (h : decode t (b :: args) = f.decoded rest) :
    ∃ r, t.descriptor b = some r ∧ f.operand.mode = r.mode ∧ args = f.operand.bytes ++ rest ∧
      Fetched.ofParts r.handler f.operand = f := by
  rw [decode] at h
  split at h
  · cases f <;> exact nomatch h
  · rename_i r hr
    split at h
    · cases f <;> exact nomatch h
    · rename_i o rest' ho
      obtain ⟨h1, h2⟩ := Laws.bytes_of_read ho
      obtain ⟨rfl, rfl⟩ := decoded_inj h
      have ho' : (Fetched.ofParts r.handler o).operand = o := by
        unfold Fetched.ofParts
        split
        · rfl
        · split
          · rename_i hi
            exact (Laws.parts_of_ofParts hi).2
          · rfl
      exact ⟨r, hr, by rw [ho', h1], by rw [ho', h2], by rw [ho']⟩

/-- A proper prefix of a complete instruction asks for more. -/
theorem needMore_of_prefix {t : OpcodeTable} {bs : List Byte} {f : Fetched} (h : decode t bs = f.decoded [])
    {k : Nat} (hk : k < bs.length) : decode t (bs.take k) = .needMore := by
  match bs, k with
  | b :: args, 0 => rfl
  | b :: args, k + 1 =>
    obtain ⟨r, hr, hm, ha, -⟩ := decoded_iff h
    rw [List.take_succ_cons, decode, hr]
    dsimp only
    have hl : args.length = r.mode.operandCount := by
      rw [ha, List.append_nil, operand_bytes_length, hm]
    have hs : (args.take k).length < r.mode.operandCount := by
      rw [List.length_take]
      simp only [List.length_cons] at hk
      omega
    cases ho : Operand.read r.mode (args.take k) with
    | none => rfl
    | some q =>
      obtain ⟨h1, h2⟩ := Laws.bytes_of_read (o := q.1) (rest := q.2) ho
      have := congrArg List.length h2
      rw [List.length_append, operand_bytes_length, h1] at this
      omega

theorem memoryBytes_length {n : Nat} {s : State} {a : Word} {bs : List Byte} (h : s.memoryBytes n a = some bs) :
    bs.length = n := by
  induction n generalizing a bs with
  | zero =>
    cases h
    rfl
  | succ n ih =>
    rw [State.memoryBytes] at h
    split at h
    · rename_i v vs hv hvs
      cases h
      rw [List.length_cons, ih hvs]
    · exact nomatch h

theorem word_add_succ (a : Word) (n : Nat) : a + 1 + BitVec.ofNat 16 n = a + BitVec.ofNat 16 (n + 1) := by
  have h1 : (1 : Word).toNat = 1 := rfl
  apply BitVec.eq_of_toNat_eq
  simp only [BitVec.toNat_add, BitVec.toNat_ofNat, h1]
  omega

/-- A bus read changes neither PC nor the parameters nor the cycle count. -/
theorem busRead_pc {a : Word} {s t : State} {v : Byte} (h : busRead a s = .done v t) :
    t.pc = s.pc ∧ t.params = s.params ∧ t.cycles = s.cycles := by
  have hf := busRead_frame a s
  rw [h] at hf
  obtain ⟨_, _, _, _, _, _, _, -, rfl⟩ := hf
  exact ⟨rfl, rfl, rfl⟩

/-- What a fetch changes besides what its reads change: PC is past its bytes, the parameters and the cycle count stay. -/
theorem Fetches.pc {bs : List Byte} {s t : State} (h : Fetches s bs t) :
    t.pc = s.pc + BitVec.ofNat 16 bs.length ∧ t.params = s.params ∧ t.cycles = s.cycles := by
  induction bs generalizing s with
  | nil =>
    obtain rfl : t = s := h
    simp
  | cons b bs ih =>
    obtain ⟨u, hu, hf⟩ := h
    obtain ⟨h1, h2, h3⟩ := ih hf
    obtain ⟨-, k2, k3⟩ := busRead_pc hu
    refine ⟨?_, h2.trans k2, h3.trans k3⟩
    rw [h1, List.length_cons, ← word_add_succ]

/-- Bytes in RAM or cartridge are fetched, and nothing but PC changes. -/
theorem Fetches.of_memoryBytes {bs : List Byte} {s : State} (hl : s.log = [])
    (hb : s.memoryBytes bs.length s.pc = some bs) : Fetches s bs { s with pc := s.pc + BitVec.ofNat 16 bs.length } := by
  induction bs generalizing s with
  | nil =>
    show _ = s
    simp
  | cons b bs ih =>
    rw [List.length_cons, State.memoryBytes] at hb
    split at hb
    · rename_i v vs hv hvs
      cases hb
      refine ⟨s, busRead_memoryByte hv, ?_⟩
      have := ih (s := { s with pc := s.pc + 1 }) hl (by
        rw [memoryBytes_congr (s := s) (t := { s with pc := s.pc + 1 }) rfl rfl]
        exact hvs)
      rw [List.length_cons, ← word_add_succ, ← hl]
      exact this
    · exact nomatch hb

/-- The fetch takes bytes for as long as more are needed. -/
theorem fetchOn_bytes {bs got : List Byte} {n : Nat} {s t : State} (hb : Fetches s bs t)
    (hd : ∀ k, k < bs.length → decode s.params.opcodes (got ++ bs.take k) = .needMore) :
    fetchOn (n + bs.length) got s = fetchOn n (got ++ bs) t := by
  induction bs generalizing got s with
  | nil =>
    obtain rfl : t = s := hb
    simp
  | cons b bs ih =>
    obtain ⟨u, hu, hf⟩ := hb
    obtain ⟨h1, h2, -⟩ := busRead_pc hu
    have h0 := hd 0 (by simp)
    rw [List.take_zero, List.append_nil] at h0
    rw [List.length_cons, ← Nat.add_assoc, fetchOn, h0]
    dsimp only
    rw [hu]
    dsimp only
    rw [h1, ih hf fun k hk => ?_, List.append_assoc, List.singleton_append]
    have := hd (k + 1) (by simpa using hk)
    rw [List.append_assoc]
    show decode u.params.opcodes _ = _
    rw [h2]
    exact this

/-- A byte of the instruction behind a channel: the CPU waits for it, keeping the bytes fetched so far. -/
theorem fetchOn_wait {n : Nat} {got : List Byte} {s : State} {r : ReadRequest}
    (hd : decode s.params.opcodes got = .needMore) (h : busRead s.pc s = .wait r s) :
    fetchOn (n + 1) got s = .next (suspend r { s with work := .fetch got }) := by
  rw [fetchOn, hd]
  dsimp only
  rw [h]

/-- An instruction whose bytes are read is fetched and run. -/
theorem fetchOn_complete {n : Nat} {got bs args : List Byte} {b : Byte} {f : Fetched} {s t : State}
    (hb : Fetches s bs t) (hg : got ++ bs = b :: args)
    (hd : decode s.params.opcodes (b :: args) = f.decoded []) (hn : bs.length ≤ n) :
    fetchOn n got s = runFetched b f t := by
  obtain ⟨m, rfl⟩ : ∃ m, n = m + bs.length := ⟨n - bs.length, by omega⟩
  rw [fetchOn_bytes hb, hg]
  · exact fetchOn_fetched (by rw [hb.pc.2.1]; exact hd)
  · intro k hk
    have := needMore_of_prefix (k := got.length + k) hd (by
      rw [← hg, List.length_append]
      omega)
    rwa [← hg, List.take_append, List.take_of_length_le (by omega), Nat.add_sub_cancel_left] at this

/-! ## Every turn answers -/

theorem runFetched_total (b : Byte) (f : Fetched) (s : State) : ∃ t, runFetched b f s = .next t := by
  unfold runFetched
  obtain ⟨t, h⟩ := execFetched_total f s
  rw [h]
  exact ⟨_, rfl⟩

theorem fetchOn_total {n : Nat} {got : List Byte} (s : State) (h : 3 ≤ got.length + n) :
    ∃ t, fetchOn n got s = .next t := by
  induction n generalizing got s with
  | zero =>
    rw [fetchOn]
    cases hd : decode s.params.opcodes got with
    | instr i rest => exact runFetched_total _ _ _
    | form hd o rest => exact runFetched_total _ _ _
    | unknownOpcode b => exact ⟨_, rfl⟩
    | needMore => exact absurd (length_of_needMore hd) (by omega)
  | succ n ih =>
    rw [fetchOn]
    cases hd : decode s.params.opcodes got with
    | instr i rest => exact runFetched_total _ _ _
    | form hd o rest => exact runFetched_total _ _ _
    | unknownOpcode b => exact ⟨_, rfl⟩
    | needMore =>
      dsimp only
      cases busRead s.pc s with
      | wait r t => exact ⟨_, rfl⟩
      | done v t => exact ih _ (by simp; omega)

theorem resume_total (v : Byte) (s : State) : ∃ t, resume v s = .next t := by
  unfold resume
  dsimp only
  cases s.work with
  | none => exact ⟨_, rfl⟩
  | fetch got => exact fetchOn_total _ (by simp; omega)
  | execute b f => exact runFetched_total _ _ _

theorem awaitStep_total (r : ReadRequest) (s : State) : ∃ t, awaitStep r s = .next t := by
  unfold awaitStep
  split <;> split
  · exact resume_total _ _
  · split
    · exact ⟨_, rfl⟩
    · split
      · exact resume_total _ _
      · exact ⟨_, rfl⟩
  · exact resume_total _ _
  · split
    · exact ⟨_, rfl⟩
    · split
      · exact resume_total _ _
      · exact ⟨_, rfl⟩

theorem boundary_total (s : State) : ∃ t, boundary s = .next t := by
  unfold boundary
  split
  · exact ⟨_, rfl⟩
  · split
    · exact ⟨_, rfl⟩
    · dsimp only
      split
      · exact ⟨_, rfl⟩
      · split
        · exact ⟨_, rfl⟩
        · exact fetchOn_total _ (by simp)

theorem cpuMove_total (s : State) : ∃ t, cpuMove s = .next t := by
  unfold cpuMove
  split
  · obtain ⟨t, h⟩ := boundary_total s
    rw [h]
    exact ⟨_, rfl⟩
  · split
    · exact ⟨_, rfl⟩
    · exact awaitStep_total _ _
  · exact ⟨_, rfl⟩
  · exact ⟨_, rfl⟩

/-- Every agent's turn answers a next state. -/
theorem act_total (m : Move) (s : State) : ∃ t, act m s = .next t := by
  cases m with
  | cpu => exact cpuMove_total s
  | ppu => exact ⟨_, rfl⟩
  | apu => exact ⟨_, rfl⟩
  | host h => exact ⟨_, rfl⟩

end Sys2Proof.Machine
end

