-- ==== Sys2Proof/Tests/Slice0.lean ====
section
/-! SUPPORT. Tests: every constructor's decoding from a word of the encoding grid (30_encoding.md R124), ill-formed terms
that the well-formedness checks refuse, single steps from the vectors of 95_test_vectors.md (named in each comment), and
for every obligation a witness that meets its hypotheses. -/

open Sys2Proof Sys2Proof.Machine

section

-- the many small proofs of this file are checked one after the other
set_option Elab.async false

/-! ## Decoding: the whole grid of 30_encoding.md R124 -/

/-- The word decodes to the instruction, the byte after it being left. -/
def decodesTo (w : List Byte × Instr) : Bool :=
  decide (decode OpcodeTable.standard (w.1 ++ [0x5A]) = .instr w.2 [0x5A])

theorem test_decode_loads_stores_1 : List.all (α := List Byte × Instr)
    [([0xA1, 0x34], .ldaIndX 0x34), ([0xA5, 0x34], .ldaZp 0x34), ([0xA9, 0x34], .ldaImm 0x34),
      ([0xAD, 0x34, 0x12], .ldaAbs 0x1234), ([0xB1, 0x34], .ldaIndY 0x34), ([0xB5, 0x34], .ldaZpX 0x34),
      ([0xB9, 0x34, 0x12], .ldaAbsY 0x1234), ([0xBD, 0x34, 0x12], .ldaAbsX 0x1234), ([0xA2, 0x34], .ldxImm 0x34),
      ([0xA6, 0x34], .ldxZp 0x34), ([0xAE, 0x34, 0x12], .ldxAbs 0x1234), ([0xB6, 0x34], .ldxZpY 0x34),
      ([0xBE, 0x34, 0x12], .ldxAbsY 0x1234), ([0xA0, 0x34], .ldyImm 0x34)] decodesTo = true := by decide +kernel

theorem test_decode_loads_stores_2 : List.all (α := List Byte × Instr)
    [([0xA4, 0x34], .ldyZp 0x34), ([0xAC, 0x34, 0x12], .ldyAbs 0x1234), ([0xB4, 0x34], .ldyZpX 0x34),
      ([0xBC, 0x34, 0x12], .ldyAbsX 0x1234), ([0x81, 0x34], .staIndX 0x34), ([0x85, 0x34], .staZp 0x34),
      ([0x8D, 0x34, 0x12], .staAbs 0x1234), ([0x91, 0x34], .staIndY 0x34), ([0x95, 0x34], .staZpX 0x34),
      ([0x99, 0x34, 0x12], .staAbsY 0x1234), ([0x9D, 0x34, 0x12], .staAbsX 0x1234), ([0x86, 0x34], .stxZp 0x34),
      ([0x8E, 0x34, 0x12], .stxAbs 0x1234), ([0x96, 0x34], .stxZpY 0x34)] decodesTo = true := by decide +kernel

theorem test_decode_loads_stores_3 : List.all (α := List Byte × Instr)
    [([0x84, 0x34], .styZp 0x34), ([0x8C, 0x34, 0x12], .styAbs 0x1234), ([0x94, 0x34], .styZpX 0x34)] decodesTo = true := by decide +kernel

theorem test_decode_transfers_stack : List.all (α := List Byte × Instr)
    [([0xAA], .tax), ([0xA8], .tay), ([0x8A], .txa),
      ([0x98], .tya), ([0xBA], .tsx), ([0x9A], .txs),
      ([0x48], .pha), ([0x68], .pla), ([0x08], .php),
      ([0x28], .plp)] decodesTo = true := by decide +kernel

theorem test_decode_add_subtract_logic_1 : List.all (α := List Byte × Instr)
    [([0x61, 0x34], .adcIndX 0x34), ([0x65, 0x34], .adcZp 0x34), ([0x69, 0x34], .adcImm 0x34),
      ([0x6D, 0x34, 0x12], .adcAbs 0x1234), ([0x71, 0x34], .adcIndY 0x34), ([0x75, 0x34], .adcZpX 0x34),
      ([0x79, 0x34, 0x12], .adcAbsY 0x1234), ([0x7D, 0x34, 0x12], .adcAbsX 0x1234), ([0xE1, 0x34], .sbcIndX 0x34),
      ([0xE5, 0x34], .sbcZp 0x34), ([0xE9, 0x34], .sbcImm 0x34), ([0xED, 0x34, 0x12], .sbcAbs 0x1234),
      ([0xF1, 0x34], .sbcIndY 0x34), ([0xF5, 0x34], .sbcZpX 0x34)] decodesTo = true := by decide +kernel

theorem test_decode_add_subtract_logic_2 : List.all (α := List Byte × Instr)
    [([0xF9, 0x34, 0x12], .sbcAbsY 0x1234), ([0xFD, 0x34, 0x12], .sbcAbsX 0x1234), ([0x21, 0x34], .andIndX 0x34),
      ([0x25, 0x34], .andZp 0x34), ([0x29, 0x34], .andImm 0x34), ([0x2D, 0x34, 0x12], .andAbs 0x1234),
      ([0x31, 0x34], .andIndY 0x34), ([0x35, 0x34], .andZpX 0x34), ([0x39, 0x34, 0x12], .andAbsY 0x1234),
      ([0x3D, 0x34, 0x12], .andAbsX 0x1234), ([0x01, 0x34], .oraIndX 0x34), ([0x05, 0x34], .oraZp 0x34),
      ([0x09, 0x34], .oraImm 0x34), ([0x0D, 0x34, 0x12], .oraAbs 0x1234)] decodesTo = true := by decide +kernel

theorem test_decode_add_subtract_logic_3 : List.all (α := List Byte × Instr)
    [([0x11, 0x34], .oraIndY 0x34), ([0x15, 0x34], .oraZpX 0x34), ([0x19, 0x34, 0x12], .oraAbsY 0x1234),
      ([0x1D, 0x34, 0x12], .oraAbsX 0x1234), ([0x41, 0x34], .eorIndX 0x34), ([0x45, 0x34], .eorZp 0x34),
      ([0x49, 0x34], .eorImm 0x34), ([0x4D, 0x34, 0x12], .eorAbs 0x1234), ([0x51, 0x34], .eorIndY 0x34),
      ([0x55, 0x34], .eorZpX 0x34), ([0x59, 0x34, 0x12], .eorAbsY 0x1234), ([0x5D, 0x34, 0x12], .eorAbsX 0x1234),
      ([0x24, 0x34], .bitZp 0x34), ([0x2C, 0x34, 0x12], .bitAbs 0x1234)] decodesTo = true := by decide +kernel

theorem test_decode_compares_steps_1 : List.all (α := List Byte × Instr)
    [([0xC1, 0x34], .cmpIndX 0x34), ([0xC5, 0x34], .cmpZp 0x34), ([0xC9, 0x34], .cmpImm 0x34),
      ([0xCD, 0x34, 0x12], .cmpAbs 0x1234), ([0xD1, 0x34], .cmpIndY 0x34), ([0xD5, 0x34], .cmpZpX 0x34),
      ([0xD9, 0x34, 0x12], .cmpAbsY 0x1234), ([0xDD, 0x34, 0x12], .cmpAbsX 0x1234), ([0xE0, 0x34], .cpxImm 0x34),
      ([0xE4, 0x34], .cpxZp 0x34), ([0xEC, 0x34, 0x12], .cpxAbs 0x1234), ([0xC0, 0x34], .cpyImm 0x34),
      ([0xC4, 0x34], .cpyZp 0x34), ([0xCC, 0x34, 0x12], .cpyAbs 0x1234)] decodesTo = true := by decide +kernel

theorem test_decode_compares_steps_2 : List.all (α := List Byte × Instr)
    [([0xE6, 0x34], .incZp 0x34), ([0xEE, 0x34, 0x12], .incAbs 0x1234), ([0xF6, 0x34], .incZpX 0x34),
      ([0xFE, 0x34, 0x12], .incAbsX 0x1234), ([0xC6, 0x34], .decZp 0x34), ([0xCE, 0x34, 0x12], .decAbs 0x1234),
      ([0xD6, 0x34], .decZpX 0x34), ([0xDE, 0x34, 0x12], .decAbsX 0x1234), ([0xE8], .inx),
      ([0xC8], .iny), ([0xCA], .dex), ([0x88], .dey)] decodesTo = true := by decide +kernel

theorem test_decode_shifts_1 : List.all (α := List Byte × Instr)
    [([0x06, 0x34], .aslZp 0x34), ([0x0A], .aslAcc), ([0x0E, 0x34, 0x12], .aslAbs 0x1234),
      ([0x16, 0x34], .aslZpX 0x34), ([0x1E, 0x34, 0x12], .aslAbsX 0x1234), ([0x46, 0x34], .lsrZp 0x34),
      ([0x4A], .lsrAcc), ([0x4E, 0x34, 0x12], .lsrAbs 0x1234), ([0x56, 0x34], .lsrZpX 0x34),
      ([0x5E, 0x34, 0x12], .lsrAbsX 0x1234), ([0x26, 0x34], .rolZp 0x34), ([0x2A], .rolAcc),
      ([0x2E, 0x34, 0x12], .rolAbs 0x1234), ([0x36, 0x34], .rolZpX 0x34)] decodesTo = true := by decide +kernel

theorem test_decode_shifts_2 : List.all (α := List Byte × Instr)
    [([0x3E, 0x34, 0x12], .rolAbsX 0x1234), ([0x66, 0x34], .rorZp 0x34), ([0x6A], .rorAcc),
      ([0x6E, 0x34, 0x12], .rorAbs 0x1234), ([0x76, 0x34], .rorZpX 0x34), ([0x7E, 0x34, 0x12], .rorAbsX 0x1234)] decodesTo = true := by decide +kernel

theorem test_decode_control : List.all (α := List Byte × Instr)
    [([0x10, 0x34], .bpl 0x34), ([0x30, 0x34], .bmi 0x34), ([0x50, 0x34], .bvc 0x34),
      ([0x70, 0x34], .bvs 0x34), ([0x90, 0x34], .bcc 0x34), ([0xB0, 0x34], .bcs 0x34),
      ([0xD0, 0x34], .bne 0x34), ([0xF0, 0x34], .beq 0x34), ([0x4C, 0x34, 0x12], .jmpAbs 0x1234),
      ([0x6C, 0x34, 0x12], .jmpInd 0x1234), ([0x20, 0x34, 0x12], .jsr 0x1234), ([0x60], .rts),
      ([0x40], .rti), ([0x00], .brk)] decodesTo = true := by decide +kernel

theorem test_decode_flags : List.all (α := List Byte × Instr)
    [([0x18], .clc), ([0x38], .sec), ([0x58], .cli),
      ([0x78], .sei), ([0xB8], .clv), ([0xD8], .cld),
      ([0xF8], .sed), ([0xEA], .nop)] decodesTo = true := by decide +kernel

/-- A byte of the grid with no descriptor is rejected by that byte; a cut instruction asks for more (R123, R129). -/
theorem test_decode_rejects_by_name :
    decode OpcodeTable.standard [0x02, 0xEA] = .unknownOpcode 0x02 ∧
    decode OpcodeTable.standard [0x89, 0x00] = .unknownOpcode 0x89 ∧
    decode OpcodeTable.standard [0xAD, 0x34] = .needMore ∧ decode OpcodeTable.standard [] = .needMore := by decide +kernel

/-! ## Well-formedness: an ill-formed term for each check -/

/-- A row of a table, for the terms below. -/
def rowOf (b : Byte) (m : Mnemonic) (md : Mode) : OpcodeRow :=
  { opcode := b, mnemonic := "ROW", mode := md, handler := .rule m, baseCycles := 2, penalty := .none }

/-- A table with two descriptors for one byte; any pairing of a handler with a mode is a descriptor (40_engine.md R141). -/
theorem smoke_table : OpcodeTable.wf [rowOf 0x02 .nop .implied, rowOf 0x02 .tax .implied] = false ∧
    OpcodeTable.wf [rowOf 0x89 .sta .immediate, { rowOf 0x02 .nop .indirect with handler := .program { limit := 0, ops := [] } }] = true ∧
    OpcodeTable.wf [rowOf 0x02 .nop .implied, rowOf 0x03 .nop .implied] = true := by decide +kernel

/-- An instruction with no encoding under the table. -/
theorem smoke_instruction : Instr.wf [rowOf 0xEA .nop .implied] .tax = false ∧
    Instr.wf [rowOf 0xEA .nop .implied] .nop = true := by decide +kernel

/-- The mapper record of 95_test_vectors.md E2. -/
def e2 : MapperEntry := { ctrlLo := 0x8000, ctrlHi := 0xFFFF, srcStart := 0x8000, srcLen := 0x4000, bankSize := 0x4000 }

/-- Each bound of a mapper record (20_memory.md R89; 10_state.md R41), broken on its own; a range past 0xFFFF is none. -/
theorem smoke_mapper_entry : e2.wf = true ∧
    ({ e2 with ctrlLo := 0x7FFF } : MapperEntry).wf = false ∧
    ({ e2 with ctrlHi := 0x7FFF } : MapperEntry).wf = false ∧
    ({ e2 with srcStart := 0x7FFF } : MapperEntry).wf = false ∧
    ({ e2 with srcLen := 0 } : MapperEntry).wf = false ∧
    ({ e2 with srcLen := 0x10000 } : MapperEntry).wf = false ∧
    ({ e2 with srcStart := 0xC000, srcLen := 0x4001 } : MapperEntry).wf = true ∧
    ({ e2 with bankSize := 0 } : MapperEntry).wf = false := by decide +kernel

/-- Each bound of the clock parameters (51_ppu.md R313; vector CL6), broken on its own. -/
theorem smoke_clock : Params.standard.clockWf = true ∧
    ({ Params.standard with cyclesPerScanline := 0 } : Params).clockWf = false ∧
    ({ Params.standard with vblankStartLine := 0 } : Params).clockWf = false ∧
    ({ Params.standard with lastLine := 240 } : Params).clockWf = false := by decide +kernel

/-- A record for mapper id 0, and an ill-formed record. -/
theorem smoke_mappers : ({ Params.standard with mapperTable := [(0, e2)] } : Params).mappersWf = false ∧
    ({ Params.standard with mapperTable := [(2, { e2 with bankSize := 0 })] } : Params).mappersWf = false ∧
    ({ Params.standard with mapperTable := [(2, e2)] } : Params).mappersWf = true := by decide +kernel

/-- Why a core is not constructed, if it is not. -/
def failureOf (prm : Params) (img : Image) (d : PowerOn) : Option ConstructionFailure :=
  match construct prm img d with
  | .error e => some e
  | .ok _ => none

/-- Every refused construction by its name. -/
theorem smoke_construct :
    failureOf Params.standard Image.blank PowerOn.blank = none ∧
    failureOf Params.standard { Image.blank with prgSize := 0 } PowerOn.blank = some .emptyProgram ∧
    failureOf Params.standard { Image.blank with prg := [(16384, 1)] } PowerOn.blank = some .malformedImage ∧
    failureOf Params.standard { Image.blank with prg := [(2, 1), (1, 1)] } PowerOn.blank = some .malformedImage ∧
    failureOf Params.standard { Image.blank with chr := some [(0, 0)] } PowerOn.blank = some .malformedImage ∧
    failureOf Params.standard Image.blank { PowerOn.blank with ram := [(2048, 1)] } = some .malformedImage ∧
    failureOf { Params.standard with decimalMode := true } Image.blank PowerOn.blank = some .decimalMode ∧
    failureOf { Params.standard with vblankStartLine := 0 } Image.blank PowerOn.blank = some .clock ∧
    failureOf { Params.standard with mapperTable := [(0, e2)] } Image.blank PowerOn.blank = some .mapperTable ∧
    failureOf { Params.standard with opcodes := [rowOf 0x89 .sta .immediate, rowOf 0x89 .lda .zeroPageY] } Image.blank PowerOn.blank =
      some .opcodeTable := by decide +kernel

/-- Parameters: each conjunct of `Params.wf`. -/
theorem smoke_params : Params.standard.wf = true ∧
    ({ Params.standard with decimalMode := true } : Params).wf = false ∧
    ({ Params.standard with opcodes := [rowOf 0x89 .sta .immediate, rowOf 0x89 .lda .zeroPageY] } : Params).wf = false ∧
    ({ Params.standard with lastLine := 0 } : Params).wf = false ∧
    ({ Params.standard with mapperTable := [(0, e2)] } : Params).wf = false := by decide +kernel

/-! ## Single steps, from 95_test_vectors.md -/

/-- A memory holding the listed bytes. -/
def cells (l : List (Nat × Byte)) : Memory := l.foldl (fun m c => m.write c.1 c.2) []

/-- The start state of the vectors: PC = 0x8000 holding `code`, SP = 0xFF, P = 0x10, RAM as listed, the CPU's turn. -/
def cpu (code : List Byte) (ram : List (Nat × Byte)) : State :=
  { State.reset with
    pc := 0x8000, sp := 0xFF, resetRequest := false, script := [.cpu], ram := cells ram
    cart := { State.reset.cart with prg := Memory.writeAll [] 16384 0 code } }

/-- The same with vectors: the bytes at 0xFFFA to 0xFFFF. -/
def cpuV (code vectors : List Byte) (ram : List (Nat × Byte)) : State :=
  { cpu code ram with cart := { State.reset.cart with
      prg := Memory.writeAll (Memory.writeAll [] 16384 0 code) 16384 0x3FFA vectors } }

/-- What one step leaves, seen through `f`. -/
def after {α : Type} (f : State → α) (s : State) : Option α :=
  match step s with
  | .next t => some (f t)
  | .fault _ => none
  | .refused _ => none

/-- Two steps of the CPU. -/
def afterTwo {α : Type} (f : State → α) (s : State) : Option α :=
  match step s with
  | .next t => after f { t with script := [.cpu] }
  | .fault _ => none
  | .refused _ => none

/-- A, P and the cycles. -/
def accView (t : State) : Byte × Byte × Nat := (t.a, t.p.toByte, t.cycles)

/-- A and P. -/
def flagView (t : State) : Byte × Byte := (t.a, t.p.toByte)

/-- PC and the cycles. -/
def pcView (t : State) : Word × Nat := (t.pc, t.cycles)

-- LS1, LS2
theorem test_lda_imm : after (fun t => (t.pc, accView t)) (cpu [0xA9, 0x00] []) = some (0x8002, 0x00, 0x12, 2) ∧
    after accView (cpu [0xA9, 0x80] []) = some (0x80, 0x90, 2) := by decide +kernel
-- LS3, LS4
theorem test_lda_indexed :
    after accView { cpu [0xB5, 0xF0] [(0x10, 0x55)] with x := 0x20 } = some (0x55, 0x10, 4) ∧
    after accView { cpu [0xBD, 0xFF, 0x12] [(0x300, 0x66)] with x := 0x01 } = some (0x66, 0x10, 5) := by decide +kernel
-- LS5, LS13
theorem test_lda_absx_crossing : after (fun t => t.cycles) { cpu [0xBD, 0x00, 0x12] [] with x := 0x01 } = some 4 ∧
    after (fun t => (t.a, t.cycles)) { cpu [0xBD, 0xFF, 0xFF] [(0, 0x77)] with x := 0x01 } = some (0x77, 5) := by decide +kernel
-- LS6, LS8
theorem test_sta : after (fun t => (t.ram, t.p.toByte, t.cycles)) { cpu [0x9D, 0xFF, 0x12] [] with x := 0x01, a := 0x77 } =
      some ([(0x300, 0x77)], 0x10, 5) ∧
    after (fun t => (t.ram.read 0x210, t.cycles))
      { cpu [0x81, 0xFF] [(0x04, 0x10), (0x05, 0x02)] with x := 0x05, a := 0x5A } = some (0x5A, 6) := by decide +kernel
-- LS7
theorem test_lda_indx : after accView (cpu [0xA1, 0xFF] [(0xFF, 0x34), (0x00, 0x02), (0x234, 0x99)]) =
    some (0x99, 0x90, 6) := by decide +kernel
-- LS9, LS10
theorem test_lda_indy : after (fun t => (t.a, t.cycles))
      { cpu [0xB1, 0x40] [(0x40, 0xFF), (0x41, 0x02), (0x300, 0x01)] with y := 0x01 } = some (0x01, 6) ∧
    after (fun t => (t.a, t.cycles)) (cpu [0xB1, 0xFF] [(0x00, 0x03), (0x300, 0x42)]) = some (0x42, 5) := by decide +kernel
-- LS11
theorem test_ldx_zpy : after (fun t => (t.x, t.p.toByte, t.cycles)) { cpu [0xB6, 0xFF] [(0x01, 0x80)] with y := 0x02 } =
    some (0x80, 0x90, 4) := by decide +kernel
-- LS12
theorem test_ldy_absx : after (fun t => (t.y, t.cycles)) { cpu [0xBC, 0xFF, 0x00] [(0x1FE, 0x0F)] with x := 0xFF } =
    some (0x0F, 5) := by decide +kernel
-- R184, R185: the address of STX zp,Y and STY zp,X wraps in page 0
theorem test_stx_sty : after (fun t => t.ram) { cpu [0x96, 0xFF] [] with x := 0x31, y := 0x02 } = some [(0x01, 0x31)] ∧
    after (fun t => t.ram) { cpu [0x94, 0xFF] [] with y := 0x32, x := 0x02 } = some [(0x01, 0x32)] := by decide +kernel
-- LS14, LS15
theorem test_txs_tsx : after (fun t => (t.sp, t.p.toByte, t.cycles)) (cpu [0x9A] []) = some (0x00, 0x10, 2) ∧
    after (fun t => (t.x, t.p.toByte, t.cycles)) { cpu [0xBA] [] with sp := 0x80 } = some (0x80, 0x90, 2) := by decide +kernel
-- LS16, LS17
theorem test_txa_tax : after flagView { cpu [0x8A] [] with x := 0x11 } = some (0x11, 0x10) ∧
    after (fun t => (t.x, t.p.toByte)) { cpu [0xAA] [] with x := 0x33 } = some (0x00, 0x12) := by decide +kernel
-- R187, R189
theorem test_tya_tay : after flagView { cpu [0x98] [] with y := 0x91 } = some (0x91, 0x90) ∧
    after (fun t => (t.y, t.p.toByte)) { cpu [0xA8] [] with a := 0x44 } = some (0x44, 0x10) := by decide +kernel
-- LS18, LS19
theorem test_pha_pla : after (fun t => (t.ram, t.sp, t.cycles)) { cpu [0x48] [] with a := 0xC3 } =
      some ([(0x1FF, 0xC3)], 0xFE, 3) ∧
    after (fun t => (t.sp, accView t)) { cpu [0x68] [] with sp := 0xFE, a := 0x55 } = some (0xFF, 0x00, 0x12, 4) := by
  decide +kernel
-- LS20, LS22
theorem test_php_plp : after (fun t => (t.ram.read 0x1FF, t.sp, t.p.toByte, t.cycles))
      { cpu [0x08] [] with p := Flags.ofByte 0 } = some (0x30, 0xFE, 0x00, 3) ∧
    after (fun t => (t.p.toByte, t.sp, t.cycles)) { cpu [0x28] [(0x1FF, 0xFF)] with sp := 0xFE } =
      some (0xFF, 0xFF, 4) := by decide +kernel
-- LS24: the store goes through the RAM mirror
theorem test_sta_mirror : after (fun t => t.ram) { cpu [0x8D, 0xFF, 0x1F] [] with a := 0x01 } = some [(0x7FF, 0x01)] := by
  decide +kernel
-- ST1, ST2
theorem test_push_edge : after (fun t => (t.ram.read 0x100, t.sp)) { cpu [0x48] [] with sp := 0, a := 0x11 } =
      some (0x11, 0xFF) ∧
    after (fun t => (t.ram.read 0x100, t.sp))
      { cpu [0x48] [] with sp := 0, a := 0x11, params := { Params.standard with stackEdge := .saturate } } =
      some (0x11, 0x00) := by decide +kernel
-- ST3, ST4
theorem test_pull_edge : after (fun t => (t.a, t.sp)) (cpu [0x68] [(0x100, 0x44)]) = some (0x44, 0x00) ∧
    after (fun t => (t.a, t.sp))
      { cpu [0x68] [(0x1FF, 0x55)] with params := { Params.standard with stackEdge := .saturate } } =
      some (0x55, 0xFF) := by decide +kernel
-- ST5
theorem test_jsr_edge : after (fun t => (t.ram, t.sp, t.pc)) { cpu [0x20, 0x00, 0x90] [] with sp := 0x01 } =
    some ([(0x100, 0x02), (0x101, 0x80)], 0xFF, 0x9000) := by decide +kernel

/-- A state whose flags byte is `p` and whose A is `a`. -/
def withAP (a p : Byte) (s : State) : State := { s with a := a, p := Flags.ofByte p }

-- AR1, AR4
theorem test_adc_overflow_carry : after flagView (withAP 0x7F 0x00 (cpu [0x69, 0x01] [])) = some (0x80, 0xC0) ∧
    after flagView (withAP 0xFF 0x01 (cpu [0x69, 0xFF] [])) = some (0xFF, 0x81) := by decide +kernel
-- AR3, AR5: D is ignored
theorem test_adc_decimal : after flagView (withAP 0x80 0x00 (cpu [0x69, 0x80] [])) = some (0x00, 0x43) ∧
    after flagView (withAP 0x09 0x08 (cpu [0x69, 0x09] [])) = some (0x12, 0x08) := by decide +kernel
-- AR7, AR9
theorem test_sbc : after flagView (withAP 0x80 0x01 (cpu [0xE9, 0x01] [])) = some (0x7F, 0x41) ∧
    after flagView (withAP 0x05 0x00 (cpu [0xE9, 0x05] [])) = some (0xFF, 0x80) := by decide +kernel
-- AR11, AR12
theorem test_and_ora : after flagView (withAP 0xF0 0x10 (cpu [0x29, 0x0F] [])) = some (0x00, 0x12) ∧
    after flagView (withAP 0xF0 0x10 (cpu [0x09, 0x0F] [])) = some (0xFF, 0x90) := by decide +kernel
-- AR13, AR14
theorem test_eor_bit : after flagView (withAP 0xF0 0x10 (cpu [0x49, 0xFF] [])) = some (0x0F, 0x10) ∧
    after flagView (withAP 0x01 0x10 (cpu [0x24, 0x10] [(0x10, 0xC0)])) = some (0x01, 0xD2) := by decide +kernel
-- AR16, AR18
theorem test_cmp : after flagView (withAP 0x40 0x10 (cpu [0xC9, 0x40] [])) = some (0x40, 0x13) ∧
    after flagView (withAP 0x40 0x10 (cpu [0xC9, 0xC0] [])) = some (0x40, 0x90) := by decide +kernel
-- AR19, AR20
theorem test_cpx_cpy : after (fun t => t.p.toByte) (cpu [0xE0, 0x00] []) = some 0x13 ∧
    after (fun t => t.p.toByte) { cpu [0xC0, 0x00] [] with y := 0xFF } = some 0x91 := by decide +kernel
-- AR21, AR22
theorem test_inc_dec : after (fun t => (t.ram, t.p.toByte, t.cycles)) (withAP 0 0x11 (cpu [0xE6, 0x10] [(0x10, 0xFF)])) =
      some ([], 0x13, 5) ∧
    after (fun t => (t.ram, t.p.toByte)) (cpu [0xC6, 0x10] []) = some ([(0x10, 0xFF)], 0x90) := by decide +kernel
-- AR23, and R212
theorem test_inx_iny : after (fun t => (t.x, t.p.toByte)) { cpu [0xE8] [] with x := 0xFF } = some (0x00, 0x12) ∧
    after (fun t => (t.y, t.p.toByte)) { cpu [0xC8] [] with y := 0x7F } = some (0x80, 0x90) := by decide +kernel
-- AR24, and R213
theorem test_dey_dex : after (fun t => (t.y, t.p.toByte)) (cpu [0x88] []) = some (0xFF, 0x90) ∧
    after (fun t => (t.x, t.p.toByte)) { cpu [0xCA] [] with x := 0x01 } = some (0x00, 0x12) := by decide +kernel
-- AR25, AR31
theorem test_asl : after flagView (withAP 0x81 0x10 (cpu [0x0A] [])) = some (0x02, 0x11) ∧
    after (fun t => (t.ram, t.p.toByte, t.cycles)) (cpu [0x06, 0x10] [(0x10, 0x80)]) = some ([], 0x13, 5) := by decide +kernel
-- AR26, AR28
theorem test_lsr_rol : after flagView (withAP 0x01 0x10 (cpu [0x4A] [])) = some (0x00, 0x13) ∧
    after flagView (withAP 0x40 0x11 (cpu [0x2A] [])) = some (0x81, 0x90) := by decide +kernel
-- AR29, AR30
theorem test_ror : after flagView (withAP 0x01 0x11 (cpu [0x6A] [])) = some (0x80, 0x91) ∧
    after flagView (withAP 0x01 0x10 (cpu [0x6A] [])) = some (0x00, 0x13) := by decide +kernel

-- CF1, CF2
theorem test_bne : after pcView (cpu [0xD0, 0x05] []) = some (0x8007, 3) ∧
    after pcView (withAP 0 0x12 (cpu [0xD0, 0x05] [])) = some (0x8002, 2) := by decide +kernel
-- CF3: the target lies in another page
theorem test_beq_crossing : after pcView
      { withAP 0 0x12 (cpu [] []) with pc := 0x8100, cart := { State.reset.cart with prg := [(0x100, 0xF0), (0x101, 0xFC)] } } =
    some (0x80FE, 4) := by decide +kernel
-- CF4, CF5
theorem test_bcc_bmi : after pcView (cpu [0x90, 0xFE] []) = some (0x8000, 3) ∧
    after pcView (withAP 0 0x90 (cpu [0x30, 0x00] [])) = some (0x8002, 3) := by decide +kernel
-- CF6, CF8
theorem test_bpl_bcs : after pcView (cpu [0x10, 0x02] []) = some (0x8004, 3) ∧
    after pcView (withAP 0 0x11 (cpu [0xB0, 0x02] [])) = some (0x8004, 3) := by decide +kernel
-- CF7
theorem test_bvc_bvs : after pcView (withAP 0 0x50 (cpu [0x50, 0x02] [])) = some (0x8002, 2) ∧
    after pcView (withAP 0 0x50 (cpu [0x70, 0x02] [])) = some (0x8004, 3) := by decide +kernel
-- CF9, CF10
theorem test_jmp : after pcView (cpu [0x4C, 0x00, 0xC0] []) = some (0xC000, 3) ∧
    after pcView (cpu [0x6C, 0xFF, 0x02] [(0x200, 0x90), (0x300, 0x80)]) = some (0x9000, 5) ∧
    after pcView { cpu [0x6C, 0xFF, 0x02] [(0x200, 0x90), (0x300, 0x80)] with
      params := { Params.standard with jmpIndPageBug := false } } = some (0x8000, 5) := by decide +kernel
-- CF11, CF12
theorem test_jsr_rts : after (fun t => (t.ram, t.sp, pcView t)) (cpu [0x20, 0x00, 0x90] []) =
      some ([(0x1FE, 0x02), (0x1FF, 0x80)], 0xFD, 0x9000, 6) ∧
    after (fun t => (t.sp, pcView t)) { cpu [0x60] [(0x1FE, 0x02), (0x1FF, 0x80)] with sp := 0xFD } =
      some (0xFF, 0x8003, 6) := by decide +kernel
-- CF13: 0xFFFF + 1 wraps
theorem test_rts_wraps : after pcView { cpu [0x60] [(0x1FE, 0xFF), (0x1FF, 0xFF)] with sp := 0xFD } =
    some (0x0000, 6) := by decide +kernel
-- CF14
theorem test_rti : after (fun t => (t.p.toByte, t.sp, pcView t))
      { cpu [0x40] [(0x1FE, 0x34), (0x1FF, 0x12)] with sp := 0xFC } = some (0x00, 0xFF, 0x1234, 6) := by decide +kernel
-- CF15
theorem test_brk : after (fun t => (t.ram, t.p.toByte, t.sp, pcView t))
      { cpuV [0x00] [0, 0, 0, 0, 0x00, 0x90] [] with p := Flags.ofByte 0 } =
      some ([(0x1FD, 0x30), (0x1FE, 0x02), (0x1FF, 0x80)], 0x04, 0xFC, 0x9000, 7) := by decide +kernel
-- CF17
theorem test_brk_sets_b : after (fun t => (t.ram, t.p.toByte, t.sp, pcView t))
      { cpuV [0x00] [0, 0, 0, 0, 0x00, 0x90] [] with
        p := Flags.ofByte 0, params := { Params.standard with brkPolicy := .viaIrqPath } } =
      some ([(0x1FD, 0x10), (0x1FE, 0x02), (0x1FF, 0x80)], 0x14, 0xFC, 0x9000, 7) := by decide +kernel
-- CF16, CF18
theorem test_brk_via_irq_path : after (fun t => (t.ram, t.sp, pcView t))
      { cpuV [0x00] [0, 0, 0, 0, 0x00, 0x90] [] with params := { Params.standard with brkPolicy := .viaIrqPath } } =
      some ([], 0xFF, 0x8002, 7) ∧
    after (fun t => (t.ram, t.p.toByte, t.sp, pcView t))
      { cpuV [0x00] [0, 0, 0, 0, 0x00, 0x90] [] with
        p := Flags.ofByte 4, params := { Params.standard with brkPolicy := .viaIrqPath } } =
      some ([(0x1FD, 0x14), (0x1FE, 0x02), (0x1FF, 0x80)], 0x14, 0xFC, 0x8002, 7) := by decide +kernel
-- CF19, CF20
theorem test_clc_sets : after (fun t => t.p.toByte) (withAP 0 0x01 (cpu [0x18] [])) = some 0x00 ∧
    after (fun t => t.p.toByte) (withAP 0 0x00 (cpu [0x38] [])) = some 0x01 ∧
    after (fun t => t.p.toByte) (withAP 0 0x00 (cpu [0x78] [])) = some 0x04 ∧
    after (fun t => t.p.toByte) (withAP 0 0x00 (cpu [0xF8] [])) = some 0x08 := by decide +kernel
-- CF21
theorem test_clears : after (fun t => t.p.toByte) (withAP 0 0x4C (cpu [0x58] [])) = some 0x48 ∧
    after (fun t => t.p.toByte) (withAP 0 0x4C (cpu [0xB8] [])) = some 0x0C ∧
    after (fun t => t.p.toByte) (withAP 0 0x4C (cpu [0xD8] [])) = some 0x44 := by decide +kernel
-- CF22
theorem test_nop : after State.traceTuple (cpu [0xEA] []) =
      some { a := 0, x := 0, y := 0, sp := 0xFF, pc := 0x8001, p := 0x10 } ∧
    after (fun t => t.cycles) (cpu [0xEA] []) = some 2 := by decide +kernel

/-- A table of two descriptors of its own: LDA zp,Y at 0xB7 and TAX in accumulator mode at 0xBB. -/
def ownTable : OpcodeTable := [rowOf 0xB7 .lda .zeroPageY, rowOf 0xBB .tax .accumulator]

/-- The start state under that table. -/
def own (code : List Byte) (ram : List (Nat × Byte)) : State :=
  { cpu code ram with params := { Params.standard with opcodes := ownTable } }

-- 40_engine.md R140, R141, R146: a descriptor runs its rule at its mode's operand and is charged its own cycles
theorem test_own_descriptor : after (fun t => (t.pc, accView t)) { own [0xB7, 0xF0] [(0x10, 0x80)] with y := 0x20 } =
      some (0x8002, 0x80, 0x90, 2) ∧
    after (fun t => (t.x, t.pc)) { own [0xBB] [] with a := 0x42 } = some (0x42, 0x8001) ∧
    after (fun t => t.run) (own [0xEA] []) = some (.halted (.unknownOpcode 0xEA 0x8000)) := by decide +kernel
/-- A handler of a table's own: push A as often as X says. -/
def pushLoop : HandlerProgram where
  limit := 20
  ops := [.jump (.op .eq (.get .x) (.lit 0)) 4, .push (.get .a), .set .x (.op .sub (.get .x) (.lit 1)), .jump (.lit 1) 0]

/-- A table of three handlers of its own. -/
def programTable : OpcodeTable :=
  [{ rowOf 0x02 .nop .absolute with handler := .program loadWordHandler },
   { rowOf 0x03 .nop .implied with handler := .program pushLoop },
   { rowOf 0x04 .nop .implied with handler := .program (exchangeHandler 0x2006 0x2007) }]

/-- The start state under that table. -/
def programs (code : List Byte) (ram : List (Nat × Byte)) : State :=
  { cpu code ram with params := { Params.standard with opcodes := programTable } }

-- 40_engine.md R140, R141: a handler of the table's own is performed operation by operation and charged its own cycles
theorem test_own_handler : after (fun t => (t.x, t.y, pcView t)) (programs [0x02, 0xFF, 0x00] [(0xFF, 0x11), (0x100, 0x22)]) =
      some (0x11, 0x22, 0x8003, 2) ∧
    after (fun t => (t.x, t.sp, t.ram)) { programs [0x03] [] with a := 0x42, x := 3, sp := 0x01 } =
      some (0, 0xFE, cells [(0x100, 0x42), (0x101, 0x42), (0x1FF, 0x42)]) := by decide +kernel
/-- Two steps of the CPU, the PPU having replied to the first's request. -/
def afterReply {α : Type} (f : State → α) (v : Byte) (s : State) : Option α :=
  match step s with
  | .next t => after f { t with script := [.cpu], ppuChan := { t.ppuChan with reads := [], results := [v] } }
  | .fault _ => none
  | .refused _ => none

-- 50_channel_protocol.md R262, R263: it queues its command once, then waits for its read; the reply ends it
theorem test_own_handler_waits :
    after (fun t => (t.run, t.ppuChan)) { programs [0x04] [] with a := 0x3F } =
      some (.awaitRead (.ppu .busData), { writes := [.reg .busAddr 0x3F], reads := [.busData], results := [] }) ∧
    afterReply (fun t => (t.run, t.ppuChan.writes)) 0x99 { programs [0x04] [] with a := 0x3F } =
      some (.running, [.reg .busAddr 0x3F]) ∧
    afterReply (fun t => (t.a, t.paused, pcView t)) 0x99 { programs [0x04] [] with a := 0x3F } =
      some (0x99, none, 0x8001, 2) := by decide +kernel
-- 40_engine.md R161: the tuple is that before the instruction; none is recorded by an entry, the next one is the handler's
theorem test_trace : after State.trace { cpu [0xA9, 0x80] [] with a := 0x07 } =
      some [{ a := 0x07, x := 0, y := 0, sp := 0xFF, pc := 0x8000, p := 0x10 }] ∧
    after State.trace { cpu [] [] with resetRequest := true } = some [] := by decide +kernel

/-! ### Entries and faults -/

-- IN1: the first step from power-on
theorem test_power_on_reset : after (fun t => (State.traceTuple t, t.cycles))
      { State.reset with script := [.cpu], cart := { State.reset.cart with prg := [(0x3FFD, 0x80)] } } =
    some ({ a := 0, x := 0, y := 0, sp := 0, pc := 0x8000, p := 0x10 }, 7) := by decide +kernel

/-- The start of the interrupt vectors: PC = 0x8123, SP = 0xFF, NMI, reset and IRQ vectors 0xB000, 0x9000, 0xA000, NOPs at
the entry points and at PC. -/
def irqStart (p : Byte) : State :=
  { cpu [] [] with
    pc := 0x8123, p := Flags.ofByte p
    cart := { State.reset.cart with
      prg := cells [(0x0123, 0xEA), (0x2000, 0x40), (0x3000, 0xEA), (0x3FFA, 0x00), (0x3FFB, 0xB0),
        (0x3FFC, 0x00), (0x3FFD, 0x90), (0x3FFE, 0x00), (0x3FFF, 0xA0)] } }

-- IN2, IN3
theorem test_irq : after pcView { irqStart 0x10 with irqLine := true } = some (0x8124, 2) ∧
    after (fun t => (t.ram, t.p.toByte, t.sp, pcView t)) { irqStart 0x00 with irqLine := true } =
      some ([(0x1FD, 0x10), (0x1FE, 0x23), (0x1FF, 0x81)], 0x14, 0xFC, 0xA000, 7) := by decide +kernel
-- IN4: the masked entry, and the boundary after it
theorem test_irq_masked : after (fun t => (t.ram, t.p.toByte, t.sp, pcView t)) { irqStart 0x04 with irqLine := true } =
      some ([(0x1FD, 0x14), (0x1FE, 0x23), (0x1FF, 0x81)], 0x14, 0xFC, 0x8123, 7) ∧
    afterTwo pcView { irqStart 0x04 with irqLine := true } = some (0x8124, 9) := by decide +kernel
-- IN5
theorem test_nmi : after (fun t => (t.ram, t.p.toByte, t.sp, pcView t)) { irqStart 0x14 with vblankStart := [true] } =
      some ([(0x1FD, 0x14), (0x1FE, 0x23), (0x1FF, 0x81)], 0x14, 0xFC, 0xB000, 7) := by decide +kernel
-- IN6: NMI first, then the masked IRQ
theorem test_nmi_then_irq : afterTwo (fun t => (t.ram, t.p.toByte, t.sp, pcView t))
      { irqStart 0x00 with vblankStart := [true], irqLine := true } =
      some ([(0x1FA, 0x14), (0x1FC, 0xB0), (0x1FE, 0x23), (0x1FF, 0x81)], 0x14, 0xF9, 0xB000, 14) := by decide +kernel
-- IN7, IN8: polled, no NMI
theorem test_poll_without_nmi : after (fun t => (t.vblankStart, pcView t)) { irqStart 0x10 with vblankStart := [false] } =
      some ([], 0x8124, 2) ∧
    after (fun t => (t.vblankStart, pcView t))
      { irqStart 0x10 with vblankStart := [true], params := { Params.standard with nmiWired := false } } =
      some ([], 0x8124, 2) := by decide +kernel
-- IN9
theorem test_poll_other_signals : after (fun t => (t.vblankEnd, t.frameEnd, pcView t))
      { irqStart 0x10 with vblankEnd := 1, frameEnd := 1 } = some (0, 0, 0x8124, 2) := by decide +kernel
-- IN10
theorem test_rti_after_irq : afterTwo (fun t => (t.p.toByte, t.sp, t.pc)) { irqStart 0x00 with irqLine := true } =
    some (0x10, 0xFF, 0x8123) := by decide +kernel
-- IN11
theorem test_unknown_opcode : after (fun t => (t.run, t.pc, t.cycles)) (cpu [0x02] []) =
    some (.halted (.unknownOpcode 0x02 0x8000), 0x8001, 0) := by decide +kernel
-- IN12
theorem test_shutdown : after (fun t => (t.run, t.pc)) { cpu [0xEA] [] with shutdown := true } =
    some (.exited, 0x8000) := by decide +kernel
-- IN13
theorem test_reset_request : after (fun t => (t.sp, t.p.toByte, t.resetRequest, pcView t))
      { irqStart 0x04 with sp := 0xF0, resetRequest := true } = some (0xF0, 0x04, false, 0x9000, 7) := by decide +kernel

/-! ### The bus, the cartridge and the channels -/

-- M1, M12
theorem test_channel_stores : after (fun t => t.ppuChan.writes) { cpu [0x8D, 0x56, 0x34] [] with a := 0x80 } =
      some [.reg .busAddr 0x80] ∧
    after (fun t => t.apuChan.writes) { cpu [0x8D, 0x00, 0x40] [] with a := 0x3F } = some [(.pulse1Env, 0x3F)] := by decide +kernel
-- M3, M13: no target, a draw
theorem test_no_target : after (fun t => (t.ppuChan.reads, t.apuChan.reads, t.draws, t.run)) (cpu [0xAD, 0x00, 0x50] []) =
      some ([], [], 1, .running) ∧
    after (fun t => (t.apuChan.reads, t.draws, t.run)) (cpu [0xAD, 0x17, 0x40] []) = some ([], 1, .running) := by decide +kernel
-- M4: the identity mapping, modulo the size
theorem test_identity_mapping : after (fun t => t.a) (cpu [0xAD, 0x05, 0x80, 0, 0, 0x77] []) = some 0x77 ∧
    after (fun t => t.a) (cpu [0xAD, 0x05, 0xC0, 0, 0, 0x77] []) = some 0x77 := by decide +kernel

/-- A cartridge of four banks under the mapper table of E2. -/
def banked (code : List (Nat × Byte)) : State :=
  { cpu [] [] with
    pc := 0xC000, params := { Params.standard with mapperTable := [(2, e2)] }
    cart := { prg := cells code, prgSize := 65536, mapperId := 2, mappings := [] } }

-- M6, M7: the bank, and modulo the number of banks
theorem test_bank_switch : after (fun t => t.cart.mappings)
      { banked [(0x4000, 0x8D), (0x4002, 0x80)] with a := 0x02 } = some [⟨0x8000, 0x4000, 0x8000⟩] ∧
    after (fun t => t.cart.mappings) { banked [(0x4000, 0x8D), (0x4002, 0x80)] with a := 0x05 } =
      some [⟨0x8000, 0x4000, 0x4000⟩] := by decide +kernel
-- M8, M9: the newest mapping wins; outside the source range the identity holds
theorem test_bank_read : after (fun t => t.a)
      { banked [(0x4000, 0xAD), (0x4002, 0x80), (0x8000, 0xB2)] with
        cart := { (banked [(0x4000, 0xAD), (0x4002, 0x80), (0x8000, 0xB2), (0xC000, 0xB3)]).cart with
          mappings := [⟨0x8000, 0x4000, 0xC000⟩, ⟨0x8000, 0x4000, 0x8000⟩] } } = some 0xB3 ∧
    after (fun t => t.a) (banked [(0x4000, 0xAD), (0x4002, 0xC0)]) = some 0xAD := by decide +kernel
-- M11: one command, the extra cycles
theorem test_oam_dma : after (fun t => (t.ppuChan.writes.length, t.cycles)) { cpu [0x8D, 0x14, 0x40] [] with a := 0x02 } =
    some (1, 517) := by decide +kernel

/-- The PPU after commands. -/
def applied (ws : List PpuWrite) (p : Ppu) : Ppu := ws.foldl Ppu.applyWrite p

/-- The PPU at power-on, with vertical mirroring. -/
def ppu0 : Ppu := { State.reset.ppu with mirroring := .vertical }

-- M11's PPU side: oam[(4 + i) mod 256] = i
theorem test_oam_dma_wraps : (applied [.reg .oamAddr 4, .oamDma ((List.range 256).map (BitVec.ofNat 8))] ppu0).oam.read 3 =
    0xFF ∧
    (applied [.reg .oamAddr 4, .oamDma ((List.range 256).map (BitVec.ofNat 8))] ppu0).oamAddr = 4 := by decide +kernel

/-- The PPU's turn. -/
def ppuTurn (s : State) : State := { s with script := [.ppu] }

-- CH2: one tick applies one write, then answers the read at the half-written address
theorem test_read_overtakes_write : after (fun t => (t.ppuChan.writes, t.ppuChan.reads, t.ppuChan.results, t.ppu.vaddr))
      (ppuTurn { State.reset with
        ppu := { ppu0 with readBuffer := 0x99, cycle := 0, scanline := 0 }
        ppuChan := { writes := [.reg .busAddr 0x21, .reg .busAddr 0x08], reads := [.busData], results := [] } }) =
    some ([.reg .busAddr 0x08], [], [0x99], 0x2101) := by decide +kernel
-- CH4, CH5: nothing is sent to a PPU that has gone; a read of it waits
theorem test_peer_gone : after (fun t => (t.ppuChan.writes, t.run)) { cpu [0x8D, 0x00, 0x20] [] with alivePpu := false } =
      some ([], .running) ∧
    after (fun t => (t.ppuChan.reads, t.run)) { cpu [0xAD, 0x02, 0x20] [] with alivePpu := false } =
      some ([], .awaitRead (.ppu .status)) := by decide +kernel
-- CH6: in lockstep the read follows the writes
theorem test_lockstep_read : after (fun t => (t.a, t.ppu.vaddr, t.ppuChan.reads, t.run))
      { cpu [0xAD, 0x07, 0x20] [] with
        params := { Params.standard with syncMode := .lockstep }
        ppu := { ppu0 with vaddr := 0x2108, readBuffer := 0x99, cycle := 0, scanline := 0 } } =
    some (0x99, 0x2109, [], .running) := by decide +kernel

-- PP1, PP2
theorem test_ppu_bus_addr : (applied [.reg .busAddr 0x21, .reg .busAddr 0x08] ppu0).vaddr = 0x2108 ∧
    (applied [.reg .busAddr 0xFF, .reg .busAddr 0x00] ppu0).vaddr = 0x3F00 := by decide +kernel
-- PP3, PP4
theorem test_ppu_bus_data : (applied [.reg .busAddr 0x21, .reg .busAddr 0x08, .reg .busData 0xAA] ppu0).vram = [(0x108, 0xAA)] ∧
    (applied [.reg .ctrl 0x04, .reg .busAddr 0x20, .reg .busAddr 0x00, .reg .busData 0x01] ppu0).vaddr = 0x2020 := by decide +kernel
-- PP5, PP6
theorem test_ppu_mirroring : ppuCell .horizontal 0x2400 = .vram 0 ∧ ppuCell .horizontal 0x2800 = .vram 0x400 ∧
    ppuCell .horizontal 0x2C05 = .vram 0x405 ∧ ppuCell .vertical 0x2800 = .vram 0 ∧
    ppuCell .vertical 0x2400 = .vram 0x400 ∧ ppuCell .vertical 0x3005 = .vram 5 := by decide +kernel
-- PP7, PP9
theorem test_ppu_read_buffer : (({ ppu0 with vaddr := 0x2000, readBuffer := 0x99, vram := [(0, 0x11), (1, 0x22)] } :
        Ppu).applyRead true 0 .busData).1 = 0x99 ∧
    (({ ppu0 with vaddr := 0x2001, readBuffer := 0x11, vram := [(0, 0x11), (1, 0x22)] } : Ppu).applyRead true 0
        .busData).2.readBuffer = 0x22 ∧
    (({ ppu0 with vaddr := 0x3F00, palette := [(0, 0x0F)] } : Ppu).applyRead true 0 .busData).1 = 0x0F := by decide +kernel
-- PP10, PP11
theorem test_ppu_palette : (applied [.reg .busAddr 0x3F, .reg .busAddr 0x10, .reg .busData 0x21] ppu0).palette = [(0, 0x21)] ∧
    ppuCell .vertical 0x3F20 = .palette 0 ∧
    (applied [.reg .busAddr 0x3F, .reg .busAddr 0x05, .reg .busData 0xC5] ppu0).palette = [(5, 0xC5)] := by decide +kernel
-- PP12, PP16
theorem test_ppu_wrap_and_shared_latch : (({ ppu0 with vaddr := 0x3FFF } : Ppu).applyWrite (.reg .busData 1)).vaddr = 0 ∧
    (applied [.reg .scroll 0x10, .reg .busAddr 0x05] ppu0).vaddr = 0x0005 := by decide +kernel
-- PP13
theorem test_ppu_status : (({ ppu0 with status := ⟨true, true, false⟩, latch := .second } : Ppu).applyRead true 0x1F
      .status) = (0xDF, { ppu0 with status := ⟨false, true, false⟩, latch := .first }) := by decide +kernel
-- PP17
theorem test_ppu_oam_data : (applied [.reg .oamAddr 0xFF, .reg .oamData 0x12] ppu0).oam = [(0xFF, 0x12)] ∧
    (applied [.reg .oamAddr 0xFF, .reg .oamData 0x12] ppu0).oamAddr = 0 := by decide +kernel
-- PP21
theorem test_ppu_chr_rom : (({ ppu0 with chrRam := false } : Ppu).applyWrite (.reg .busData 0x55)) =
    { ppu0 with chrRam := false, vaddr := 1 } := by decide +kernel

-- CL1
theorem test_frame_start : (advanceClock State.reset).ppu.scanline = 0 ∧ (advanceClock State.reset).vblankEnd = 1 := by
  decide +kernel
-- CL2
theorem test_vblank_start : (fun t : State => (t.ppu.scanline, t.ppu.status.vblank, t.vblankStart, t.frameEnd,
      t.framesOut.length)) (advanceClock { State.reset with
        ppu := { ppu0 with scanline := 240, cycle := 340, ctrl := 0x80 } }) = (241, true, [true], 1, 1) := by decide +kernel
-- CL3
theorem test_hit_row : (advanceClock { State.reset with
    ppu := { ppu0 with scanline := 0, cycle := 340, hitRow := some 1 } }).ppu.status.spr0Hit = true := by decide +kernel

/-- The common setup of the sprite vectors. -/
def sprites (oam : List (Nat × Byte)) (vram : List (Nat × Byte)) : Ppu :=
  { ppu0 with
    mask := 0x1E, chrRam := false
    chr := cells (((List.range 8).map fun r => (16 + r, 0xFF)) ++ ((List.range 8).map fun r => (32 + r, 0x80)))
    oam := cells (((List.range 64).map fun i => (4 * i, 0xFF)) ++ oam), vram := cells vram }

-- S1, S3
theorem test_detector :
    (sprites [(0, 0x1F), (1, 1), (3, 0x10), (4, 0x1F), (5, 1), (6, 0x20), (7, 0x40)] []).detect Params.standard = none ∧
    (sprites [(0, 0x1F), (1, 1), (3, 0x10)] [(0x82, 1)]).detect Params.standard = some 32 := by decide +kernel
-- S2, with the parameter
theorem test_detector_back_sprites :
    (sprites [(0, 0x1F), (1, 1), (3, 0x10), (4, 0x1F), (5, 1), (6, 0x20), (7, 0x14)] []).detect
      { Params.standard with sprite0BgIncludesBackSprites := true } = some 32 := by decide +kernel
-- S6, and without the flip
theorem test_detector_flip :
    (sprites [(0, 0x1F), (1, 2), (2, 0x40), (3, 0x0F)] [(0x82, 1)]).detect Params.standard = some 32 ∧
    (sprites [(0, 0x1F), (1, 2), (3, 0x0F)] [(0x82, 1)]).detect Params.standard = none := by decide +kernel
-- S7, S8: past the edges
theorem test_detector_edges :
    (sprites [(0, 0xEF), (1, 1), (3, 0xFC)] ((List.range 0x3C0).map fun k => (k, 1))).detect Params.standard = none ∧
    ({ sprites [(0, 0xFF), (1, 1)] ((List.range 0x3C0).map fun k => (k, 1)) with ctrl := 0x20 } : Ppu).detect
      Params.standard = none := by decide +kernel
-- S10: 16 tall
theorem test_tall_sprite : (fun p : Ppu => (p.spriteTable 0x03, p.spriteTile 0x03 0, p.spriteTile 0x03 8,
      p.spriteRow { y := 0, tile := 3, palette := 0, background := false, flipH := false, flipV := true, x := 0, isZero := true } 0))
    { ppu0 with ctrl := 0x20 } = (0x1000, 0x02, 0x03, 15) := by decide +kernel
-- 51_ppu.md R320: record 0, and record 1
theorem test_sprite_records : (sprites [(0, 0x1F), (1, 1), (2, 0xE1), (3, 0x10)] []).sprite 1 0 =
      { y := 0x20, tile := 1, palette := 1, background := true, flipH := true, flipV := true, x := 0x10, isZero := true } ∧
    ((sprites [] []).sprite 1 1).isZero = false := by decide +kernel
-- S11, S12
theorem test_pixel_layers :
    ({ sprites [(0, 0x1F), (1, 1), (2, 0x01), (3, 0x10)] [(0x82, 1)] with palette := [(0, 3), (1, 7), (0x15, 0x2A)] } :
      Ppu).pixel Params.standard 16 32 = 0x2A ∧
    ({ sprites [(0, 0x1F), (1, 1), (2, 0x21), (3, 0x10)] [(0x82, 1)] with palette := [(0, 3), (1, 7), (0x15, 0x2A)] } :
      Ppu).pixel Params.standard 16 32 = 7 := by decide +kernel
-- S13
theorem test_pixel_left_columns :
    ({ sprites [(0, 0x1F), (1, 1), (2, 0x01), (3, 0x04)] [] with mask := 0x1A, palette := [(0, 3), (0x15, 0x2A)] } :
      Ppu).pixel Params.standard 7 32 = 3 ∧
    ({ sprites [(0, 0x1F), (1, 1), (2, 0x01), (3, 0x04)] [] with mask := 0x1A, palette := [(0, 3), (0x15, 0x2A)] } :
      Ppu).pixel Params.standard 8 32 = 0x2A := by decide +kernel

-- J1, J2: the fourth read
theorem test_joypad : (joypadReads 4 (applied [.reg .joypad 1] { ppu0 with buttons := 0x01 })).readJoypad.1 = 1 ∧
    (joypadReads 3 (applied [.reg .joypad 1, .reg .joypad 0] { ppu0 with buttons := 0x89 })).readJoypad.1 = 1 ∧
    (joypadReads 4 (applied [.reg .joypad 1, .reg .joypad 0] { ppu0 with buttons := 0x89 })).readJoypad.1 = 0 := by decide +kernel

-- a step runs a table word right after reset: LDA #$12 then PC = 2
theorem test_with_fetch_word : after (fun t => (t.a, t.pc)) (State.reset.withFetchWord 16 0x12A9) = some (0x12, 2) := by
  decide +kernel

/-! ## Witnesses: each obligation's hypotheses are met, at a boundary value where a clause has one -/

theorem witness_DecodeInvertsEncode : OpcodeTable.standard.wf = true ∧
    (Instr.ldaAbsX 0xFFFF).wf OpcodeTable.standard = true ∧ Instr.brk.wf OpcodeTable.standard = true ∧
    ownTable.wf = true ∧ (ownTable.rowFor (.rule .lda) (Operand.zeroPageY 0xFF).mode).isSome = true ∧
    Instr.ofParts .lda (.zeroPageY 0xFF) = none ∧
    (OpcodeTable.rowFor [{ rowOf 0x00 .nop .absolute with handler := .program pushLoop }] (.program pushLoop)
      (Operand.absolute 0xFFFF).mode).isSome = true := by decide +kernel

theorem witness_DecodingFollowsTheDescriptor :
    decode OpcodeTable.standard [0xBD, 0xFF, 0x12, 0xEA] = .instr (.ldaAbsX 0x12FF) [0xEA] ∧
    decode OpcodeTable.standard [0xEA] = .instr .nop [] ∧
    decode ownTable [0xB7, 0xFF, 0xEA] = .form (.rule .lda) (.zeroPageY 0xFF) [0xEA] := by decide +kernel

theorem witness_StandardTableEncodesEveryInstruction :
    (encode OpcodeTable.standard (.ldaAbsX 0xFFFF)).head? = some 0xBD ∧
    (encode OpcodeTable.standard .brk).head? = some 0x00 := by decide +kernel

-- a three-byte instruction, one in RAM through a mirror, and one that will wait on the PPU
theorem witness_StepRunsTheDecodedInstruction :
    (cpu [0xBD, 0xFF, 0x12] []).ReadyToExecute ∧
    (cpu [0xBD, 0xFF, 0x12] []).memoryBytes 3 0x8000 = some [0xBD, 0xFF, 0x12] ∧
    decode Params.standard.opcodes [0xBD, 0xFF, 0x12] = .instr (.ldaAbsX 0x12FF) [] ∧
    ({ cpu [] [(0x7FF, 0xEA)] with pc := 0x1FFF } : State).ReadyToExecute ∧
    (cpu [] [(0x7FF, 0xEA)]).memoryBytes 1 0x1FFF = some [0xEA] ∧
    (cpu [0xAD, 0x02, 0x20] []).ReadyToExecute ∧
    (cpu [0xAD, 0x02, 0x20] []).memoryBytes 3 0x8000 = some [0xAD, 0x02, 0x20] ∧
    (own [0xB7, 0x10] []).ReadyToExecute ∧ (own [0xB7, 0x10] []).memoryBytes 2 0x8000 = some [0xB7, 0x10] ∧
    decode (own [] []).params.opcodes [0xB7, 0x10] = .form (.rule .lda) (.zeroPageY 0x10) [] ∧
    (∀ b, b ∈ [(0xBD : Byte), 0xEA, 0xAD] → (OpcodeTable.standard.descriptor b).isSome = true) ∧
    ownTable.descriptor 0xB7 = some (rowOf 0xB7 .lda .zeroPageY) := by
  refine ⟨?_, ?_, ?_, ?_, ?_, ?_, ?_, ?_, ?_, ?_, ?_, ?_⟩ <;> decide +kernel

-- bytes read in the cartridge, one at an address without target, which is a draw, and a reply kept in `feed`
theorem witness_StepRunsTheDecodedInstruction_fetched :
    (∃ u, Fetches (started (cpu [0xBD, 0xFF, 0x12] [])) [0xBD, 0xFF, 0x12] u) ∧
    (∃ u, Fetches (started (own [0xB7, 0x10] [])) [0xB7, 0x10] u) ∧
    readTarget ({ cpu [] [] with pc := 0x4018 } : State).pc = .noTarget ∧
    ({ cpu [] [] with pc := 0x4018 } : State).feed = [] ∧
    ({ cpu [] [] with pc := 0x4018 } : State).ReadyToExecute ∧
    (∃ b u, Fetches (started { cpu [] [] with pc := 0x4018 }) [b] u) ∧
    ∃ u, Fetches { cpu [] [] with pc := 0x2000, feed := [0xEA] } [0xEA] u :=
  ⟨⟨_, Fetches.of_memoryBytes rfl rfl⟩, ⟨_, Fetches.of_memoryBytes rfl rfl⟩, rfl, rfl, by decide +kernel,
    ⟨_, _, _, rfl, rfl⟩, ⟨_, _, rfl, rfl⟩⟩

-- each clause; a pointer at the end of a page, with its high byte at the page's start
theorem witness_EveryDescriptorExecutes :
    Mnemonic.lda ∈ readingMnemonics ∧ operandByte (.zeroPageY 0xFF) (own [] [(0xFF, 0x42)]) = some 0x42 ∧
    operandByte .accumulator (own [] []) = some 0x00 ∧
    resolve (.indexedIndirect 0xFF) (own [] [(0xFF, 0x13), (0x00, 0x40)]) = .addr 0x4013 ∧
    Mnemonic.stx ∈ storingMnemonics ++ modifyingMnemonics ++
      [.bpl, .bmi, .bvc, .bvs, .bcc, .bcs, .bne, .beq, .jmp, .jsr] ∧ (0x4013 : Word) ≠ 0x4014 ∧
    Mnemonic.stx ∉ modifyingMnemonics ∧ Mnemonic.asl ∈ modifyingMnemonics ∧ Mnemonic.asl ∉ storingMnemonics ∧
    resolve (.absoluteY 0x1FFF) (own [] []) = .addr 0x1FFF ∧ ((own [] []).memoryByte 0x1FFF).isSome = true ∧
    Mnemonic.jsr ∉ storingMnemonics ∧ Mnemonic.jsr ∉ modifyingMnemonics ∧
    (Mnemonic.bcs, (own [] []).p.c) ∈ [(Mnemonic.bpl, !(own [] []).p.n), (Mnemonic.bmi, (own [] []).p.n),
      (Mnemonic.bvc, !(own [] []).p.v), (Mnemonic.bvs, (own [] []).p.v), (Mnemonic.bcc, !(own [] []).p.c),
      (Mnemonic.bcs, (own [] []).p.c), (Mnemonic.bne, !(own [] []).p.z), (Mnemonic.beq, (own [] []).p.z)] ∧
    Mnemonic.tax ∈ operandFreeMnemonics ∧ Mnemonic.nop ∈ operandFreeMnemonics ∧
    (∀ ptr, Operand.accumulator ≠ .indirect ptr) ∧
    (own [] [(0x2FF, 0x11), (0x200, 0x90)]).memoryByte 0x02FF = some 0x11 ∧
    (own [] [(0x2FF, 0x11), (0x200, 0x90)]).memoryByte
      (if (own [] []).params.jmpIndPageBug then ((0x02FF : Word) &&& 0xFF00) ||| (((0x02FF : Word) + 1) &&& 0x00FF)
        else (0x02FF : Word) + 1) = some 0x90 ∧
    (resolve (.absoluteX 0xFFFE) { programs [] [(0, 0x22)] with x := 1 } = .addr 0xFFFF ∧
      (programs [] [(0, 0x22)]).memoryByte 0xFFFF = some 0x00 ∧
      (programs [] [(0, 0x22)]).memoryByte (0xFFFF + 1) = some 0x22 ∧ (programs [] []).paused = none) ∧
    (resolve (.absolute 0x1FFE) (programs [] []) = .addr 0x1FFE ∧ (0x1FFE : Word).toNat + 1 < 0x2000) ∧
    (writeTarget 0x3FFE = .ppu .busAddr ∧ requestAt 0x4015 = some (.apu .statusEnable) ∧
      requestAt 0x2007 = some (.ppu .busData) ∧ (programs [] []).params.syncMode = .async ∧
      (programs [] []).alivePpu = true ∧ (programs [] []).feed = [] ∧
      (∃ s : State, s.paused = some { operand := .nothing, next := 1, temps := [] } ∧ s.feed = [0x99] ∧
        s.params.syncMode = .async ∧ s.alivePpu = true)) ∧
    allReturned { own [] [] with run := .halted (.unknownOpcode 0x02 0x8000) } = false := by
  refine ⟨?_, ?_, ?_, ?_, ?_, ?_, ?_, ?_, ?_, ?_, ?_, ?_, ?_, ?_, ?_, ?_, (fun ptr h => nomatch h), ?_, ?_, ?_, ?_,
    ⟨?_, ?_, ?_, ?_, ?_, ?_, { programs [] [] with
      paused := some { operand := .nothing, next := 1, temps := [] }, feed := [0x99] }, rfl, rfl, rfl, rfl⟩, ?_⟩ <;> decide +kernel

-- a pointer across the RAM window's end under the page wrap: one byte in RAM, one kept from a reply; and one drawn
theorem witness_EveryDescriptorExecutes_indirect :
    (∃ lo hi t u, ({ cpu [] [] with feed := [0x42] } : State).paused = none ∧
      busRead 0x1F00 { cpu [] [] with feed := [0x42] } = .done lo t ∧ busRead 0x2000 t = .done hi u) ∧
    ∃ lo hi t u, busRead 0x40FF (cpu [] []) = .done lo t ∧
      busRead (if (cpu [] []).params.jmpIndPageBug then ((0x40FF : Word) &&& 0xFF00) ||| (((0x40FF : Word) + 1) &&& 0x00FF)
        else (0x40FF : Word) + 1) { t with feed := [0x80] } = .done hi u :=
  ⟨⟨_, _, _, _, rfl, rfl, rfl⟩, ⟨_, _, _, _, rfl, rfl⟩⟩

theorem witness_UnknownOpcodeHaltsTheCpu : (cpu [0x02] []).ReadyToExecute ∧
    (cpu [0x02] []).memoryByte 0x8000 = some 0x02 ∧ Params.standard.opcodes.descriptor 0x02 = none ∧
    ({ cpu [] [] with run := .halted (.unknownOpcode 0xFF 0xFFFF) } : State).run = .halted (.unknownOpcode 0xFF 0xFFFF) := by
  decide +kernel

-- a byte drawn at an address without target, under a table without descriptors
theorem witness_UnknownOpcodeHaltsTheCpu_fetched :
    ({ own [] [] with pc := 0x4018, params := { Params.standard with opcodes := [] } } : State).ReadyToExecute ∧
    ∃ b u, Fetches (started { own [] [] with pc := 0x4018, params := { Params.standard with opcodes := [] } }) [b] u ∧
      OpcodeTable.descriptor [] b = none :=
  ⟨by decide +kernel, ⟨_, _, ⟨_, rfl, rfl⟩, rfl⟩⟩

-- an immediate byte, a wrapped zero-page address, an address that wraps past 0xFFFF, and a cartridge byte
theorem witness_LoadResult :
    operandByte (Instr.ldaImm 0x80).operand (cpu [] []) = some 0x80 ∧ (Instr.ldaImm 0x80).mnemonic = .lda ∧
    operandByte (Instr.ldxZpY 0xFF).operand { cpu [] [(1, 0x80)] with y := 2 } = some 0x80 ∧
    (Instr.ldxZpY 0xFF).mnemonic = .ldx ∧
    operandByte (Instr.ldyAbsX 0xFFFF).operand { cpu [] [(0, 0x0F)] with x := 1 } = some 0x0F ∧
    (Instr.ldyAbsX 0xFFFF).mnemonic = .ldy ∧
    operandByte (Instr.ldaAbs 0x8000).operand (cpu [0xEA] []) = some 0xEA := by decide +kernel

/-- The value and the state of a completed computation. -/
def doneWith {α : Type} (r : Res α) : Option (α × State) :=
  match r with
  | .done a t => some (a, t)
  | .wait _ _ => none

-- from RAM, and from a channel whose reply is at hand
theorem witness_EveryReadingFormActsOnTheByteRead :
    Mnemonic.adc ∈ readingMnemonics ∧ Mnemonic.bit ∈ readingMnemonics ∧
    (Instr.adcZp 0x10).mnemonic = .adc ∧ Instr.ofParts .adc (.immediate 0x42) = some (.adcImm 0x42) ∧
    (doneWith (operandRead (Instr.adcZp 0x10).operand (cpu [] [(0x10, 0x42)]))).map (·.1) = some 0x42 ∧
    (Instr.bitAbs 0x2002).mnemonic = .bit ∧
    (doneWith (operandRead (Instr.bitAbs 0x2002).operand { cpu [] [] with feed := [0xC0] })).map (·.1) = some 0xC0 ∧
    effectiveAddress (.zeroPageX 0xFF) { cpu [] [] with x := 0xFF } = some (0xFE, false) ∧
    effectiveAddress (.absoluteX 0xFFFF) { cpu [] [] with x := 0xFF } = some (0x00FE, true) ∧
    effectiveAddress (.indexedIndirect 0xFE) { cpu [] [(0xFF, 0x34), (0x00, 0x12)] with x := 0x01 } = some (0x1234, false) ∧
    effectiveAddress (.indirectIndexed 0xFF) { cpu [] [(0xFF, 0xFF), (0x00, 0x12)] with y := 0x01 } = some (0x1300, true) := by
  decide +kernel

-- both ends of the PPU window, and both agents
theorem witness_ChannelReadSuspendsTheCpu :
    Mnemonic.lda ∈ readingMnemonics ++ modifyingMnemonics ∧ Mnemonic.ror ∈ readingMnemonics ++ modifyingMnemonics ∧
    resolve (Instr.ldaAbs 0x2000).operand (cpu [] []) = .addr 0x2000 ∧ requestAt 0x2000 = some (.ppu .ctrl) ∧
    resolve (Instr.rorAbs 0x3FFF).operand (cpu [] []) = .addr 0x3FFF ∧ requestAt 0x3FFF = some (.ppu .busData) ∧
    requestAt 0x4016 = some (.ppu .joypad) ∧ requestAt 0x4015 = some (.apu .statusEnable) ∧
    requestAt 0x4000 = some (.apu .pulse1Env) ∧
    (cpu [] []).params.syncMode = .async ∧ (cpu [] []).feed = [] ∧ (cpu [] []).log = [] ∧
    (cpu [] []).alivePpu = true ∧ ({ cpu [] [] with alivePpu := false } : State).alivePpu = false := by decide +kernel

-- both pointer bytes behind the channel; the high byte alone, after a byte kept or drawn, or after one of RAM in the
-- variant without page wrap
theorem witness_ChannelReadSuspendsTheCpu_pointer :
    (0x3F00 : Word) = (if (cpu [] []).params.jmpIndPageBug then ((0x3FFF : Word) &&& 0xFF00) ||| ((0x3FFF + 1) &&& 0x00FF)
      else 0x3FFF + 1) ∧
    requestAt 0x3FFF = some (.ppu .busData) ∧ requestAt 0x3F00 = some (.ppu .ctrl) ∧
    ({ cpu [] [] with feed := [0x11] } : State).memoryByte 0x3FFF = none ∧
    ({ cpu [] [] with feed := [0x11] } : State).feed = [0x11] ∧
    (0x2000 : Word) = (if false = true then ((0x1FFF : Word) &&& 0xFF00) ||| ((0x1FFF + 1) &&& 0x00FF) else 0x1FFF + 1) ∧
    (cpu [] [(0x7FF, 0x42)]).memoryByte 0x1FFF = some 0x42 ∧ requestAt 0x2000 = some (.ppu .ctrl) ∧
    (∃ lo t, busRead 0x3FFF { cpu [] [] with feed := [0x11] } = .done lo t ∧ t.feed = []) ∧
    (0x4000 : Word) = (if (cpu [] []).params.jmpIndPageBug then ((0x40FF : Word) &&& 0xFF00) ||| ((0x40FF + 1) &&& 0x00FF)
      else 0x40FF + 1) ∧
    (∃ lo t, busRead 0x40FF (cpu [] []) = .done lo t ∧ t.feed = []) ∧ requestAt 0x4000 = some (.apu .pulse1Env) := by
  refine ⟨?_, ?_, ?_, ?_, ?_, ?_, ?_, ?_, ⟨_, _, rfl, rfl⟩, ?_, ⟨_, _, rfl, rfl⟩, ?_⟩ <;> decide +kernel

-- the opcode byte itself, and an operand byte after one fetched from RAM
theorem witness_ChannelReadSuspendsTheCpu_fetch :
    ({ cpu [] [] with pc := 0x2000 } : State).ReadyToExecute ∧
    (∃ u, Fetches (started { cpu [] [] with pc := 0x2000 }) [] u ∧ requestAt u.pc = some (.ppu .ctrl)) ∧
    (∀ k, k ≤ 0 → decode Params.standard.opcodes (([] : List Byte).take k) = .needMore) ∧
    ({ cpu [] [(0x7FF, 0xA9)] with pc := 0x1FFF } : State).ReadyToExecute ∧
    (∃ u, Fetches (started { cpu [] [(0x7FF, 0xA9)] with pc := 0x1FFF }) [0xA9] u ∧
      requestAt u.pc = some (.ppu .ctrl)) ∧
    (∀ k, k ≤ 1 → decode Params.standard.opcodes (([0xA9] : List Byte).take k) = .needMore) := by
  refine ⟨by decide +kernel, ⟨_, rfl, rfl⟩, fun k _ => by rw [List.take_nil]; rfl, by decide +kernel, ⟨_, ⟨_, rfl, rfl⟩, rfl⟩,
    fun k hk => ?_⟩
  match k, hk with
  | 0, _ => rfl
  | 1, _ => rfl

/-- A CPU awaiting the reply of a read for the given work, the reply 0x80 being there. -/
def awaitingReply (r : ReadRequest) (w : Work) : State :=
  { cpu [] [(0x7FF, 0xA5)] with
    run := .awaitRead r, work := w
    ppuChan := { writes := [], reads := [], results := [0x80] }
    apuChan := { writes := [], reads := [], results := [0x80] } }

theorem witness_ReplyResumesTheInstruction :
    nextMove (awaitingReply (.ppu .status) (.execute 0xAD (.instr (.ldaAbs 0x2002)))) = .cpu ∧
    (awaitingReply (.ppu .status) (.execute 0xAD (.instr (.ldaAbs 0x2002)))).run = .awaitRead (.ppu .status) ∧
    (awaitingReply (.ppu .status) (.execute 0xAD (.instr (.ldaAbs 0x2002)))).stuck = false ∧
    resultsFor (.ppu .status) (awaitingReply (.ppu .status) (.execute 0xAD (.instr (.ldaAbs 0x2002)))) = [0x80] ∧
    (awaitingReply (.ppu .status) (.execute 0xAD (.instr (.ldaAbs 0x2002)))).work =
      .execute 0xAD (.instr (.ldaAbs 0x2002)) ∧
    resultsFor (.apu .statusEnable) (awaitingReply (.apu .statusEnable) .none) = [0x80] ∧
    Mnemonic.lda ∈ readingMnemonics ∧
    resolve (Instr.ldaAbs 0x2002).operand { cpu [] [] with feed := [0x80] } = .addr 0x2002 ∧
    ({ cpu [] [] with feed := [0x80] } : State).memoryByte 0x2002 = none ∧
    ({ cpu [] [] with feed := [0x80] } : State).feed = 0x80 :: [] ∧
    Instr.ofParts .lda (.immediate 0x80) = some (.ldaImm 0x80) := by decide +kernel

/-- A resumed fetch of the byte at PC, the reply being `v`. -/
def resumedFetch (s : State) (got : List Byte) (pc : Word) (v : Byte) : State :=
  { s with
    run := .awaitRead (.ppu .ctrl), work := .fetch got, pc := pc
    ppuChan := { writes := [], reads := [], results := [v] } }

-- the last operand byte; one with a further byte in RAM; a descriptor of the table's own; the opcode byte alone, whose
-- operand is behind the channel again; and an opcode byte without descriptor
theorem witness_ReplyResumesTheInstruction_fetch (s : State)
    (hs : s ∈ [resumedFetch (cpu [] []) [0xA9] 0x2000 0x80, resumedFetch (cpu [] []) [0xAD] 0x3FFF 0x80,
      resumedFetch (own [] []) [0xB7] 0x2000 0x80, resumedFetch (cpu [] []) [] 0x2000 0xA9,
      resumedFetch (cpu [] []) [] 0x2000 0x02]) :
    nextMove s = .cpu ∧ s.run = .awaitRead (.ppu .ctrl) ∧ s.stuck = false ∧ s.log = [] ∧ s.feed = [] ∧
      s.params.syncMode = .async ∧ ∃ v, resultsFor (.ppu .ctrl) s = [v] := by
  simp only [List.mem_cons, List.not_mem_nil, or_false] at hs
  obtain rfl | rfl | rfl | rfl | rfl := hs <;> exact ⟨rfl, rfl, rfl, rfl, rfl, rfl, _, rfl⟩

theorem witness_ReplyResumesTheInstruction_bytes :
    (∀ w : State, Fetches w [] w) ∧
    [0xA9] ++ (0x80 : Byte) :: [] = 0xA9 :: [0x80] ∧
    decode Params.standard.opcodes (0xA9 :: [0x80]) = .instr (.ldaImm 0x80) [] ∧
    [0xAD] ++ (0x80 : Byte) :: [0x06] = 0xAD :: [0x80, 0x06] ∧
    (∃ b u, Fetches { cpu [] [] with pc := 0x4018 } [b] u) ∧
    decode Params.standard.opcodes (0xAD :: [0x80, 0x06]) = .instr (.ldaAbs 0x0680) [] ∧
    decode ownTable (0xB7 :: [0x80]) = .form (.rule .lda) (.zeroPageY 0x80) [] ∧
    (∀ k, k ≤ 0 → decode Params.standard.opcodes ((0xA9 : Byte) :: ([] : List Byte).take k) = .needMore) ∧
    requestAt (0x2000 + 1) = some (.ppu .mask) ∧ Params.standard.opcodes.descriptor 0x02 = none := by
  refine ⟨fun _ => rfl, rfl, rfl, rfl, ⟨_, _, _, rfl, rfl⟩, rfl, rfl, fun k _ => by rw [List.take_nil]; rfl, rfl, rfl⟩

-- the last address of the RAM window, the first and the last of the cartridge window
theorem witness_StoreToMemoryResult :
    resolve (Instr.staAbs 0x1FFF).operand (cpu [] []) = .addr 0x1FFF ∧ (0x1FFF : Word).toNat < 0x2000 ∧
    ((Instr.staAbs 0x1FFF).mnemonic, (cpu [] []).a) ∈
      [(Mnemonic.sta, (cpu [] []).a), (Mnemonic.stx, (cpu [] []).x), (Mnemonic.sty, (cpu [] []).y)] ∧
    resolve (Instr.stxAbs 0x8000).operand (cpu [] []) = .addr 0x8000 ∧ 0x8000 ≤ (0x8000 : Word).toNat ∧
    ((Instr.stxAbs 0x8000).mnemonic, (cpu [] []).x) ∈
      [(Mnemonic.sta, (cpu [] []).a), (Mnemonic.stx, (cpu [] []).x), (Mnemonic.sty, (cpu [] []).y)] ∧
    resolve (Instr.styAbs 0xFFFF).operand (cpu [] []) = .addr 0xFFFF ∧
    ((Instr.styAbs 0xFFFF).mnemonic, (cpu [] []).y) ∈
      [(Mnemonic.sta, (cpu [] []).a), (Mnemonic.stx, (cpu [] []).x), (Mnemonic.sty, (cpu [] []).y)] := by decide +kernel

theorem witness_StoreToChannelResult :
    resolve (Instr.staAbs 0x2000).operand (cpu [] []) = .addr 0x2000 ∧ writeTarget 0x2000 = .ppu .ctrl ∧
    resolve (Instr.staAbs 0x3FFF).operand (cpu [] []) = .addr 0x3FFF ∧ writeTarget 0x3FFF = .ppu .busData ∧
    resolve (Instr.staAbs 0x4000).operand (cpu [] []) = .addr 0x4000 ∧ writeTarget 0x4000 = .apu .pulse1Env ∧
    resolve (Instr.staAbs 0x4017).operand (cpu [] []) = .addr 0x4017 ∧ writeTarget 0x4017 = .apu .frameCounter ∧
    resolve (Instr.staAbs 0x7FFF).operand (cpu [] []) = .addr 0x7FFF ∧ writeTarget 0x7FFF = .noTarget ∧
    (cpu [] []).params.syncMode = .async ∧
    (∀ a : Word, ((Instr.staAbs a).mnemonic, (cpu [] []).a) ∈
      [(Mnemonic.sta, (cpu [] []).a), (Mnemonic.stx, (cpu [] []).x), (Mnemonic.sty, (cpu [] []).y)]) := by
  refine ⟨?_, ?_, ?_, ?_, ?_, ?_, ?_, ?_, ?_, ?_, ?_, fun a => .head _⟩ <;> decide +kernel

-- each clause at its first and last page: memory, no target, PPU, and 0x40, whose first address is an APU target
theorem witness_OamBulkTransferResult :
    resolve (Instr.staAbs 0x4014).operand (cpu [] []) = .addr 0x4014 ∧ (cpu [] []).params.syncMode = .async ∧
    (cpu [] []).alivePpu = true ∧ ({ cpu [] [] with alivePpu := false } : State).alivePpu = false ∧
    (∀ v : Byte, ((Instr.staAbs 0x4014).mnemonic, (withAP v 0 (cpu [] [])).a) ∈
      [(Mnemonic.sta, v), (Mnemonic.stx, 0x00), (Mnemonic.sty, 0x00)]) ∧
    (cpu [] []).a.toNat < 0x20 ∧ (0x1F : Byte).toNat < 0x20 ∧ 0x80 ≤ (0x80 : Byte).toNat ∧ 0x80 ≤ (0xFF : Byte).toNat ∧
    0x41 ≤ (0x41 : Byte).toNat ∧ (0x7F : Byte).toNat < 0x80 ∧ (cpu [] []).feed = [] ∧ (cpu [] []).log = [] ∧
    0x20 ≤ (0x20 : Byte).toNat ∧ (0x3F : Byte).toNat < 0x40 ∧ (0x40 : Byte).toNat ≤ 0x40 ∧
    ({ cpu [] [] with feed := List.replicate 256 0x00 } : State).feed.length = 256 := by
  refine ⟨?_, ?_, ?_, ?_, fun v => .head _, ?_, ?_, ?_, ?_, ?_, ?_, ?_, ?_, ?_, ?_, ?_, List.length_replicate⟩ <;> decide +kernel

/-- Every page of RAM is read, in any state (the premise of the clauses on `PageRead`). -/
theorem witness_PageRead (page : Byte) (h : page.toNat < 0x20) (s : State) : ∃ buf, PageRead page s buf s := by
  refine ⟨(List.range 256).map fun k => s.ram.read ((wordOf (BitVec.ofNat 8 k) page).toNat % 2048), fun _ => s, rfl, rfl,
    by simp, fun k hk => ⟨s.ram.read ((wordOf (BitVec.ofNat 8 k) page).toNat % 2048), by simp [hk], ?_⟩⟩
  have hw : (wordOf (BitVec.ofNat 8 k) page).toNat < 0x2000 := by
    have := (BitVec.ofNat 8 k).isLt
    rw [Laws.wordOf_toNat]
    omega
  unfold busRead
  rw [readTarget_ram hw]

/-- A page of the PPU waits at its first address, and one of no reply at an address after it. -/
theorem witness_PageWaits (s : State) (hm : s.params.syncMode = .async) (hf : s.feed = []) :
    ∃ q u, PageWaits 0x20 s q u :=
  ⟨_, _, 0, fun _ => s, by decide +kernel, rfl, fun _ h => absurd h (Nat.not_lt_zero _),
    busRead_async_ppu (t := .ctrl) hm hf (by decide +kernel)⟩

theorem witness_PageWaits_second (s : State) (v : Byte) (hm : s.params.syncMode = .async) (hf : s.feed = [v]) :
    ∃ q u, PageWaits 0x20 s q u := by
  refine ⟨_, _, 1, fun k => if k = 0 then s else { s with feed := [], log := s.log ++ [v] }, by decide +kernel, rfl, fun k h => ?_,
    busRead_async_ppu (t := .mask) hm rfl (by decide +kernel)⟩
  obtain rfl : k = 0 := by omega
  exact ⟨v, busRead_kept (fun _ h => nomatch h) (fun h => nomatch h) hf⟩

theorem witness_StackInstructionResult :
    (0xFF : Byte) = (if (cpu [] []).params.stackEdge = .saturate ∧ (0x00 : Byte) = 0x00 then 0x00 else 0x00 - 1) ∧
    (0x00 : Byte) = (if (cpu [] []).params.stackEdge = .saturate ∧ (cpu [] []).sp = 0xFF then 0xFF else (cpu [] []).sp + 1) ∧
    (0x00 : Byte) = (if StackEdge.saturate = .saturate ∧ (0x00 : Byte) = 0x00 then 0x00 else 0x00 - 1) ∧
    (0xFF : Byte) = (if StackEdge.saturate = .saturate ∧ (0xFF : Byte) = 0xFF then 0xFF else 0xFF + 1) := by decide +kernel

theorem witness_AddSubtractResult :
    operandByte (Instr.adcImm 0xFF).operand (cpu [] []) = some 0xFF ∧ (Instr.adcImm 0xFF).mnemonic = .adc ∧
    operandByte (Instr.sbcIndY 0xFF).operand (cpu [] [(0, 3), (0x300, 0x80)]) = some 0x80 ∧
    (Instr.sbcIndY 0xFF).mnemonic = .sbc := by decide +kernel

theorem witness_LogicResult :
    operandByte (Instr.andImm 0x0F).operand (cpu [] []) = some 0x0F ∧
    ((Instr.andImm 0x0F).mnemonic, (cpu [] []).a &&& 0x0F) ∈
      [(Mnemonic.and, (cpu [] []).a &&& 0x0F), (Mnemonic.ora, (cpu [] []).a ||| 0x0F),
       (Mnemonic.eor, (cpu [] []).a ^^^ 0x0F)] ∧
    operandByte (Instr.bitZp 0x10).operand (cpu [] [(0x10, 0xC0)]) = some 0xC0 ∧ (Instr.bitZp 0x10).mnemonic = .bit := by
  decide +kernel

theorem witness_CompareResult :
    operandByte (Instr.cmpImm 0x00).operand (cpu [] []) = some 0x00 ∧ operandByte (Instr.cpyImm 0xFF).operand (cpu [] []) =
      some 0xFF ∧
    ((Instr.cmpImm 0x00).mnemonic, (cpu [] []).a) ∈
      [(Mnemonic.cmp, (cpu [] []).a), (Mnemonic.cpx, (cpu [] []).x), (Mnemonic.cpy, (cpu [] []).y)] ∧
    ((Instr.cpxImm 0x00).mnemonic, (cpu [] []).x) ∈
      [(Mnemonic.cmp, (cpu [] []).a), (Mnemonic.cpx, (cpu [] []).x), (Mnemonic.cpy, (cpu [] []).y)] ∧
    ((Instr.cpyImm 0xFF).mnemonic, (cpu [] []).y) ∈
      [(Mnemonic.cmp, (cpu [] []).a), (Mnemonic.cpx, (cpu [] []).x), (Mnemonic.cpy, (cpu [] []).y)] := by decide +kernel

theorem witness_IncDecMemoryResult :
    resolve (Instr.incAbs 0x1FFF).operand (cpu [] [(0x7FF, 0xFF)]) = .addr 0x1FFF ∧
    (cpu [] [(0x7FF, 0xFF)]).memoryByte 0x1FFF = some 0xFF ∧
    ((Instr.incAbs 0x1FFF).mnemonic, (0x00 : Byte)) ∈ [(Mnemonic.inc, (0xFF : Byte) + 1), (Mnemonic.dec, 0xFF - 1)] ∧
    resolve (Instr.decAbs 0x8000).operand (cpu [] []) = .addr 0x8000 ∧ (cpu [] []).memoryByte 0x8000 = some 0x00 ∧
    ((Instr.decAbs 0x8000).mnemonic, (0xFF : Byte)) ∈ [(Mnemonic.inc, (0x00 : Byte) + 1), (Mnemonic.dec, 0x00 - 1)] := by
  decide +kernel

theorem witness_RegisterTransferAndCountResult : (0x00 : Byte).toNat = ((0xFF : Byte).toNat + 1) % 256 ∧
    (0xFF : Byte).toNat = ((0x00 : Byte).toNat + 255) % 256 ∧ (cpu [] []).x = 0x00 ∧ (cpu [] []).y = 0x00 := by decide +kernel

theorem witness_ShiftResult :
    operandByte Instr.rorAcc.operand (cpu [] []) = some 0x00 ∧ resolve Instr.rorAcc.operand (cpu [] []) = .acc ∧
    (Instr.rorAcc.mnemonic, false, (0x00 : Byte).toNat) ∈
      [(Mnemonic.asl, (0x00 : Byte).getLsbD 7, (0x00 : Byte).toNat * 2 % 256),
       (Mnemonic.lsr, (0x00 : Byte).getLsbD 0, (0x00 : Byte).toNat / 2),
       (Mnemonic.rol, (0x00 : Byte).getLsbD 7, ((0x00 : Byte).toNat * 2 + (cpu [] []).p.c.toNat) % 256),
       (Mnemonic.ror, (0x00 : Byte).getLsbD 0, (0x00 : Byte).toNat / 2 + 128 * (cpu [] []).p.c.toNat)] ∧
    operandByte (Instr.aslAbs 0x1FFF).operand (cpu [] [(0x7FF, 0x81)]) = some 0x81 ∧
    resolve (Instr.aslAbs 0x1FFF).operand (cpu [] [(0x7FF, 0x81)]) = .addr 0x1FFF ∧
    ((Instr.aslAbs 0x1FFF).mnemonic, true, (0x02 : Byte).toNat) ∈
      [(Mnemonic.asl, (0x81 : Byte).getLsbD 7, (0x81 : Byte).toNat * 2 % 256)] ∧
    operandByte (Instr.lsrAbs 0x8000).operand (cpu [0x81] []) = some 0x81 ∧
    resolve (Instr.lsrAbs 0x8000).operand (cpu [0x81] []) = .addr 0x8000 ∧
    ((Instr.lsrAbs 0x8000).mnemonic, true, (0x40 : Byte).toNat) ∈
      [(Mnemonic.lsr, (0x81 : Byte).getLsbD 0, (0x81 : Byte).toNat / 2)] ∧
    ((Instr.rolAbs 0x8000).mnemonic, true, (0x03 : Byte).toNat) ∈
      [(Mnemonic.rol, (0x81 : Byte).getLsbD 7, ((0x81 : Byte).toNat * 2 + true.toNat) % 256)] := by decide +kernel

/-- The premise on mnemonic, carry and result of a read-modify-write of `v` with carry `c` in. -/
def modifies (i : Instr) (c : Bool) (v : Byte) (c' : Bool) (r : Byte) : Bool :=
  decide ((i.mnemonic, c', r.toNat) ∈
    [(Mnemonic.inc, c, (v.toNat + 1) % 256), (Mnemonic.dec, c, (v.toNat + 255) % 256),
     (Mnemonic.asl, v.getLsbD 7, v.toNat * 2 % 256), (Mnemonic.lsr, v.getLsbD 0, v.toNat / 2),
     (Mnemonic.rol, v.getLsbD 7, (v.toNat * 2 + c.toNat) % 256),
     (Mnemonic.ror, v.getLsbD 0, v.toNat / 2 + 128 * c.toNat)])

theorem witness_ModifyOnChannelSendsTheResult :
    resolve (Instr.incAbs 0x2007).operand { cpu [] [] with feed := [0xFF] } = .addr 0x2007 ∧
    readTarget 0x2007 = .ppu .busData ∧ (cpu [] []).params.syncMode = .async ∧ (cpu [] []).alivePpu = true ∧
    ({ cpu [] [] with feed := [0xFF] } : State).feed = [0xFF] ∧
    modifies (.incAbs 0x2007) (cpu [] []).p.c 0xFF (cpu [] []).p.c 0x00 = true ∧
    readTarget 0x4015 = .apu .statusEnable ∧ resolve (Instr.aslAbs 0x4015).operand (cpu [] []) = .addr 0x4015 ∧
    modifies (.aslAbs 0x4015) (cpu [] []).p.c 0x81 true 0x02 = true ∧
    readTarget 0x4018 = .noTarget ∧ writeTarget 0x4018 = .noTarget ∧ (cpu [] []).feed = [] ∧
    readTarget 0x4017 = .noTarget ∧ readTarget 0x4014 = .noTarget ∧
    resolve (Instr.incAbs 0x4014).operand (cpu [] []) = .addr 0x4014 ∧
    (∀ rest, ({ cpu [] [] with feed := 0x1F :: rest } : State).feed = 0x1F :: rest) ∧
    modifies (.incAbs 0x4014) (cpu [] []).p.c 0x1F (cpu [] []).p.c 0x20 = true ∧
    modifies (.decAbs 0x4014) (cpu [] []).p.c 0x20 (cpu [] []).p.c 0x1F = true := by
  refine ⟨?_, ?_, ?_, ?_, ?_, ?_, ?_, ?_, ?_, ?_, ?_, ?_, ?_, ?_, ?_, fun _ => rfl, ?_, ?_⟩ <;> decide +kernel

/-- P with carry set. -/
def carrySet : State := withAP 0 0x01 (cpu [] [])

-- whatever the draw is, INC, ASL and LSR have their premise; ROR with C set writes a byte of at least 0x80
theorem witness_ModifyOnChannelSendsTheResult_draw (v : Byte) :
    (∃ r, modifies (.incAbs 0x4017) false v false r = true) ∧ (∃ c r, modifies (.aslAbs 0x4018) false v c r = true) ∧
    carrySet.p.c = true ∧ resolve (Instr.rorAbs 0x4014).operand carrySet = .addr 0x4014 ∧
    ∃ c r, modifies (.rorAbs 0x4014) true v c r = true ∧ 0x80 ≤ r.toNat := by
  have h := v.isLt
  refine ⟨⟨BitVec.ofNat 8 (v.toNat + 1), ?_⟩, ⟨v.getLsbD 7, BitVec.ofNat 8 (v.toNat * 2), ?_⟩, by decide +kernel, by decide +kernel, v.getLsbD 0,
    BitVec.ofNat 8 (v.toNat / 2 + 128), ?_, ?_⟩
  · simp [modifies, Instr.mnemonic]
  · simp [modifies, Instr.mnemonic]
  · simp [modifies, Instr.mnemonic]
    omega
  · rw [BitVec.toNat_ofNat]
    omega

-- a target in another page
theorem witness_BranchResult : (0x7FFE : Word) = (cpu [] []).pc + (0xFE : Byte).signExtend 16 ∧
    true = decide ((cpu [] []).pc.toNat / 256 ≠ (0x7FFE : Word).toNat / 256) := by decide +kernel

theorem witness_JumpAndSubroutineResult :
    (cpu [] [(0x2FF, 0x11), (0x200, 0x90)]).memoryByte 0x02FF = some 0x11 ∧
    (cpu [] [(0x2FF, 0x11), (0x200, 0x90)]).memoryByte
      (if (cpu [] []).params.jmpIndPageBug then ((0x02FF : Word) &&& 0xFF00) ||| (((0x02FF : Word) + 1) &&& 0x00FF)
        else (0x02FF : Word) + 1) = some 0x90 ∧
    ∃ dec inc, dec = decSp (cpu [] []).params.stackEdge ∧ inc = incSp (cpu [] []).params.stackEdge :=
  ⟨by decide +kernel, by decide +kernel, _, _, rfl, rfl⟩

-- both bytes kept from replies; both drawn; both answered within the instruction, in lockstep
theorem witness_JumpAndSubroutineResult_pointer :
    (∃ lo hi t u, busRead 0x3FFF { cpu [] [] with feed := [0x34, 0x12] } = .done lo t ∧ busRead 0x3F00 t = .done hi u) ∧
    (∃ lo hi t u, busRead 0x7FFF (cpu [] []) = .done lo t ∧ busRead 0x7F00 { t with feed := [0x12] } = .done hi u) ∧
    ∃ lo hi t u, busRead 0x2002 { cpu [] [] with params := { Params.standard with syncMode := .lockstep } } = .done lo t ∧
      busRead 0x2003 t = .done hi u :=
  ⟨⟨_, _, _, _, rfl, rfl⟩, ⟨_, _, _, _, rfl, rfl⟩, ⟨_, _, _, _, rfl, rfl⟩⟩

theorem witness_InterruptReturnResult : ∃ inc v, inc = incSp (cpu [] []).params.stackEdge ∧
    v = (cpu [] []).ram.read (0x100 + (inc (cpu [] []).sp).toNat) := ⟨_, _, rfl, rfl⟩

theorem witness_BreakResult : (cpu [] []).params.brkPolicy = .standard ∧
    ({ Params.standard with brkPolicy := .viaIrqPath } : Params).brkPolicy = .viaIrqPath ∧ (cpu [] []).p.b = true ∧
    (withAP 0 0x04 (cpu [] [])).p.b = false := by decide +kernel

/-- `exec` answers a next state. -/
def completes (i : Instr) (s : State) : Bool :=
  match exec i s with
  | .next _ => true
  | .fault _ => false
  | .refused _ => false

theorem completes_iff (i : Instr) (s : State) (h : completes i s = true) : ∃ t, exec i s = .next t := by
  unfold completes at h
  split at h
  · exact ⟨_, ‹_›⟩
  · exact nomatch h
  · exact nomatch h

-- a store, a read-modify-write, a push, a waiting read; the mnemonics and the cells of the frame's clauses
theorem witness_frames :
    completes (.staAbs 0x1FFF) (cpu [] []) = true ∧ completes (.incZp 0xFF) (cpu [] []) = true ∧
    completes .pha (cpu [] []) = true ∧ completes (.ldaAbs 0x2002) (cpu [] []) = true ∧ completes .tax (cpu [] []) = true ∧
    (cpu [] []).params.syncMode = .async ∧ (cpu [] []).p.b = true ∧
    Mnemonic.sta ∈ storingMnemonics ++ modifyingMnemonics ∧
    resolve (Instr.staAbs 0x1FFF).operand (cpu [] []) = .addr 0x1FFF ∧
    ¬ ((0x1FFF : Word).toNat < 0x2000 ∧ 0x7FE = (0x1FFF : Word).toNat % 2048) ∧
    Mnemonic.asl ∈ modifyingMnemonics ∧ resolve Instr.aslAcc.operand (cpu [] []) = .acc ∧
    Mnemonic.pha ∈ pushingMnemonics ∧ ¬ (0x100 ≤ 0xFF ∧ 0xFF < 0x200) ∧ ¬ (0x100 ≤ 0x200 ∧ 0x200 < 0x200) ∧
    Mnemonic.tax ∉ storingMnemonics ++ modifyingMnemonics ++ pushingMnemonics := by decide +kernel

theorem witness_RegistersAndFlagsChangeOnlyWhereListed : ∃ t, exec (.staAbs 0x1FFF) (cpu [] []) = .next t :=
  completes_iff _ _ (by decide +kernel)

theorem witness_RamFrame : ∃ t, exec .pha (cpu [] []) = .next t := completes_iff _ _ (by decide +kernel)

theorem witness_InstructionsLeaveTheOtherUnits : (cpu [] []).params.syncMode = .async ∧
    ∃ t, exec (.ldaAbs 0x2002) (cpu [] []) = .next t := ⟨by decide +kernel, completes_iff _ _ (by decide +kernel)⟩

theorem witness_ResetEntryLoadsPc : nextMove { cpu [] [] with resetRequest := true } = .cpu ∧
    (cpu [] []).run = .running ∧ (cpu [] []).shutdown = false ∧
    ({ cpu [] [] with resetRequest := true } : State).resetRequest = true := by decide +kernel

theorem witness_NmiEntryIsNeverMasked : nextMove { irqStart 0x04 with vblankStart := [true] } = .cpu ∧
    (irqStart 0x04).run = .running ∧ (irqStart 0x04).shutdown = false ∧ (irqStart 0x04).resetRequest = false ∧
    (irqStart 0x04).params.nmiWired = true ∧ ({ irqStart 0x04 with vblankStart := [true] } : State).vblankStart =
      [true] := by decide +kernel

-- I clear and I set; B set
theorem witness_IrqEntryGatedByBreak : nextMove { irqStart 0x00 with irqLine := true } = .cpu ∧
    (irqStart 0x00).run = .running ∧ (irqStart 0x00).shutdown = false ∧ (irqStart 0x00).resetRequest = false ∧
    (irqStart 0x00).vblankStart.head? ≠ some true ∧ (irqStart 0x00).p.b = false ∧
    (irqStart 0x04).p.b = false ∧ (irqStart 0x04).p.i = true ∧ (irqStart 0x10).p.b = true ∧
    ({ irqStart 0x10 with vblankStart := [false] } : State).vblankStart.head? ≠ some true := by decide +kernel

theorem witness_ShutdownExitsAtTheBoundary : nextMove { cpu [] [] with shutdown := true } = .cpu ∧
    ({ cpu [] [] with shutdown := true } : State).run = .running ∧ (cpu [] []).params.syncMode = .async ∧
    ({ Params.standard with syncMode := .lockstep } : Params).syncMode = .lockstep := by decide +kernel

theorem witness_ReturnsUndoEntries : (cpu [] []).params.stackEdge = .wrap := by decide +kernel

/-- `act` answers a next state. -/
def actCompletes (m : Move) (s : State) : Bool :=
  match act m s with
  | .next _ => true
  | .fault _ => false
  | .refused _ => false

theorem witness_BreakFlagClearedOnlyByPulls : Move.apu ≠ .cpu ∧ actCompletes .apu (cpu [] []) = true ∧
    (cpu [] []).p.b = true ∧ completes .rti (cpu [] []) = true ∧
    (match exec .rti (cpu [] []) with | .next t => t.p.b | .fault _ => true | .refused _ => true) = false := by decide +kernel

theorem witness_WindowsAndRamMirrors : (0x0000 : Word).toNat < 0x2000 ∧ (0x1FFF : Word).toNat < 0x2000 ∧
    (0x0800 : Word).toNat % 2048 = (0x0000 : Word).toNat % 2048 ∧ (0x1FFF : Word).toNat % 2048 ≠ 0 := by decide +kernel

-- both ends of a source range, and the address after it
theorem witness_CartridgeReadUsesTheNewestMapping :
    0x8000 ≤ (0x8000 : Word).toNat ∧ 0x8000 ≤ (0xFFFF : Word).toNat ∧
    ([⟨0x8000, 0x4000, 0x8000⟩] : List Mapping) = [] ++ ⟨0x8000, 0x4000, 0x8000⟩ :: [] ∧
    (0x8000 : Word).toNat ≤ (0xBFFF : Word).toNat ∧ (0xBFFF : Word).toNat < (0x8000 : Word).toNat + 0x4000 ∧
    (∀ n ∈ ([⟨0x8000, 0x4000, 0x8000⟩] : List Mapping),
      ¬ (n.srcStart.toNat ≤ (0xC000 : Word).toNat ∧ (0xC000 : Word).toNat < n.srcStart.toNat + n.srcLen)) := by decide +kernel

theorem witness_BankSwitchSelectsTheBank :
    mapperEntry { Params.standard with mapperTable := [(2, e2)] } 2 = some e2 ∧ State.reset.cart.mapperId = 0 ∧
    ¬ (e2.ctrlLo.toNat ≤ (0x7FFF : Word).toNat ∧ (0x7FFF : Word).toNat ≤ e2.ctrlHi.toNat) ∧
    e2.ctrlLo.toNat ≤ (0x8000 : Word).toNat ∧ (0xFFFF : Word).toNat ≤ e2.ctrlHi.toNat ∧
    e2.srcStart.toNat ≤ (0x8000 : Word).toNat ∧ (0xBFFF : Word).toNat < e2.srcStart.toNat + e2.srcLen ∧
    ¬ (e2.srcStart.toNat ≤ (0xC000 : Word).toNat ∧ (0xC000 : Word).toNat < e2.srcStart.toNat + e2.srcLen) ∧
    ¬ (e2.srcStart.toNat ≤ (0x7FFF : Word).toNat ∧ (0x7FFF : Word).toNat < e2.srcStart.toNat + e2.srcLen) := by decide +kernel

theorem witness_NoTargetAccess : (0x4009 : Word).toNat = 0x4009 ∧ (0x400D : Word).toNat = 0x400D ∧
    (0x400F ≤ (0x400F : Word).toNat ∧ (0x4013 : Word).toNat ≤ 0x4013) ∧
    (0x4018 ≤ (0x4018 : Word).toNat ∧ (0x7FFF : Word).toNat ≤ 0x7FFF) ∧ (cpu [] []).feed = [] ∧
    (0x1FFF : Word).toNat < 0x2000 ∧ ((0x2000 : Word).toNat % 8, PpuReg.ctrl) ∈ ppuRegisters ∧
    ((0x3FFF : Word).toNat % 8, PpuReg.busData) ∈ ppuRegisters ∧ 0x2000 ≤ (0x2000 : Word).toNat ∧
    (0x3FFF : Word).toNat < 0x4000 ∧ ((0x4000 : Word).toNat, ApuReg.pulse1Env) ∈ apuRegisters ∧
    ((0x4015 : Word).toNat, ApuReg.statusEnable) ∈ apuRegisters ∧ 0x8000 ≤ (0x8000 : Word).toNat := by decide +kernel

-- a byte of RAM, a reply kept, a request
theorem witness_NoTargetAccess_reads :
    (cpu [] [(0x7FF, 0x42)]).memoryByte 0x1FFF = some 0x42 ∧
    ({ cpu [] [] with feed := [0x80] } : State).memoryByte 0x2000 = none ∧
    ({ cpu [] [] with feed := [0x80] } : State).feed = 0x80 :: [] ∧
    requestAt 0x2000 = some (.ppu .ctrl) ∧ (cpu [] []).params.syncMode = .async := by decide +kernel

theorem witness_NoTargetAccess_edges : hasNoTarget 0x4018 ∧ hasNoTarget 0x7FFF ∧ hasNoTarget 0x4013 := by
  simp [hasNoTarget]

theorem witness_PpuTickDrainsOneWriteAndOneRead :
    nextMove (ppuTurn State.reset) = .ppu ∧ allReturned (ppuTurn State.reset) = false ∧
    State.reset.alivePpu = true ∧ State.reset.params.syncMode = .async ∧ State.reset.shutdown = false ∧
    State.reset.ppuChan.writes = [] ∧ State.reset.ppuChan.reads = [] ∧
    ({ ppuTurn State.reset with shutdown := true } : State).shutdown = true ∧
    ({ writes := [.reg .ctrl 0x80], reads := [.status], results := [] } : PpuChannel).reads = .status :: [] := by decide +kernel

theorem witness_PpuTickDrainsOneWriteAndOneRead_parts (s : State) (r : PpuReg) :
    (∃ drained, drained = match s.ppuChan.writes with
      | [] => s.ppu
      | w :: _ => s.ppu.applyWrite w) ∧
    ∃ reply answered, (reply, answered) = s.ppu.applyRead s.params.ppudataReadBuffered (Config.freeByte s.draws) r :=
  ⟨⟨_, rfl⟩, _, _, rfl⟩

theorem witness_ApuTickStoresAndReplies :
    nextMove { State.reset with script := [.apu] } = .apu ∧ allReturned State.reset = false ∧
    State.reset.aliveApu = true ∧ State.reset.params.syncMode = .async ∧ State.reset.shutdown = false ∧
    ({ State.reset with shutdown := true } : State).shutdown = true ∧ State.reset.apuChan.reads = [] ∧
    State.reset.apuLatch = (match State.reset.apuChan.writes with
      | [] => State.reset.apuLatch
      | (r, v) :: _ => State.reset.apuLatch.write r.offset v) ∧
    ({ writes := [(.frameCounter, 0x40)], reads := [.statusEnable], results := [] } : ApuChannel).reads =
      .statusEnable :: [] := by decide +kernel

/-- A CPU awaiting a responder that has gone. -/
def orphan (r : ReadRequest) (stuck : Bool) : State :=
  { cpu [] [] with run := .awaitRead r, alivePpu := false, aliveApu := false, stuck := stuck }

-- the race is free: for its draw either outcome may hold
theorem witness_PeerGoneIsARace : (orphan (.ppu .status) false).run = .awaitRead (.ppu .status) ∧
    (orphan (.ppu .status) false).stuck = false ∧ (orphan (.ppu .status) false).alivePpu = false ∧
    (orphan (.ppu .status) false).ppuChan.results = [] ∧
    (orphan (.apu .statusEnable) false).run = .awaitRead (.apu .statusEnable) ∧
    (orphan (.apu .statusEnable) false).aliveApu = false ∧ (orphan (.apu .statusEnable) false).apuChan.results = [] ∧
    (orphan (.apu .statusEnable) true).stuck = true ∧
    nextMove { orphan (.apu .statusEnable) true with script := [.host .setShutdown] } = .host .setShutdown ∧
    (∀ h ∈ [HostAction.setButtons 0xFF, .requestReset, .driveIrq true, .driveIrq false],
      nextMove { cpu [] [] with script := [.host h] } = .host h ∧
        allReturned { cpu [] [] with script := [.host h] } = false) := by decide +kernel

/-- A run from a state: step after step, staying where a step answers no next state. -/
def runFrom (s : State) : Nat → State
  | 0 => s
  | n + 1 => (after id (runFrom s n)).getD (runFrom s n)

/-- Where a step answers, the run takes it. -/
theorem runFrom_step (s : State) (n : Nat) (t : State) (h : step (runFrom s n) = .next t) :
    runFrom s (n + 1) = t := by
  rw [runFrom, after, h]
  rfl

theorem runFrom_isRun (s : State) : IsRun (runFrom s) := by
  intro n
  cases ha : allReturned (runFrom s n) with
  | true =>
    refine .inr ⟨rfl, ?_⟩
    rw [runFrom, after]
    simp only [step, ha, if_true]
    rfl
  | false =>
    obtain ⟨t, ht⟩ := act_total (nextMove (runFrom s n)) (moveTaken (runFrom s n))
    have hs : step (runFrom s n) = .next t := by simpa [step, ha] using ht
    exact .inl (by rw [runFrom_step s n t hs, hs])

/-- A CPU awaiting the PPU, its request queued. -/
def asking : State :=
  { cpu [] [] with run := .awaitRead (.ppu .status), ppuChan := { writes := [], reads := [.status], results := [] } }

/-- A CPU awaiting the APU, its request queued. -/
def askingApu : State :=
  { cpu [] [] with
    run := .awaitRead (.apu .statusEnable), apuChan := { writes := [], reads := [.statusEnable], results := [] } }

theorem witness_EveryRequestIsAnsweredOnce : IsRun (runFrom asking) ∧ IsRun (runFrom askingApu) ∧
    (runFrom asking 0).params.syncMode = .async ∧ (runFrom asking 0).run = .awaitRead (.ppu .status) ∧
    (runFrom asking 0).ppuChan.reads = [.status] ∧ (runFrom asking 0).ppuChan.results = [] ∧
    (runFrom asking 0).alivePpu = true ∧
    (runFrom askingApu 0).params.syncMode = .async ∧ (runFrom askingApu 0).run = .awaitRead (.apu .statusEnable) ∧
    (runFrom askingApu 0).apuChan.reads = [.statusEnable] ∧ (runFrom askingApu 0).apuChan.results = [] ∧
    (runFrom askingApu 0).aliveApu = true := by
  refine ⟨runFrom_isRun _, runFrom_isRun _, ?_, ?_, ?_, ?_, ?_, ?_, ?_, ?_, ?_, ?_⟩ <;> decide +kernel

-- the two latch positions, the high byte modulo 0x40, the wrap of vaddr, the first and the last byte of a bulk transfer
theorem witness_PpuRegisterWrites : ppu0.latch = .first ∧ ({ ppu0 with latch := .second } : Ppu).latch = .second ∧
    (0x3F00 : VAddr).toNat = (0xFF : Byte).toNat % 0x40 * 256 + ppu0.vaddr.toNat % 256 ∧
    (0x00FF : VAddr).toNat = ppu0.vaddr.toNat / 256 * 256 + (0xFF : Byte).toNat ∧
    (0x0000 : VAddr).toNat = ((0x3FFF : VAddr).toNat + (if (0x00 : Byte).getLsbD 2 then 32 else 1)) % 0x4000 ∧
    (0x001F : VAddr).toNat = ((0x3FFF : VAddr).toNat + (if (0x04 : Byte).getLsbD 2 then 32 else 1)) % 0x4000 ∧
    (List.replicate 256 (0x5A : Byte)).length = 256 ∧ 0 < 256 ∧ 255 < 256 := by decide +kernel

theorem witness_PpuRegisterReads : PpuReg.ctrl ∈ [PpuReg.ctrl, .mask, .oamAddr, .scroll, .busAddr] ∧
    PpuReg.busAddr ∈ [PpuReg.ctrl, .mask, .oamAddr, .scroll, .busAddr] ∧
    (0x3F00 : VAddr).toNat = ((0x3EFF : VAddr).toNat + (if ppu0.ctrl.getLsbD 2 then 32 else 1)) % 0x4000 ∧
    (0x3EFF : VAddr).toNat < 0x3F00 ∧ 0x3F00 ≤ (0x3F00 : VAddr).toNat ∧ 0x3F00 ≤ (0x3FFF : VAddr).toNat := by decide +kernel

theorem witness_PpuMemoryReadAfterWrite : 0x2000 ≤ (0x2000 : VAddr).toNat ∧ ppu0.chrRam = true ∧
    (0x1FFF : VAddr).toNat < 0x2000 ∧ ({ ppu0 with chrRam := false } : Ppu).chrRam = false ∧
    ppuFold .horizontal 0x2400 = ppuFold .horizontal 0x2000 ∧ ppuFold .vertical 0x3EFF = ppuFold .vertical 0x2EFF ∧
    ppuFold .vertical 0x3F10 = ppuFold .vertical 0x3F00 ∧ ppuFold .vertical 0x3FFF = ppuFold .vertical 0x3F1F ∧
    ppuFold .vertical 0x3F11 ≠ ppuFold .vertical 0x3F01 := by decide +kernel

-- inside a scanline, the end of one, the end of the frame, the vblank line, the hit row
theorem witness_ClockRaisesTheFrameEvents :
    ({ State.reset.ppu with cycle := 0 } : Ppu).cycle + 1 ≠ State.reset.params.cyclesPerScanline ∧
    State.reset.ppu.cycle + 1 = State.reset.params.cyclesPerScanline ∧
    0 = (if State.reset.ppu.scanline = State.reset.params.lastLine then 0 else State.reset.ppu.scanline + 1) ∧
    State.reset.params.vblankStartLine = (if 240 = State.reset.params.lastLine then 0 else 240 + 1) ∧
    (1 : Nat) ≠ State.reset.params.vblankStartLine ∧ (1 : Nat) ≠ 0 ∧ ppu0.hitRow ≠ some 1 ∧
    (∀ n : Nat, ∃ hit frame, hit = (if n = 0 then ppu0.detect Params.standard else ppu0.hitRow) ∧
      frame = (if n = 0 then ppu0.compose Params.standard else ppu0.frame)) := by
  refine ⟨?_, ?_, ?_, ?_, ?_, ?_, ?_, fun n => ⟨_, _, rfl, rfl⟩⟩ <;> decide +kernel

theorem witness_DetectorFindsTheFirstHitRow :
    (sprites [(0, 0x1F), (1, 1), (3, 0x10)] [(0x82, 1)]).detect Params.standard = some 32 ∧
    ppu0.detect Params.standard = none ∧ (255 : Nat) < 256 ∧ (239 : Nat) < 240 ∧
    (7 < 8 ∨ 264 ≤ 7 ∨ 8 < 8 ∨ 248 ≤ 8) ∧ (264 < 8 ∨ 264 ≤ 264 ∨ 247 < 8 ∨ 248 ≤ 247) := by decide +kernel

theorem witness_FrameHoldsTheLayeredPixels : (0 : Nat) < 256 ∧ (255 : Nat) < 256 ∧ (239 : Nat) < 240 := by decide +kernel

theorem witness_JoypadShiftsTheButtons : (0xFE : Byte).getLsbD 0 = false ∧ (0x01 : Byte).getLsbD 0 = true ∧
    ppu0.strobe = false ∧ ({ ppu0 with strobe := true } : Ppu).strobe = true ∧
    (0 : Fin 8).val = (({ ppu0 with index := 7 } : Ppu).index.val + 1) % 8 := by decide +kernel

/-- `cpu` in lockstep. -/
def locked : State := { cpu [] [] with params := { Params.standard with syncMode := .lockstep } }

theorem witness_LockstepIsSynchronous : locked.params.syncMode = .lockstep ∧ locked.alivePpu = true ∧
    locked.ppuChan.writes = [] ∧ locked.apuChan.writes = [] ∧ locked.feed = [] ∧
    resolve (Instr.staAbs 0x2007).operand locked = .addr 0x2007 ∧
    writeTarget 0x2007 = .ppu .busData ∧ readTarget 0x2007 = .ppu .busData ∧
    writeTarget 0x4017 = .apu .frameCounter ∧ writeTarget 0x4018 = .noTarget ∧ writeTarget 0x4014 = .oamDma ∧
    ((Instr.staAbs 0x2007).mnemonic, locked.a) ∈
      [(Mnemonic.sta, locked.a), (Mnemonic.stx, locked.x), (Mnemonic.sty, locked.y)] ∧
    (cpu [] []).params.syncMode = .async := by decide +kernel

-- a reply of each kind of target, gone and live; whatever the reply, an INC and a ROR have their premise
theorem witness_LockstepIsSynchronous_replies :
    (∀ a, a ∈ [(0x2000 : Word), 0x3FFF, 0x4000, 0x4014, 0x4015, 0x4016, 0x4017, 0x4018] →
      (lockstepReply a locked).isSome = true ∧
      (lockstepReply a { locked with alivePpu := false, aliveApu := false }).isSome = true) ∧
    resolve (Instr.incAbs 0x2007).operand locked = .addr 0x2007 ∧ resolve (Instr.rorAbs 0x4015).operand locked = .addr 0x4015 ∧
    ∀ v : Byte, (∃ r, modifies (.incAbs 0x2007) false v false r = true) ∧
      ∃ c r, modifies (.rorAbs 0x4015) true v c r = true := by
  refine ⟨?_, by decide +kernel, by decide +kernel, fun v => ⟨⟨BitVec.ofNat 8 (v.toNat + 1), ?_⟩, v.getLsbD 0,
    BitVec.ofNat 8 (v.toNat / 2 + 128), ?_⟩⟩
  · simp only [List.mem_cons, List.not_mem_nil, or_false]
    rintro a (rfl | rfl | rfl | rfl | rfl | rfl | rfl | rfl) <;> exact ⟨rfl, rfl⟩
  · simp [modifies, Instr.mnemonic]
  · have := v.isLt
    simp [modifies, Instr.mnemonic]
    omega

/-- `step` answers a next state. -/
def steps (s : State) : Bool := (after (fun _ => ()) s).isSome

theorem steps_iff (s : State) (h : steps s = true) : ∃ t, step s = .next t := by
  unfold steps after at h
  split at h
  · exact ⟨_, ‹_›⟩
  · exact nomatch h
  · exact nomatch h

theorem witness_MemoriesStayCanonical : (cpu [0x8D, 0xFF, 0x1F] []).MemoriesWf ∧
    ∃ t, step (cpu [0x8D, 0xFF, 0x1F] []) = .next t := ⟨by decide +kernel, steps_iff _ (by decide +kernel)⟩

theorem witness_ClockStaysInRange : (ppuTurn { State.reset with ppu := { ppu0 with scanline := 240 } }).ClockWf ∧
    ∃ t, step (ppuTurn { State.reset with ppu := { ppu0 with scanline := 240 } }) = .next t :=
  ⟨by refine ⟨by decide +kernel, by decide +kernel, fun r h => nomatch h⟩, steps_iff _ (by decide +kernel)⟩

theorem witness_ChannelsAndWorkStayConsistent : (cpu [0xAD, 0x02, 0x20] []).ChannelsWf ∧
    (cpu [0xAD, 0x02, 0x20] []).WorkWf ∧ (cpu [0xAD, 0x02, 0x20] []).LockstepWf ∧
    ∃ t, step (cpu [0xAD, 0x02, 0x20] []) = .next t :=
  ⟨⟨rfl, rfl⟩, ⟨rfl, rfl, rfl, rfl⟩, fun h => absurd h (by decide +kernel), steps_iff (cpu [0xAD, 0x02, 0x20] []) (by decide +kernel)⟩

theorem witness_ParametersAndRomNeverChange : ({ cpu [0xEA] [] with
      ppu := { ppu0 with chrRam := false } } : State).ppu.chrRam = false ∧
    ∃ t, step { cpu [0xEA] [] with ppu := { ppu0 with chrRam := false } } = .next t := ⟨by decide +kernel, steps_iff _ (by decide +kernel)⟩

theorem witness_StoppedAgentsStayStopped :
    (∃ t, step { cpu [] [] with run := .halted (.unknownOpcode 0x02 0x8000) } = .next t) ∧
    (∃ t, step { cpu [] [] with run := .exited, shutdown := true, alivePpu := false } = .next t) ∧
    (cpu [] []).ppu.status.overflow = false :=
  ⟨steps_iff _ (by decide +kernel), steps_iff _ (by decide +kernel), by decide +kernel⟩

theorem constructed_of_no_failure {prm : Params} {img : Image} {d : PowerOn} (h : failureOf prm img d = none) :
    ∃ s, construct prm img d = .ok s := by
  unfold failureOf at h
  split at h
  · exact nomatch h
  · exact ⟨_, ‹_›⟩

theorem witness_InvariantsHoldAtPowerOn :
    ∃ s, construct Params.standard { Image.blank with prg := [(0x3FFD, 0x80)] } PowerOn.blank = .ok s :=
  constructed_of_no_failure (by decide +kernel)

-- each ground of a refusal, and parameters with none
theorem witness_InvariantsHoldAtPowerOn_grounds :
    refusalGround Params.standard { Image.blank with prgSize := 0 } PowerOn.blank .emptyProgram ∧
    refusalGround { Params.standard with decimalMode := true } Image.blank PowerOn.blank .decimalMode ∧
    refusalGround { Params.standard with vblankStartLine := 262 } Image.blank PowerOn.blank .clock ∧
    refusalGround { Params.standard with cyclesPerScanline := 0 } Image.blank PowerOn.blank .clock ∧
    refusalGround { Params.standard with opcodes := [rowOf 0x02 .nop .implied, rowOf 0x02 .tax .implied] } Image.blank
      PowerOn.blank .opcodeTable ∧
    refusalGround Params.standard { Image.blank with prg := [(16384, 1)] } PowerOn.blank .malformedImage ∧
    ∀ e : MapperEntry, refusalGround { Params.standard with mapperTable := [(0, e)] } Image.blank PowerOn.blank .mapperTable :=
  ⟨rfl, rfl, .inr (.inr (by decide +kernel)), .inl (by decide +kernel), by simp [refusalGround, rowOf], .inl (by decide +kernel),
    fun _ => ⟨_, .head _, .inl rfl⟩⟩

theorem witness_InvariantsHoldAtPowerOn_no_ground (f : ConstructionFailure) :
    ¬ refusalGround Params.standard Image.blank PowerOn.blank f := by
  cases f <;> simp only [refusalGround] <;> decide +kernel

theorem witness_PowerOnAndFirstStep : (∀ k : Nat, k = 8191 → k < 8192) ∧ Image.blank.chr = none ∧
    ({ Image.blank with chr := some [(8191, 1), (8192, 2)] } : Image).chr = some [(8191, 1), (8192, 2)] :=
  ⟨fun k h => by omega, rfl, rfl⟩

end
end

section
/-! PROOF. Everything a step of any agent can do to the state, said once: every step is a sequence of the changes below, so
an invariant of every step is a case analysis over `Change`. -/

namespace Sys2Proof.Machine

/-- The part of the state that the engine's bookkeeping never touches: the memories and the other units, the frames handed
out, the parameters, and the three flags that change one way only (10_state.md R40, R41, R43 to R52). -/
def State.units (s : State) :
    (Memory × Cartridge × Ppu × Memory) × (List FrameOut × Params) × (Bool × Bool × Bool) :=
  ((s.ram, s.cart, s.ppu, s.apuLatch), (s.framesOut, s.params), (s.alivePpu, s.aliveApu, s.shutdown))

/-- One change of the state: every step is a sequence of these. -/
inductive Change (s : State) : State → Prop where
  /-- an instruction, a handler or an interrupt entry -/
  | cpu {t : State} (h : CpuFrame s t) : Change s t
  /-- bookkeeping of the engine, the channels and the signals; cycles may be charged -/
  | engine {t : State} (hu : t.units = s.units) (hc : s.cycles ≤ t.cycles) : Change s t
  /-- one advance of the PPU's clock -/
  | clock : Change s (advanceClock s)
  /-- the PPU serves its FIFOs -/
  | ppuServed {t : State} (h : PpuServed s t) : Change s t
  /-- the APU serves its FIFOs -/
  | apuServed {t : State} (h : ApuServed s t) : Change s t
  /-- responders return -/
  | gone (p a : Bool) (hp : s.alivePpu = false → p = false) (ha : s.aliveApu = false → a = false) :
    Change s { s with alivePpu := p, aliveApu := a }
  /-- the host acts -/
  | host (a : HostAction) : Change s (hostMove a s)

/-- A sequence of changes. -/
def Changes : State → State → Prop := Relation.ReflTransGen Change

theorem Changes.refl (s : State) : Changes s s := Relation.ReflTransGen.refl

theorem Changes.trans {s t u : State} (h : Changes s t) (k : Changes t u) : Changes s u := Relation.ReflTransGen.trans h k

theorem Change.changes {s t : State} (h : Change s t) : Changes s t := Relation.ReflTransGen.single h

theorem Changes.cpu {s t : State} (h : CpuFrame s t) : Changes s t := (Change.cpu h).changes

theorem Changes.engine {s t : State} (hu : t.units = s.units) (hc : s.cycles ≤ t.cycles) : Changes s t :=
  (Change.engine hu hc).changes

/-- Changes that begin after bookkeeping. -/
theorem Changes.afterEngine {s t u : State} (h : Changes t u) (hu : t.units = s.units) (hc : s.cycles ≤ t.cycles) :
    Changes s u := (Changes.engine hu hc).trans h

/-- What every change keeps, a sequence of changes keeps. -/
theorem Changes.keep {P : State → Prop} (hP : ∀ s t, Change s t → P s → P t) {s t : State} (h : Changes s t)
    (hs : P s) : P t := by
  induction h with
  | refl => exact hs
  | tail _ h ih => exact hP _ _ h ih

/-- What holds between the two states of every change, reflexively and transitively, holds between those of a sequence. -/
theorem Changes.relate {R : State → State → Prop} (hr : ∀ s, R s s) (ht : ∀ s t u, R s t → R t u → R s u)
    (hR : ∀ s t, Change s t → R s t) {s t : State} (h : Changes s t) : R s t := by
  induction h with
  | refl => exact hr s
  | tail _ h ih => exact ht _ _ _ ih (hR _ _ h)

/-! ## The CPU's turn -/

theorem suspend_changes (q : ReadRequest) (s : State) : Changes s (suspend q s) := by
  obtain ⟨pr, ar, h⟩ := suspend_frame q s
  rw [h]
  exact .engine rfl le_rfl

theorem execFetched_changes {f : Fetched} {s t : State} (h : execFetched f s = .next t) : Changes s t := by
  rcases execFetched_frame h with h | ⟨-, u, q, feed, draws, paused, hu, rfl⟩
  · exact .cpu h
  · exact (Changes.cpu hu).trans ((suspend_changes q _).afterEngine rfl le_rfl)

theorem retire_changes (opcode : Byte) (s : State) : Changes s (retire opcode s) :=
  .engine rfl (by rw [retire_cycles, Nat.add_assoc]; exact Nat.le_add_right _ _)

theorem runFetched_changes {opcode : Byte} {f : Fetched} {s t : State} (h : runFetched opcode f s = .next t) :
    Changes s t := by
  obtain ⟨u, hu⟩ := execFetched_total f s
  simp only [runFetched, hu] at h
  injection h with h
  subst h
  refine (execFetched_changes hu).trans ?_
  split
  · exact retire_changes opcode u
  · exact .engine rfl le_rfl

theorem fetchOn_changes {n : Nat} {got : List Byte} {s t : State} (h : fetchOn n got s = .next t) : Changes s t := by
  induction n generalizing got s with
  | zero =>
    rw [fetchOn] at h
    split at h
    · exact runFetched_changes h
    · exact runFetched_changes h
    · injection h with h
      exact h ▸ .engine rfl le_rfl
    · exact nomatch h
  | succ n ih =>
    rw [fetchOn] at h
    split at h
    · exact runFetched_changes h
    · exact runFetched_changes h
    · injection h with h
      exact h ▸ .engine rfl le_rfl
    · have hf := busRead_frame s.pc s
      split at h
      · rename_i v u hr
        rw [hr] at hf
        exact (Changes.cpu hf.toCpu).trans ((ih h).afterEngine rfl le_rfl)
      · rename_i q u hr
        rw [hr] at hf
        injection h with h
        exact h ▸ (Changes.cpu hf.toCpu).trans ((suspend_changes q _).afterEngine rfl le_rfl)

theorem resume_changes {v : Byte} {s t : State} (h : resume v s = .next t) : Changes s t := by
  unfold resume at h
  dsimp only at h
  split at h
  · injection h with h
    exact h ▸ .engine rfl le_rfl
  · exact (fetchOn_changes h).afterEngine rfl le_rfl
  · exact (runFetched_changes h).afterEngine rfl le_rfl

theorem awaitStep_changes {r : ReadRequest} {s t : State} (h : awaitStep r s = .next t) : Changes s t := by
  unfold awaitStep at h
  split at h
  all_goals
    split at h
    · exact (resume_changes h).afterEngine rfl le_rfl
    · split at h
      · injection h with h
        exact h ▸ .refl _
      · split at h
        · exact (resume_changes h).afterEngine rfl le_rfl
        · injection h with h
          exact h ▸ .engine rfl le_rfl

theorem chargeEntry_changes (s : State) : Changes s (chargeEntry s) := .engine rfl (Nat.le_add_right _ _)

theorem shutDown_changes (s : State) : Changes s (shutDown s) := by
  unfold shutDown
  split
  · exact .engine rfl le_rfl
  · exact (Change.gone false false (fun _ => rfl) fun _ => rfl).changes.trans (.engine rfl le_rfl)

theorem boundary_changes {s t : State} (h : boundary s = .next t) : Changes s t := by
  unfold boundary at h
  dsimp only at h
  split at h
  · injection h with h
    exact h ▸ shutDown_changes s
  split at h
  · injection h with h
    exact h ▸ (chargeEntry_changes _).afterEngine rfl le_rfl
  have poll : Changes s (pollSignals s) := .engine rfl le_rfl
  split at h
  · injection h with h
    exact h ▸ poll.trans ((Changes.cpu (enter_frame _ _ _ _)).trans (chargeEntry_changes _))
  split at h
  · injection h with h
    exact h ▸ poll.trans ((Changes.cpu (irqAccept_frame _)).trans (chargeEntry_changes _))
  · exact poll.trans ((fetchOn_changes (s := startInstr _) h).afterEngine rfl le_rfl)

theorem advanceClocks_changes (n : Nat) (s : State) : Changes s (advanceClocks n s) := by
  induction n generalizing s with
  | zero => exact .refl _
  | succ n ih => exact (Change.clock).changes.trans (ih _)

theorem followCpu_changes (s t : State) : Changes t (followCpu s t) := by
  unfold followCpu
  split
  · exact .refl _
  · split
    · exact advanceClocks_changes _ t
    · exact .refl _

theorem cpuMove_changes {s t : State} (h : cpuMove s = .next t) : Changes s t := by
  unfold cpuMove at h
  split at h
  · obtain ⟨u, hu⟩ := boundary_total s
    rw [hu] at h
    injection h with h
    exact h ▸ (boundary_changes hu).trans (followCpu_changes s u)
  · split at h
    · injection h with h
      exact h ▸ .refl _
    · exact awaitStep_changes h
  · injection h with h
    exact h ▸ .refl _
  · injection h with h
    exact h ▸ .refl _

/-! ## The other turns, and the step -/

theorem ppuMove_changes (s : State) : Changes s (ppuMove s) := by
  rcases ppuMove_cases s with h | h | ⟨-, u, hu, h⟩ <;> rw [h]
  · exact .refl _
  · exact (Change.gone false s.aliveApu (fun _ => rfl) id).changes
  · exact (Change.ppuServed hu).changes.trans (Change.clock).changes

theorem apuMove_changes (s : State) : Changes s (apuMove s) := by
  rcases apuMove_cases s with h | h | ⟨-, h⟩
  · rw [h]
    exact .refl _
  · rw [h]
    exact (Change.gone s.alivePpu false id fun _ => rfl).changes
  · exact (Change.apuServed h).changes

theorem act_changes {m : Move} {s t : State} (h : act m s = .next t) : Changes s t := by
  cases m with
  | cpu => exact cpuMove_changes h
  | ppu =>
    injection h with h
    exact h ▸ ppuMove_changes s
  | apu =>
    injection h with h
    exact h ▸ apuMove_changes s
  | host a =>
    injection h with h
    exact h ▸ (Change.host a).changes

/-- A step is the turn of the agent that is next. -/
theorem step_act {s t : State} (h : step s = .next t) : act (nextMove s) (moveTaken s) = .next t := by
  unfold step at h
  split at h
  · exact nomatch h
  · exact h

/-- Every step of every agent is a sequence of changes. -/
theorem step_changes {s t : State} (h : step s = .next t) : Changes s t :=
  (act_changes (step_act h)).afterEngine rfl le_rfl

end Sys2Proof.Machine
end

section
/-! PROOF. The invariants of every step (10_state.md): each is kept by every change, so by every step. -/

namespace Sys2Proof.Machine

/-! ## What bookkeeping leaves -/

/-- The same units, field by field. -/
theorem units_eq {s t : State} (h : t.units = s.units) :
    t.ram = s.ram ∧ t.cart = s.cart ∧ t.ppu = s.ppu ∧ t.apuLatch = s.apuLatch ∧ t.framesOut = s.framesOut ∧
      t.params = s.params ∧ t.alivePpu = s.alivePpu ∧ t.aliveApu = s.aliveApu ∧ t.shutdown = s.shutdown := by
  simpa [State.units, and_assoc] using h

/-! ## Memories -/

theorem Change.memoriesWf {s t : State} (h : Change s t) (hs : s.MemoriesWf) : t.MemoriesWf := by
  obtain ⟨hram, hprg, hoam, hvram, hpal, hchr, hframe, hlatch, hout⟩ := hs
  cases h with
  | cpu h =>
    obtain ⟨_, _, _, _, _, _, _, _, _, _, _, _, _, _, _, _, _, _, ⟨hp, hl, -⟩, hr, ⟨_, rfl⟩, rfl⟩ := h
    obtain ⟨_, _, _, _, _, _, _, _, _, _, _, _, _, _, _, ho, hv, hpl, hc, -, rfl⟩ := hp
    exact ⟨hr hram, hprg, ho hoam, hv hvram, hpl hpal, hc hchr, hframe, hl hlatch, hout⟩
  | engine hu _ =>
    obtain ⟨h1, h2, h3, h4, h5, -⟩ := units_eq hu
    simp only [State.MemoriesWf, h1, h2, h3, h4, h5]
    exact ⟨hram, hprg, hoam, hvram, hpal, hchr, hframe, hlatch, hout⟩
  | clock =>
    obtain ⟨_, _, _, _, _, _, _, _, _, _, -, hf, he⟩ := advanceClock_frame s
    rw [he]
    exact ⟨hram, hprg, hoam, hvram, hpal, hchr, (hf ⟨hframe, hout⟩).1, hlatch, (hf ⟨hframe, hout⟩).2⟩
  | ppuServed h =>
    obtain ⟨_, _, _, _, _, hp, -, rfl⟩ := h
    obtain ⟨_, _, _, _, _, _, _, _, _, _, _, _, _, _, _, ho, hv, hpl, hc, -, rfl⟩ := hp
    exact ⟨hram, hprg, ho hoam, hv hvram, hpl hpal, hc hchr, hframe, hlatch, hout⟩
  | apuServed h =>
    obtain ⟨_, _, _, _, _, hl, -, rfl⟩ := h
    exact ⟨hram, hprg, hoam, hvram, hpal, hchr, hframe, hl hlatch, hout⟩
  | gone p a hp ha => exact ⟨hram, hprg, hoam, hvram, hpal, hchr, hframe, hlatch, hout⟩
  | host a =>
    obtain ⟨_, _, _, _, -, he⟩ := hostMove_eq a s
    rw [he]
    exact ⟨hram, hprg, hoam, hvram, hpal, hchr, hframe, hlatch, hout⟩

/-- Settles O54: every change keeps every memory canonical, so every step does. -/
theorem memoriesStayCanonical : Obligations.MemoriesStayCanonical := fun _ _ hs h =>
  (step_changes h).keep (fun _ _ => Change.memoriesWf) hs

/-! ## What a change does to each unit -/

/-- A change reaches the PPU by a register access, by a clock advance, or by the host's buttons. -/
theorem Change.ppu_cases {s t : State} (h : Change s t) :
    s.ppu.AccessFrame t.ppu ∨ t = advanceClock s ∨ ∃ b, t.ppu = { s.ppu with buttons := b } := by
  cases h with
  | cpu h =>
    obtain ⟨_, _, _, _, _, _, _, _, _, _, _, _, _, _, _, _, _, _, ⟨hp, -⟩, -, -, rfl⟩ := h
    exact .inl hp
  | engine hu _ =>
    obtain ⟨-, -, h, -⟩ := units_eq hu
    exact .inl (h ▸ .refl _)
  | clock => exact .inr (.inl rfl)
  | ppuServed h =>
    obtain ⟨_, _, _, _, _, hp, -, rfl⟩ := h
    exact .inl hp
  | apuServed h =>
    obtain ⟨_, _, _, _, _, -, -, rfl⟩ := h
    exact .inl (.refl _)
  | gone p a hp ha => exact .inl (.refl _)
  | host a =>
    obtain ⟨b, _, _, _, -, he⟩ := hostMove_eq a s
    exact .inr (.inr ⟨b, by rw [he]⟩)

/-- What lasts, outside the PPU: the parameters and the cartridge but for added mappings, shutdown once set, a responder's
end, and the cycles charged. -/
structure Lasting (s t : State) : Prop where
  params : t.params = s.params
  cart : ∃ added, t.cart = { s.cart with mappings := added ++ s.cart.mappings }
  shutdown : s.shutdown = true → t.shutdown = true
  alivePpu : s.alivePpu = false → t.alivePpu = false
  aliveApu : s.aliveApu = false → t.aliveApu = false
  cycles : s.cycles ≤ t.cycles

theorem Lasting.refl (s : State) : Lasting s s := ⟨rfl, ⟨[], rfl⟩, id, id, id, le_rfl⟩

theorem Lasting.trans {s t u : State} (h : Lasting s t) (k : Lasting t u) : Lasting s u := by
  obtain ⟨l, hl⟩ := h.cart
  obtain ⟨m, hm⟩ := k.cart
  exact ⟨k.params.trans h.params, ⟨m ++ l, by rw [hm, hl, List.append_assoc]⟩, k.shutdown ∘ h.shutdown,
    k.alivePpu ∘ h.alivePpu, k.aliveApu ∘ h.aliveApu, h.cycles.trans k.cycles⟩

theorem Change.lasting {s t : State} (h : Change s t) : Lasting s t := by
  cases h with
  | cpu h =>
    obtain ⟨_, _, _, _, _, _, _, _, _, _, _, _, _, _, _, _, _, _, -, -, hc, rfl⟩ := h
    exact ⟨rfl, hc, id, id, id, le_rfl⟩
  | engine hu hc =>
    obtain ⟨-, h2, -, -, -, h6, h7, h8, h9⟩ := units_eq hu
    exact ⟨h6, ⟨[], h2⟩, fun h => h9.trans h, fun h => h7.trans h, fun h => h8.trans h, hc⟩
  | clock =>
    obtain ⟨_, _, _, _, _, _, _, _, _, _, -, -, he⟩ := advanceClock_frame s
    rw [he]
    exact ⟨rfl, ⟨[], rfl⟩, id, id, id, le_rfl⟩
  | ppuServed h =>
    obtain ⟨_, _, _, _, _, -, -, rfl⟩ := h
    exact ⟨rfl, ⟨[], rfl⟩, id, id, id, le_rfl⟩
  | apuServed h =>
    obtain ⟨_, _, _, _, _, -, -, rfl⟩ := h
    exact ⟨rfl, ⟨[], rfl⟩, id, id, id, le_rfl⟩
  | gone p a hp ha => exact ⟨rfl, ⟨[], rfl⟩, id, hp, ha, le_rfl⟩
  | host a =>
    obtain ⟨_, _, _, _, hs, he⟩ := hostMove_eq a s
    rw [he]
    exact ⟨rfl, ⟨[], rfl⟩, hs, id, id, le_rfl⟩

/-! ## The clock -/

/-- A frame event leaves the counters of the scanline clock. -/
theorem onScanline_counters (n : Nat) (s : State) :
    (onScanline n s).ppu.scanline = s.ppu.scanline ∧ (onScanline n s).ppu.cycle = s.ppu.cycle := by
  have h1 (t : State) : ((if n = 0 then frameStart t else t).ppu.scanline = t.ppu.scanline) ∧
      (if n = 0 then frameStart t else t).ppu.cycle = t.ppu.cycle := by split <;> exact ⟨rfl, rfl⟩
  have h2 (t : State) : ((if t.ppu.hitRow = some n then spriteZeroHit t else t).ppu.scanline = t.ppu.scanline) ∧
      (if t.ppu.hitRow = some n then spriteZeroHit t else t).ppu.cycle = t.ppu.cycle := by split <;> exact ⟨rfl, rfl⟩
  have h3 (t : State) : ((if n = t.params.vblankStartLine then vblankStart t else t).ppu.scanline = t.ppu.scanline) ∧
      (if n = t.params.vblankStartLine then vblankStart t else t).ppu.cycle = t.ppu.cycle := by
    split <;> exact ⟨rfl, rfl⟩
  exact ⟨(h3 _).1.trans ((h2 _).1.trans (h1 s).1), (h3 _).2.trans ((h2 _).2.trans (h1 s).2)⟩

theorem nextScanline_le {prm : Params} {n : Nat} (h : n ≤ prm.lastLine) : nextScanline prm n ≤ prm.lastLine := by
  unfold nextScanline
  split
  · exact Nat.zero_le _
  · omega

/-- A clock advance keeps the counters within their bounds. -/
theorem advanceClock_counters {s : State} (hc : s.ppu.cycle < s.params.cyclesPerScanline)
    (hl : s.ppu.scanline ≤ s.params.lastLine) :
    (advanceClock s).ppu.cycle < s.params.cyclesPerScanline ∧ (advanceClock s).ppu.scanline ≤ s.params.lastLine := by
  unfold advanceClock
  dsimp only
  split
  · obtain ⟨h1, h2⟩ := onScanline_counters (nextScanline s.params s.ppu.scanline)
      { s with ppu := { s.ppu with cycle := 0, scanline := nextScanline s.params s.ppu.scanline } }
    rw [h1, h2]
    exact ⟨Nat.zero_lt_of_lt hc, nextScanline_le hl⟩
  · exact ⟨by show s.ppu.cycle + 1 < _; omega, hl⟩

/-- A clock advance keeps a hit row on the screen. -/
theorem advanceClock_hitRow {s : State} (h : ∀ r, s.ppu.hitRow = some r → r < 240) {r : Nat}
    (hr : (advanceClock s).ppu.hitRow = some r) : r < 240 := by
  obtain ⟨_, _, row, _, _, _, _, _, _, _, hrow, -, he⟩ := advanceClock_frame s
  rw [he] at hr
  rcases hrow with hrow | hrow
  · exact h r (hrow ▸ hr)
  · exact hrow r hr

theorem Change.clockWf {s t : State} (h : Change s t) (hs : s.ClockWf) : t.ClockWf := by
  obtain ⟨hc, hl, hr⟩ := hs
  simp only [State.ClockWf, h.lasting.params]
  rcases h.ppu_cases with ⟨_, _, _, _, _, _, _, _, _, _, _, _, _, _, _, -, -, -, -, -, he⟩ | rfl | ⟨b, he⟩
  · rw [he]
    exact ⟨hc, hl, hr⟩
  · obtain ⟨hc', hl'⟩ := advanceClock_counters hc hl
    exact ⟨hc', hl', fun _ => advanceClock_hitRow hr⟩
  · rw [he]
    exact ⟨hc, hl, hr⟩

/-- Settles O55: every change keeps the clock in range, so every step does. -/
theorem clockStaysInRange : Obligations.ClockStaysInRange := fun _ _ hs h =>
  (step_changes h).keep (fun _ _ => Change.clockWf) hs

/-! ## Parameters and ROM -/

/-- What no step changes of the PPU: its mirroring, the kind of its character memory, a character ROM, and the overflow
flag. -/
def Ppu.FixedParts (p q : Ppu) : Prop :=
  q.mirroring = p.mirroring ∧ q.chrRam = p.chrRam ∧ (p.chrRam = false → q.chr = p.chr) ∧
    q.status.overflow = p.status.overflow

theorem Ppu.FixedParts.trans {p q r : Ppu} (h : p.FixedParts q) (k : q.FixedParts r) : p.FixedParts r := by
  obtain ⟨hm, hk, hc, ho⟩ := h
  obtain ⟨km, kk, kc, ko⟩ := k
  exact ⟨km.trans hm, kk.trans hk, fun h => (kc (hk.trans h)).trans (hc h), ko.trans ho⟩

theorem Change.ppuFixedParts {s t : State} (h : Change s t) : s.ppu.FixedParts t.ppu := by
  rcases h.ppu_cases with ⟨_, _, _, _, _, _, _, _, _, _, _, _, _, _, _, -, -, -, -, hc, he⟩ | rfl | ⟨b, he⟩
  · rw [he]
    exact ⟨rfl, rfl, hc, rfl⟩
  · obtain ⟨_, _, _, _, _, _, _, _, _, _, -, -, he⟩ := advanceClock_frame s
    rw [he]
    exact ⟨rfl, rfl, fun _ => rfl, rfl⟩
  · rw [he]
    exact ⟨rfl, rfl, fun _ => rfl, rfl⟩

theorem step_ppuFixedParts {s t : State} (h : step s = .next t) : s.ppu.FixedParts t.ppu :=
  (step_changes h).relate (R := fun s t => s.ppu.FixedParts t.ppu) (fun _ => ⟨rfl, rfl, fun _ => rfl, rfl⟩)
    (fun _ _ _ => Ppu.FixedParts.trans) fun _ _ => Change.ppuFixedParts

theorem step_lasting {s t : State} (h : step s = .next t) : Lasting s t :=
  (step_changes h).relate Lasting.refl (fun _ _ _ => Lasting.trans) fun _ _ => Change.lasting

/-- Settles O57: the parameters, the cartridge up to added mappings and the PPU's fixed parts pass every step. -/
theorem parametersAndRomNeverChange : Obligations.ParametersAndRomNeverChange := by
  intro s t h
  obtain ⟨added, hcart⟩ := (step_lasting h).cart
  obtain ⟨hm, hk, hc, -⟩ := step_ppuFixedParts h
  rw [hcart]
  exact ⟨(step_lasting h).params, rfl, rfl, rfl, hm, hk, hc, added, rfl⟩

/-! ## Stopped agents -/

/-- The turn of an agent other than the CPU leaves the CPU's run state. -/
theorem ppuMove_run (s : State) : (ppuMove s).run = s.run := by
  rcases ppuMove_cases s with h | h | ⟨-, u, ⟨_, _, _, _, _, -, -, rfl⟩, h⟩
  · rw [h]
  · rw [h]
  · obtain ⟨_, _, _, _, _, _, _, _, _, _, -, -, he⟩ := advanceClock_frame _
    rw [h, he]

theorem apuMove_run (s : State) : (apuMove s).run = s.run := by
  rcases apuMove_cases s with h | h | ⟨-, _, _, _, _, _, -, -, h⟩ <;> rw [h]

theorem hostMove_run (a : HostAction) (s : State) : (hostMove a s).run = s.run := by
  cases a <;> rfl

/-- A CPU that is halted or has exited stays as it is, whosever turn it is. -/
theorem act_run_of_stopped {m : Move} {s t : State} (h : act m s = .next t)
    (hs : (∃ c, s.run = .halted c) ∨ s.run = .exited) : t.run = s.run := by
  cases m with
  | cpu =>
    have h : cpuMove s = .next t := h
    unfold cpuMove at h
    rcases hs with ⟨c, hs⟩ | hs <;> simp only [hs] at h <;> injection h with h <;> rw [← h]
  | ppu =>
    injection h with h
    exact h ▸ ppuMove_run s
  | apu =>
    injection h with h
    exact h ▸ apuMove_run s
  | host a =>
    injection h with h
    exact h ▸ hostMove_run a s

theorem step_run_of_stopped {s t : State} (h : step s = .next t)
    (hs : (∃ c, s.run = .halted c) ∨ s.run = .exited) : t.run = s.run :=
  act_run_of_stopped (s := moveTaken s) (step_act h) hs

/-- Settles O58: a stopped CPU's run state passes every turn, and what lasts through every change lasts through the step. -/
theorem stoppedAgentsStayStopped : Obligations.StoppedAgentsStayStopped := by
  intro s t h
  have hl := step_lasting h
  obtain ⟨-, -, -, ho⟩ := step_ppuFixedParts h
  exact ⟨fun c hr => (step_run_of_stopped h (.inl ⟨c, hr⟩)).trans hr,
    fun hr => (step_run_of_stopped h (.inr hr)).trans hr, hl.shutdown, hl.alivePpu,
    hl.aliveApu, hl.cycles, ho.trans⟩

end Sys2Proof.Machine
end

section
/-! PROOF. Which registers and flags an instruction changes (10_state.md R35), said for every mnemonic's rule at every
operand, and so for every instruction. -/

namespace Sys2Proof.Machine

/-- The same registers and flags. -/
def SameRegs (s t : State) : Prop :=
  t.a = s.a ∧ t.x = s.x ∧ t.y = s.y ∧ t.sp = s.sp ∧ t.pc = s.pc ∧ t.p = s.p

theorem SameRegs.refl (s : State) : SameRegs s s := ⟨rfl, rfl, rfl, rfl, rfl, rfl⟩

theorem ReadFrame.sameRegs {s t : State} (h : ReadFrame s t) : SameRegs s t := by
  obtain ⟨_, _, _, _, _, _, _, -, rfl⟩ := h
  exact .refl _

theorem WriteFrame.sameRegs {ram : Memory} {cart : Cartridge} {s t : State} (h : WriteFrame ram cart s t) :
    SameRegs s t := by
  obtain ⟨_, _, _, _, _, _, _, _, -, rfl⟩ := h
  exact .refl _

theorem Suspended.sameRegs {s t : State} (h : Suspended s t) : SameRegs s t := by
  obtain ⟨_, _, _, _, _, rfl⟩ := h.frame
  exact .refl _

/-- The lists of 10_state.md R35: a register or flag changes only where the mnemonic stands in its list; A also where the
operand is the accumulator. -/
def ChangesListed (m : Mnemonic) (o : Operand) (s t : State) : Prop :=
  (m ∉ [.lda, .txa, .tya, .pla, .adc, .sbc, .and, .ora, .eor] → o ≠ .accumulator → t.a = s.a) ∧
  (m ∉ [.ldx, .tax, .tsx, .inx, .dex] → t.x = s.x) ∧
  (m ∉ [.ldy, .tay, .iny, .dey] → t.y = s.y) ∧
  (m ∉ [.txs, .pha, .php, .pla, .plp, .jsr, .rts, .rti, .brk] → t.sp = s.sp) ∧
  (m ∉ [.bpl, .bmi, .bvc, .bvs, .bcc, .bcs, .bne, .beq, .jmp, .jsr, .rts, .rti, .brk] → t.pc = s.pc) ∧
  (m ∉ readingMnemonics ++ modifyingMnemonics ++
      [.tax, .tay, .txa, .tya, .tsx, .pla, .inx, .iny, .dex, .dey, .plp, .rti] →
    t.p.n = s.p.n ∧ t.p.z = s.p.z) ∧
  (m ∉ [.adc, .sbc, .bit, .clv, .plp, .rti] → t.p.v = s.p.v) ∧
  (m ∉ [.adc, .sbc, .cmp, .cpx, .cpy, .asl, .lsr, .rol, .ror, .clc, .sec, .plp, .rti] → t.p.c = s.p.c) ∧
  (m ∉ [.cld, .sed, .plp, .rti] → t.p.d = s.p.d) ∧
  (m ∉ [.cli, .sei, .plp, .rti, .brk] → t.p.i = s.p.i) ∧
  (m ∉ [.plp, .rti, .brk] → t.p.b = s.p.b) ∧
  (m ∉ [.plp, .rti] → t.p.r = s.p.r)

theorem SameRegs.changesListed {s t : State} (h : SameRegs s t) (m : Mnemonic) (o : Operand) :
    ChangesListed m o s t := by
  obtain ⟨ha, hx, hy, hsp, hpc, hp⟩ := h
  simp only [ChangesListed, ha, hx, hy, hsp, hpc, hp, and_self, implies_true]

/-- The bus reads that resolve a pointer change no register, and lead to an address. -/
theorem ChangesListed.ofPointer {m : Mnemonic} {a ptr : Word} {s u t : State} (h : ChangesListed m (.absolute a) u t)
    (hu : ReadFrame s u) : ChangesListed m (.indirect ptr) s t := by
  obtain ⟨ha, hx, hy, hsp, hpc, hp⟩ := hu.sameRegs
  simpa [ChangesListed, ha, hx, hy, hsp, hpc, hp] using h

/-- A next state of a reading instruction acts on a state with the registers as they were, or keeps them. -/
theorem reading_regs {o : Operand} {f : Byte → State → State} {s t : State} (h : reading o f s = .next t) :
    (∃ v u, SameRegs s u ∧ t = f v u) ∨ SameRegs s t := by
  rcases reading_cases h with ⟨v, u, -, hu, -, ht⟩ | h
  · exact .inl ⟨v, u, hu.sameRegs, ht⟩
  · exact .inr h.sameRegs

/-- A store at an operand that is not the accumulator leaves A. -/
theorem storedA_of_ne {o : Operand} (h : o ≠ .accumulator) (s : State) (v a : Byte) : storedA (resolve o s) v a = a := by
  cases hr : resolve o s with
  | acc => exact absurd (resolve_acc hr) h
  | addr _ => rfl
  | nothing => rfl
  | value _ => rfl

/-- A storing instruction changes A at most, and that at the accumulator only. -/
theorem storing_regs {o : Operand} {v : Byte} {s t : State} (h : storing o v s = .next t) :
    (o ≠ .accumulator → t.a = s.a) ∧ SameRegs s { t with a := s.a } := by
  rcases storing_cases h with ⟨u, hu, -, rfl⟩ | h
  · obtain ⟨_, hx, hy, hsp, hpc, hp⟩ := hu.sameRegs
    exact ⟨fun ho => storedA_of_ne ho s v s.a, rfl, hx, hy, hsp, hpc, hp⟩
  · obtain ⟨ha, hx, hy, hsp, hpc, hp⟩ := h.sameRegs
    exact ⟨fun _ => ha, rfl, hx, hy, hsp, hpc, hp⟩

/-- A read-modify-write instruction changes the flags, and A at the accumulator only. -/
theorem modifying_regs {o : Operand} {f : Byte → Flags → Byte × Flags} {s t : State} (h : modifying o f s = .next t) :
    (o ≠ .accumulator → t.a = s.a) ∧ SameRegs s { t with a := s.a, p := s.p } ∧
      ((∃ v, t.p = (f v s.p).2) ∨ t.p = s.p) := by
  rcases modifying_cases h with ⟨v, w, u, -, hw, hu, -, rfl⟩ | h
  · obtain ⟨ha, hx, hy, hsp, hpc, -⟩ := hw.sameRegs
    obtain ⟨_, kx, ky, ksp, kpc, -⟩ := hu.sameRegs
    exact ⟨fun ho => (storedA_of_ne ho s _ _).trans ha,
      ⟨rfl, kx.trans hx, ky.trans hy, ksp.trans hsp, kpc.trans hpc, rfl⟩, .inl ⟨v, rfl⟩⟩
  · obtain ⟨ha, hx, hy, hsp, hpc, hp⟩ := h.sameRegs
    exact ⟨fun _ => ha, ⟨rfl, hx, hy, hsp, hpc, rfl⟩, .inr hp⟩

theorem targetOf_sameRegs (r : Resolved) (s : State) : SameRegs s (targetOf r s).2 := by
  obtain ⟨d, hd⟩ := targetOf_eq r s
  rw [hd]
  exact .refl _

/-- A branch changes PC only. -/
theorem branchAt_regs {c : Bool} {o : Operand} {s t : State} (h : branchAt c o s = .next t) :
    SameRegs s { t with pc := s.pc } := by
  injection h with h
  subst h
  obtain ⟨ha, hx, hy, hsp, -, hp⟩ := targetOf_sameRegs (resolve o s) (afterResolve o s)
  cases c
  · exact .refl _
  · exact ⟨ha, hx, hy, hsp, rfl, hp⟩

theorem jmpAt_regs {o : Operand} {s t : State} (h : jmpAt o s = .next t) : SameRegs s { t with pc := s.pc } := by
  injection h with h
  subst h
  obtain ⟨ha, hx, hy, hsp, -, hp⟩ := targetOf_sameRegs (resolve o s) (afterResolve o s)
  exact ⟨ha, hx, hy, hsp, rfl, hp⟩

theorem jsrAt_regs {o : Operand} {s t : State} (h : jsrAt o s = .next t) :
    SameRegs s { t with sp := s.sp, pc := s.pc } := by
  injection h with h
  subst h
  obtain ⟨ha, hx, hy, -, -, hp⟩ := targetOf_sameRegs (resolve o s) (afterResolve o s)
  exact ⟨ha, hx, hy, rfl, rfl, hp⟩

/-- An interrupt entry leaves A, X and Y, and of the flags all but B and I. -/
def EntryRegs (s t : State) : Prop :=
  t.a = s.a ∧ t.x = s.x ∧ t.y = s.y ∧ ∃ b i, t.p = { s.p with b := b, i := i }

theorem enter_regs (flags : Byte) (vec : Word) (jump : Bool) (s : State) : EntryRegs s (enter flags vec jump s) := by
  rw [enter_eq]
  exact ⟨rfl, rfl, rfl, _, _, rfl⟩

theorem irqAccept_regs (s : State) : EntryRegs s (irqAccept s) := by
  unfold irqAccept
  split
  · exact ⟨rfl, rfl, rfl, _, _, rfl⟩
  · rw [sharedInterrupt, enter_eq]
    exact ⟨rfl, rfl, rfl, _, _, rfl⟩

theorem EntryRegs.of_setPc {w : Word} {s t : State} (h : EntryRegs (s.setPc w) t) : EntryRegs s t := by
  simpa only [EntryRegs, State.setPc_a, State.setPc_x, State.setPc_y, State.setPc_p] using h

theorem brkEntry_regs (s : State) : EntryRegs s (brkEntry s) := by
  unfold brkEntry
  dsimp only
  split
  · exact (enter_regs _ _ _ _).of_setPc
  · exact (irqAccept_regs _).of_setPc

/-- A mnemonic's rule at any operand changes only what is listed for the mnemonic. -/
theorem ruleAt_changesListed {m : Mnemonic} {o : Operand} {s t : State} (h : ruleAt m o s = .next t) :
    ChangesListed m o s t := by
  cases m
  case lda | ldx | ldy | adc | sbc | and | ora | eor | bit | cmp | cpx | cpy =>
    rcases reading_regs h with ⟨v, u, ⟨ha, hx, hy, hsp, hpc, hp⟩, rfl⟩ | h
    · simp [ChangesListed, readingMnemonics, Flags.setNZ, Flags.add, Flags.bitTest, Flags.compare, ha, hx, hy, hsp,
        hpc, hp]
    · exact h.changesListed _ _
  case sta | stx | sty =>
    obtain ⟨ha, -, hx, hy, hsp, hpc, hp⟩ := storing_regs h
    simp_all [ChangesListed]
  case inc | dec | asl | lsr | rol | ror =>
    dsimp only [ruleAt] at h
    obtain ⟨ha, ⟨-, hx, hy, hsp, hpc, -⟩, hp⟩ := modifying_regs h
    rcases hp with ⟨v, hp⟩ | hp <;> simp_all [ChangesListed, modifyingMnemonics, Flags.setNZ, Flags.shift]
  case bpl | bmi | bvc | bvs | bcc | bcs | bne | beq =>
    obtain ⟨ha, hx, hy, hsp, -, hp⟩ := branchAt_regs h
    simp_all [ChangesListed]
  case jmp =>
    obtain ⟨ha, hx, hy, hsp, -, hp⟩ := jmpAt_regs h
    simp_all [ChangesListed]
  case jsr =>
    obtain ⟨ha, hx, hy, -, -, hp⟩ := jsrAt_regs h
    simp_all [ChangesListed]
  case brk =>
    injection h with h
    subst h
    obtain ⟨ha, hx, hy, b, i, hp⟩ := brkEntry_regs (afterResolve o s)
    simp [ChangesListed, readingMnemonics, modifyingMnemonics, ha, hx, hy, hp]
  case rts | rti =>
    injection h with h
    subst h
    simp [ChangesListed, pull16, interruptReturn_eq]
  -- the transfers, the counts, the flag instructions, and the other stack instructions
  all_goals
    injection h with h
    subst h
    simp [ChangesListed, Flags.setNZ]

/-- The same with the indirect mode's resolution before it. -/
theorem ruleWith_changesListed {m : Mnemonic} {o : Operand} {s t : State} (h : handlerWith (.rule m) o s = .next t) :
    ChangesListed m o s t := by
  change handlerFrom (.rule m) o s = .next t at h
  unfold handlerFrom at h
  split at h
  · rename_i ptr
    have hf := indirectAddress_frame ptr s
    have hw := indirectAddress_waits ptr s
    split at h
    · rename_i a u hr
      rw [hr] at hf
      exact (ruleAt_changesListed h).ofPointer hf
    · rename_i q u hr
      rw [hr] at hw
      injection h with h
      have hs : Suspended s t := ⟨hw, q, u.log, u.draws, h.symm⟩
      exact hs.sameRegs.changesListed _ _
  · exact ruleAt_changesListed h

/-- Settles O29: an instruction is its mnemonic's rule at its operand, and the rule changes what is listed. -/
theorem registersAndFlagsChangeOnlyWhereListed : Obligations.RegistersAndFlagsChangeOnlyWhereListed := by
  intro i s t h
  rw [exec_eq_handler] at h
  exact ruleWith_changesListed h

end Sys2Proof.Machine
end

section
/-! PROOF. The packed flags byte (10_state.md R34). -/

namespace Sys2Proof.Machine

theorem flagBit_getLsbD (f : Bool) (k : Nat) : (flagBit f).getLsbD k = (decide (k = 0) && f) := by
  cases f <;> simp [flagBit]

/-- Each bit of the packed byte is the flag at its position. -/
theorem Flags.getLsbD_toByte (p : Flags) :
    p.toByte.getLsbD 7 = p.n ∧ p.toByte.getLsbD 6 = p.v ∧ p.toByte.getLsbD 5 = p.r ∧ p.toByte.getLsbD 4 = p.b ∧
      p.toByte.getLsbD 3 = p.d ∧ p.toByte.getLsbD 2 = p.i ∧ p.toByte.getLsbD 1 = p.z ∧ p.toByte.getLsbD 0 = p.c := by
  simp [Flags.toByte, flagBit_getLsbD, -BitVec.getLsbD_eq_getElem]

theorem Flags.ofByte_toByte (p : Flags) : Flags.ofByte p.toByte = p := by
  obtain ⟨h7, h6, h5, h4, h3, h2, h1, h0⟩ := p.getLsbD_toByte
  rw [Flags.ofByte, h7, h6, h5, h4, h3, h2, h1, h0]

theorem Flags.toByte_ofByte (b : Byte) : (Flags.ofByte b).toByte = b := by
  obtain ⟨h7, h6, h5, h4, h3, h2, h1, h0⟩ := (Flags.ofByte b).getLsbD_toByte
  apply BitVec.eq_of_getLsbD_eq
  intro k hk
  interval_cases k <;> assumption

/-- A byte is the sum of its bits. -/
theorem toNat_eq_bits (b : Byte) : b.toNat =
    128 * (b.getLsbD 7).toNat + 64 * (b.getLsbD 6).toNat + 32 * (b.getLsbD 5).toNat + 16 * (b.getLsbD 4).toNat +
      8 * (b.getLsbD 3).toNat + 4 * (b.getLsbD 2).toNat + 2 * (b.getLsbD 1).toNat + (b.getLsbD 0).toNat := by
  simp only [BitVec.getLsbD, Nat.toNat_testBit]
  omega

/-- Settles O16: the bits of the packed byte are the flags. -/
theorem flagsByteRoundTrip : Obligations.FlagsByteRoundTrip := by
  refine ⟨fun p => ?_, fun _ => rfl, Flags.ofByte_toByte, Flags.toByte_ofByte⟩
  obtain ⟨h7, h6, h5, h4, h3, h2, h1, h0⟩ := p.getLsbD_toByte
  rw [toNat_eq_bits, h7, h6, h5, h4, h3, h2, h1, h0]

end Sys2Proof.Machine
end

section
/-! PROOF. Construction and the power-on state (10_state.md R53, 70_reset_and_hazards.md R380 to R382). -/

namespace Sys2Proof.Machine

/-! ## Power-on -/

/-- Cutting a memory at `n` leaves its bytes below `n`. -/
theorem Memory.read_filter_lt (m : Memory) {n k : Nat} (h : k < n) :
    Memory.read (m.filter fun c => decide (c.1 < n)) k = m.read k := by
  induction m with
  | nil => rfl
  | cons c m ih =>
    by_cases hc : c.1 < n
    · rw [List.filter_cons_of_pos (by simpa using hc), Memory.read, Memory.read, ih]
    · rw [List.filter_cons_of_neg (by simpa using hc), Memory.read, ih, if_neg (by omega)]

/-- With no mapping, the cartridge window shows the image from its start, modulo its size. -/
theorem Cartridge.read_of_no_mappings {c : Cartridge} (h : c.mappings = []) (a : Word) :
    c.read a = c.prg.read ((a.toNat - 0x8000) % c.prgSize) := by
  simp [Cartridge.read, Cartridge.offset, h]

/-- The PPU's following the CPU is clock advances at most. -/
theorem followCpu_frame (s t : State) : ClockFrame t (followCpu s t) := by
  unfold followCpu
  split
  · exact .refl t
  · split
    · exact advanceClocks_frame _ t
    · exact .refl t

/-- With its reset request pending, the running CPU's step is the reset entry, and then, in `lockstep`, the PPU's clock. -/
theorem step_resetEntry {s : State} (hn : nextMove s = .cpu) (hr : s.run = .running) (hs : s.shutdown = false)
    (hq : s.resetRequest = true) :
    step s = .next (followCpu (moveTaken s) (chargeEntry (resetEntry { moveTaken s with resetRequest := false }))) := by
  rw [step_boundary hn hr, boundary_reset (s := moveTaken s) hs hq]

/-- Clock advances touch neither the registers nor the cycle count. -/
theorem ClockFrame.cpu {s t : State} (h : ClockFrame s t) : SameRegs s t ∧ t.cycles = s.cycles := by
  obtain ⟨_, _, _, _, _, _, _, _, _, _, -, -, rfl⟩ := h
  exact ⟨.refl _, rfl⟩

/-- At power-on B alone is set. -/
theorem powerOn_flags (prm : Params) (img : Image) (d : PowerOn) : (State.powerOn prm img d).p.toByte = 0x10 := by
  simp only [State.powerOn]
  decide

/-- The reset vector of a cartridge without mappings. -/
theorem vectorAt_reset {s : State} (h : s.cart.mappings = []) : vectorAt resetVector s =
    wordOf (s.cart.prg.read (0x7FFC % s.cart.prgSize)) (s.cart.prg.read (0x7FFD % s.cart.prgSize)) := by
  rw [vectorAt, Cartridge.read_of_no_mappings h, Cartridge.read_of_no_mappings h]
  rfl

/-- Settles O59: the fields of `State.powerOn`, and the reset entry from it. -/
theorem powerOnAndFirstStep : Obligations.PowerOnAndFirstStep := by
  intro prm img d
  refine ⟨?_, ?_, ?_, ?_, fun script => ⟨_, step_resetEntry rfl rfl rfl rfl, ?_⟩⟩
  · exact ⟨rfl, rfl, rfl, rfl, rfl, powerOn_flags prm img d, rfl, rfl, rfl, rfl, rfl, rfl⟩
  · exact ⟨rfl, rfl, rfl, rfl, rfl, rfl, rfl, rfl, rfl, rfl, rfl, rfl⟩
  · exact ⟨rfl, rfl, rfl, rfl, rfl, rfl, rfl, rfl, rfl, rfl, rfl, rfl, fun _ => rfl, rfl, rfl, rfl⟩
  · refine ⟨rfl, rfl, rfl, fun k hk hc => ?_, fun k m hk hc => ?_⟩ <;> simp only [State.powerOn, hc]
    · exact Memory.read_filter_lt _ hk
    · exact Memory.read_filter_lt _ hk
  · obtain ⟨⟨ha, hx, hy, hsp, hpc, hp⟩, hc⟩ := (followCpu_frame _ _).cpu
    rw [ha, hx, hy, hsp, hpc, hp, hc]
    exact ⟨rfl, rfl, rfl, rfl, powerOn_flags prm img d, rfl, vectorAt_reset rfl⟩

/-! ## Construction -/

/-- The clock parameters are legal unless one of their bounds fails. -/
theorem clockWf_eq_false {p : Params} : p.clockWf = false ↔
    p.cyclesPerScanline < 1 ∨ p.vblankStartLine < 1 ∨ p.lastLine < p.vblankStartLine := by
  simp only [Params.clockWf, Bool.and_eq_false_iff, decide_eq_false_iff_not, not_le, or_assoc]

theorem mapperEntryWf_eq_false {e : MapperEntry} : e.wf = false ↔
    e.ctrlLo.toNat < 0x8000 ∨ e.ctrlHi.toNat < 0x8000 ∨ e.srcStart.toNat < 0x8000 ∨ e.srcLen < 1 ∨ 0xFFFF < e.srcLen ∨
      e.bankSize < 1 := by
  simp only [MapperEntry.wf, Bool.and_eq_false_iff, decide_eq_false_iff_not, not_le, or_assoc]

theorem mappersWf_eq_false {p : Params} : p.mappersWf = false ↔ ∃ e ∈ p.mapperTable, e.1 = 0 ∨ e.2.wf = false := by
  simp [Params.mappersWf, imp_iff_not_or]

/-- The grounds of refusal, as the checks of `construct` see them. -/
theorem refusalGround_iff (prm : Params) (img : Image) (d : PowerOn) (f : ConstructionFailure) :
    refusalGround prm img d f ↔
      match f with
      | .emptyProgram => img.prgSize = 0
      | .malformedImage => (img.wf && d.wf) = false
      | .decimalMode => prm.decimalMode = true
      | .clock => prm.clockWf = false
      | .mapperTable => prm.mappersWf = false
      | .opcodeTable => prm.opcodes.wf = false := by
  cases f with
  | emptyProgram => rfl
  | malformedImage => simp only [refusalGround, Bool.and_eq_false_iff]
  | decimalMode => rfl
  | clock => exact clockWf_eq_false.symm
  | mapperTable => simp only [refusalGround, mappersWf_eq_false, mapperEntryWf_eq_false]
  | opcodeTable => simp [refusalGround, OpcodeTable.wf]

/-- Construction fails on a ground that holds, or there is none and it gives the power-on state. -/
theorem construct_cases (prm : Params) (img : Image) (d : PowerOn) :
    (∃ f, construct prm img d = .error f ∧ refusalGround prm img d f) ∨
      (construct prm img d = .ok (State.powerOn prm img d) ∧ ∀ f, ¬ refusalGround prm img d f) := by
  simp only [refusalGround_iff, construct, Bool.not_eq_true']
  split
  · exact .inl ⟨.emptyProgram, rfl, by assumption⟩
  split
  · exact .inl ⟨.malformedImage, rfl, by assumption⟩
  split
  · exact .inl ⟨.decimalMode, rfl, by assumption⟩
  split
  · exact .inl ⟨.clock, rfl, by assumption⟩
  split
  · exact .inl ⟨.mapperTable, rfl, by assumption⟩
  split
  · exact .inl ⟨.opcodeTable, rfl, by assumption⟩
  · exact .inr ⟨rfl, fun f => by cases f <;> simp_all⟩

theorem construct_ok_iff {prm : Params} {img : Image} {d : PowerOn} {s : State} : construct prm img d = .ok s ↔
    s = State.powerOn prm img d ∧ ∀ f, ¬ refusalGround prm img d f := by
  rcases construct_cases prm img d with ⟨f, hc, hf⟩ | ⟨hc, hn⟩
  · rw [hc]
    exact ⟨fun h => (nomatch h), fun ⟨_, hn⟩ => absurd hf (hn f)⟩
  · rw [hc, Except.ok.injEq, eq_comm]
    exact ⟨fun h => ⟨h, hn⟩, fun ⟨h, _⟩ => h⟩

/-! ## The invariants at power-on -/

/-- The character memory of a well-formed image, or the CHR-RAM drawn, cut to its size, is canonical. -/
theorem powerOn_chr_wf {img : Image} {d : PowerOn} (hi : img.wf = true) (hd : Memory.wf 8192 d.chrRam) :
    Memory.wf 8192 ((img.chr.getD d.chrRam).filter fun c => decide (c.1 < 8192)) := by
  have cut {m : Memory} (hp : m.Pairwise fun c e => c.1 < e.1) (hb : ∀ c ∈ m, c.2 ≠ Memory.blank) :
      Memory.wf 8192 (m.filter fun c => decide (c.1 < 8192)) :=
    ⟨hp.filter _, fun c hc => ⟨by simpa using (List.mem_filter.1 hc).2, hb c (List.mem_of_mem_filter hc)⟩⟩
  cases hc : img.chr with
  | none => exact cut hd.1 fun c hc => (hd.2 c hc).2
  | some m =>
    simp only [Image.wf, hc, Bool.and_eq_true, decide_eq_true_eq, List.all_eq_true, bne_iff_ne] at hi
    exact cut hi.2.1 hi.2.2

theorem powerOn_memoriesWf (prm : Params) {img : Image} {d : PowerOn} (hi : img.wf = true) (hd : d.wf = true) :
    (State.powerOn prm img d).MemoriesWf := by
  simp only [PowerOn.wf, Bool.and_eq_true, decide_eq_true_eq] at hd
  obtain ⟨⟨⟨⟨hram, hoam⟩, hvram⟩, hpal⟩, hchr⟩ := hd
  have hprg : Memory.wf img.prgSize img.prg := by
    simp only [Image.wf, Bool.and_eq_true, decide_eq_true_eq] at hi
    exact hi.1
  exact ⟨hram, hprg, hoam, hvram, hpal, powerOn_chr_wf hi hchr, Memory.wf_nil _, Memory.wf_nil _, fun _ hf => nomatch hf⟩

theorem powerOn_clockWf {prm : Params} (img : Image) (d : PowerOn) (h : prm.clockWf = true) :
    (State.powerOn prm img d).ClockWf := by
  simp only [Params.clockWf, Bool.and_eq_true, decide_eq_true_eq] at h
  obtain ⟨⟨hc, -⟩, -⟩ := h
  exact ⟨Nat.sub_one_lt_of_le hc le_rfl, le_rfl, fun _ hr => nomatch hr⟩

/-- At power-on nothing is queued, awaited or left to do. -/
theorem powerOn_idle (prm : Params) (img : Image) (d : PowerOn) :
    (State.powerOn prm img d).ChannelsWf ∧ (State.powerOn prm img d).WorkWf ∧ (State.powerOn prm img d).LockstepWf :=
  ⟨⟨rfl, rfl⟩, ⟨rfl, rfl, rfl, rfl⟩, fun _ => ⟨fun _ h => (nomatch h), rfl, rfl⟩⟩

/-- Settles O60: construction by its cases, and the invariants of the power-on state. -/
theorem invariantsHoldAtPowerOn : Obligations.InvariantsHoldAtPowerOn := by
  refine ⟨fun prm img d f => ⟨fun hf => ?_, fun hc => ?_⟩, fun prm img d hn => construct_ok_iff.2 ⟨rfl, hn⟩,
    fun prm img d s hc => ?_, powerOn_memoriesWf _ (by decide) (by decide), powerOn_clockWf _ _ (by decide),
    powerOn_idle _ _ _⟩
  · rcases construct_cases prm img d with ⟨g, hg, -⟩ | ⟨-, hn⟩
    · exact ⟨g, hg⟩
    · exact absurd hf (hn f)
  · rcases construct_cases prm img d with ⟨g, hg, hr⟩ | ⟨hok, -⟩
    · rw [hg] at hc
      injection hc with hc
      exact hc ▸ hr
    · rw [hok] at hc
      exact nomatch hc
  · obtain ⟨rfl, hn⟩ := construct_ok_iff.1 hc
    have hbytes := mt (refusalGround_iff prm img d .malformedImage).2 (hn _)
    have hclock := mt (refusalGround_iff prm img d .clock).2 (hn _)
    simp only [Bool.not_eq_false, Bool.and_eq_true] at hbytes hclock
    exact ⟨rfl, powerOn_memoriesWf prm hbytes.1 hbytes.2, powerOn_clockWf img d hclock, powerOn_idle prm img d⟩

end Sys2Proof.Machine
end

section
/-! PROOF. The bus and the cartridge (20_memory.md): which target an address has, what a read of each kind answers, and
what a control write of a mapper does. -/

namespace Sys2Proof.Machine

/-! ## Targets by address -/

theorem window_iff (a : Word) :
    (window a = .ram ↔ a.toNat ≤ 0x1FFF) ∧ (window a = .ppu ↔ 0x2000 ≤ a.toNat ∧ a.toNat ≤ 0x3FFF) ∧
      (window a = .apuIo ↔ 0x4000 ≤ a.toNat ∧ a.toNat ≤ 0x7FFF) ∧ (window a = .cartridge ↔ 0x8000 ≤ a.toNat) := by
  unfold window
  split_ifs <;> simp <;> omega

theorem window_ppu {a : Word} (h : 0x2000 ≤ a.toNat) (h' : a.toNat < 0x4000) : window a = .ppu :=
  (window_iff a).2.1.2 ⟨h, by omega⟩

theorem window_apuIo {a : Word} (h : 0x4000 ≤ a.toNat) (h' : a.toNat < 0x8000) : window a = .apuIo :=
  (window_iff a).2.2.1.2 ⟨h, by omega⟩

/-- A PPU window address names the register of its three low bits, for reads and writes. -/
theorem targets_ppu {a : Word} (h : 0x2000 ≤ a.toNat) (h' : a.toNat < 0x4000) :
    readTarget a = .ppu (ppuRegAt a) ∧ writeTarget a = .ppu (ppuRegAt a) := by
  simp only [readTarget, writeTarget, window_ppu h h', and_self]

theorem ppuRegAt_of_mem {a : Word} {t : PpuReg} (h : (a.toNat % 8, t) ∈ ppuRegisters) : ppuRegAt a = t := by
  simp only [ppuRegisters, List.mem_cons, Prod.mk.injEq, List.not_mem_nil, or_false] at h
  rcases h with ⟨h, rfl⟩ | ⟨h, rfl⟩ | ⟨h, rfl⟩ | ⟨h, rfl⟩ | ⟨h, rfl⟩ | ⟨h, rfl⟩ | ⟨h, rfl⟩ | ⟨h, rfl⟩ <;>
    simp only [ppuRegAt, h]

/-- Each listed APU register is the target of its address, for reads and writes, and has the latch of its offset. -/
theorem targets_apu {a : Word} {t : ApuReg} (h : (a.toNat, t) ∈ apuRegisters) :
    readTarget a = .apu t ∧ writeTarget a = .apu t ∧ t.offset = a.toNat - 0x4000 := by
  have key : ∀ e ∈ apuRegisters, readTarget (BitVec.ofNat 16 e.1) = .apu e.2 ∧
      writeTarget (BitVec.ofNat 16 e.1) = .apu e.2 ∧ e.2.offset = e.1 - 0x4000 := by decide
  simpa using key _ h

/-- The addresses no read and no write reaches are in no row of the APU's map. -/
theorem targets_hasNoTarget {a : Word} (h : hasNoTarget a) : readTarget a = .noTarget ∧ writeTarget a = .noTarget := by
  have hmap : ∀ e ∈ apuMap, ¬ hasNoTarget e.1 := by
    unfold hasNoTarget
    decide
  have hl : apuMap.lookup a = none := by
    refine List.lookup_eq_none_iff.2 fun e he => ?_
    have : a ≠ e.1 := fun hae => hmap e he (hae ▸ h)
    simpa using this
  have hne : a ≠ 0x4016 ∧ a ≠ 0x4014 ∧ a ≠ 0x4017 := by
    refine ⟨?_, ?_, ?_⟩ <;> (rintro rfl; revert h; unfold hasNoTarget; decide)
  have hw : window a = .apuIo := by
    unfold hasNoTarget at h
    exact window_apuIo (by omega) (by omega)
  simp only [readTarget, writeTarget, hw, ioReadTarget, ioWriteTarget, hne, hl, if_false, and_self]

/-- A PPU or APU target that a read reaches is reached by a write, too. -/
theorem writeTarget_of_readTarget_ppu {a : Word} {t : PpuReg} (h : readTarget a = .ppu t) : writeTarget a = .ppu t := by
  unfold readTarget at h
  unfold writeTarget
  cases hw : window a <;> simp only [hw] at h
  case ram | cartridge => exact nomatch h
  case ppu => exact h
  case apuIo =>
    unfold ioReadTarget at h
    split at h
    · simp_all [ioWriteTarget]
    · split at h <;> exact nomatch h

theorem writeTarget_of_readTarget_apu {a : Word} {t : ApuReg} (h : readTarget a = .apu t) : writeTarget a = .apu t := by
  have hne : a ≠ 0x4014 ∧ a ≠ 0x4017 := by
    constructor <;> (rintro rfl; exact nomatch h)
  unfold readTarget at h
  unfold writeTarget
  cases hw : window a <;> simp only [hw] at h
  case ram | ppu | cartridge => exact nomatch h
  case apuIo =>
    unfold ioReadTarget at h
    split at h
    · exact nomatch h
    · simp_all [ioWriteTarget]

/-! ## What a read answers -/

/-- Where no byte of RAM or cartridge stands, a read takes the oldest byte kept. -/
theorem busRead_kept_of_memoryByte {s : State} {a : Word} {v : Byte} {rest : List Byte} (h : s.memoryByte a = none)
    (hf : s.feed = v :: rest) : busRead a s = .done v { s with feed := rest, log := s.log ++ [v] } := by
  unfold State.memoryByte at h
  refine busRead_kept (fun i hi => ?_) (fun hc => ?_) hf
  · simp [hi] at h
  · simp [hc] at h

/-- A read that makes a request waits for its reply, in `async`. -/
theorem busRead_request {s : State} {a : Word} {r : ReadRequest} (h : requestAt a = some r)
    (hm : s.params.syncMode = .async) (hf : s.feed = []) : busRead a s = .wait r s := by
  unfold requestAt at h
  split at h
  · injection h with h
    exact h ▸ busRead_async_ppu hm hf (by assumption)
  · injection h with h
    exact h ▸ busRead_async_apu hm hf (by assumption)
  all_goals exact nomatch h

/-- A read that reaches no target is a draw. -/
theorem busRead_noTarget {s : State} {a : Word} (h : readTarget a = .noTarget) (hf : s.feed = []) :
    busRead a s = .done (Config.freeByte s.draws)
      { s with draws := s.draws + 1, log := s.log ++ [Config.freeByte s.draws] } := by
  simp only [busRead, h, takeExternal_nil hf, drawRead, Res.bind_done]

theorem busRead_ram {s : State} {a : Word} (h : a.toNat < 0x2000) :
    busRead a s = .done (s.ram.read (a.toNat % 2048)) s := by
  simp only [busRead, readTarget_ram h]

theorem busRead_cartridge {s : State} {a : Word} (h : 0x8000 ≤ a.toNat) : busRead a s = .done (s.cart.read a) s := by
  simp only [busRead, readTarget_cartridge h]

theorem busWrite_noTarget {s : State} {a : Word} (v : Byte) (h : writeTarget a = .noTarget) :
    busWrite a v s = .done () s := by
  simp only [busWrite, h]

/-- Settles O41: the maps by address, and what a read and a write of each kind of target do. -/
theorem noTargetAccess : Obligations.NoTargetAccess := by
  refine ⟨fun s a => ⟨fun v => busRead_memoryByte, fun v rest => busRead_kept_of_memoryByte,
    fun r => busRead_request⟩, fun s a ha => ?_, fun a => ?_⟩
  · obtain ⟨hr, hw⟩ := targets_hasNoTarget ha
    refine ⟨fun v => busWrite_noTarget v hw, busRead_noTarget hr, fun hf a' ha' => busRead_noTarget ?_ hf⟩
    rcases ha' with rfl | rfl <;> rfl
  · refine ⟨fun h => ⟨readTarget_ram h, writeTarget_ram h⟩, fun t h h' ht => ppuRegAt_of_mem ht ▸ targets_ppu h h',
      fun t => targets_apu, ?_, ?_, ?_, targets_hasNoTarget,
      fun h => ⟨readTarget_cartridge h, writeTarget_cartridge h⟩⟩
    · rintro rfl
      exact ⟨rfl, rfl⟩
    · rintro rfl
      exact ⟨rfl, rfl⟩
    · rintro rfl
      exact ⟨rfl, rfl, rfl⟩

/-- Settles O38: the windows by their bounds; a write in the RAM window is one cell's, and a read there its cell's byte. -/
theorem windowsAndRamMirrors : Obligations.WindowsAndRamMirrors := by
  refine ⟨window_iff, fun s a b v ha hb => ⟨_, store_ram v s ha, rfl, ?_⟩⟩
  rw [busRead_ram hb, Memory.read_write]

/-! ## The cartridge -/

theorem covers_iff (m : Mapping) (a : Word) :
    m.covers a = true ↔ m.srcStart.toNat ≤ a.toNat ∧ a.toNat < m.srcStart.toNat + m.srcLen := by
  simp only [Mapping.covers, decide_eq_true_eq]

/-- A read through the newest mapping that holds the address. -/
theorem Cartridge.read_of_newest {c : Cartridge} {a : Word} {newer older : List Mapping} {m : Mapping}
    (hc : c.mappings = newer ++ m :: older) (hn : ∀ n ∈ newer, ¬ n.covers a = true) (hm : m.covers a = true) :
    c.read a = c.prg.read ((m.destOffset + (a.toNat - m.srcStart.toNat)) % c.prgSize) := by
  have hf : c.mappings.find? (fun n => n.covers a) = some m := by
    rw [hc, List.find?_append, List.find?_eq_none.2 hn, Option.none_or]
    exact List.find?_cons_of_pos hm
  simp only [Cartridge.read, Cartridge.offset, hf]

/-- A read that no mapping holds is the identity. -/
theorem Cartridge.read_of_uncovered {c : Cartridge} {a : Word} (h : ∀ n ∈ c.mappings, ¬ n.covers a = true) :
    c.read a = c.prg.read ((a.toNat - 0x8000) % c.prgSize) := by
  simp only [Cartridge.read, Cartridge.offset, List.find?_eq_none.2 h]

/-- A new mapping changes no read outside its source range. -/
theorem Cartridge.read_cons_other (c : Cartridge) {m : Mapping} {a : Word} (h : ¬ m.covers a = true) :
    ({ c with mappings := m :: c.mappings } : Cartridge).read a = c.read a := by
  have hf : (m :: c.mappings).find? (fun n => n.covers a) = c.mappings.find? fun n => n.covers a :=
    List.find?_cons_of_neg h
  simp only [Cartridge.read, Cartridge.offset, hf]

/-- Settles O39: a cartridge read, its mapping found past the newer ones. -/
theorem cartridgeReadUsesTheNewestMapping : Obligations.CartridgeReadUsesTheNewestMapping := by
  intro s a ha
  simp only [← covers_iff, busRead_cartridge ha]
  refine ⟨fun older m newer hc hn h h' => ?_, fun h => ?_⟩
  · rw [Cartridge.read_of_newest hc hn ((covers_iff m a).2 ⟨h, h'⟩)]
  · rw [Cartridge.read_of_uncovered h]

theorem Cartridge.write_of_no_entry {prm : Params} {c : Cartridge} (h : mapperEntry prm c.mapperId = none) (a : Word)
    (v : Byte) : c.write prm a v = c := by
  simp only [Cartridge.write, h]

theorem Cartridge.write_outside {prm : Params} {c : Cartridge} {e : MapperEntry} {a : Word} (v : Byte)
    (he : mapperEntry prm c.mapperId = some e) (h : ¬ (e.ctrlLo.toNat ≤ a.toNat ∧ a.toNat ≤ e.ctrlHi.toNat)) :
    c.write prm a v = c := by
  simp only [Cartridge.write, he, if_neg h]

/-- A write to the control range inserts the mapping of its value's bank. -/
theorem Cartridge.write_control {prm : Params} {c : Cartridge} {e : MapperEntry} {a : Word} (v : Byte)
    (he : mapperEntry prm c.mapperId = some e) (h : e.ctrlLo.toNat ≤ a.toNat) (h' : a.toNat ≤ e.ctrlHi.toNat) :
    c.write prm a v = { c with mappings := bankMapping e c.prgSize v :: c.mappings } := by
  simp only [Cartridge.write, he, if_pos (And.intro h h')]

/-- Settles O40: a write by whether the mapper has a record and the address is in its control range. -/
theorem bankSwitchSelectsTheBank : Obligations.BankSwitchSelectsTheBank := by
  intro prm c a v
  refine ⟨fun h => Cartridge.write_of_no_entry ?_ a v, fun h => Cartridge.write_of_no_entry h a v, fun h => ?_,
    fun e he => ⟨Cartridge.write_outside v he, fun h h' => ?_⟩⟩
  · simp only [mapperEntry, h, if_true]
  · simp only [mapperEntry, h, if_false]
  · rw [Cartridge.write_control v he h h']
    refine ⟨rfl, fun b hb => Cartridge.read_cons_other c (mt (covers_iff _ b).1 hb), fun b hb hb' => ?_⟩
    exact Cartridge.read_of_newest (newer := []) (m := bankMapping e c.prgSize v) rfl (by simp)
      ((covers_iff _ b).2 ⟨hb, hb'⟩)

end Sys2Proof.Machine
end

section
/-! PROOF. The OAM bulk transfer (20_memory.md R76): the 256 reads of a page, of every kind of page, and the command they
end in. -/

namespace Sys2Proof.Machine

/-! ## The 256 reads of a page -/

theorem pageAddress_toNat {k : Nat} (hk : k < 256) (page : Byte) :
    (wordOf (BitVec.ofNat 8 k) page).toNat = k + 256 * page.toNat := by
  rw [Laws.wordOf_toNat, BitVec.toNat_ofNat, Nat.mod_eq_of_lt hk]

/-- The reads of a page that are all done are what the bulk transfer reads. -/
theorem readPage_of_pageRead {page : Byte} {s t : State} {buf : List Byte} (h : PageRead page s buf t) :
    readPage page 256 s = .done buf t := by
  obtain ⟨st, rfl, rfl, hlen, hst⟩ := h
  have hread : ∀ k, 0 ≤ k → k < 256 →
      busRead (wordOf (BitVec.ofNat 8 k) page) (st k) = .done (buf.getD k 0) (st (k + 1)) := by
    intro k _ hk
    obtain ⟨b, hb, hr⟩ := hst k hk
    rw [hr, List.getD_eq_getElem?_getD, hb, Option.getD_some]
  have hbuf : (List.range' 0 256).map (fun k => buf.getD k 0) = buf :=
    List.ext_getElem (by simp [hlen]) fun k _ hk => by simp [hk]
  rw [readPage_done rfl hread, hbuf]

theorem readPage_of_pageWaits {page : Byte} {s u : State} {q : ReadRequest} (h : PageWaits page s q u) :
    readPage page 256 s = .wait q u := by
  obtain ⟨n, st, hn, rfl, hst, hq⟩ := h
  exact readPage_wait rfl (Nat.zero_le n) hn (fun k _ hk => hst k hk) hq

theorem memoryByte_isSome {a : Word} (h : a.toNat < 0x2000 ∨ 0x8000 ≤ a.toNat) (s : State) :
    ∃ b, s.memoryByte a = some b := by
  rcases h with h | h
  · exact ⟨s.ram.read (a.toNat % 2048), by simp only [State.memoryByte, readTarget_ram h]⟩
  · exact ⟨s.cart.read a, by simp only [State.memoryByte, readTarget_cartridge h]⟩

theorem memoryByte_eq_none {a : Word} (h : 0x2000 ≤ a.toNat) (h' : a.toNat < 0x8000) (s : State) :
    s.memoryByte a = none := by
  obtain ⟨hram, hcart, -⟩ := targets_middle (Nat.not_lt.2 h) (Nat.not_le.2 h')
  unfold State.memoryByte
  split
  · exact absurd (by assumption) (hram _).1
  · exact absurd (by assumption) hcart
  all_goals rfl

/-- The 256 bytes a function gives, in order. -/
def pageOf (byte : Nat → Byte) : List Byte := (List.range 256).map byte

@[simp] theorem pageOf_length (byte : Nat → Byte) : (pageOf byte).length = 256 := by
  rw [pageOf, List.length_map, List.length_range]

theorem pageOf_getElem? (byte : Nat → Byte) {k : Nat} (hk : k < 256) : (pageOf byte)[k]? = some (byte k) := by
  rw [pageOf, List.getElem?_map, List.getElem?_range hk, Option.map_some]

/-- A page of RAM or cartridge gives its bytes and changes nothing. -/
theorem pageRead_memory {page : Byte} (h : page.toNat < 0x20 ∨ 0x80 ≤ page.toNat) (s : State) :
    ∃ buf : List Byte, buf.length = 256 ∧
      (∀ k, k < 256 → s.memoryByte (wordOf (BitVec.ofNat 8 k) page) = buf[k]?) ∧ PageRead page s buf s := by
  have hbyte : ∀ k, k < 256 → ∃ b, s.memoryByte (wordOf (BitVec.ofNat 8 k) page) = some b := fun k hk => by
    refine memoryByte_isSome ?_ s
    rw [pageAddress_toNat hk]
    omega
  choose! byte hbyte using hbyte
  exact ⟨pageOf byte, pageOf_length _, fun k hk => (hbyte k hk).trans (pageOf_getElem? byte hk).symm, fun _ => s, rfl,
    rfl, pageOf_length _, fun k hk => ⟨_, pageOf_getElem? byte hk, busRead_memoryByte (hbyte k hk)⟩⟩

/-- The state after `k` reads that reach no target. -/
def afterDraws (s : State) (k : Nat) : State :=
  { s with draws := s.draws + k, log := s.log ++ (List.range k).map fun j => Config.freeByte (s.draws + j) }

theorem busRead_afterDraws {s : State} {a : Word} (h : readTarget a = .noTarget) (hf : s.feed = []) (k : Nat) :
    busRead a (afterDraws s k) = .done (Config.freeByte (s.draws + k)) (afterDraws s (k + 1)) := by
  rw [busRead_noTarget h (s := afterDraws s k) hf]
  simp [afterDraws, List.range_succ, Nat.add_assoc]

/-- A page of no target gives 256 draws. -/
theorem pageRead_noTarget {page : Byte} (h : 0x41 ≤ page.toNat) (h' : page.toNat < 0x80) {s : State}
    (hf : s.feed = []) : ∃ buf : List Byte, buf.length = 256 ∧
      (∀ k, k < 256 → buf[k]? = some (Config.freeByte (s.draws + k))) ∧
      PageRead page s buf { s with draws := s.draws + 256, log := s.log ++ buf } := by
  refine ⟨pageOf fun j => Config.freeByte (s.draws + j), pageOf_length _, fun k hk => pageOf_getElem? _ hk, afterDraws s,
    ?_, rfl, pageOf_length _, fun k hk =>
      ⟨_, pageOf_getElem? _ hk, busRead_afterDraws (targets_hasNoTarget ?_).1 hf k⟩⟩
  · simp [afterDraws]
  · simp only [hasNoTarget, pageAddress_toNat hk]
    omega

/-- The state after `k` reads that took bytes kept. -/
def afterKept (s : State) (k : Nat) : State := { s with feed := s.feed.drop k, log := s.log ++ s.feed.take k }

theorem busRead_afterKept {s : State} {a : Word} (h : ∀ t : State, t.memoryByte a = none) {k : Nat}
    (hk : k < s.feed.length) : busRead a (afterKept s k) = .done s.feed[k] (afterKept s (k + 1)) := by
  rw [busRead_kept_of_memoryByte (h _) (s := afterKept s k) (List.drop_eq_getElem_cons hk)]
  simp only [afterKept, List.append_assoc, List.take_append_getElem hk]

/-- A page of the PPU, all of its replies kept, gives them. -/
theorem pageRead_kept {page : Byte} (h : 0x20 ≤ page.toNat) (h' : page.toNat < 0x40) {s : State}
    (hf : s.feed.length = 256) : PageRead page s s.feed { s with feed := [], log := s.log ++ s.feed } := by
  refine ⟨afterKept s, by simp [afterKept], ?_, hf, fun k hk =>
    ⟨s.feed[k], by simp, busRead_afterKept (memoryByte_eq_none ?_ ?_) (hf ▸ hk)⟩⟩
  · simp [afterKept, List.drop_of_length_le, List.take_of_length_le, hf]
  all_goals
    rw [pageAddress_toNat hk]
    omega

/-- A page of the PPU, and page 0x40, makes a request at its first address. -/
theorem requestAt_page {page : Byte} (h : 0x20 ≤ page.toNat) (h' : page.toNat ≤ 0x40) :
    ∃ q, requestAt (wordOf 0 page) = some q := by
  rcases Nat.lt_or_eq_of_le h' with hlt | heq
  · have hw : (wordOf 0 page).toNat = 256 * page.toNat := by simp [Laws.wordOf_toNat]
    exact ⟨.ppu (ppuRegAt (wordOf 0 page)), by simp only [requestAt,
      (targets_ppu (a := wordOf 0 page) (by omega) (by omega)).1]⟩
  · obtain rfl : page = 0x40 := BitVec.eq_of_toNat_eq heq
    exact ⟨_, rfl⟩

/-- With nothing kept, such a page waits for its first reply. -/
theorem pageWaits_first {page : Byte} {s : State} {q : ReadRequest} (hq : requestAt (wordOf 0 page) = some q)
    (hm : s.params.syncMode = .async) (hf : s.feed = []) : PageWaits page s q s :=
  ⟨0, fun _ => s, Nat.zero_lt_succ _, rfl, fun k hk => absurd hk (Nat.not_lt_zero k), busRead_request hq hm hf⟩

/-! ## The transfer -/

/-- The command sent, in both modes, and to a PPU that has gone. -/
theorem sendPpu_oamDma (buf : List Byte) (t : State) :
    sendPpu (.oamDma buf) { t with extra := t.params.oamDmaCycles } = bulkSent buf t := by
  unfold sendPpu bulkSent
  cases t.alivePpu
  · rfl
  · cases hm : t.params.syncMode
    · simp
    · simp [applyPpuWrite, drainPpu]

theorem busWrite_oamDma_of_pageRead {page : Byte} {s t : State} {buf : List Byte} (h : PageRead page s buf t) :
    busWrite 0x4014 page s = .done () (bulkSent buf t) := by
  show oamTransfer page s = _
  rw [oamTransfer, readPage_of_pageRead h, Res.bind_done, sendPpu_oamDma]

/-- In `async` the command joins the PPU's write FIFO. -/
theorem busWrite_oamDma_async {page : Byte} {s t : State} {buf : List Byte} (h : PageRead page s buf t)
    (hm : t.params.syncMode = .async) : busWrite 0x4014 page s = .done () { t with
      extra := t.params.oamDmaCycles
      ppuChan := { t.ppuChan with
        writes := if t.alivePpu then t.ppuChan.writes ++ [.oamDma buf] else t.ppuChan.writes } } := by
  rw [busWrite_oamDma_of_pageRead h, ← sendPpu_oamDma,
    sendPpu_async (s := { t with extra := t.params.oamDmaCycles }) hm]

theorem busWrite_oamDma_of_pageWaits {page : Byte} {s u : State} {q : ReadRequest} (h : PageWaits page s q u) :
    busWrite 0x4014 page s = .wait q u := by
  show oamTransfer page s = _
  rw [oamTransfer, readPage_of_pageWaits h, Res.bind_wait]

/-! ## A store to 0x4014 -/

/-- An instruction that waits is the state it began at, awaiting. -/
theorem complete_wait (s : State) (q : ReadRequest) (w : State) :
    complete s (.wait q w) = .next (awaiting q { s with feed := w.log, log := [], draws := w.draws }) := by
  cases q <;> rfl

/-- Suspended with nothing read, an instruction that had nothing kept keeps nothing. -/
theorem nothing_kept {s : State} (hf : s.feed = []) (hl : s.log = []) :
    ({ s with feed := s.log, log := [] } : State) = s := by
  cases s
  cases hf
  cases hl
  rfl

/-- A storing instruction stores its register's byte at its operand. -/
theorem exec_storing {i : Instr} {s : State} {v : Byte}
    (h : (i.mnemonic, v) ∈ [(Mnemonic.sta, s.a), (Mnemonic.stx, s.x), (Mnemonic.sty, s.y)]) :
    exec i s = storing i.operand v s := by
  simp only [List.mem_cons, Prod.mk.injEq, List.not_mem_nil, or_false] at h
  rcases h with ⟨h, rfl⟩ | ⟨h, rfl⟩ | ⟨h, rfl⟩
  · exact exec_sta i s h
  · exact exec_stx i s h
  · exact exec_sty i s h

theorem storing_addr {o : Operand} {s : State} {a : Word} (v : Byte) (h : resolve o s = .addr a) :
    storing o v s = complete s (busWrite a v (afterResolve o s)) := by
  simp only [storing, store, h]

/-- Settles O14: the store is the bulk transfer of its page, which is read or waits. -/
theorem oamBulkTransferResult : Obligations.OamBulkTransferResult := by
  rintro i s _ v ha hv rfl
  have hexec : exec i s = complete s (busWrite 0x4014 v (afterResolve i.operand s)) :=
    (exec_storing hv).trans (storing_addr v ha)
  have hdone : ∀ buf t, PageRead v (afterResolve i.operand s) buf t → exec i s = .next (bulkSent buf t) :=
    fun buf t h => by rw [hexec, busWrite_oamDma_of_pageRead h, complete]
  have hwait : ∀ q w, PageWaits v (afterResolve i.operand s) q w →
      exec i s = .next (awaiting q { s with feed := w.log, log := [], draws := w.draws }) :=
    fun q w h => by rw [hexec, busWrite_oamDma_of_pageWaits h, complete_wait]
  refine ⟨hdone, hwait, fun h => ?_, fun h h' hf => ?_, fun h h' hf => hdone _ _ (pageRead_kept h h' hf),
    fun h h' hm hf hl => ?_⟩
  · obtain ⟨buf, hlen, hbytes, hread⟩ := pageRead_memory h (afterResolve i.operand s)
    exact ⟨buf, hlen, hbytes, hdone _ _ hread⟩
  · obtain ⟨buf, hlen, hbytes, hread⟩ := pageRead_noTarget h h' (s := afterResolve i.operand s) hf
    exact ⟨buf, hlen, hbytes, hdone _ _ hread⟩
  · obtain ⟨q, hq⟩ := requestAt_page h h'
    have hw : exec i s = .next (awaiting q { s with feed := s.log, log := [] }) :=
      hwait q (afterResolve i.operand s) (pageWaits_first hq hm hf)
    exact ⟨q, hq, by rw [hw, nothing_kept hf hl]⟩

end Sys2Proof.Machine
end

section
/-! PROOF. Read-modify-write instructions (42_arith_logic.md R209, R210, R215 to R218): the byte and the flags of each, and
what they do on the targets outside RAM and cartridge (20_memory.md R104). -/

namespace Sys2Proof.Machine

/-! ## The modified byte and the flags -/

/-- What a read-modify-write mnemonic makes of the byte read and the flags. -/
def modification (m : Mnemonic) (v : Byte) (p : Flags) : Byte × Flags :=
  match m with
  | .inc => (v + 1, p.setNZ (v + 1))
  | .dec => (v - 1, p.setNZ (v - 1))
  | .asl => (shiftAsl v, p.shift (v.getLsbD 7) (shiftAsl v))
  | .lsr => (shiftLsr v, p.shift (v.getLsbD 0) (shiftLsr v))
  | .rol => (shiftRol v p.c, p.shift (v.getLsbD 7) (shiftRol v p.c))
  | .ror => (shiftRor v p.c, p.shift (v.getLsbD 0) (shiftRor v p.c))
  | _ => (v, p)

/-- A read-modify-write instruction is its mnemonic's modification at its operand. -/
theorem exec_modifying {i : Instr} (h : i.mnemonic ∈ modifyingMnemonics) (s : State) :
    exec i s = modifying i.operand (modification i.mnemonic) s := by
  simp only [modifyingMnemonics, List.mem_cons, List.not_mem_nil, or_false] at h
  rcases h with h | h | h | h | h | h <;> rw [h]
  · exact exec_inc i s h
  · exact exec_dec i s h
  · exact exec_asl i s h
  · exact exec_lsr i s h
  · exact exec_rol i s h
  · exact exec_ror i s h

theorem flagBit_toNat (c : Bool) : (flagBit c).toNat = c.toNat := by cases c <;> rfl

theorem shiftAsl_toNat (v : Byte) : (shiftAsl v).toNat = v.toNat * 2 % 256 := by
  rw [shiftAsl, BitVec.toNat_shiftLeft, Nat.shiftLeft_eq, Nat.pow_one]

theorem shiftLsr_toNat (v : Byte) : (shiftLsr v).toNat = v.toNat / 2 := by
  rw [shiftLsr, BitVec.toNat_ushiftRight, Nat.shiftRight_eq_div_pow, Nat.pow_one]

/-- The carry enters the bit the shift to the left has freed. -/
theorem shiftRol_toNat (v : Byte) (c : Bool) : (shiftRol v c).toNat = (v.toNat * 2 + c.toNat) % 256 := by
  have hv : (v <<< 1).toNat = 2 ^ 1 * (v.toNat % 128) := by
    have := shiftAsl_toNat v
    rw [shiftAsl] at this
    omega
  have hc := c.toNat_lt
  rw [shiftRol, BitVec.toNat_or, flagBit_toNat, hv, ← Nat.two_pow_add_eq_or_of_lt hc]
  omega

/-- The carry enters the bit the shift to the right has freed. -/
theorem shiftRor_toNat (v : Byte) (c : Bool) : (shiftRor v c).toNat = v.toNat / 2 + 128 * c.toNat := by
  have hv : v.toNat / 2 < 2 ^ 7 := by
    have := v.isLt
    omega
  have hr : (v >>> 1).toNat = v.toNat / 2 := shiftLsr_toNat v
  have hc : (flagBit c <<< 7).toNat = 2 ^ 7 * c.toNat := by cases c <;> rfl
  rw [shiftRor, BitVec.toNat_or, hr, hc, Nat.or_comm, ← Nat.two_pow_add_eq_or_of_lt hv]
  omega

/-- In numbers: from the byte `v` read, the mnemonic makes the byte `r` and the carry `c`. -/
def ModifiesTo (m : Mnemonic) (p : Flags) (v : Byte) (c : Bool) (r : Byte) : Prop :=
  (m, c, r.toNat) ∈
    [(Mnemonic.inc, p.c, (v.toNat + 1) % 256), (Mnemonic.dec, p.c, (v.toNat + 255) % 256),
     (Mnemonic.asl, v.getLsbD 7, v.toNat * 2 % 256), (Mnemonic.lsr, v.getLsbD 0, v.toNat / 2),
     (Mnemonic.rol, v.getLsbD 7, (v.toNat * 2 + p.c.toNat) % 256),
     (Mnemonic.ror, v.getLsbD 0, v.toNat / 2 + 128 * p.c.toNat)]

theorem modification_of_modifiesTo {m : Mnemonic} {p : Flags} {v r : Byte} {c : Bool} (h : ModifiesTo m p v c r) :
    m ∈ modifyingMnemonics ∧ modification m v p = (r, { p with c := c, n := r.getLsbD 7, z := r == 0 }) := by
  simp only [ModifiesTo, List.mem_cons, Prod.mk.injEq, List.not_mem_nil, or_false] at h
  rcases h with ⟨rfl, rfl, h⟩ | ⟨rfl, rfl, h⟩ | ⟨rfl, rfl, h⟩ | ⟨rfl, rfl, h⟩ | ⟨rfl, rfl, h⟩ | ⟨rfl, rfl, h⟩ <;>
    refine ⟨by decide, ?_⟩
  · obtain rfl : r = v + 1 := BitVec.eq_of_toNat_eq (by rw [h, BitVec.toNat_add]; rfl)
    rfl
  · obtain rfl : r = v - 1 := BitVec.eq_of_toNat_eq (by rw [h, BitVec.toNat_sub, Nat.add_comm]; rfl)
    rfl
  · obtain rfl : r = shiftAsl v := BitVec.eq_of_toNat_eq (h.trans (shiftAsl_toNat v).symm)
    rfl
  · obtain rfl : r = shiftLsr v := BitVec.eq_of_toNat_eq (h.trans (shiftLsr_toNat v).symm)
    rfl
  · obtain rfl : r = shiftRol v p.c := BitVec.eq_of_toNat_eq (h.trans (shiftRol_toNat v p.c).symm)
    rfl
  · obtain rfl : r = shiftRor v p.c := BitVec.eq_of_toNat_eq (h.trans (shiftRor_toNat v p.c).symm)
    rfl

/-- A read-modify-write instruction writes the modified byte back where it read, and then sets the flags. -/
theorem exec_modifying_addr {i : Instr} {s t : State} {a : Word} {v r : Byte} {c : Bool}
    (ha : resolve i.operand s = .addr a) (h : ModifiesTo i.mnemonic s.p v c r)
    (hr : busRead a (afterResolve i.operand s) = .done v t) :
    exec i s = complete s ((busWrite a r t).bind fun _ u =>
      .done () { u with p := { s.p with c := c, n := r.getLsbD 7, z := r == 0 } }) := by
  obtain ⟨hmem, hf⟩ := modification_of_modifiesTo h
  simp only [exec_modifying hmem, modifying, operandRead, load, store, ha, hr, Res.bind_done, hf]

theorem exec_modifying_done {i : Instr} {s t u : State} {a : Word} {v r : Byte} {c : Bool}
    (ha : resolve i.operand s = .addr a) (h : ModifiesTo i.mnemonic s.p v c r)
    (hr : busRead a (afterResolve i.operand s) = .done v t) (hw : busWrite a r t = .done () u) :
    exec i s = .next { u with p := { s.p with c := c, n := r.getLsbD 7, z := r == 0 } } := by
  rw [exec_modifying_addr ha h hr, hw, Res.bind_done, complete]

theorem exec_modifying_wait {i : Instr} {s t u : State} {a : Word} {v r : Byte} {c : Bool} {q : ReadRequest}
    (ha : resolve i.operand s = .addr a) (h : ModifiesTo i.mnemonic s.p v c r)
    (hr : busRead a (afterResolve i.operand s) = .done v t) (hw : busWrite a r t = .wait q u) :
    exec i s = .next (awaiting q { s with feed := u.log, log := [], draws := u.draws }) := by
  rw [exec_modifying_addr ha h hr, hw, Res.bind_wait, complete_wait]

/-! ## On a target outside RAM and cartridge -/

theorem busWrite_ppu {s : State} {a : Word} {t : PpuReg} (hm : s.params.syncMode = .async) (v : Byte)
    (h : writeTarget a = .ppu t) : busWrite a v s = .done () { s with
      ppuChan := { s.ppuChan with
        writes := if s.alivePpu then s.ppuChan.writes ++ [.reg t v] else s.ppuChan.writes } } := by
  simp only [busWrite, h, sendPpu_async hm]

theorem busWrite_apu {s : State} {a : Word} {t : ApuReg} (hm : s.params.syncMode = .async) (v : Byte)
    (h : writeTarget a = .apu t) : busWrite a v s = .done () { s with
      apuChan := { s.apuChan with
        writes := if s.aliveApu then s.apuChan.writes ++ [(t, v)] else s.apuChan.writes } } := by
  simp only [busWrite, h, sendApu_async hm]

/-- Where no byte of RAM or cartridge stands, an operand read takes the oldest byte kept. -/
theorem operandRead_kept {o : Operand} {s : State} {a : Word} {v : Byte} {rest : List Byte}
    (h : s.memoryByte a = none) (hf : s.feed = v :: rest) : busRead a (afterResolve o s) =
      .done v { s with feed := rest, log := s.log ++ [v], pageCrossed := crossing o s } :=
  busRead_kept_of_memoryByte (s := afterResolve o s) h hf

/-- Where no target stands, an operand read with nothing kept is a draw. -/
theorem operandRead_draw {o : Operand} {s : State} {a : Word} (h : readTarget a = .noTarget) (hf : s.feed = []) :
    busRead a (afterResolve o s) = .done (Config.freeByte s.draws) { s with
      feed := [], draws := s.draws + 1, log := s.log ++ [Config.freeByte s.draws], pageCrossed := crossing o s } := by
  rw [busRead_noTarget h (s := afterResolve o s) hf, ← hf]
  rfl

/-- Settles O23: the byte is the reply kept or a draw, and the modified byte is written to the same address. -/
theorem modifyOnChannelSendsTheResult : Obligations.ModifyOnChannelSendsTheResult := by
  rintro i s _ a v r c ha hm hmod rfl
  refine ⟨fun t ht hf => ?_, fun t ht hf => ?_, fun ht hf hv => ?_, fun h14 rest draws h => ?_⟩
  · refine exec_modifying_done ha hmod (operandRead_kept (by simp only [State.memoryByte, ht]) hf)
      (busWrite_ppu ?_ r (writeTarget_of_readTarget_ppu ht))
    exact hm
  · refine exec_modifying_done ha hmod (operandRead_kept (by simp only [State.memoryByte, ht]) hf)
      (busWrite_apu ?_ r (writeTarget_of_readTarget_apu ht))
    exact hm
  · subst hv
    have hread := operandRead_draw (o := i.operand) ht hf
    refine ⟨fun hw => exec_modifying_done ha hmod hread (busWrite_noTarget r hw), ?_, ?_⟩
    · rintro rfl
      refine exec_modifying_done ha hmod hread (busWrite_apu (t := .frameCounter) ?_ r rfl)
      exact hm
    · rintro rfl hr
      obtain ⟨buf, hlen, hbytes, hb⟩ := pageRead_memory hr { s with
        feed := [], draws := s.draws + 1, log := s.log ++ [Config.freeByte s.draws], pageCrossed := crossing i.operand s }
      exact ⟨buf, hlen, hbytes, exec_modifying_done ha hmod hread (busWrite_oamDma_async hb hm)⟩
  · subst h14
    have hread : busRead 0x4014 (afterResolve i.operand s) = .done v { s with
        feed := rest, draws := draws, log := s.log ++ [v], pageCrossed := crossing i.operand s } := by
      rcases h with ⟨hf, rfl, rfl, rfl⟩ | ⟨hf, rfl⟩
      · exact operandRead_draw rfl hf
      · exact operandRead_kept rfl hf
    exact ⟨fun buf t hb => exec_modifying_done ha hmod hread (busWrite_oamDma_of_pageRead hb),
      fun q w hb => exec_modifying_wait ha hmod hread (busWrite_oamDma_of_pageWaits hb)⟩

end Sys2Proof.Machine
end

section
/-! PROOF. What instructions leave of RAM, the cartridge and the responders (20_memory.md R73, R79, R101): said for every
mnemonic's rule at every operand, and so for every instruction. -/

namespace Sys2Proof.Machine

/-! ## What the parts of an instruction leave -/

/-- The same cartridge and parameters, and in `async` the same PPU and APU latches. -/
def SameUnits (s t : State) : Prop :=
  t.params = s.params ∧ t.cart = s.cart ∧
    (s.params.syncMode = .async → t.ppu = s.ppu ∧ t.apuLatch = s.apuLatch)

theorem SameUnits.refl (s : State) : SameUnits s s := ⟨rfl, rfl, fun _ => ⟨rfl, rfl⟩⟩

theorem SameUnits.trans {s t u : State} (h : SameUnits s t) (k : SameUnits t u) : SameUnits s u := by
  obtain ⟨hparams, hcart, hresp⟩ := h
  obtain ⟨kparams, kcart, kresp⟩ := k
  refine ⟨kparams.trans hparams, kcart.trans hcart, fun hm => ?_⟩
  obtain ⟨hp, hl⟩ := hresp hm
  obtain ⟨kp, kl⟩ := kresp (hparams ▸ hm)
  exact ⟨kp.trans hp, kl.trans hl⟩

/-- The same units, and all of RAM. -/
def SameMemory (s t : State) : Prop := t.ram = s.ram ∧ SameUnits s t

theorem SameMemory.refl (s : State) : SameMemory s s := ⟨rfl, .refl s⟩

theorem SameMemory.trans {s t u : State} (h : SameMemory s t) (k : SameMemory t u) : SameMemory s u :=
  ⟨k.1.trans h.1, h.2.trans k.2⟩

/-- The same units, and RAM outside the stack page. -/
def StackOnly (s t : State) : Prop :=
  (∀ k, ¬ (0x100 ≤ k ∧ k < 0x200) → t.ram.read k = s.ram.read k) ∧ SameUnits s t

theorem SameMemory.stackOnly {s t : State} (h : SameMemory s t) : StackOnly s t := ⟨fun k _ => by rw [h.1], h.2⟩

theorem StackOnly.trans {s t u : State} (h : StackOnly s t) (k : StackOnly t u) : StackOnly s u :=
  ⟨fun n hn => (k.1 n hn).trans (h.1 n hn), h.2.trans k.2⟩

theorem ReadFrame.sameMemory {s t : State} (h : ReadFrame s t)
    (ha : s.params.syncMode = .async → AsyncReadFrame s t) : SameMemory s t := by
  obtain ⟨hram, hparams, hcart⟩ : t.ram = s.ram ∧ t.params = s.params ∧ t.cart = s.cart := by
    obtain ⟨_, _, _, _, _, _, _, -, rfl⟩ := h
    exact ⟨rfl, rfl, rfl⟩
  refine ⟨hram, hparams, hcart, fun hm => ?_⟩
  obtain ⟨_, _, _, rfl⟩ := ha hm
  exact ⟨rfl, rfl⟩

theorem SameMemory.responders {s t : State} (h : SameMemory s t) (hm : s.params.syncMode = .async) :
    t.ppu = s.ppu ∧ t.apuLatch = s.apuLatch := by
  obtain ⟨-, -, -, hresp⟩ := h
  exact hresp hm

theorem Suspended.sameMemory {s t : State} (h : Suspended s t) : SameMemory s t := by
  obtain ⟨_, _, _, _, _, rfl⟩ := h.frame
  exact .refl _

theorem targetOf_sameMemory (r : Resolved) (s : State) : SameMemory s (targetOf r s).2 := by
  obtain ⟨d, hd⟩ := targetOf_eq r s
  rw [hd]
  exact .refl _

theorem push_stackOnly (v : Byte) (s : State) : StackOnly s (push v s) := by
  refine ⟨fun k hk => Memory.read_write_other s.ram v fun hc => hk ?_, .refl _⟩
  have := s.sp.isLt
  rw [hc, stackCell]
  omega

theorem push16_stackOnly (w : Word) (s : State) : StackOnly s (push16 w s) :=
  .trans (push_stackOnly _ s) (push_stackOnly _ _)

theorem enter_stackOnly (flags : Byte) (vec : Word) (jump : Bool) (s : State) : StackOnly s (enter flags vec jump s) :=
  .trans (push16_stackOnly s.pc s) (push_stackOnly flags (push16 s.pc s))

theorem irqAccept_stackOnly (s : State) : StackOnly s (irqAccept s) := by
  unfold irqAccept
  split
  · exact (SameMemory.refl s).stackOnly
  · exact enter_stackOnly _ _ _ (s.setP { s.p with b := true })

theorem brkEntry_stackOnly (s : State) : StackOnly s (brkEntry s) := by
  unfold brkEntry
  dsimp only
  split
  · exact enter_stackOnly _ _ _ (s.setPc (s.pc + 1))
  · exact irqAccept_stackOnly (s.setPc (s.pc + 1))

/-- A reading instruction leaves what its change of the registers leaves. -/
theorem reading_sameMemory {o : Operand} {f : Byte → State → State} {s t : State} (h : reading o f s = .next t)
    (hf : ∀ v u, SameMemory u (f v u)) : SameMemory s t := by
  rcases reading_cases h with ⟨v, u, -, hu, ha, rfl⟩ | h
  · exact (hu.sameMemory ha).trans (hf v u)
  · exact h.sameMemory

theorem storing_responders {o : Operand} {v : Byte} {s t : State} (h : storing o v s = .next t)
    (hm : s.params.syncMode = .async) : t.ppu = s.ppu ∧ t.apuLatch = s.apuLatch := by
  rcases storing_cases h with ⟨-, -, ha, -⟩ | h
  · obtain ⟨_, ⟨_, _, _, _, _, _, rfl⟩, rfl⟩ := ha hm
    exact ⟨rfl, rfl⟩
  · exact h.sameMemory.responders hm

theorem modifying_responders {o : Operand} {f : Byte → Flags → Byte × Flags} {s t : State}
    (h : modifying o f s = .next t) (hm : s.params.syncMode = .async) : t.ppu = s.ppu ∧ t.apuLatch = s.apuLatch := by
  rcases modifying_cases h with ⟨_, _, _, -, -, -, ha, -⟩ | h
  · obtain ⟨⟨_, _, _, rfl⟩, _, ⟨_, _, _, _, _, _, rfl⟩, rfl⟩ := ha hm
    exact ⟨rfl, rfl⟩
  · exact h.sameMemory.responders hm

theorem branchAt_sameMemory {c : Bool} {o : Operand} {s t : State} (h : branchAt c o s = .next t) :
    SameMemory s t := by
  injection h with h
  subst h
  cases c
  · exact .refl _
  · exact targetOf_sameMemory (resolve o s) (afterResolve o s)

theorem jmpAt_sameMemory {o : Operand} {s t : State} (h : jmpAt o s = .next t) : SameMemory s t := by
  injection h with h
  subst h
  exact targetOf_sameMemory (resolve o s) (afterResolve o s)

theorem jsrAt_stackOnly {o : Operand} {s t : State} (h : jsrAt o s = .next t) : StackOnly s t := by
  injection h with h
  subst h
  exact (targetOf_sameMemory (resolve o s) (afterResolve o s)).stackOnly.trans (push16_stackOnly (s.pc - 1) _)

/-! ## What each instruction leaves -/

/-- Only storing, modifying and pushing mnemonics change RAM, the last in the stack page; only storing and modifying ones
change the cartridge; none changes the PPU or an APU latch in `async`. -/
def LeavesListed (m : Mnemonic) (s t : State) : Prop :=
  (m ∈ pushingMnemonics → ∀ k, ¬ (0x100 ≤ k ∧ k < 0x200) → t.ram.read k = s.ram.read k) ∧
  (m ∉ storingMnemonics ++ modifyingMnemonics ++ pushingMnemonics → t.ram = s.ram) ∧
  (m ∉ storingMnemonics ++ modifyingMnemonics → t.cart = s.cart) ∧
  (s.params.syncMode = .async → t.ppu = s.ppu ∧ t.apuLatch = s.apuLatch)

theorem SameMemory.leavesListed {s t : State} (h : SameMemory s t) (m : Mnemonic) : LeavesListed m s t := by
  obtain ⟨hram, -, hcart, hresp⟩ := h
  exact ⟨fun _ k _ => by rw [hram], fun _ => hram, fun _ => hcart, hresp⟩

theorem StackOnly.leavesListed {s t : State} (h : StackOnly s t) {m : Mnemonic} (hm : m ∈ pushingMnemonics) :
    LeavesListed m s t := by
  obtain ⟨hram, -, hcart, hresp⟩ := h
  exact ⟨fun _ => hram, fun hn => absurd (List.mem_append_right _ hm) hn, fun _ => hcart, hresp⟩

/-- Of a storing or modifying mnemonic only the responders are listed. -/
theorem leavesListed_of_writing {m : Mnemonic} {s t : State} (hm : m ∈ storingMnemonics ++ modifyingMnemonics)
    (h : s.params.syncMode = .async → t.ppu = s.ppu ∧ t.apuLatch = s.apuLatch) : LeavesListed m s t := by
  have hp : ∀ n ∈ storingMnemonics ++ modifyingMnemonics, n ∉ pushingMnemonics := by decide
  exact ⟨fun hn => absurd hn (hp m hm), fun hn => absurd (List.mem_append_left _ hm) hn, fun hn => absurd hm hn, h⟩

/-- A mnemonic's rule at any operand leaves what is listed. -/
theorem ruleAt_leavesListed {m : Mnemonic} {o : Operand} {s t : State} (h : ruleAt m o s = .next t) :
    LeavesListed m s t := by
  cases m
  case lda | ldx | ldy | adc | sbc | and | ora | eor | bit | cmp | cpx | cpy =>
    exact (reading_sameMemory h fun _ _ => .refl _).leavesListed _
  case sta | stx | sty => exact leavesListed_of_writing (by decide) (storing_responders h)
  case inc | dec | asl | lsr | rol | ror =>
    dsimp only [ruleAt] at h
    exact leavesListed_of_writing (by decide) (modifying_responders h)
  case bpl | bmi | bvc | bvs | bcc | bcs | bne | beq => exact (branchAt_sameMemory h).leavesListed _
  case jmp => exact (jmpAt_sameMemory h).leavesListed _
  case jsr => exact (jsrAt_stackOnly h).leavesListed (by decide)
  case pha | php =>
    injection h with h
    subst h
    exact (push_stackOnly _ (afterResolve o s)).leavesListed (by decide)
  case brk =>
    injection h with h
    subst h
    exact (brkEntry_stackOnly (afterResolve o s)).leavesListed (by decide)
  -- the transfers, the counts, the flag instructions, the pulls and the returns
  all_goals
    injection h with h
    subst h
    exact SameMemory.leavesListed (.refl _) _

/-- Only JMP has an operand of the indirect mode. -/
theorem eq_jmpInd {i : Instr} {ptr : Word} (h : i.operand = .indirect ptr) : i = .jmpInd ptr := by
  cases i <;> cases h
  rfl

theorem exec_leavesListed {i : Instr} {s t : State} (h : exec i s = .next t) : LeavesListed i.mnemonic s t := by
  by_cases hi : ∃ ptr, i.operand = .indirect ptr
  · obtain ⟨ptr, hi⟩ := hi
    obtain rfl := eq_jmpInd hi
    rcases jumpIndirect_cases h with ⟨u, pc, hu, ha, rfl⟩ | h
    · exact ((hu.sameMemory ha).trans (.refl u)).leavesListed _
    · exact h.sameMemory.leavesListed _
  · rw [exec_eq_handler] at h
    exact ruleAt_leavesListed ((handlerFrom_direct fun ptr hp => hi ⟨ptr, hp⟩).symm.trans h)

/-! ## RAM after a store -/

theorem exec_storing_of_mem {i : Instr} (h : i.mnemonic ∈ storingMnemonics) (s : State) :
    ∃ v, exec i s = storing i.operand v s := by
  obtain ⟨v, hv⟩ : ∃ v, (i.mnemonic, v) ∈ [(Mnemonic.sta, s.a), (Mnemonic.stx, s.x), (Mnemonic.sty, s.y)] := by
    simpa [storingMnemonics, exists_or] using h
  exact ⟨v, exec_storing hv⟩

/-- A storing or modifying instruction leaves RAM (when it waits), or stores one byte at its operand. -/
theorem exec_writing_ram {i : Instr} {s t : State} (hm : i.mnemonic ∈ storingMnemonics ++ modifyingMnemonics)
    (h : exec i s = .next t) : t.ram = s.ram ∨ ∃ v, t.ram = storedRam (resolve i.operand s) v s.ram := by
  rcases List.mem_append.1 hm with hm | hm
  · obtain ⟨v, he⟩ := exec_storing_of_mem hm s
    rcases storing_cases (he ▸ h) with ⟨_, ⟨_, _, _, _, _, _, _, _, -, rfl⟩, -, rfl⟩ | h
    · exact .inr ⟨v, rfl⟩
    · exact .inl h.sameMemory.1
  · rw [exec_modifying hm] at h
    rcases modifying_cases h with ⟨v, _, _, -, ⟨_, _, _, _, _, _, _, -, rfl⟩, ⟨_, _, _, _, _, _, _, _, -, rfl⟩, -, rfl⟩ | h
    · exact .inr ⟨(modification i.mnemonic v s.p).1, rfl⟩
    · exact .inl h.sameMemory.1

theorem read_writtenRam_other {a : Word} {k : Nat} (h : ¬ (a.toNat < 0x2000 ∧ k = a.toNat % 2048)) (v : Byte)
    (m : Memory) : (writtenRam a v m).read k = m.read k := by
  unfold writtenRam
  split
  · exact Memory.read_write_other m v fun hk => h ⟨by assumption, hk⟩
  · rfl

/-- Settles O30: RAM after a store at the operand, and what each mnemonic leaves. -/
theorem ramFrame : Obligations.RamFrame := by
  intro i s t k h
  obtain ⟨hpush, hother, -, -⟩ := exec_leavesListed h
  refine ⟨fun a hm ha hk => ?_, fun hm ha => ?_, fun hm => hpush hm k, hother⟩
  · rcases exec_writing_ram hm h with hr | ⟨v, hr⟩ <;> rw [hr]
    rw [ha]
    exact read_writtenRam_other hk v s.ram
  · rcases exec_writing_ram (List.mem_append_right _ hm) h with hr | ⟨v, hr⟩ <;> rw [hr]
    rw [ha]
    rfl

/-- Settles O31: the frame of every instruction, and the responders and the cartridge by mnemonic. -/
theorem instructionsLeaveTheOtherUnits : Obligations.InstructionsLeaveTheOtherUnits := by
  intro i s t hm h
  obtain ⟨-, -, hcart, hresp⟩ := exec_leavesListed h
  obtain ⟨hppu, hlatch⟩ := hresp hm
  rcases exec_frame h with
    ⟨_, _, _, _, _, _, _, _, _, _, _, _, _, _, _, _, _, _, -, -, ⟨added, hadded⟩, rfl⟩ | hs
  · exact ⟨hppu, hlatch, rfl, rfl, rfl, rfl, rfl, rfl, rfl, rfl, rfl, rfl, rfl, rfl, rfl, by rw [hadded], by rw [hadded],
      by rw [hadded], ⟨added, by rw [hadded]⟩, hcart⟩
  · obtain ⟨_, _, _, _, _, rfl⟩ := hs.frame
    exact ⟨rfl, rfl, rfl, rfl, rfl, rfl, rfl, rfl, rfl, rfl, rfl, rfl, rfl, rfl, rfl, rfl, rfl, rfl, ⟨[], rfl⟩, hcart⟩

end Sys2Proof.Machine
end

section
/-! PROOF. The decoder and the encoder (30_encoding.md R120 to R124): what a handler and an operand make, decoding what a
well-formed table encodes, and the default table row by row. -/

namespace Sys2Proof.Machine

/-! ## What a handler and an operand make -/

/-- An instruction is made exactly by its mnemonic's rule at its operand. -/
theorem ofParts_eq_instr_iff {h : Handler} {o : Operand} {i : Instr} :
    Fetched.ofParts h o = .instr i ↔ h = .rule i.mnemonic ∧ o = i.operand := by
  constructor
  · intro hf
    unfold Fetched.ofParts at hf
    split at hf
    · exact nomatch hf
    · split at hf
      · rename_i hi
        cases hf
        obtain ⟨rfl, rfl⟩ := Laws.parts_of_ofParts hi
        exact ⟨rfl, rfl⟩
      · exact nomatch hf
  · rintro ⟨rfl, rfl⟩
    simp only [Fetched.ofParts, Laws.ofParts_parts]

/-- A form is made exactly where no instruction is. -/
theorem ofParts_eq_form_iff {h h' : Handler} {o o' : Operand} :
    Fetched.ofParts h o = .form h' o' ↔
      (h = h' ∧ o = o') ∧ ∀ m, h = .rule m → Instr.ofParts m o = none := by
  cases h with
  | program p => simp [Fetched.ofParts]
  | rule m => cases hi : Instr.ofParts m o <;> simp [Fetched.ofParts, hi]

/-! ## Encoding, then decoding -/

theorem rowFor_some {t : OpcodeTable} {h : Handler} {md : Mode} {r : OpcodeRow} (hr : t.rowFor h md = some r) :
    r ∈ t ∧ r.handler = h ∧ r.mode = md := by
  have hp := List.find?_some hr
  simp only [Bool.and_eq_true, decide_eq_true_eq] at hp
  exact ⟨List.mem_of_find?_eq_some hr, hp⟩

theorem encodeParts_of_rowFor {t : OpcodeTable} {h : Handler} {o : Operand} {r : OpcodeRow}
    (hr : t.rowFor h o.mode = some r) : encodeParts t h o = r.opcode :: o.bytes := by
  simp only [encodeParts, hr]

/-- The bytes a well-formed table has for a handler and an operand are decoded to what the two make: the row that encodes
is the descriptor of its byte, since no byte has two rows. -/
theorem decode_encodeParts {t : OpcodeTable} {h : Handler} {o : Operand} (hwf : t.wf = true)
    (hrow : (t.rowFor h o.mode).isSome = true) (rest : List Byte) :
    decode t (encodeParts t h o ++ rest) = (Fetched.ofParts h o).decoded rest := by
  obtain ⟨r, hr⟩ := Option.isSome_iff_exists.1 hrow
  obtain ⟨hmem, hh, hmd⟩ := rowFor_some hr
  have hdesc := Laws.descriptor_of_mem (of_decide_eq_true hwf) hmem
  have hread := Laws.operand_read_bytes o rest
  rw [← hmd] at hread
  rw [encodeParts_of_rowFor hr, List.cons_append, decode, hdesc]
  simp only [hread, hh]

/-- Settles O1: what is encoded decodes to what its handler and operand make, an instruction or else a form. -/
theorem decodeInvertsEncode : Obligations.DecodeInvertsEncode := by
  intro t rest hwf
  refine ⟨fun i hi => ?_, fun h o hrow hnone => ?_⟩
  · rw [encode, decode_encodeParts hwf hi, ofParts_eq_instr_iff.2 ⟨rfl, rfl⟩]
    rfl
  · rw [decode_encodeParts hwf hrow, ofParts_eq_form_iff.2 ⟨⟨rfl, rfl⟩, hnone⟩]
    rfl

/-- Settles O3: a complete decoding read its operand in the descriptor's mode, and made what the descriptor's handler makes
of it. -/
theorem decodingFollowsTheDescriptor : Obligations.DecodingFollowsTheDescriptor := by
  intro t b bs rest
  refine ⟨fun i hd => ?_, fun h o hd => ?_⟩
  · obtain ⟨r, hr, hmode, hbytes, hparts⟩ := decoded_iff (f := .instr i) hd
    exact ⟨r, hr, (ofParts_eq_instr_iff.1 hparts).1, hmode, hbytes⟩
  · obtain ⟨r, hr, hmode, hbytes, hparts⟩ := decoded_iff (f := .form h o) hd
    obtain ⟨⟨hh, -⟩, hnone⟩ := ofParts_eq_form_iff.1 hparts
    exact ⟨r, hr, hh, hmode, hbytes, hh ▸ hnone⟩

/-! ## The default table -/

/-- The rows of the default table stand in the order of their bytes, so no byte has two. -/
theorem standard_wf : OpcodeTable.standard.wf = true := by
  have hsorted : (OpcodeTable.standard.map (·.opcode)).IsChain (· < ·) := by decide +kernel
  exact decide_eq_true ((List.isChain_iff_pairwise.1 hsorted).imp BitVec.ne_of_lt)

/-- The default table has a row for every instruction. -/
theorem instr_wf_standard (i : Instr) : i.wf OpcodeTable.standard = true := by
  cases i <;> rfl

/-- Whether a mnemonic and an operand make an instruction depends on the operand's mode only. -/
theorem isSome_ofParts_congr (m : Mnemonic) {o o' : Operand} (h : o.mode = o'.mode) :
    (Instr.ofParts m o).isSome = (Instr.ofParts m o').isSome := by
  cases o <;> cases o' <;> cases h <;> cases m <;> rfl

/-- A row of the instruction set: its handler is the rule of a mnemonic that makes an instruction in the row's mode (from
operand bytes 0, say), and it has that instruction's cycles and penalty. -/
def makesListedInstr (r : OpcodeRow) : Bool :=
  match r.handler, Operand.read r.mode [0, 0] with
  | .rule m, some (o, _) => (Instr.ofParts m o).isSome && decide ((r.baseCycles, r.penalty) = standardCost m r.mode)
  | _, _ => false

theorem makesListedInstr_spec {r : OpcodeRow} (h : makesListedInstr r = true) :
    ∃ m, r.handler = .rule m ∧ (r.baseCycles, r.penalty) = standardCost m r.mode ∧
      ∀ o : Operand, o.mode = r.mode → (Instr.ofParts m o).isSome = true := by
  unfold makesListedInstr at h
  split at h
  · rename_i m o rest hm ho
    simp only [Bool.and_eq_true, decide_eq_true_eq] at h
    refine ⟨m, hm, h.2, fun o' hmode => ?_⟩
    rw [isSome_ofParts_congr m (hmode.trans (Laws.bytes_of_read ho).1.symm)]
    exact h.1
  · exact nomatch h

theorem standard_makesListedInstr : ∀ r ∈ OpcodeTable.standard, makesListedInstr r = true := by decide +kernel

/-- Settles O2: every instruction has a row, and every row makes an instruction at its listed cost. -/
theorem standardTableEncodesEveryInstruction : Obligations.StandardTableEncodesEveryInstruction := by
  have hrow (i : Instr) := Option.isSome_iff_exists.1 (instr_wf_standard i)
  refine ⟨standard_wf, fun i => ⟨instr_wf_standard i, ?_⟩, fun i b hb => ?_, fun bs h o rest hd => ?_⟩
  · obtain ⟨r, hr⟩ := hrow i
    rw [encode, encodeParts_of_rowFor hr, List.length_cons, operand_bytes_length, Nat.add_comm]
    rfl
  · obtain ⟨r, hr⟩ := hrow i
    obtain ⟨hmem, hh, hmode⟩ := rowFor_some hr
    obtain ⟨m, hm, hcost, -⟩ := makesListedInstr_spec (standard_makesListedInstr r hmem)
    rw [encode, encodeParts_of_rowFor hr] at hb
    cases hb
    cases hm.symm.trans hh
    exact ⟨r, Laws.descriptor_of_mem (of_decide_eq_true standard_wf) hmem, hmode ▸ hcost⟩
  · cases bs with
    | nil => exact nomatch hd
    | cons b bs =>
      obtain ⟨r, hr, hh, hmode, -, hnone⟩ := (decodingFollowsTheDescriptor _ b bs rest).2 h o hd
      obtain ⟨m, hm, -, hsome⟩ := makesListedInstr_spec (standard_makesListedInstr r (List.mem_of_find?_eq_some hr))
      have := hsome o hmode
      simp [hnone m (hh.symm.trans hm)] at this

/-- Settles O4: the decoder run on each word. -/
theorem sampleWordsDecode : Obligations.SampleWordsDecode :=
  ⟨rfl, rfl, rfl, rfl, rfl, rfl, rfl, rfl, rfl, rfl, rfl, rfl, rfl, rfl, rfl, rfl, rfl⟩

end Sys2Proof.Machine
end

section
/-! PROOF. The engine's handlers (40_engine.md R140, R141, R148, R152): a mnemonic's rule by the shape of its operand,
the indirect mode, and the three handler programs of a table's own. -/

namespace Sys2Proof.Machine

/-! ## A rule at an operand -/

/-- What a reading mnemonic makes of the byte read. -/
def readingEffect (m : Mnemonic) (v : Byte) (t : State) : State :=
  match m with
  | .lda => { t with a := v, p := t.p.setNZ v }
  | .ldx => { t with x := v, p := t.p.setNZ v }
  | .ldy => { t with y := v, p := t.p.setNZ v }
  | .adc => { t with a := addResult t.a v t.p.c, p := t.p.add t.a v }
  | .sbc => { t with a := addResult t.a (~~~v) t.p.c, p := t.p.add t.a (~~~v) }
  | .and => { t with a := t.a &&& v, p := t.p.setNZ (t.a &&& v) }
  | .ora => { t with a := t.a ||| v, p := t.p.setNZ (t.a ||| v) }
  | .eor => { t with a := t.a ^^^ v, p := t.p.setNZ (t.a ^^^ v) }
  | .bit => { t with p := t.p.bitTest t.a v }
  | .cmp => { t with p := t.p.compare t.a v }
  | .cpx => { t with p := t.p.compare t.x v }
  | .cpy => { t with p := t.p.compare t.y v }
  | _ => t

/-- A reading mnemonic's rule reads its operand and acts on the byte. -/
theorem ruleAt_reading {m : Mnemonic} (h : m ∈ readingMnemonics) (o : Operand) (s : State) :
    ruleAt m o s = reading o (readingEffect m) s := by
  fin_cases h <;> rfl

theorem ruleAt_modifying {m : Mnemonic} (h : m ∈ modifyingMnemonics) (o : Operand) (s : State) :
    ruleAt m o s = modifying o (modification m) s := by
  fin_cases h <;> rfl

/-- A rule without operand runs after the resolver. -/
theorem ruleAt_operandFree {m : Mnemonic} (h : m ∈ operandFreeMnemonics) (o : Operand) (s : State) :
    ruleAt m o s = ruleAt m .implied (afterResolve o s) := by
  fin_cases h <;> rfl

theorem handlerWith_rule (m : Mnemonic) {o : Operand} (s : State) (hne : ∀ ptr, o ≠ .indirect ptr) :
    handlerWith (.rule m) o s = ruleAt m o s := handlerFrom_direct hne

/-- Only 0x4014 starts the bulk transfer. -/
theorem eq_of_writeTarget_oamDma {a : Word} (h : writeTarget a = .oamDma) : a = 0x4014 := by
  unfold writeTarget ioWriteTarget at h
  repeat' split at h
  all_goals simp_all

/-- A bus write waits at 0x4014 only. -/
theorem busWrite_done {a : Word} (h : a ≠ 0x4014) (v : Byte) (s : State) : ∃ t, busWrite a v s = .done () t := by
  unfold busWrite
  split
  case h_5 hd => exact absurd (eq_of_writeTarget_oamDma hd) h
  all_goals exact ⟨_, rfl⟩

/-! ## A rule at an address -/

/-- A store at an address other than 0x4014 ends the same wherever the instruction began. -/
theorem storing_at_address {o : Operand} {s : State} {a : Word} (v : Byte) (ha : resolve o s = .addr a)
    (hne : a ≠ 0x4014) : storing o v s = storing (.absolute a) v (afterResolve o s) := by
  obtain ⟨t, ht⟩ := busWrite_done hne v (afterResolve o s)
  have habs : busWrite a v (afterResolve (.absolute a) (afterResolve o s)) = .done () t := ht
  rw [storing_addr v ha, storing_addr (o := .absolute a) v rfl, ht, habs]
  rfl

/-- Where a byte of RAM or cartridge stands, a write does not start the bulk transfer. -/
theorem ne_oamDma_of_memoryByte {a : Word} {s : State} {v : Byte} (h : s.memoryByte a = some v) : a ≠ 0x4014 := by
  rintro rfl
  exact nomatch h

/-- A read-modify-write on a byte of RAM or cartridge ends the same wherever the instruction began. -/
theorem modifying_at_address {o : Operand} {s : State} {a : Word} {v : Byte} (f : Byte → Flags → Byte × Flags)
    (ha : resolve o s = .addr a) (hv : s.memoryByte a = some v) :
    modifying o f s = modifying (.absolute a) f (afterResolve o s) := by
  have ho : operandByte o s = some v := by simp only [operandByte, ha, hv]
  have habs : operandByte (.absolute a) (afterResolve o s) = some v := hv
  obtain ⟨t, ht⟩ := busWrite_done (ne_oamDma_of_memoryByte hv) (f v s.p).1 (afterResolve o s)
  have ht' : busWrite a (f v s.p).1 (afterResolve (.absolute a) (afterResolve o s)) = .done () t := ht
  rw [modifying_operandByte f ho, modifying_operandByte f habs, ha]
  simp only [resolve, store, afterResolve_p, ht, ht', Res.bind_done, complete]

/-- A branch takes its operand's address. -/
theorem branchAt_address {o : Operand} {s : State} {a : Word} (c : Bool) (ha : resolve o s = .addr a) :
    branchAt c o s =
      .next (if c then { afterResolve o s with branchTaken := true, pc := a } else afterResolve o s) := by
  simp only [branchAt, ha, targetOf]

theorem jmpAt_address {o : Operand} {s : State} {a : Word} (ha : resolve o s = .addr a) :
    jmpAt o s = .next ((afterResolve o s).setPc a) := by
  simp only [jmpAt, ha, targetOf]

theorem jsrAt_address {o : Operand} {s : State} {a : Word} (ha : resolve o s = .addr a) :
    jsrAt o s = .next ((push16 (s.pc - 1) (afterResolve o s)).setPc a) := by
  simp only [jsrAt, ha, targetOf]

/-- The mnemonics that branch or jump. -/
def transferMnemonics : List Mnemonic := [.bpl, .bmi, .bvc, .bvs, .bcc, .bcs, .bne, .beq, .jmp, .jsr]

/-- A branch, JMP or JSR at any operand that is an address goes to that address. -/
theorem ruleAt_transfer_address {m : Mnemonic} {o : Operand} {s : State} {a : Word} (h : m ∈ transferMnemonics)
    (ha : resolve o s = .addr a) : ruleAt m o s = ruleAt m (.absolute a) (afterResolve o s) := by
  cases m
  case bpl | bmi | bvc | bvs | bcc | bcs | bne | beq => exact branchAt_address _ ha
  case jmp => exact jmpAt_address ha
  case jsr => exact jsrAt_address ha
  all_goals exact absurd h (by decide)

/-- The conditions under which each branch is taken (43_control_flags.md R230 to R237). -/
theorem ruleAt_branch {m : Mnemonic} {c : Bool} {s : State}
    (h : (m, c) ∈ [(Mnemonic.bpl, !s.p.n), (Mnemonic.bmi, s.p.n), (Mnemonic.bvc, !s.p.v), (Mnemonic.bvs, s.p.v),
      (Mnemonic.bcc, !s.p.c), (Mnemonic.bcs, s.p.c), (Mnemonic.bne, !s.p.z), (Mnemonic.beq, s.p.z)]) (o : Operand) :
    ruleAt m o s = branchAt c o s := by
  fin_cases h <;> rfl

/-- A storing rule at any operand that is an address, where its write does not wait. -/
theorem ruleAt_storing_address {m : Mnemonic} {o : Operand} {s : State} {a : Word} (h : m ∈ storingMnemonics)
    (ha : resolve o s = .addr a) (hne : a ≠ 0x4014) :
    ruleAt m o s = ruleAt m (.absolute a) (afterResolve o s) := by
  fin_cases h <;> exact storing_at_address _ ha hne

/-- A modifying rule at any operand that is the address of a byte of RAM or cartridge. -/
theorem ruleAt_modifying_address {m : Mnemonic} {o : Operand} {s : State} {a : Word} (h : m ∈ modifyingMnemonics)
    (ha : resolve o s = .addr a) (hv : (s.memoryByte a).isSome = true) :
    ruleAt m o s = ruleAt m (.absolute a) (afterResolve o s) := by
  obtain ⟨v, hv⟩ := Option.isSome_iff_exists.1 hv
  rw [ruleAt_modifying h, ruleAt_modifying h]
  exact modifying_at_address _ ha hv

/-- A reading rule at any operand acts on the byte its operand holds. -/
theorem ruleAt_reading_byte {m : Mnemonic} {o : Operand} {s : State} {v : Byte} (h : m ∈ readingMnemonics)
    (hv : operandByte o s = some v) : ruleAt m o s = ruleAt m (.immediate v) (afterResolve o s) := by
  rw [ruleAt_reading h, ruleAt_reading h, reading_operandByte _ hv,
    reading_operandByte (o := .immediate v) (s := afterResolve o s) _ rfl]
  rfl

theorem ne_indirect_of_addr {o : Operand} {s : State} {a : Word} (h : resolve o s = .addr a) (ptr : Word) :
    o ≠ .indirect ptr := by
  rintro rfl
  exact nomatch h

theorem ne_indirect_of_operandByte {o : Operand} {s : State} {v : Byte} (h : operandByte o s = some v) (ptr : Word) :
    o ≠ .indirect ptr := by
  rintro rfl
  exact nomatch h

/-! ## The indirect mode -/

theorem indirectAddress_done {ptr : Word} {s t u : State} {lo hi : Byte} (hlo : busRead ptr s = .done lo t)
    (hhi : busRead (pointerHigh s.params.jmpIndPageBug ptr) t = .done hi u) :
    indirectAddress ptr s = .done (wordOf lo hi) u := by
  simp only [indirectAddress, hlo, hhi, Res.bind_done]

/-- From its start, a handler through the indirect mode is the handler at the address the pointer holds. -/
theorem handlerFrom_indirect {ptr w : Word} {s t : State} (h : Handler) (ha : indirectAddress ptr s = .done w t) :
    handlerFrom h (.indirect ptr) s = handlerFrom h (.absolute w) t := by
  simp only [handlerFrom, ha]

/-- A handler with nothing to go on with runs from its start. -/
theorem handlerWith_fresh {s : State} (hp : s.paused = none) (h : Handler) (o : Operand) :
    handlerWith h o s = handlerFrom h o s := by
  cases h with
  | rule m => rfl
  | program p => exact handlerWith_start hp

theorem indirectAddress_paused {ptr w : Word} {s t : State} (h : indirectAddress ptr s = .done w t) :
    t.paused = s.paused := by
  have hf := indirectAddress_frame ptr s
  rw [h] at hf
  obtain ⟨_, _, _, _, _, _, _, -, rfl⟩ := hf
  rfl

/-- A handler through the indirect mode is the handler at the address the pointer holds, in the state its reads leave. -/
theorem handlerWith_indirect {ptr w : Word} {s t : State} (h : Handler) (hp : s.paused = none)
    (ha : indirectAddress ptr s = .done w t) : handlerWith h (.indirect ptr) s = handlerWith h (.absolute w) t := by
  rw [handlerWith_fresh hp, handlerWith_fresh ((indirectAddress_paused ha).trans hp), handlerFrom_indirect h ha]

/-- A pointer in RAM or cartridge is read without a trace, so also a program that goes on does not see the mode. -/
theorem handlerWith_indirect_memory {ptr w : Word} {s : State} (h : Handler)
    (ha : indirectAddress ptr s = .done w s) : handlerWith h (.indirect ptr) s = handlerWith h (.absolute w) s := by
  cases h with
  | rule m => exact handlerFrom_indirect _ ha
  | program p =>
    cases hp : s.paused with
    | none => exact handlerWith_indirect _ hp ha
    | some c => rw [handlerWith_paused hp, handlerWith_paused hp]

/-! ## Programs of a table's own -/

/-- No byte of RAM or cartridge stands where a read makes a request. -/
theorem memoryByte_of_requestAt {a : Word} {r : ReadRequest} (h : requestAt a = some r) (s : State) :
    s.memoryByte a = none := by
  unfold requestAt at h
  unfold State.memoryByte
  split at h <;> simp_all

theorem runOp_load {c : Paused} {r : HandlerReg} {s t : State} {v : Byte} (h : load c.operand s = .done v t) :
    runOp (.load r) c s = setting c r (v.setWidth 16) t := by
  simp only [runOp, h, Res.bind_done]

theorem runOp_read {c : Paused} {r : HandlerReg} {e : HandlerExpr} {s t : State} {v : Byte}
    (h : busRead (exprValue c.temps s e) s = .done v t) :
    runOp (.read r e) c s = setting c r (v.setWidth 16) t := by
  simp only [runOp, h, Res.bind_done]

theorem runOp_read_wait {c : Paused} {r : HandlerReg} {e : HandlerExpr} {s t : State} {q : ReadRequest}
    (h : busRead (exprValue c.temps s e) s = .wait q t) : runOp (.read r e) c s = .wait q t := by
  simp only [runOp, h, Res.bind_wait]

theorem runOp_store {c : Paused} {e : HandlerExpr} {s t : State}
    (h : store c.operand (loByte (exprValue c.temps s e)) s = .done () t) : runOp (.store e) c s = passing c t := by
  simp only [runOp, h, Res.bind_done]

theorem runOp_write {c : Paused} {e v : HandlerExpr} {s t : State}
    (h : busWrite (exprValue c.temps s e) (loByte (exprValue c.temps s v)) s = .done () t) :
    runOp (.write e v) c s = passing c t := by
  simp only [runOp, h, Res.bind_done]

/-- A program with nothing to go on with starts at its operand. -/
theorem handlerWith_program {p : HandlerProgram} {o : Operand} {s : State} {r : Resolved} (hp : s.paused = none)
    (hr : resolve o s = r) (hne : ∀ ptr, o ≠ .indirect ptr) : handlerWith (.program p) o s =
      runProgram p p.limit { operand := r, next := 0, temps := [] } (afterResolve o s) := by
  rw [handlerWith_start hp, handlerFrom_direct hne, ← hr]
  rfl

/-- A register of the CPU set to a byte that the program carries as a word. -/
theorem setting_x (c : Paused) (v : Byte) (s : State) :
    setting c .x (v.setWidth 16) s = .done { next := c.next + 1, temps := c.temps } { s with x := v } := by
  simp [setting, setReg, setTemps]

theorem setting_y (c : Paused) (v : Byte) (s : State) :
    setting c .y (v.setWidth 16) s = .done { next := c.next + 1, temps := c.temps } { s with y := v } := by
  simp [setting, setReg, setTemps]

theorem setting_a (c : Paused) (v : Byte) (s : State) :
    setting c .a (v.setWidth 16) s = .done { next := c.next + 1, temps := c.temps } { s with a := v } := by
  simp [setting, setReg, setTemps]

/-- The word at an address, loaded by its two bytes in turn. -/
theorem loadWordHandler_result {s : State} {a : Word} {lo hi : Byte} (hlo : s.memoryByte a = some lo)
    (hhi : s.memoryByte (a + 1) = some hi) :
    runProgram loadWordHandler 3 { operand := .addr a, next := 0, temps := [] } s =
      .next { s with x := lo, y := hi, log := [] } := by
  have hload : runOp (.load .x) { operand := .addr a, next := 0, temps := [] } { s with log := [] } =
      .done { next := 1, temps := [] } { s with x := lo, log := [] } :=
    Eq.trans (runOp_load (busRead_memoryByte (s := { s with log := [] }) hlo)) (setting_x _ _ _)
  have haddress : runOp (.address (.temp 0)) { operand := .addr a, next := 1, temps := [] }
      { s with x := lo, log := [] } = .done { next := 2, temps := [a] } { s with x := lo, log := [] } := rfl
  have hread : runOp (.read .y (.op .add (.get (.temp 0)) (.lit 1))) { operand := .addr a, next := 2, temps := [a] }
      { s with x := lo, log := [] } = .done { next := 3, temps := [a] } { s with x := lo, y := hi, log := [] } :=
    Eq.trans (runOp_read (busRead_memoryByte (s := { s with x := lo, log := [] }) hhi)) (setting_y _ _ _)
  rw [runProgram_done rfl hload, runProgram_done rfl haddress, runProgram_done rfl hread]
  rfl

/-- A word stored at an address of RAM, by its two bytes in turn. -/
theorem storeWordHandler_result {s : State} {a : Word} (ha : a.toNat + 1 < 0x2000) :
    runProgram storeWordHandler 3 { operand := .addr a, next := 0, temps := [] } s =
      .next { s with
        ram := (s.ram.write (a.toNat % 2048) s.x).write ((a.toNat + 1) % 2048) s.y, log := [] } := by
  have hsucc : (a + 1).toNat = a.toNat + 1 := by bv_omega
  have hstore : runOp (.store (.get .x)) { operand := .addr a, next := 0, temps := [] } { s with log := [] } =
      .done { next := 1, temps := [] } { s with ram := s.ram.write (a.toNat % 2048) s.x, log := [] } :=
    runOp_store ((store_ram _ _ (by omega)).trans (by rw [exprValue, regValue, loByte_setWidth]))
  have haddress : runOp (.address (.temp 0)) { operand := .addr a, next := 1, temps := [] }
      { s with ram := s.ram.write (a.toNat % 2048) s.x, log := [] } =
      .done { next := 2, temps := [a] } { s with ram := s.ram.write (a.toNat % 2048) s.x, log := [] } := rfl
  have hwrite : runOp (.write (.op .add (.get (.temp 0)) (.lit 1)) (.get .y))
      { operand := .addr a, next := 2, temps := [a] }
      { s with ram := s.ram.write (a.toNat % 2048) s.x, log := [] } =
      .done { next := 3, temps := [a] } { s with
        ram := (s.ram.write (a.toNat % 2048) s.x).write ((a.toNat + 1) % 2048) s.y, log := [] } :=
    runOp_write ((store_ram (a := a + 1) _ _ (by omega)).trans (by rw [exprValue, regValue, loByte_setWidth, hsucc]))
  rw [runProgram_done rfl hstore, runProgram_done rfl haddress, runProgram_done rfl hwrite]
  rfl

theorem suspend_eq_awaiting (q : ReadRequest) (s : State) : suspend q s = awaiting q s := by
  cases q <;> rfl

/-- A read behind a channel waits, and the program is to go on with that read. -/
theorem exchangeHandler_read_waits {s : State} {w a : Word} {r : ReadRequest} (hr : requestAt a = some r)
    (hm : s.params.syncMode = .async) (hf : s.feed = []) :
    runProgram (exchangeHandler w a) 1 { operand := .nothing, next := 1, temps := [] } s =
      .next (awaiting r { s with log := [], paused := some { operand := .nothing, next := 1, temps := [] } }) := by
  have hread : runOp (.read .a (.lit a)) { operand := .nothing, next := 1, temps := [] } { s with log := [] } =
      .wait r { s with log := [] } := runOp_read_wait (busRead_request hr hm hf)
  rw [runProgram_wait rfl hread, suspend_eq_awaiting]
  cases s
  cases hf
  rfl

/-- A write to a PPU target of a living PPU, then a read behind a channel: the command is queued, and the CPU waits. -/
theorem exchangeHandler_waits {s : State} {w a : Word} {t : PpuReg} {r : ReadRequest} (hw : writeTarget w = .ppu t)
    (hr : requestAt a = some r) (hm : s.params.syncMode = .async) (halive : s.alivePpu = true) (hf : s.feed = []) :
    runProgram (exchangeHandler w a) 2 { operand := .nothing, next := 0, temps := [] } s = .next (awaiting r { s with
      ppuChan := { s.ppuChan with writes := s.ppuChan.writes ++ [.reg t s.a] }
      log := [], paused := some { operand := .nothing, next := 1, temps := [] } }) := by
  have hwrite : runOp (.write (.lit w) (.get .a)) { operand := .nothing, next := 0, temps := [] } { s with log := [] } =
      .done { next := 1, temps := [] } { s with
        ppuChan := { s.ppuChan with writes := s.ppuChan.writes ++ [.reg t s.a] }, log := [] } :=
    runOp_write (Eq.trans (busWrite_ppu (s := { s with log := [] }) hm _ hw)
      (by rw [exprValue, regValue, loByte_setWidth, if_pos halive]))
  rw [runProgram_done rfl hwrite]
  exact exchangeHandler_read_waits hr hm hf

/-- The reply is read into A, and the program ends. -/
theorem exchangeHandler_ends {s : State} {w a : Word} {r : ReadRequest} {v : Byte} (hr : requestAt a = some r)
    (hf : s.feed = [v]) :
    runProgram (exchangeHandler w a) 2 { operand := .nothing, next := 1, temps := [] } s =
      .next { s with a := v, feed := [], log := [v] } := by
  have hread : runOp (.read .a (.lit a)) { operand := .nothing, next := 1, temps := [] } { s with log := [] } =
      .done { next := 2, temps := [] } { s with a := v, feed := [], log := [v] } :=
    Eq.trans (runOp_read (busRead_kept_of_memoryByte (s := { s with log := [] }) (memoryByte_of_requestAt hr s) hf))
      (setting_a _ _ _)
  rw [runProgram_done rfl hread]
  rfl

/-- Settles O6: each rule by the shape of its operand, the indirect mode by its two reads, the three programs by their
operations, and no refused step by the totality of every turn. -/
theorem everyDescriptorExecutes : Obligations.EveryDescriptorExecutes := by
  refine ⟨exec_eq_handler, fun m o s v hm hv => ?_, fun m o s a ha h14 hmem hm => ?_, fun m c a s hm => ?_,
    fun m o s hm hne => ?_, fun h ptr s lo hi hlo hhi => ?_, fun h ptr s t u lo hi hp hlo hhi => ?_,
    fun o s a ha hp => ⟨fun lo hi hlo hhi => ?_, fun hram => ?_⟩,
    fun s w a t r hw hr hmode halive => ⟨fun hp hf => ?_, fun v hp hf => ?_⟩, fun s hs => ?_⟩
  · exact (handlerWith_rule m s (ne_indirect_of_operandByte hv)).trans (ruleAt_reading_byte hm hv)
  · rw [handlerWith_rule m s (ne_indirect_of_addr ha)]
    rcases List.mem_append.1 hm with hm | hm
    · rcases List.mem_append.1 hm with hm | hm
      · exact ruleAt_storing_address hm ha (h14 hm)
      · exact ruleAt_modifying_address hm ha (hmem hm)
    · exact ruleAt_transfer_address hm ha
  · exact (ruleAt_branch hm (.absolute a)).trans (branchAt_address (o := .absolute a) c rfl)
  · exact (handlerWith_rule m s hne).trans (ruleAt_operandFree hm o s)
  · exact handlerWith_indirect_memory h (indirectAddress_done (busRead_memoryByte hlo) (busRead_memoryByte hhi))
  · exact handlerWith_indirect h hp (indirectAddress_done hlo hhi)
  · exact (handlerWith_program hp ha (ne_indirect_of_addr ha)).trans (loadWordHandler_result hlo hhi)
  · exact (handlerWith_program hp ha (ne_indirect_of_addr ha)).trans (storeWordHandler_result hram)
  · exact (handlerWith_program (o := .implied) hp rfl fun ptr h => nomatch h).trans
      (exchangeHandler_waits hw hr hmode halive hf)
  · exact (handlerWith_paused hp).trans (exchangeHandler_ends hr hf)
  · rw [step, if_neg (by simp [hs])]
    exact act_total _ _

end Sys2Proof.Machine
end

section
/-! PROOF. Reading an operand (40_engine.md R142 to R152): a reading instruction is its mnemonic's effect on the byte
read, and the effective address of each data mode in numbers. -/

namespace Sys2Proof.Machine

/-! ## Reading instructions -/

theorem exec_reading {i : Instr} (h : i.mnemonic ∈ readingMnemonics) (s : State) :
    exec i s = reading i.operand (readingEffect i.mnemonic) s := by
  have hne : ∀ ptr, i.operand ≠ .indirect ptr := by
    intro ptr hp
    obtain rfl := eq_jmpInd hp
    exact absurd h (show Mnemonic.jmp ∉ readingMnemonics by decide)
  rw [exec_eq_handler, handlerWith_rule _ s hne, ruleAt_reading h]

theorem exec_reading_done {i : Instr} {s t : State} {v : Byte} (h : i.mnemonic ∈ readingMnemonics)
    (hr : operandRead i.operand s = .done v t) : exec i s = .next (readingEffect i.mnemonic v t) := by
  rw [exec_reading h, reading, hr]
  rfl

/-! ## Effective addresses -/

theorem resolved_eq {w : Word} {n : Nat} (h : w.toNat = n) : Resolved.addr w = .addr (BitVec.ofNat 16 n) := by
  rw [← h, BitVec.ofNat_toNat, BitVec.setWidth_eq]

/-- An index is added modulo 2^16. -/
theorem indexed_toNat (a : Word) (i : Byte) : (a + i.setWidth 16).toNat = (a.toNat + i.toNat) % 65536 := by
  rw [BitVec.toNat_add, BitVec.toNat_setWidth_of_le (by decide)]

/-- A pointer of page 0 in numbers; its second byte wraps within the page (40_engine.md R149, R150). -/
theorem zeroPagePointer_toNat (z : Byte) (s : State) : (zeroPagePointer z s).toNat =
    (s.ram.read (z.toNat % 256)).toNat + 256 * (s.ram.read ((z.toNat + 1) % 256)).toNat := by
  rw [zeroPagePointer, Laws.wordOf_toNat, zeroPageByte, zeroPageByte, BitVec.toNat_add, Nat.mod_eq_of_lt z.isLt]
  rfl

/-- The page crossing of an indexed address, in numbers (40_engine.md R147). -/
theorem otherPage_indexed (a : Word) (i : Byte) : otherPage a (a + i.setWidth 16) =
    decide (a.toNat / 256 ≠ (a.toNat + i.toNat) % 65536 / 256) := by
  rw [otherPage_eq, indexed_toNat]

/-- The resolver gives the effective address of each data mode. -/
theorem resolve_effectiveAddress {o : Operand} {s : State} {n : Nat} {crossed : Bool}
    (h : effectiveAddress o s = some (n, crossed)) :
    resolve o s = .addr (BitVec.ofNat 16 n) ∧ crossing o s = crossed := by
  cases o with
  | implied | accumulator | immediate _ | indirect _ | relative _ => exact nomatch h
  | zeroPage z =>
    cases h
    exact ⟨resolved_eq (BitVec.toNat_setWidth_of_le (by decide)), rfl⟩
  | zeroPageX z =>
    cases h
    exact ⟨resolved_eq ((BitVec.toNat_setWidth_of_le (by decide)).trans (BitVec.toNat_add z s.x)), rfl⟩
  | zeroPageY z =>
    cases h
    exact ⟨resolved_eq ((BitVec.toNat_setWidth_of_le (by decide)).trans (BitVec.toNat_add z s.y)), rfl⟩
  | absolute a =>
    cases h
    exact ⟨resolved_eq rfl, rfl⟩
  | absoluteX a =>
    cases h
    exact ⟨resolved_eq (indexed_toNat a s.x), otherPage_indexed a s.x⟩
  | absoluteY a =>
    cases h
    exact ⟨resolved_eq (indexed_toNat a s.y), otherPage_indexed a s.y⟩
  | indexedIndirect z =>
    cases h
    refine ⟨resolved_eq ?_, rfl⟩
    rw [zeroPagePointer_toNat, BitVec.toNat_add, Nat.mod_mod, Nat.mod_add_mod]
  | indirectIndexed z =>
    cases h
    rw [← zeroPagePointer_toNat]
    exact ⟨resolved_eq (indexed_toNat _ s.y), otherPage_indexed _ s.y⟩

/-- Settles O9: both the form and the immediate form are the mnemonic's effect on the byte, and the address of each data
mode is the resolver's. -/
theorem everyReadingFormActsOnTheByteRead : Obligations.EveryReadingFormActsOnTheByteRead := by
  refine ⟨fun i s t v hm hr => ⟨fun j hj => ?_, fun hbit => ?_⟩, fun o s n crossed => resolve_effectiveAddress,
    fun s v => ⟨rfl, rfl, rfl, rfl, rfl, rfl⟩⟩
  · obtain ⟨hmj, hoj⟩ := Laws.parts_of_ofParts hj
    have hrj : operandRead j.operand t = .done v t := by rw [hoj]; rfl
    rw [exec_reading_done hm hr, exec_reading_done (hmj ▸ hm) hrj, hmj]
  · rw [exec_reading_done hm hr, hbit]
    rfl

end Sys2Proof.Machine
end

section
/-! PROOF. The boundary step that runs the next instruction (40_engine.md R140, R153, R161; 60_exceptions.md R355): what
it starts from, what it fetches, and what it charges. -/

namespace Sys2Proof.Machine

/-! ## The charge -/

theorem rowCost_eq_costOf (r : OpcodeRow) (t : State) : rowCost r t.pageCrossed t.branchTaken = costOf r t := by
  unfold rowCost costOf
  cases r.penalty <;> cases t.pageCrossed <;> cases t.branchTaken <;> rfl

/-- The end of an instruction charges its descriptor's cost (40_engine.md R140). -/
theorem retire_eq_charged {t : State} {b : Byte} {r : OpcodeRow} (h : t.params.opcodes.descriptor b = some r) :
    retire b t = charged r t := by
  unfold retire charged opcodeCost
  rw [h]
  dsimp only
  rw [rowCost_eq_costOf]

/-! ## The step -/

/-- An instruction has at most three bytes. -/
theorem length_of_decoded {t : OpcodeTable} {b : Byte} {args : List Byte} {f : Fetched}
    (h : decode t (b :: args) = f.decoded []) : (b :: args).length ≤ 3 := by
  obtain ⟨r, -, -, rfl, -⟩ := decoded_iff h
  rw [List.append_nil, List.length_cons, operand_bytes_length]
  exact Nat.succ_le_succ (operandCount_le _)

/-- At a boundary with nothing of higher priority the step fetches the next instruction. -/
theorem step_ready {s : State} (h : s.ReadyToExecute) :
    step s =
      match fetchOn 3 [] (started s) with
      | .next t => .next (followCpu (moveTaken s) t)
      | .fault f => .fault f
      | .refused q => .refused q := by
  obtain ⟨hturn, hrun, hshut, hreset, hnmi, hirq⟩ := h
  rw [step_boundary hturn hrun, boundary_execute (s := moveTaken s) hshut hreset hnmi hirq]
  rfl

/-- What was fetched keeps the parameters. -/
theorem execFetched_params {f : Fetched} {s t : State} (h : execFetched f s = .next t) : t.params = s.params :=
  ((execFetched_changes h).relate Lasting.refl (fun _ _ _ => Lasting.trans) fun _ _ => Change.lasting).params

/-- The step runs what the bytes at PC decode to; completed, it is charged, and suspended, it is kept. -/
theorem step_fetched {s u : State} {b : Byte} {args : List Byte} {r : OpcodeRow} {f : Fetched} (h : s.ReadyToExecute)
    (hb : Fetches (started s) (b :: args) u) (hr : s.params.opcodes.descriptor b = some r)
    (hd : decode s.params.opcodes (b :: args) = f.decoded []) :
    step s =
      match execFetched f u with
      | .next t =>
        .next (followCpu (moveTaken s) (if t.run = .running then charged r t else { t with work := .execute b f }))
      | .fault e => .fault e
      | .refused q => .refused q := by
  rw [step_ready h, fetchOn_complete (f := f) hb rfl hd (length_of_decoded hd), runFetched]
  cases he : execFetched f u with
  | next t =>
    have hp : t.params = s.params := (execFetched_params he).trans hb.pc.2.1
    dsimp only
    rw [retire_eq_charged (r := r) (by rw [hp, hr])]
  | fault e => rfl
  | refused q => rfl

/-- Settles O5: the fetch, then what the bytes decode to, then the charge. -/
theorem stepRunsTheDecodedInstruction : Obligations.StepRunsTheDecodedInstruction := by
  refine ⟨fun s bs => Fetches.of_memoryBytes, fun s ht hf => ⟨_, busRead_noTarget ht hf, rfl⟩,
    fun s u b args r hready hb hr => ⟨fun i hd => ?_, fun h o hd => ?_⟩, fun t b r => retire_eq_charged⟩
  · exact step_fetched (f := .instr i) hready hb hr hd
  · exact step_fetched (f := .form h o) hready hb hr hd

end Sys2Proof.Machine
end

section
/-! PROOF. Loads, stores, register transfers and the stack instructions (41_load_store_transfer.md R180 to R195), and the
register counts (42_arith_logic.md R211 to R214). -/

namespace Sys2Proof.Machine

/-! ## Loads and stores -/

/-- A reading instruction on a byte that needs no channel has its mnemonic's effect on that byte. -/
theorem exec_reading_operandByte {i : Instr} {m : Mnemonic} {s : State} {v : Byte} (hi : i.mnemonic = m)
    (hm : m ∈ readingMnemonics) (hv : operandByte i.operand s = some v) :
    exec i s = .next (readingEffect m v (afterResolve i.operand s)) := by
  subst hi
  exact exec_reading_done hm (operandRead_operandByte hv)

/-- Settles O8: each load is its mnemonic's effect on the byte. -/
theorem loadResult : Obligations.LoadResult := fun _ _ _ hv =>
  ⟨fun hi => exec_reading_operandByte hi (by decide) hv, fun hi => exec_reading_operandByte hi (by decide) hv,
    fun hi => exec_reading_operandByte hi (by decide) hv⟩

/-- A storing instruction whose write completes leaves what the write leaves. -/
theorem exec_storing_done {i : Instr} {s t : State} {a : Word} {v : Byte}
    (h : (i.mnemonic, v) ∈ [(Mnemonic.sta, s.a), (Mnemonic.stx, s.x), (Mnemonic.sty, s.y)])
    (ha : resolve i.operand s = .addr a) (hw : busWrite a v (afterResolve i.operand s) = .done () t) :
    exec i s = .next t := by
  rw [exec_storing h, storing_addr v ha, hw, complete]

/-- Settles O12: the write of each of the two windows. -/
theorem storeToMemoryResult : Obligations.StoreToMemoryResult := fun i s _ v ha hv =>
  ⟨fun hram => exec_storing_done hv ha (store_ram v (afterResolve i.operand s) hram),
    fun hcart => exec_storing_done hv ha (store_cartridge v (afterResolve i.operand s) hcart)⟩

/-! ## The stack -/

/-- `dec(SP)` by its one edge (40_engine.md R157). -/
theorem decSp_eq (e : StackEdge) (sp : Byte) : decSp e sp = if e = .saturate ∧ sp = 0x00 then 0x00 else sp - 1 := by
  cases e <;> simp [decSp]

/-- `inc(SP)` by its one edge (40_engine.md R157). -/
theorem incSp_eq (e : StackEdge) (sp : Byte) : incSp e sp = if e = .saturate ∧ sp = 0xFF then 0xFF else sp + 1 := by
  cases e <;> simp [incSp]

/-- Settles O15: the four encodings, and a push or a pull with SP moved as its edge says. -/
theorem stackInstructionResult : Obligations.StackInstructionResult := by
  refine ⟨rfl, rfl, rfl, rfl, fun s down up hdown hup => ?_⟩
  rw [← decSp_eq] at hdown
  rw [← incSp_eq] at hup
  subst hdown hup
  refine ⟨exec_pha s, exec_php s, ?_, ?_⟩
  · rintro _ rfl
    exact exec_pla s
  · rintro _ rfl
    exact exec_plp s

/-! ## Transfers and counts -/

theorem eq_add_one_of_toNat {r v : Byte} (h : r.toNat = (v.toNat + 1) % 256) : r = v + 1 :=
  BitVec.eq_of_toNat_eq (h.trans (BitVec.toNat_add v 1).symm)

theorem eq_sub_one_of_toNat {r v : Byte} (h : r.toNat = (v.toNat + 255) % 256) : r = v - 1 :=
  BitVec.eq_of_toNat_eq (by rw [h, BitVec.toNat_sub, Nat.add_comm]; rfl)

/-- Settles O21: the encodings and the transfers as they stand, and the counts modulo 256. -/
theorem registerTransferAndCountResult : Obligations.RegisterTransferAndCountResult := by
  refine ⟨⟨rfl, rfl, rfl, rfl, rfl, rfl, rfl, rfl, rfl, rfl⟩,
    fun s => ⟨exec_tax s, exec_tay s, exec_txa s, exec_tya s, exec_tsx s, exec_txs s⟩,
    fun s r => ⟨fun h => ?_, fun h => ?_, fun h => ?_, fun h => ?_⟩⟩
  · obtain rfl := eq_add_one_of_toNat h
    exact exec_inx s
  · obtain rfl := eq_add_one_of_toNat h
    exact exec_iny s
  · obtain rfl := eq_sub_one_of_toNat h
    exact exec_dex s
  · obtain rfl := eq_sub_one_of_toNat h
    exact exec_dey s

end Sys2Proof.Machine
end

section
/-! PROOF. Arithmetic, logic, compare, and the read-modify-write instructions on A, RAM and the cartridge
(42_arith_logic.md R196 to R210, R215 to R218). -/

namespace Sys2Proof.Machine

/-! ## Addition and subtraction -/

/-- Bit 7 of a byte, masked out, is nonzero exactly when it is set. -/
theorem and_signBit_ne_zero (x : Byte) : ((x &&& 0x80) != 0) = x.getLsbD 7 := by
  have hx : x &&& 0x80 = if x.getLsbD 7 then 0x80 else 0 := BitVec.and_twoPow x 7
  rw [hx]
  cases x.getLsbD 7 <;> rfl

theorem addResult_toNat (a m : Byte) (c : Bool) : (addResult a m c).toNat = (a.toNat + m.toNat + c.toNat) % 256 :=
  BitVec.toNat_ofNat _ _

/-- Operands of one sign give a result of the other sign exactly when the signed sum leaves the byte's signed range. -/
theorem addResult_overflow (a m : Byte) (c : Bool) :
    ((a ^^^ addResult a m c) &&& (m ^^^ addResult a m c) &&& 0x80 != 0) =
      decide (a.toInt + m.toInt + c.toNat < -128 ∨ 127 < a.toInt + m.toInt + c.toNat) := by
  have hsign (x : Byte) : x.getLsbD 7 = decide (128 ≤ x.toNat) := BitVec.msb_eq_decide x
  have hint (x : Byte) : x.toInt = if 2 * x.toNat < 256 then (x.toNat : Int) else x.toNat - 256 :=
    BitVec.toInt_eq_toNat_cond x
  rw [and_signBit_ne_zero, BitVec.getLsbD_and, BitVec.getLsbD_xor, BitVec.getLsbD_xor, hsign, hsign, hsign,
    addResult_toNat, hint a, hint m, Bool.eq_iff_iff]
  have ha := a.isLt
  have hm := m.isLt
  have hc := c.toNat_lt
  simp only [Bool.and_eq_true, bne_iff_ne, ne_eq, decide_eq_decide, decide_eq_true_eq]
  split <;> split <;> omega

/-- The flags after an addition, C and V by the exact unsigned and signed sums. -/
theorem Flags.add_eq (p : Flags) (a m : Byte) : p.add a m = { p with
    n := (addResult a m p.c).getLsbD 7, z := addResult a m p.c == 0
    v := decide (a.toInt + m.toInt + p.c.toNat < -128 ∨ 127 < a.toInt + m.toInt + p.c.toNat)
    c := decide (255 < a.toNat + m.toNat + p.c.toNat) } := by
  rw [← addResult_overflow]
  rfl

theorem complement_toInt (m : Byte) : (~~~m).toInt = -1 - m.toInt := by
  have hm := m.isLt
  rw [BitVec.toInt_eq_toNat_cond, BitVec.toInt_eq_toNat_cond, BitVec.toNat_not]
  split <;> split <;> omega

/-- Adding the complement with C subtracts with the borrow `1 - C`, modulo 256. -/
theorem addResult_complement_toNat (a m : Byte) (c : Bool) :
    ((addResult a (~~~m) c).toNat : Int) = ((a.toNat : Int) - m.toNat - (1 - c.toNat)) % 256 := by
  have hm := m.isLt
  rw [addResult_toNat, BitVec.toNat_not]
  omega

/-- The flags after a subtraction: C is no borrow, V by the exact signed difference. -/
theorem Flags.add_complement_eq (p : Flags) (a m : Byte) : p.add a (~~~m) = { p with
    n := (addResult a (~~~m) p.c).getLsbD 7, z := addResult a (~~~m) p.c == 0
    v := decide (a.toInt - m.toInt - (1 - p.c.toNat) < -128 ∨ 127 < a.toInt - m.toInt - (1 - p.c.toNat))
    c := decide ((m.toNat : Int) + (1 - p.c.toNat) ≤ a.toNat) } := by
  have hm := m.isLt
  have hdiff : a.toInt + (-1 - m.toInt) + p.c.toNat = a.toInt - m.toInt - (1 - p.c.toNat) := by ring
  have hborrow : 255 < a.toNat + (2 ^ 8 - 1 - m.toNat) + p.c.toNat ↔
      (m.toNat : Int) + (1 - p.c.toNat) ≤ a.toNat := by omega
  rw [Flags.add_eq, complement_toInt, BitVec.toNat_not, hdiff, decide_eq_decide.2 hborrow]

/-- Settles O17: SBC adds the complement. -/
theorem addSubtractResult : Obligations.AddSubtractResult := by
  refine fun i s m hm => ⟨fun hi => ⟨_, addResult_toNat s.a m s.p.c, ?_⟩,
    fun hi => ⟨_, addResult_complement_toNat s.a m s.p.c, ?_⟩⟩
  · rw [exec_reading_operandByte hi (by decide) hm, ← Flags.add_eq]
    rfl
  · rw [exec_reading_operandByte hi (by decide) hm, ← Flags.add_complement_eq]
    rfl

/-! ## Logic and compare -/

/-- Settles O18: each is its mnemonic's effect on the byte. -/
theorem logicResult : Obligations.LogicResult := by
  refine fun i s m hm => ⟨fun r h => ?_, fun hi => exec_reading_operandByte hi (by decide) hm⟩
  simp only [List.mem_cons, Prod.mk.injEq, List.not_mem_nil, or_false] at h
  rcases h with ⟨hi, rfl⟩ | ⟨hi, rfl⟩ | ⟨hi, rfl⟩ <;> exact exec_reading_operandByte hi (by decide) hm

/-- Settles O19: each is `compare` of its register with the byte. -/
theorem compareResult : Obligations.CompareResult := by
  intro i s r m hm h
  simp only [List.mem_cons, Prod.mk.injEq, List.not_mem_nil, or_false] at h
  rcases h with ⟨hi, rfl⟩ | ⟨hi, rfl⟩ | ⟨hi, rfl⟩ <;> exact exec_reading_operandByte hi (by decide) hm

/-! ## Read-modify-write on A, RAM and the cartridge -/

/-- A read-modify-write instruction on a byte that needs no channel stores the modified byte at its operand, and then
sets the flags. -/
theorem exec_modifying_stored {i : Instr} {s t : State} {v r : Byte} {c : Bool}
    (hv : operandByte i.operand s = some v) (h : ModifiesTo i.mnemonic s.p v c r)
    (hw : store (resolve i.operand s) r (afterResolve i.operand s) = .done () t) :
    exec i s = .next { t with p := { s.p with c := c, n := r.getLsbD 7, z := r == 0 } } := by
  obtain ⟨hmem, hf⟩ := modification_of_modifiesTo h
  rw [exec_modifying hmem, modifying_operandByte _ hv, hf, hw, Res.bind_done, complete]

theorem exec_modifying_acc {i : Instr} {s : State} {v r : Byte} {c : Bool} (hv : operandByte i.operand s = some v)
    (h : ModifiesTo i.mnemonic s.p v c r) (ha : resolve i.operand s = .acc) :
    exec i s = .next { s with a := r, p := { s.p with c := c, n := r.getLsbD 7, z := r == 0 } } := by
  refine exec_modifying_stored (t := { s with a := r }) hv h ?_
  rw [resolve_acc ha]
  rfl

theorem exec_modifying_ram {i : Instr} {s : State} {a : Word} {v r : Byte} {c : Bool}
    (hv : operandByte i.operand s = some v) (h : ModifiesTo i.mnemonic s.p v c r)
    (ha : resolve i.operand s = .addr a) (hram : a.toNat < 0x2000) : exec i s = .next { s with
      ram := s.ram.write (a.toNat % 2048) r, pageCrossed := crossing i.operand s
      p := { s.p with c := c, n := r.getLsbD 7, z := r == 0 } } :=
  exec_modifying_stored hv h (ha ▸ store_ram r (afterResolve i.operand s) hram)

theorem exec_modifying_cartridge {i : Instr} {s : State} {a : Word} {v r : Byte} {c : Bool}
    (hv : operandByte i.operand s = some v) (h : ModifiesTo i.mnemonic s.p v c r)
    (ha : resolve i.operand s = .addr a) (hcart : 0x8000 ≤ a.toNat) : exec i s = .next { s with
      cart := s.cart.write s.params a r, pageCrossed := crossing i.operand s
      p := { s.p with c := c, n := r.getLsbD 7, z := r == 0 } } :=
  exec_modifying_stored hv h (ha ▸ store_cartridge r (afterResolve i.operand s) hcart)

/-- INC and DEC leave C as it was. -/
theorem modifiesTo_of_incDec {m : Mnemonic} {p : Flags} {v r : Byte}
    (h : (m, r) ∈ [(Mnemonic.inc, v + 1), (Mnemonic.dec, v - 1)]) : ModifiesTo m p v p.c r := by
  simp only [List.mem_cons, Prod.mk.injEq, List.not_mem_nil, or_false] at h
  rcases h with ⟨rfl, rfl⟩ | ⟨rfl, rfl⟩
  · have hr : (v + 1).toNat = (v.toNat + 1) % 256 := BitVec.toNat_add v 1
    rw [ModifiesTo, hr]
    exact .head _
  · have hr : (v - 1).toNat = (v.toNat + 255) % 256 := by rw [BitVec.toNat_sub, Nat.add_comm]; rfl
    rw [ModifiesTo, hr]
    exact .tail _ (.head _)

/-- Settles O20: the modified byte goes back to RAM, or to the cartridge. -/
theorem incDecMemoryResult : Obligations.IncDecMemoryResult := by
  intro i s a v r ha hv h
  have hbyte : operandByte i.operand s = some v := by rw [operandByte, ha]; exact hv
  have hmod : ModifiesTo i.mnemonic s.p v s.p.c r := modifiesTo_of_incDec h
  exact ⟨exec_modifying_ram hbyte hmod ha, exec_modifying_cartridge hbyte hmod ha⟩

/-- Settles O22: the shifted byte goes back to A, to RAM, or to the cartridge. -/
theorem shiftResult : Obligations.ShiftResult := by
  intro i s v r out hv h
  have hmod : ModifiesTo i.mnemonic s.p v out r := List.mem_cons_of_mem _ (List.mem_cons_of_mem _ h)
  exact ⟨exec_modifying_acc hv hmod, fun _ => exec_modifying_ram hv hmod, fun _ => exec_modifying_cartridge hv hmod⟩

end Sys2Proof.Machine
end

section
/-! PROOF. Branches, jumps, subroutines, interrupt return and break, the flag instructions and NOP (43_control_flags.md
R230 to R250): the next state of each, and that the returns undo the entries. -/

namespace Sys2Proof.Machine

/-! ## Pulling what was pushed -/

/-- The return reads the stack only: what PC and the flags were does not matter. -/
theorem interruptReturn_setPc (w : Word) (s : State) : interruptReturn (s.setPc w) = interruptReturn s := rfl

theorem interruptReturn_setP (p : Flags) (s : State) : interruptReturn (s.setP p) = interruptReturn s := rfl

/-- The flags byte is pulled first, then the return address as one word. -/
theorem interruptReturn_eq_pull16 (s : State) : interruptReturn s = { s with
    sp := (pull16 (pull s)).sp, p := Flags.ofByte (pulled s), pc := pulled16 (pull s) } := rfl

section Wrap

variable {s : State} (h : s.params.stackEdge = .wrap)
include h

/-- A pull takes the pushed byte off the stack; the byte stays in its cell. -/
theorem pull_push (v : Byte) : pull (push v s) = { s with ram := s.ram.write (stackCell s.sp) v } := by
  have hsp : (pull (push v s)).sp = s.sp := by rw [pull_sp, push_params, push_sp, h, incSp_decSp]
  exact congrArg (fun sp => { s with ram := s.ram.write (stackCell s.sp) v, sp := sp }) hsp

theorem pulled_push (v : Byte) : pulled (push v s) = v := by
  rw [pulled, push_params, push_sp, h, incSp_decSp, push_ram, Memory.read_write_same]

/-- The cell at SP is free: the next pull does not read it. -/
theorem pulled_write_free (v : Byte) : pulled { s with ram := s.ram.write (stackCell s.sp) v } = pulled s := by
  have hne : incSp s.params.stackEdge s.sp ≠ s.sp := by
    rw [h, incSp]
    bv_omega
  exact Memory.read_write_other _ v (stackCell_injective.mt hne)

/-- Nor does the pull after that. -/
theorem pulled_pull_write_free (v : Byte) :
    pulled (pull { s with ram := s.ram.write (stackCell s.sp) v }) = pulled (pull s) := by
  have hne : incSp s.params.stackEdge (incSp s.params.stackEdge s.sp) ≠ s.sp := by
    rw [h, incSp, incSp]
    bv_omega
  exact Memory.read_write_other _ v (stackCell_injective.mt hne)

theorem pulled16_push16 (w : Word) : pulled16 (push16 w s) = w := by
  have hpushed : (push (hiByte w) s).params.stackEdge = .wrap := h
  have hlo : pulled (push16 w s) = loByte w := pulled_push hpushed (loByte w)
  have hhi : pulled (pull (push16 w s)) = hiByte w := by
    rw [push16, pull_push hpushed, pulled_write_free hpushed, pulled_push h]
  rw [pulled16, hlo, hhi, Laws.wordOf_lo_hi]

/-- RTS from where JSR went goes on after the JSR; only the cells of the stack keep a trace of the two. -/
theorem execRts_after_jsr (a : Word) :
    execRts ((push16 (s.pc - 1) s).setPc a) = .next { s with ram := (push16 (s.pc - 1) s).ram } := by
  have hsp : (pull16 (push16 (s.pc - 1) s)).sp = s.sp := by simp [pull16, push16, h, incSp_decSp]
  have hpc : pulled16 (push16 (s.pc - 1) s) + 1 = s.pc := by rw [pulled16_push16 h, BitVec.sub_add_cancel]
  calc execRts ((push16 (s.pc - 1) s).setPc a)
    _ = .next { s with
          ram := (push16 (s.pc - 1) s).ram, sp := (pull16 (push16 (s.pc - 1) s)).sp
          pc := pulled16 (push16 (s.pc - 1) s) + 1 } := rfl
    _ = _ := by rw [hsp, hpc]

/-- RTI after an entry that pushed the flags as they stood undoes it; only the cells of the stack keep a trace. -/
theorem interruptReturn_enter (vec : Word) (jump : Bool) : interruptReturn (enter s.p.toByte vec jump s) =
    { s with ram := (push s.p.toByte (push16 s.pc s)).ram } := by
  have hpushed : (push16 s.pc s).params.stackEdge = .wrap := h
  have hp : pulled (push s.p.toByte (push16 s.pc s)) = s.p.toByte := pulled_push hpushed s.p.toByte
  have hpc : pulled16 (pull (push s.p.toByte (push16 s.pc s))) = s.pc := by
    rw [pull_push hpushed, pulled16, pulled_write_free hpushed, pulled_pull_write_free hpushed, ← pulled16,
      pulled16_push16 h]
  have hsp : (pull16 (pull (push s.p.toByte (push16 s.pc s)))).sp = s.sp := by
    simp [pull16, push16, h, incSp_decSp]
  rw [enter, interruptReturn_setPc, interruptReturn_setP, interruptReturn_eq_pull16, hp, hpc, hsp, Flags.ofByte_toByte]
  rfl

end Wrap

/-- Settles O36: what was pushed is pulled again. -/
theorem returnsUndoEntries : Obligations.ReturnsUndoEntries := fun s h =>
  ⟨fun a => ⟨_, _, exec_jsr a s, execRts_after_jsr h a, rfl, rfl, rfl, rfl, rfl, rfl⟩,
    _, (exec_rti _).trans (congrArg Host.Outcome.next (interruptReturn_enter h nmiVector true)),
      rfl, rfl, rfl, rfl, rfl, rfl⟩

/-! ## Branches -/

/-- `branch(cond, opnd)` (40_engine.md R160), the page crossing in numbers. -/
theorem branching_eq {cond : Bool} {P : Prop} [Decidable P] (h : cond = true ↔ P) {s : State} {o : Byte} {t : Word}
    {cross : Bool} (ht : t = s.pc + o.signExtend 16) (hc : cross = decide (s.pc.toNat / 256 ≠ t.toNat / 256)) :
    branching cond o s = .next (if P then { s with pc := t, branchTaken := true, pageCrossed := cross }
      else { s with pageCrossed := cross }) := by
  subst ht
  rw [← otherPage_eq] at hc
  subst hc
  simp only [← h]
  rfl

/-- Settles O24: each branch has its flag's value as its condition. -/
theorem branchResult : Obligations.BranchResult := by
  refine ⟨fun o => ⟨rfl, rfl, rfl, rfl, rfl, rfl, rfl, rfl⟩, fun s o t cross ht hc => ?_⟩
  have hset (f : Bool) : branching f o s = _ := branching_eq (Iff.refl (f = true)) ht hc
  have hclear (f : Bool) : branching (!f) o s = _ := branching_eq (P := f = false) (by simp) ht hc
  exact ⟨hclear s.p.n, hset s.p.n, hclear s.p.v, hset s.p.v, hclear s.p.c, hset s.p.c, hclear s.p.z, hset s.p.z⟩

/-! ## Jumps, subroutines and the return from an interrupt -/

theorem jumpIndirect_done {ptr w : Word} {s u : State} (h : indirectAddress ptr s = .done w u) :
    jumpIndirect ptr s = .next { u with pc := w } := by
  rw [jumpIndirect, h, Res.bind_done, complete]

/-- Settles O25: the pointer's two reads, the two pushes of JSR and the two pulls of RTS. -/
theorem jumpAndSubroutineResult : Obligations.JumpAndSubroutineResult := by
  refine ⟨fun a => ⟨rfl, rfl⟩, rfl, fun s a dec inc hdec hinc => ?_⟩
  subst hdec hinc
  refine ⟨exec_jmpAbs a s, fun b hb => ?_, exec_jsr a s, exec_rts s⟩
  have hread {lo hi : Byte} {t u : State} (hlo : busRead a s = .done lo t) (hhi : busRead b t = .done hi u) :
      exec (.jmpInd a) s = .next { u with pc := wordOf lo hi } := by
    rw [hb] at hhi
    exact (exec_jmpInd a s).trans (jumpIndirect_done (indirectAddress_done hlo hhi))
  exact ⟨fun lo hi hlo hhi => hread (busRead_memoryByte hlo) (busRead_memoryByte hhi), fun lo hi t u => hread⟩

/-- Settles O26: the three pulls of the return, as one update. -/
theorem interruptReturnResult : Obligations.InterruptReturnResult := by
  rintro s _ _ rfl rfl
  rw [exec_rti, execRti, interruptReturn_eq]
  rfl

/-! ## Break -/

theorem enter_eq_pushedThree (flags : Byte) (jump : Bool) (s : State) : enter flags irqVector jump s = { s with
    ram := pushedThree s s.pc flags, sp := pushedThreeSp s, p := { s.p with i := true }
    pc := if jump then wordOf (s.cart.read 0xFFFE) (s.cart.read 0xFFFF) else s.pc } := enter_eq ..

theorem sharedInterrupt_eq_pushedThree (s : State) : sharedInterrupt irqVector s = { s with
    ram := pushedThree s s.pc s.p.toByte, sp := pushedThreeSp s, p := { s.p with i := true }
    pc := if s.p.i then s.pc else wordOf (s.cart.read 0xFFFE) (s.cart.read 0xFFFF) } := by
  rw [sharedInterrupt, enter_eq_pushedThree]
  cases s.p.i <;> rfl

theorem brkEntry_standard {s : State} (h : s.params.brkPolicy = .standard) :
    brkEntry s = enter (s.p.toByte ||| 0x30) irqVector true (s.setPc (s.pc + 1)) := by
  rw [brkEntry, h]
  rfl

theorem brkEntry_viaIrqPath {s : State} (h : s.params.brkPolicy = .viaIrqPath) :
    brkEntry s = irqAccept (s.setPc (s.pc + 1)) := by
  rw [brkEntry, h]

theorem irqAccept_of_b_set {s : State} (h : s.p.b = true) : irqAccept s = s := if_pos h

theorem irqAccept_of_b_clear {s : State} (h : s.p.b = false) :
    irqAccept s = sharedInterrupt irqVector (s.setP { s.p with b := true }) := by
  rw [irqAccept, h, if_neg Bool.false_ne_true]

/-- Settles O27: the entry of each policy, from PC after the skipped byte. -/
theorem breakResult : Obligations.BreakResult := by
  intro s
  rw [exec_brk, execBrk]
  refine ⟨fun hp => ?_, fun hp hb => ?_, fun hp hb => ?_⟩
  · rw [brkEntry_standard hp, enter_eq_pushedThree]
    rfl
  · rw [brkEntry_viaIrqPath hp, irqAccept_of_b_set (s := s.setPc (s.pc + 1)) hb]
    rfl
  · rw [brkEntry_viaIrqPath hp, irqAccept_of_b_clear (s := s.setPc (s.pc + 1)) hb, sharedInterrupt_eq_pushedThree]
    rfl

/-! ## Flag instructions and NOP -/

/-- Settles O28: the encodings, NOP's cost with no penalty, and the one flag each changes. -/
theorem flagAndNopResult : Obligations.FlagAndNopResult :=
  ⟨rfl, rfl, rfl, rfl, rfl, rfl, rfl, rfl, fun _ _ => rfl, fun s =>
    ⟨exec_clc s, exec_sec s, exec_cli s, exec_sei s, exec_clv s, exec_cld s, exec_sed s, exec_nop s⟩⟩

end Sys2Proof.Machine
end

section
/-! PROOF. How a turn of the CPU ends (50_channel_protocol.md R261, R263): one inversion lemma each for what was fetched, for
a fetch, for the boundary step and for a waiting CPU's turn; and, from these, the invariant of the channels and of the
suspended work (10_state.md R36, R38; 50_channel_protocol.md R272, R277). -/

namespace Sys2Proof.Machine

/-! ## What was fetched, and the fetch -/

theorem CpuFrame.run {s t : State} : CpuFrame s t → t.run = s.run := by
  rintro ⟨_, _, _, _, _, _, _, _, _, _, _, _, _, _, _, _, _, _, -, -, -, rfl⟩
  rfl

theorem CpuFrame.paused {s t : State} : CpuFrame s t → t.paused = s.paused := by
  rintro ⟨_, _, _, _, _, _, _, _, _, _, _, _, _, _, _, _, _, _, -, -, -, rfl⟩
  rfl

theorem suspend_run (q : ReadRequest) (s : State) : (suspend q s).run = .awaitRead q := by
  cases q <;> rfl

/-- What was fetched has run: it is retired, or suspended as the work to go on with. -/
inductive ExecutionEnds (s : State) : State → Prop where
  | retired {u : State} (b : Byte) (h : CpuFrame s u) : ExecutionEnds s (retire b u)
  | waits {u : State} (b : Byte) (f : Fetched) (h : SuspendedAfter s u) :
    ExecutionEnds s { u with work := .execute b f }

theorem SuspendedAfter.run_ne {s t : State} (h : SuspendedAfter s t) : t.run ≠ .running := by
  obtain ⟨-, _, q, _, _, _, -, rfl⟩ := h
  rw [suspend_run]
  exact nofun

theorem runFetched_ends {b : Byte} {f : Fetched} {s t : State} (hrun : s.run = .running)
    (h : runFetched b f s = .next t) : ExecutionEnds s t := by
  obtain ⟨u, hu⟩ := execFetched_total f s
  simp only [runFetched, hu] at h
  injection h with h
  subst h
  rcases execFetched_frame hu with hf | hf
  · rw [if_pos (hf.run.trans hrun)]
    exact .retired b hf
  · rw [if_neg hf.run_ne]
    exact .waits b f hf

/-- What ends after a frame, seen from before it. -/
theorem ExecutionEnds.after {s t u : State} (h : CpuFrame s t) : ExecutionEnds t u → ExecutionEnds s u
  | .retired b k => .retired b (h.trans k)
  | .waits b f ⟨hm, w, q, feed, draws, paused, k, hu⟩ =>
    .waits b f ⟨h.params ▸ hm, w, q, feed, draws, paused, h.trans k, hu⟩

/-- A fetch ends in the execution of what was fetched, in the fatal fault, or waiting for a byte of the instruction. -/
inductive FetchEnds (s : State) : State → Prop where
  | executed {t : State} (h : ExecutionEnds s t) : FetchEnds s t
  | halted {u : State} (b : Byte) (h : CpuFrame s u) : FetchEnds s (haltUnknown b u)
  | waits {u : State} (q : ReadRequest) (got : List Byte) (hm : s.params.syncMode = .async) (h : CpuFrame s u)
    (hlog : s.log = [] → u.log = []) : FetchEnds s (suspend q { u with work := .fetch got })

theorem FetchEnds.after {s t u : State} (h : CpuFrame s t) (hlog : s.log = [] → t.log = []) :
    FetchEnds t u → FetchEnds s u
  | .executed k => .executed (k.after h)
  | .halted b k => .halted b (h.trans k)
  | .waits q got hm k klog => .waits q got (h.params ▸ hm) (h.trans k) (klog ∘ hlog)

theorem sendRead_wait {r q : ReadRequest} {s t : State} (h : sendRead r s = .wait q t) : t = s := by
  have hm : s.params.syncMode = .async := by
    have hw := sendRead_waits r s
    rwa [h] at hw
  rw [sendRead_async hm] at h
  cases h
  rfl

/-- A bus read that waits has done nothing. -/
theorem busRead_wait {a : Word} {q : ReadRequest} {s t : State} (h : busRead a s = .wait q t) : t = s := by
  have htake {r : ReadRequest} (h : takeExternal (sendRead r) s = .wait q t) : t = s := by
    unfold takeExternal at h
    split at h
    · exact nomatch h
    · cases hr : sendRead r s with
      | done v u =>
        rw [hr] at h
        exact nomatch h
      | wait p u =>
        rw [hr] at h
        cases h
        exact sendRead_wait hr
  unfold busRead at h
  split at h
  · exact nomatch h
  · exact nomatch h
  · exact htake h
  · exact htake h
  all_goals
    unfold takeExternal drawRead at h
    split at h <;> exact nomatch h

/-- PC past a byte read, the byte kept with the instruction. -/
theorem ReadFrame.pastByte {s t : State} (h : ReadFrame s t) : CpuFrame s { t with pc := t.pc + 1, log := [] } :=
  h.toCpu.trans ((CpuFrame.noLog t).trans (.cpu _ _ _ _ _ _ _ _ _ id))

theorem fetchOn_ends {n : Nat} {got : List Byte} {s t : State} (hrun : s.run = .running)
    (h : fetchOn n got s = .next t) : FetchEnds s t := by
  fun_induction fetchOn n got s with
  | case1 => exact .executed (runFetched_ends hrun h)
  | case2 => exact .executed (runFetched_ends hrun h)
  | case3 _ _ s b =>
    injection h with h
    exact h ▸ .halted b (.draws s.draws)
  | case4 => exact nomatch h
  | case5 got s hd k v u hr ih =>
    have hf := busRead_frame s.pc s
    rw [hr] at hf
    exact (ih (hf.pastByte.run.trans hrun) h).after hf.pastByte fun _ => rfl
  | case6 got s hd k q u hr =>
    have hm := busRead_waits s.pc s
    rw [hr] at hm
    obtain rfl := busRead_wait hr
    injection h with h
    exact h ▸ .waits q _ hm (.draws _) id

/-! ## The boundary step -/

/-- What an interrupt or reset entry of the boundary step changes (60_exceptions.md R350 to R357). -/
def EntryFrame (s t : State) : Prop :=
  ∃ pc sp p ram cycles reset vs ve fe seen,
    t = { s with
      pc := pc, sp := sp, p := p, ram := ram, cycles := cycles, resetRequest := reset, vblankStart := vs
      vblankEnd := ve, frameEnd := fe, frameEndsSeen := seen }

theorem irqAccept_entry (s : State) : EntryFrame s (chargeEntry (irqAccept s)) := by
  unfold irqAccept
  split
  · exact ⟨_, _, _, _, _, _, _, _, _, _, rfl⟩
  · rw [sharedInterrupt, enter_eq]
    exact ⟨_, _, _, _, _, _, _, _, _, _, rfl⟩

/-- The boundary step exits, takes an entry, or fetches. -/
theorem boundary_cases {s t : State} (h : boundary s = .next t) :
    (∃ p a, t = { s with run := .exited, alivePpu := p, aliveApu := a }) ∨ EntryFrame s t ∨
      executeOne (recordTrace (pollSignals s)) = .next t := by
  unfold boundary at h
  dsimp only at h
  split at h
  · injection h with h
    subst h
    unfold shutDown
    split
    · exact .inl ⟨_, _, rfl⟩
    · exact .inl ⟨_, _, rfl⟩
  split at h
  · injection h with h
    exact .inr (.inl ⟨_, _, _, _, _, _, _, _, _, _, h.symm⟩)
  split at h
  · rw [nmiEntry, enter_eq] at h
    injection h with h
    exact .inr (.inl ⟨_, _, _, _, _, _, _, _, _, _, h.symm⟩)
  split at h
  · injection h with h
    obtain ⟨_, _, _, _, _, _, _, _, _, _, he⟩ := irqAccept_entry (pollSignals s)
    exact .inr (.inl ⟨_, _, _, _, _, _, _, _, _, _, h.symm.trans he⟩)
  · exact .inr (.inr h)

/-! ## The turn of a CPU that waits -/

/-- The CPU has taken the reply it awaited, or given it up: what is left in the channels, and the draw counter.  Where at
most that one request was outstanding, none is left. -/
def ReplyTaken (r : ReadRequest) (s u : State) : Prop :=
  (s.run = .awaitRead r → s.ChannelsWf → u.ppuOutstanding = 0 ∧ u.apuOutstanding = 0) ∧
    ∃ pr pres ar ares draws, u = { s with
      ppuChan := { s.ppuChan with reads := pr, results := pres }
      apuChan := { s.apuChan with reads := ar, results := ares }, draws := draws }

/-- A waiting CPU stays as it is, is stuck, or goes on with the byte it has got. -/
theorem awaitStep_cases {r : ReadRequest} {s t : State} (h : awaitStep r s = .next t) :
    t = s ∨ t = { s with stuck := true, draws := s.draws + 1 } ∨
      ∃ v u, ReplyTaken r s u ∧ resume v u = .next t := by
  cases r with
  | ppu q =>
    unfold awaitStep at h
    dsimp only at h
    split at h
    · rename_i v vs hv
      refine .inr (.inr ⟨v, _, ⟨fun hr hc => ?_, _, _, _, _, _, rfl⟩, h⟩)
      simp only [State.ChannelsWf, hr, State.ppuOutstanding, hv, List.length_cons] at hc
      exact ⟨by simp only [State.ppuOutstanding]; omega, hc.2⟩
    · rename_i hv
      split at h
      · injection h with h
        exact .inl h.symm
      · split at h
        · refine .inr (.inr ⟨0, _, ⟨fun hr hc => ?_, _, _, _, _, _, rfl⟩, h⟩)
          simp only [State.ChannelsWf, hr] at hc
          exact ⟨by simp [State.ppuOutstanding, hv], hc.2⟩
        · injection h with h
          exact .inr (.inl h.symm)
  | apu q =>
    unfold awaitStep at h
    dsimp only at h
    split at h
    · rename_i v vs hv
      refine .inr (.inr ⟨v, _, ⟨fun hr hc => ?_, _, _, _, _, _, rfl⟩, h⟩)
      simp only [State.ChannelsWf, hr, State.apuOutstanding, hv, List.length_cons] at hc
      exact ⟨hc.1, by simp only [State.apuOutstanding]; omega⟩
    · rename_i hv
      split at h
      · injection h with h
        exact .inl h.symm
      · split at h
        · refine .inr (.inr ⟨0, _, ⟨fun hr hc => ?_, _, _, _, _, _, rfl⟩, h⟩)
          simp only [State.ChannelsWf, hr] at hc
          exact ⟨hc.1, by simp [State.apuOutstanding, hv]⟩
        · injection h with h
          exact .inr (.inl h.symm)

/-! ## The invariant -/

/-- The invariants of the channels, of the suspended work and of `lockstep` together. -/
def Consistent (s : State) : Prop := s.ChannelsWf ∧ s.WorkWf ∧ s.LockstepWf

/-- In `lockstep` no command is queued. -/
def NoneQueued (s : State) : Prop := s.params.syncMode = .lockstep → s.ppuChan.writes = [] ∧ s.apuChan.writes = []

/-- No request is outstanding, and in `lockstep` no command is queued. -/
def ChannelsIdle (s : State) : Prop := s.ppuOutstanding = 0 ∧ s.apuOutstanding = 0 ∧ NoneQueued s

theorem CpuFrame.channelsIdle {s t : State} (h : CpuFrame s t) (hs : ChannelsIdle s) : ChannelsIdle t := by
  obtain ⟨_, _, _, _, _, _, _, _, _, _, _, _, _, _, _, _, _, _, ⟨-, -, hq⟩, -, -, rfl⟩ := h
  obtain ⟨hp, ha, hn⟩ := hs
  exact ⟨hp, ha, fun hm => ⟨(hq hm).1 (hn hm).1, (hq hm).2 (hn hm).2⟩⟩

theorem consistent_of_running {s : State} (hrun : s.run = .running) (hs : ChannelsIdle s) (hwork : s.work = .none)
    (hfeed : s.feed = []) (hlog : s.log = []) (hpaused : s.paused = none) : Consistent s := by
  obtain ⟨hp, ha, hn⟩ := hs
  simp only [Consistent, State.ChannelsWf, State.WorkWf, State.LockstepWf, hrun]
  exact ⟨⟨hp, ha⟩, ⟨hwork, hfeed, hlog, hpaused⟩, fun hm => ⟨nofun, hn hm⟩⟩

/-- A CPU that has stopped is consistent, whatever it leaves. -/
theorem consistent_of_stopped {s : State} (hrun : (∃ c, s.run = .halted c) ∨ s.run = .exited) (hs : ChannelsIdle s) :
    Consistent s := by
  obtain ⟨hp, ha, hn⟩ := hs
  rcases hrun with ⟨c, hrun⟩ | hrun <;>
    · simp only [Consistent, State.ChannelsWf, State.WorkWf, State.LockstepWf, hrun]
      exact ⟨⟨hp, ha⟩, trivial, fun hm => ⟨nofun, hn hm⟩⟩

/-- A FIFO gets one element more, if its reader is alive. -/
theorem length_queued {α : Type} (alive : Bool) (l : List α) (x : α) :
    (if alive = true then l ++ [x] else l).length ≤ l.length + 1 := by
  split
  · rw [List.length_append, List.length_singleton]
  · exact Nat.le_succ _

/-- Suspending sends one request, which is then the only one. -/
theorem suspend_consistent {q : ReadRequest} {s : State} (hm : s.params.syncMode = .async) (hs : ChannelsIdle s)
    (hwork : s.work ≠ .none) (hlog : s.log = []) (hpaused : ∀ got, s.work = .fetch got → s.paused = none) :
    Consistent (suspend q s) := by
  obtain ⟨hp, ha, -⟩ := hs
  simp only [State.ppuOutstanding, State.apuOutstanding] at hp ha
  have hsync : (suspend q s).params.syncMode ≠ .lockstep := by cases q <;> exact hm ▸ nofun
  refine ⟨?_, ?_, fun h => absurd h hsync⟩
  · cases q with
    | ppu t =>
      have := length_queued s.alivePpu s.ppuChan.reads t
      simp only [suspend, State.ChannelsWf, State.ppuOutstanding, State.apuOutstanding]
      omega
    | apu t =>
      have := length_queued s.aliveApu s.apuChan.reads t
      simp only [suspend, State.ChannelsWf, State.ppuOutstanding, State.apuOutstanding]
      omega
  · cases q <;> exact ⟨hwork, hlog, hpaused⟩

theorem setWork_suspend (q : ReadRequest) (s : State) (w : Work) :
    { suspend q s with work := w } = suspend q { s with work := w } := by
  cases q <;> rfl

theorem ExecutionEnds.consistent {s t : State} (h : ExecutionEnds s t) (hrun : s.run = .running)
    (hs : ChannelsIdle s) : Consistent t := by
  cases h with
  | retired b h => exact consistent_of_running (h.run.trans hrun) (h.channelsIdle hs) rfl rfl rfl rfl
  | waits b f h =>
    obtain ⟨hm, w, q, feed, draws, paused, hw, rfl⟩ := h
    rw [setWork_suspend]
    refine suspend_consistent ?_ (hw.channelsIdle hs) nofun rfl nofun
    exact hw.params ▸ hm

theorem FetchEnds.consistent {s t : State} (h : FetchEnds s t) (hrun : s.run = .running) (hs : ChannelsIdle s)
    (hlog : s.log = []) (hpaused : s.paused = none) : Consistent t := by
  cases h with
  | executed h => exact h.consistent hrun hs
  | halted b h => exact consistent_of_stopped (.inl ⟨_, rfl⟩) (h.channelsIdle hs)
  | waits q got hm h klog =>
    refine suspend_consistent ?_ (h.channelsIdle hs) nofun (klog hlog) fun _ _ => h.paused.trans hpaused
    exact h.params ▸ hm

theorem ClockFrame.consistent {s t : State} (h : ClockFrame s t) (hs : Consistent s) : Consistent t := by
  obtain ⟨_, _, _, _, _, _, _, _, _, _, -, -, rfl⟩ := h
  exact hs

/-- A running CPU in a consistent state has nothing outstanding and nothing kept. -/
theorem Consistent.running {s : State} (hs : Consistent s) (hrun : s.run = .running) :
    ChannelsIdle s ∧ s.work = .none ∧ s.feed = [] ∧ s.log = [] ∧ s.paused = none := by
  obtain ⟨hc, hw, hl⟩ := hs
  simp only [State.ChannelsWf, hrun] at hc
  simp only [State.WorkWf, hrun] at hw
  exact ⟨⟨hc.1, hc.2, fun hm => (hl hm).2⟩, hw⟩

theorem boundary_consistent {s t : State} (h : boundary s = .next t) (hrun : s.run = .running) (hs : Consistent s) :
    Consistent t := by
  obtain ⟨hidle, hwork, hfeed, hlog, hpaused⟩ := hs.running hrun
  rcases boundary_cases h with ⟨p, a, rfl⟩ | ⟨_, _, _, _, _, _, _, _, _, _, rfl⟩ | h
  · exact consistent_of_stopped (.inr rfl) hidle
  · exact hs
  · exact (fetchOn_ends (s := startInstr (recordTrace (pollSignals s))) hrun h).consistent hrun hidle rfl rfl

/-- Going on with a byte, no request being outstanding. -/
theorem resume_consistent {v : Byte} {s t : State} (h : resume v s = .next t) (hs : ChannelsIdle s)
    (hwork : s.work ≠ .none) (hlog : s.log = []) (hpaused : ∀ got, s.work = .fetch got → s.paused = none) :
    Consistent t := by
  unfold resume at h
  dsimp only at h
  split at h
  · exact absurd (by assumption) hwork
  · rename_i got hgot
    exact (fetchOn_ends rfl h).consistent rfl hs hlog (hpaused got hgot)
  · exact (runFetched_ends rfl h).consistent rfl hs

theorem awaitStep_consistent {r : ReadRequest} {s t : State} (h : awaitStep r s = .next t)
    (hrun : s.run = .awaitRead r) (hs : Consistent s) : Consistent t := by
  rcases awaitStep_cases h with rfl | rfl | ⟨v, u, ⟨hnone, _, _, _, _, _, rfl⟩, h⟩
  · exact hs
  · exact hs
  · obtain ⟨hc, hw, hl⟩ := hs
    obtain ⟨hp, ha⟩ := hnone hrun hc
    simp only [State.WorkWf, hrun] at hw
    obtain ⟨hwork, hlog, hpaused⟩ := hw
    exact resume_consistent h ⟨hp, ha, fun hm => (hl hm).2⟩ hwork hlog hpaused

theorem cpuMove_consistent {s t : State} (h : cpuMove s = .next t) (hs : Consistent s) : Consistent t := by
  unfold cpuMove at h
  split at h
  · rename_i hrun
    obtain ⟨u, hu⟩ := boundary_total s
    rw [hu] at h
    injection h with h
    exact h ▸ (followCpu_frame s u).consistent (boundary_consistent hu hrun hs)
  · rename_i r hrun
    split at h
    · injection h with h
      exact h ▸ hs
    · exact awaitStep_consistent h hrun hs
  all_goals
    injection h with h
    exact h ▸ hs

/-- A responder that serves its FIFOs leaves as many requests outstanding as there were. -/
theorem PpuServed.consistent {s t : State} (h : PpuServed s t) (hm : s.params.syncMode = .async) (hs : Consistent s) :
    Consistent t := by
  obtain ⟨_, _, pr, res, _, -, hout, rfl⟩ := h
  obtain ⟨hc, hw, -⟩ := hs
  refine ⟨?_, hw, fun h => absurd (hm.symm.trans h) nofun⟩
  simp only [State.ChannelsWf, State.ppuOutstanding, hout] at hc ⊢
  exact hc

theorem ApuServed.consistent {s t : State} (h : ApuServed s t) (hm : s.params.syncMode = .async) (hs : Consistent s) :
    Consistent t := by
  obtain ⟨_, _, ar, res, _, -, hout, rfl⟩ := h
  obtain ⟨hc, hw, -⟩ := hs
  refine ⟨?_, hw, fun h => absurd (hm.symm.trans h) nofun⟩
  simp only [State.ChannelsWf, State.apuOutstanding, hout] at hc ⊢
  exact hc

theorem act_consistent {m : Move} {s t : State} (h : act m s = .next t) (hs : Consistent s) : Consistent t := by
  cases m with
  | cpu => exact cpuMove_consistent h hs
  | ppu =>
    injection h with h
    subst h
    rcases ppuMove_cases s with h | h | ⟨hm, u, hu, h⟩ <;> rw [h]
    · exact hs
    · exact hs
    · exact (advanceClock_frame u).consistent (hu.consistent hm hs)
  | apu =>
    injection h with h
    subst h
    rcases apuMove_cases s with h | h | ⟨hm, h⟩
    · rw [h]
      exact hs
    · rw [h]
      exact hs
    · exact h.consistent hm hs
  | host a =>
    injection h with h
    obtain ⟨_, _, _, _, -, he⟩ := hostMove_eq a s
    exact h ▸ he ▸ hs

/-- Settles O56: every turn keeps the invariants together. -/
theorem channelsAndWorkStayConsistent : Obligations.ChannelsAndWorkStayConsistent := fun s _ hc hw hl h =>
  act_consistent (s := moveTaken s) (step_act h) ⟨hc, hw, hl⟩

end Sys2Proof.Machine
end

section
/-! PROOF. One turn of each agent (50_channel_protocol.md R264, R265, R268, R269, R273, R276): the ticks of the responders,
the CPU's exit, the race of a responder that has gone, and the host's actions. -/

namespace Sys2Proof.Machine

theorem step_turn {s : State} {m : Move} (hn : nextMove s = m) (hr : allReturned s = false) :
    step s = act m (moveTaken s) := by
  rw [step, if_neg (by simp [hr]), hn]

/-- A waiting CPU has not returned. -/
theorem allReturned_of_awaitRead {s : State} {r : ReadRequest} (hrun : s.run = .awaitRead r) :
    allReturned s = false := by
  simp only [allReturned, hrun]

/-! ## The responders' ticks -/

/-- The PPU after its oldest queued write, if any. -/
def drainedPpu (s : State) : Ppu :=
  match s.ppuChan.writes with
  | [] => s.ppu
  | w :: _ => s.ppu.applyWrite w

theorem ppuDrainOne_eq (s : State) : ppuDrainOne s =
    { s with ppu := drainedPpu s, ppuChan := { s.ppuChan with writes := s.ppuChan.writes.tail } } := by
  cases hw : s.ppuChan.writes with
  | nil =>
    simp only [ppuDrainOne, drainedPpu, hw, List.tail_nil]
    rw [← hw]
  | cons w ws => simp only [ppuDrainOne, drainedPpu, hw, List.tail_cons, applyPpuWrite]

/-- With no request queued, a tick only drains. -/
theorem ppuServe_nil {s : State} (h : s.ppuChan.reads = []) : ppuAnswerOne (ppuDrainOne s) =
    { s with ppu := drainedPpu s, ppuChan := { s.ppuChan with writes := s.ppuChan.writes.tail } } := by
  rw [ppuDrainOne_eq]
  simp only [ppuAnswerOne, h]

/-- The oldest request is answered from the PPU as the oldest write left it. -/
theorem ppuServe_cons {s : State} {r : PpuReg} {rs : List PpuReg} (h : s.ppuChan.reads = r :: rs) :
    ppuAnswerOne (ppuDrainOne s) = { s with
      ppu := ((drainedPpu s).applyRead s.params.ppudataReadBuffered (Config.freeByte s.draws) r).2
      draws := if r.draws then s.draws + 1 else s.draws
      ppuChan := { writes := s.ppuChan.writes.tail, reads := rs, results := s.ppuChan.results ++
        [((drainedPpu s).applyRead s.params.ppudataReadBuffered (Config.freeByte s.draws) r).1] } } := by
  rw [ppuDrainOne_eq]
  simp only [ppuAnswerOne, h, answerPpu]

theorem ppuMove_shutdown {s : State} (ha : s.alivePpu = true) (hs : s.shutdown = true) :
    ppuMove s = { s with alivePpu := false } := by
  simp only [ppuMove, ppuTick, ha, hs, if_true]
  split <;> rfl

theorem ppuMove_async {s : State} (hm : s.params.syncMode = .async) (ha : s.alivePpu = true)
    (hs : s.shutdown = false) : ppuMove s = advanceClock (ppuAnswerOne (ppuDrainOne s)) := by
  simp only [ppuMove, ha, hm, ppuTick, hs, if_true, Bool.false_eq_true, if_false]

/-- Settles O42: the write, then the reply, then the clock. -/
theorem ppuTickDrainsOneWriteAndOneRead : Obligations.PpuTickDrainsOneWriteAndOneRead := by
  intro s drained hn hret ha hm hd
  change drained = drainedPpu s at hd
  subst hd
  have hstep : step s = .next (ppuMove (moveTaken s)) := step_turn hn hret
  refine ⟨fun hs => ?_, fun hs hr => ?_, fun r rs reply answered hs hr hq => ?_⟩
  · rw [hstep, ppuMove_shutdown (s := moveTaken s) ha hs]
  · rw [hstep, ppuMove_async (s := moveTaken s) hm ha hs, ppuServe_nil (s := moveTaken s) hr]
    rfl
  · obtain ⟨rfl, rfl⟩ := Prod.mk.inj hq
    rw [hstep, ppuMove_async (s := moveTaken s) hm ha hs, ppuServe_cons (s := moveTaken s) hr]
    rfl

/-- The APU's latches after its oldest queued write, if any. -/
def drainedLatch (s : State) : Memory :=
  match s.apuChan.writes with
  | [] => s.apuLatch
  | (r, v) :: _ => s.apuLatch.write r.offset v

theorem apuDrainOne_eq (s : State) : apuDrainOne s =
    { s with apuLatch := drainedLatch s, apuChan := { s.apuChan with writes := s.apuChan.writes.tail } } := by
  cases hw : s.apuChan.writes with
  | nil =>
    simp only [apuDrainOne, drainedLatch, hw, List.tail_nil]
    rw [← hw]
  | cons w ws => simp only [apuDrainOne, drainedLatch, hw, List.tail_cons, applyApuWrite]

/-- With no request queued, a tick only drains. -/
theorem apuServe_nil {s : State} (h : s.apuChan.reads = []) : apuAnswerOne (apuDrainOne s) =
    { s with apuLatch := drainedLatch s, apuChan := { s.apuChan with writes := s.apuChan.writes.tail } } := by
  rw [apuDrainOne_eq]
  simp only [apuAnswerOne, h]

/-- The oldest request is answered by a draw. -/
theorem apuServe_cons {s : State} {r : ApuReg} {rs : List ApuReg} (h : s.apuChan.reads = r :: rs) :
    apuAnswerOne (apuDrainOne s) = { s with
      apuLatch := drainedLatch s, draws := s.draws + 1
      apuChan := { writes := s.apuChan.writes.tail, reads := rs
                   results := s.apuChan.results ++ [Config.freeByte s.draws] } } := by
  rw [apuDrainOne_eq]
  simp only [apuAnswerOne, h, answerApu]

theorem apuMove_shutdown {s : State} (ha : s.aliveApu = true) (hs : s.shutdown = true) :
    apuMove s = { s with aliveApu := false } := by
  simp only [apuMove, apuTick, ha, hs, if_true]
  split <;> rfl

theorem apuMove_async {s : State} (hm : s.params.syncMode = .async) (ha : s.aliveApu = true)
    (hs : s.shutdown = false) : apuMove s = apuAnswerOne (apuDrainOne s) := by
  simp only [apuMove, ha, hm, apuTick, hs, if_true, Bool.false_eq_true, if_false]

/-- Settles O43: the write, then the reply. -/
theorem apuTickStoresAndReplies : Obligations.ApuTickStoresAndReplies := by
  intro s latch hn hret ha hm hl
  change latch = drainedLatch s at hl
  subst hl
  have hstep : step s = .next (apuMove (moveTaken s)) := step_turn hn hret
  refine ⟨fun hs => ?_, fun hs hr => ?_, fun r rs hs hr => ?_⟩
  · rw [hstep, apuMove_shutdown (s := moveTaken s) ha hs]
  · rw [hstep, apuMove_async (s := moveTaken s) hm ha hs, apuServe_nil (s := moveTaken s) hr]
    rfl
  · rw [hstep, apuMove_async (s := moveTaken s) hm ha hs, apuServe_cons (s := moveTaken s) hr]
    rfl

/-! ## The CPU's exit -/

/-- Settles O35: the boundary step sees the shutdown first; a PPU that has gone follows no cycles. -/
theorem shutdownExitsAtTheBoundary : Obligations.ShutdownExitsAtTheBoundary := by
  intro s hn hrun hs
  rw [step_boundary hn hrun, boundary_shutdown (s := moveTaken s) hs]
  refine ⟨fun hm => ?_, fun hm => ?_⟩ <;> simp [shutDown, followCpu, hm]

/-! ## The race of a responder that has gone -/

theorem cpuMove_awaiting {s : State} {r : ReadRequest} (hrun : s.run = .awaitRead r) (hstuck : s.stuck = false) :
    cpuMove s = awaitStep r s := by
  simp [cpuMove, hrun, hstuck]

theorem cpuMove_stuck {s : State} {r : ReadRequest} (hrun : s.run = .awaitRead r) (hstuck : s.stuck = true) :
    cpuMove s = .next s := by
  simp only [cpuMove, hrun, hstuck, if_true]

/-- Settles O44: the race of the two channels, and the host's turns. -/
theorem peerGoneIsARace : Obligations.PeerGoneIsARace := by
  refine ⟨fun s r hrun hstuck ha hres => ?_, fun s r hrun hstuck ha hres => ?_, fun s r => cpuMove_stuck,
    fun s r => allReturned_of_awaitRead, fun s hret => ⟨fun b hn => step_turn hn hret, fun hn => step_turn hn hret,
      fun hn => step_turn hn hret, fun level hn => step_turn hn hret⟩⟩
  · rw [cpuMove_awaiting hrun hstuck]
    simp only [awaitStep, hres, ha, Bool.false_eq_true, if_false]
  · rw [cpuMove_awaiting hrun hstuck]
    simp only [awaitStep, hres, ha, Bool.false_eq_true, if_false]

end Sys2Proof.Machine
end

section
/-! PROOF. A read that waits for a channel, and going on with its reply (50_channel_protocol.md R261, R263, R268;
20_memory.md R105); stores to the channels (R262). -/

namespace Sys2Proof.Machine

/-! ## Stores -/

/-- Settles O13: the write of each kind of target, in `async`. -/
theorem storeToChannelResult : Obligations.StoreToChannelResult := fun i s _ v ha hm hv =>
  ⟨fun _ ht => exec_storing_done hv ha (busWrite_ppu (s := afterResolve i.operand s) hm v ht),
    fun _ ht => exec_storing_done hv ha (busWrite_apu (s := afterResolve i.operand s) hm v ht),
    fun ht => exec_storing_done hv ha (busWrite_noTarget (s := afterResolve i.operand s) v ht)⟩

/-! ## An instruction that waits -/

theorem operandRead_request {o : Operand} {s : State} {a : Word} {r : ReadRequest} (ha : resolve o s = .addr a)
    (hr : requestAt a = some r) (hm : s.params.syncMode = .async) (hf : s.feed = []) :
    operandRead o s = .wait r (afterResolve o s) := by
  rw [operandRead, ha]
  exact busRead_request (s := afterResolve o s) hr hm hf

/-- An instruction that reads its operand first waits with that read, and nothing is changed. -/
theorem exec_operandRead_waits {i : Instr} {s t : State} {r : ReadRequest}
    (hi : i.mnemonic ∈ readingMnemonics ++ modifyingMnemonics) (hr : operandRead i.operand s = .wait r t) :
    exec i s = .next (awaiting r { s with feed := t.log, log := [], draws := t.draws }) := by
  rcases List.mem_append.1 hi with hi | hi
  · rw [exec_reading hi, reading, hr, Res.bind_wait, complete_wait]
  · rw [exec_modifying hi, modifying, hr, Res.bind_wait, complete_wait]

/-- The jump through a pointer waits with the read of the pointer's low byte, or, that byte read, of its high byte. -/
theorem exec_jmpInd_waits_low {a : Word} {s t : State} {r : ReadRequest} (h : busRead a s = .wait r t) :
    exec (.jmpInd a) s = .next (awaiting r { s with feed := t.log, log := [], draws := t.draws }) := by
  rw [exec_jmpInd, execJmpInd, jumpIndirect, indirectAddress, h, Res.bind_wait, Res.bind_wait, complete_wait]

theorem exec_jmpInd_waits_high {a : Word} {s t : State} {lo : Byte} {r : ReadRequest} (hlo : busRead a s = .done lo t)
    (hr : requestAt (pointerHigh s.params.jmpIndPageBug a) = some r) (hm : s.params.syncMode = .async)
    (hf : t.feed = []) :
    exec (.jmpInd a) s = .next (awaiting r { s with feed := t.log, log := [], draws := t.draws }) := by
  have hhi : busRead (pointerHigh s.params.jmpIndPageBug a) t = .wait r t :=
    busRead_request hr ((busRead_pc hlo).2.1 ▸ hm) hf
  rw [exec_jmpInd, execJmpInd, jumpIndirect, indirectAddress, hlo, Res.bind_done, hhi, Res.bind_wait, Res.bind_wait,
    complete_wait]

/-! ## A fetch that waits -/

/-- In `async` a read that completes with nothing kept keeps nothing. -/
theorem busRead_feed {a : Word} {s t : State} {v : Byte} (h : busRead a s = .done v t)
    (hm : s.params.syncMode = .async) (hf : s.feed = []) : t.feed = [] := by
  unfold busRead at h
  split at h
  case h_1 | h_2 =>
    cases h
    exact hf
  case h_3 | h_4 =>
    rw [takeExternal_nil hf, sendRead_async hm] at h
    exact nomatch h
  all_goals
    rw [takeExternal_nil hf] at h
    cases h
    exact hf

theorem Fetches.feed {bs : List Byte} {s t : State} (h : Fetches s bs t) (hm : s.params.syncMode = .async)
    (hf : s.feed = []) : t.feed = [] := by
  induction bs generalizing s with
  | nil =>
    obtain rfl : t = s := h
    exact hf
  | cons b bs ih =>
    obtain ⟨u, hu, h⟩ := h
    have hm' : u.params.syncMode = .async := (busRead_pc hu).2.1 ▸ hm
    have hf' : u.feed = [] := busRead_feed hu hm hf
    exact ih h hm' hf'

/-- A fetch waits for the byte after those it can read, where that byte stands behind a channel. -/
theorem fetchOn_waits {n : Nat} {got bs : List Byte} {s u : State} {r : ReadRequest} (hb : Fetches s bs u)
    (hd : ∀ k, k ≤ bs.length → decode s.params.opcodes (got ++ bs.take k) = .needMore) (hn : bs.length < n)
    (hm : s.params.syncMode = .async) (hf : s.feed = []) (hr : requestAt u.pc = some r) :
    fetchOn n got s = .next (awaiting r { u with work := .fetch (got ++ bs) }) := by
  obtain ⟨m, rfl⟩ : ∃ m, n = m + 1 + bs.length := ⟨n - 1 - bs.length, by omega⟩
  have hp : u.params = s.params := hb.pc.2.1
  have hall : decode u.params.opcodes (got ++ bs) = .needMore := by
    rw [hp, ← hd bs.length le_rfl, List.take_length]
  rw [fetchOn_bytes hb fun k hk => hd k hk.le, fetchOn_wait hall (busRead_request hr (hp ▸ hm) (hb.feed hm hf)),
    suspend_eq_awaiting]

theorem followCpu_async {s : State} (hm : s.params.syncMode = .async) (t : State) : followCpu s t = t := by
  rw [followCpu, hm]

theorem step_fetch_waits {s u : State} {got : List Byte} {r : ReadRequest} (hready : s.ReadyToExecute)
    (hm : s.params.syncMode = .async) (hb : Fetches (started s) got u)
    (hd : ∀ k, k ≤ got.length → decode s.params.opcodes (got.take k) = .needMore) (hr : requestAt u.pc = some r) :
    step s = .next (awaiting r { u with work := .fetch got }) := by
  have hlen : got.length < 3 := length_of_needMore (t := s.params.opcodes) (by
    rw [← hd got.length le_rfl, List.take_length])
  have hf : fetchOn 3 [] (started s) = .next (awaiting r { u with work := .fetch got }) :=
    fetchOn_waits hb hd hlen hm rfl hr
  rw [step_ready hready, hf]
  exact congrArg Host.Outcome.next (followCpu_async hm _)

/-- Settles O10: the read makes its request and nothing before it has changed the state. -/
theorem channelReadSuspendsTheCpu : Obligations.ChannelReadSuspendsTheCpu := by
  refine ⟨fun i s a r hi ha hr hm hf hl => ?_, fun s a b r hm hl hb => ?_,
    fun s u got r hready hm hb hd hr => step_fetch_waits hready hm hb hd hr⟩
  · rw [exec_operandRead_waits hi (operandRead_request ha hr hm hf)]
    exact congrArg (fun t => Host.Outcome.next (awaiting r t)) (nothing_kept hf hl)
  · change b = pointerHigh s.params.jmpIndPageBug a at hb
    subst hb
    refine ⟨fun hr hf => ?_, fun lo hlo hr hf => ?_, fun lo hlo hr hf => ?_,
      fun lo t hlo hr hf => exec_jmpInd_waits_high hlo hr hm hf⟩
    · rw [exec_jmpInd_waits_low (busRead_request hr hm hf), nothing_kept hf hl]
    · rw [exec_jmpInd_waits_high (busRead_memoryByte hlo) hr hm hf, nothing_kept hf hl]
    · rw [exec_jmpInd_waits_high (busRead_kept_of_memoryByte hlo hf) hr hm rfl]
      cases s
      cases hf
      cases hl
      rfl

/-! ## Going on with the reply -/

/-- A waiting CPU's turn, with a reply present, goes on with the oldest one. -/
theorem step_reply {s : State} {r : ReadRequest} {v : Byte} {vs : List Byte} (hn : nextMove s = .cpu)
    (hrun : s.run = .awaitRead r) (hstuck : s.stuck = false) (hv : resultsFor r s = v :: vs) :
    step s = resume v (withResults r vs (moveTaken s)) := by
  rw [step_turn hn (allReturned_of_awaitRead hrun), act, cpuMove_awaiting (s := moveTaken s) hrun hstuck]
  cases r with
  | ppu t => simp only [awaitStep, moveTaken_ppuChan, show s.ppuChan.results = v :: vs from hv, withResults]
  | apu t => simp only [awaitStep, moveTaken_apuChan, show s.apuChan.results = v :: vs from hv, withResults]

theorem resume_execute {v b : Byte} {f : Fetched} {s : State} (h : s.work = .execute b f) :
    resume v s = runFetched b f { s with run := .running, work := .none, feed := s.feed ++ [v] } := by
  simp only [resume, h]

theorem resume_fetch {v : Byte} {got : List Byte} {s : State} (h : s.work = .fetch got) :
    resume v s =
      fetchOn (2 - got.length) (got ++ [v]) { s with run := .running, work := .none, pc := s.pc + 1 } := by
  simp only [resume, h]

theorem withResults_work (r : ReadRequest) (vs : List Byte) (s : State) : (withResults r vs s).work = s.work := by
  cases r <;> rfl

theorem step_resumes_execution {s : State} {r : ReadRequest} {v b : Byte} {vs : List Byte} {f : Fetched}
    (hn : nextMove s = .cpu) (hrun : s.run = .awaitRead r) (hstuck : s.stuck = false) (hv : resultsFor r s = v :: vs)
    (hw : s.work = .execute b f) :
    step s = runFetched b f (withResults r vs { moveTaken s with
      run := .running, work := .none, feed := s.feed ++ [v] }) := by
  rw [step_reply hn hrun hstuck hv, resume_execute (by rw [withResults_work]; exact hw)]
  cases r <;> rfl

theorem step_resumes_fetch {s : State} {r : ReadRequest} {v : Byte} {vs got : List Byte} (hn : nextMove s = .cpu)
    (hrun : s.run = .awaitRead r) (hstuck : s.stuck = false) (hv : resultsFor r s = v :: vs)
    (hw : s.work = .fetch got) :
    step s = fetchOn (2 - got.length) (got ++ [v]) (withResults r vs { moveTaken s with
      run := .running, work := .none, pc := s.pc + 1 }) := by
  rw [step_reply hn hrun hstuck hv, resume_fetch (by rw [withResults_work]; exact hw)]
  cases r <;> rfl

/-- With the reply as its next byte, a fetch reads on and runs what the bytes decode to. -/
theorem fetchOn_reply_runs {w u : State} {v b : Byte} {got more args : List Byte} {f : Fetched}
    (hb : Fetches w more u) (hbytes : got ++ v :: more = b :: args)
    (hd : decode w.params.opcodes (b :: args) = f.decoded []) :
    fetchOn (2 - got.length) (got ++ [v]) w = runFetched b f u := by
  have hlen := length_of_decoded hd
  rw [← hbytes, List.length_append, List.length_cons] at hlen
  exact fetchOn_complete hb (by rw [List.append_assoc, List.singleton_append, hbytes]) hd (by omega)

/-- With the reply as its next byte, a fetch reads on until a byte behind a channel. -/
theorem fetchOn_reply_waits {w u : State} {v b : Byte} {got more args : List Byte} {q : ReadRequest}
    (hb : Fetches w more u) (hbytes : got ++ v :: more = b :: args)
    (hd : ∀ k, k ≤ args.length → decode w.params.opcodes (b :: args.take k) = .needMore)
    (hm : w.params.syncMode = .async) (hf : w.feed = []) (hq : requestAt u.pc = some q) :
    fetchOn (2 - got.length) (got ++ [v]) w = .next (awaiting q { u with work := .fetch (b :: args) }) := by
  have hgot : (got ++ [v]) ++ more = b :: args := by rw [List.append_assoc, List.singleton_append, hbytes]
  have hlen : got.length + more.length = args.length := by
    have := congrArg List.length hbytes
    simp only [List.length_append, List.length_cons] at this
    omega
  have hshort : (b :: args).length < 3 := length_of_needMore (t := w.params.opcodes) (by
    rw [← hd args.length le_rfl, List.take_length])
  have htake (k : Nat) : (got ++ [v]) ++ more.take k = b :: args.take (got.length + k) := by
    rw [← List.take_succ_cons, ← hgot, ← List.take_length_add_append, List.length_append, List.length_singleton,
      Nat.add_right_comm]
  rw [List.length_cons] at hshort
  rw [fetchOn_waits hb (fun k hk => ?_) (by omega) hm hf hq, hgot]
  rw [htake]
  exact hd _ (by omega)

/-- Settles O11: the head of the FIFO is taken, and what was suspended goes on with it. -/
theorem replyResumesTheInstruction : Obligations.ReplyResumesTheInstruction := by
  refine ⟨fun s r v vs opcode i hn hrun hstuck hv hw => step_resumes_execution hn hrun hstuck hv hw,
    fun i j s a v rest hi ha hmem hf hj => ?_,
    fun s w u r v b vs got more args hn hrun hstuck hv hlog hw hbytes hweq hb => ?_⟩
  · refine (everyReadingFormActsOnTheByteRead.1 i s _ v hi ?_).1 j hj
    rw [operandRead, ha, load, busRead_kept_of_memoryByte (s := afterResolve i.operand s) hmem hf]
    rfl
  · have hstep := step_resumes_fetch hn hrun hstuck hv hw
    rw [← hweq] at hstep
    obtain ⟨hparams, hfeed, hpc, hwork⟩ :
        w.params = s.params ∧ w.feed = s.feed ∧ w.pc = s.pc + 1 ∧ w.work = .none := by
      subst hweq
      cases r <;> exact ⟨rfl, rfl, rfl, rfl⟩
    rw [← hparams, ← hfeed]
    refine ⟨fun i hd => ?_, fun h o hd => ?_, fun q hd hm hf hq => ?_, fun hgot hd => ?_⟩
    · exact hstep.trans (fetchOn_reply_runs (f := .instr i) hb hbytes hd)
    · exact hstep.trans (fetchOn_reply_runs (f := .form h o) hb hbytes hd)
    · exact hstep.trans (fetchOn_reply_waits hb hbytes hd hm hf hq)
    · subst hgot
      rw [hstep, List.nil_append, fetchOn_unknown hd, haltUnknown, hpc, BitVec.add_sub_cancel, ← hwork]

end Sys2Proof.Machine
end

section
/-! PROOF. Fairness of every run (50_channel_protocol.md R261, R267; 70_reset_and_hazards.md R392): no turn changes which
turns are to come, each agent is due again and again, and so a request comes to its responder's turn. -/

namespace Sys2Proof.Machine

/-! ## No turn changes the turns to come -/

/-- The same turns scripted, and as many free ones taken. -/
def SameSchedule (s t : State) : Prop := t.script = s.script ∧ t.moves = s.moves

theorem SameSchedule.refl (s : State) : SameSchedule s s := ⟨rfl, rfl⟩

theorem SameSchedule.trans {s t u : State} (h : SameSchedule s t) (k : SameSchedule t u) : SameSchedule s u :=
  ⟨k.1.trans h.1, k.2.trans h.2⟩

theorem CpuFrame.sameSchedule {s t : State} (h : CpuFrame s t) : SameSchedule s t := by
  obtain ⟨_, _, _, _, _, _, _, _, _, _, _, _, _, _, _, _, _, _, -, -, -, rfl⟩ := h
  exact .refl _

theorem ClockFrame.sameSchedule {s t : State} (h : ClockFrame s t) : SameSchedule s t := by
  obtain ⟨_, _, _, _, _, _, _, _, _, _, -, -, rfl⟩ := h
  exact .refl _

theorem suspend_sameSchedule (q : ReadRequest) (s : State) : SameSchedule s (suspend q s) := by
  cases q <;> exact .refl _

theorem SuspendedAfter.sameSchedule {s t : State} (h : SuspendedAfter s t) : SameSchedule s t := by
  obtain ⟨-, _, q, _, _, _, hu, rfl⟩ := h
  exact hu.sameSchedule.trans (suspend_sameSchedule q _)

theorem ExecutionEnds.sameSchedule {s t : State} (h : ExecutionEnds s t) : SameSchedule s t := by
  cases h with
  | retired b h => exact h.sameSchedule
  | waits b f h => exact h.sameSchedule

theorem FetchEnds.sameSchedule {s t : State} (h : FetchEnds s t) : SameSchedule s t := by
  cases h with
  | executed h => exact h.sameSchedule
  | halted b h => exact h.sameSchedule
  | waits q got hm h hlog => exact h.sameSchedule.trans (suspend_sameSchedule q _)

theorem boundary_sameSchedule {s t : State} (hrun : s.run = .running) (h : boundary s = .next t) :
    SameSchedule s t := by
  rcases boundary_cases h with ⟨_, _, rfl⟩ | ⟨_, _, _, _, _, _, _, _, _, _, rfl⟩ | h
  · exact .refl _
  · exact .refl _
  · exact (fetchOn_ends (s := startInstr (recordTrace (pollSignals s))) hrun h).sameSchedule

theorem resume_sameSchedule {v : Byte} {s t : State} (h : resume v s = .next t) : SameSchedule s t := by
  unfold resume at h
  dsimp only at h
  split at h
  · injection h with h
    exact h ▸ .refl _
  · exact (fetchOn_ends rfl h).sameSchedule
  · exact (runFetched_ends rfl h).sameSchedule

theorem awaitStep_sameSchedule {r : ReadRequest} {s t : State} (h : awaitStep r s = .next t) : SameSchedule s t := by
  rcases awaitStep_cases h with rfl | rfl | ⟨v, u, ⟨-, _, _, _, _, _, rfl⟩, h⟩
  · exact .refl _
  · exact .refl _
  · have hgoesOn := resume_sameSchedule h
    exact hgoesOn

theorem cpuMove_sameSchedule {s t : State} (h : cpuMove s = .next t) : SameSchedule s t := by
  unfold cpuMove at h
  split at h
  · rename_i hrun
    obtain ⟨u, hu⟩ := boundary_total s
    rw [hu] at h
    injection h with h
    exact h ▸ (boundary_sameSchedule hrun hu).trans (followCpu_frame s u).sameSchedule
  · split at h
    · injection h with h
      exact h ▸ .refl _
    · exact awaitStep_sameSchedule h
  all_goals
    injection h with h
    exact h ▸ .refl _

theorem ppuMove_sameSchedule (s : State) : SameSchedule s (ppuMove s) := by
  rcases ppuMove_cases s with h | h | ⟨-, u, ⟨_, _, _, _, _, -, -, rfl⟩, h⟩ <;> rw [h]
  · exact .refl _
  · exact .refl _
  · exact (advanceClock_frame _).sameSchedule

theorem apuMove_sameSchedule (s : State) : SameSchedule s (apuMove s) := by
  rcases apuMove_cases s with h | h | ⟨-, _, _, _, _, _, -, -, h⟩ <;> rw [h] <;> exact .refl _

theorem act_sameSchedule {m : Move} {s t : State} (h : act m s = .next t) : SameSchedule s t := by
  cases m with
  | cpu => exact cpuMove_sameSchedule h
  | ppu =>
    injection h with h
    exact h ▸ ppuMove_sameSchedule s
  | apu =>
    injection h with h
    exact h ▸ apuMove_sameSchedule s
  | host a =>
    injection h with h
    obtain ⟨_, _, _, _, -, he⟩ := hostMove_eq a s
    exact h ▸ he ▸ .refl _

/-- A step takes the first of the turns to come, and leaves the others. -/
theorem step_schedule {s t : State} (h : step s = .next t) :
    t.script = (upcoming s).tail ∧ t.moves = (moveTaken s).moves :=
  act_sameSchedule (step_act h)

/-! ## Each agent is due again and again -/

theorem upcoming_of_script_ne {s : State} (h : s.script ≠ []) : upcoming s = s.script := by
  unfold upcoming
  split <;> simp_all

theorem upcoming_of_script_nil {s : State} (h : s.script = []) :
    upcoming s = Config.burst s.moves ++ [dueMove s.moves] := by
  simp only [upcoming, h]

/-- In every four due turns each agent has one. -/
theorem exists_due (g : Agent) (n : Nat) : ∃ j, (dueMove (n + j)).agent = g := by
  have hmod : ∀ c < 4, ∃ j, (n + j) % 4 = c := fun c hc => ⟨c + 4 - n % 4, by omega⟩
  cases g with
  | cpu =>
    obtain ⟨j, hj⟩ := hmod 0 (by decide)
    exact ⟨j, by rw [dueMove, hj]; rfl⟩
  | ppu =>
    obtain ⟨j, hj⟩ := hmod 1 (by decide)
    exact ⟨j, by rw [dueMove, hj]; rfl⟩
  | apu =>
    obtain ⟨j, hj⟩ := hmod 2 (by decide)
    exact ⟨j, by rw [dueMove, hj]; rfl⟩
  | host =>
    obtain ⟨j, hj⟩ := hmod 3 (by decide)
    exact ⟨j, by rw [dueMove, hj]; rfl⟩

section Going
variable {r : Nat → State} {n : Nat} (hgoes : ∀ k, n ≤ k → step (r k) = .next (r (k + 1)))
include hgoes

/-- The turns to come all come, and then none is scripted. -/
theorem upcoming_pass {ms : List Move} {k : Nat} (hk : n ≤ k) (hms : upcoming (r k) = ms) :
    (∀ m ∈ ms, ∃ l, n ≤ l ∧ nextMove (r l) = m) ∧
      ∃ l, n ≤ l ∧ (r l).script = [] ∧ (r l).moves = (moveTaken (r k)).moves := by
  induction ms generalizing k with
  | nil =>
    unfold upcoming at hms
    split at hms
    · exact nomatch hms
    · exact absurd hms (List.append_ne_nil_of_right_ne_nil _ (List.cons_ne_nil _ _))
  | cons m ms ih =>
    obtain ⟨hscript, hmoves⟩ := step_schedule (hgoes k hk)
    rw [hms, List.tail_cons] at hscript
    have hfirst : nextMove (r k) = m := by rw [nextMove, hms, List.headD_cons]
    by_cases hnil : ms = []
    · subst hnil
      exact ⟨fun m' hm' => ⟨k, hk, hfirst.trans (List.mem_singleton.1 hm').symm⟩, k + 1, Nat.le_succ_of_le hk,
        hscript, hmoves⟩
    · have hne : (r (k + 1)).script ≠ [] := hscript ▸ hnil
      obtain ⟨hcome, l, hl, hls, hlm⟩ := ih (Nat.le_succ_of_le hk) ((upcoming_of_script_ne hne).trans hscript)
      have hsame : (moveTaken (r (k + 1))).moves = (r (k + 1)).moves := if_neg hne
      refine ⟨fun m' hm' => ?_, l, hl, hls, by rw [hlm, hsame, hmoves]⟩
      rcases List.mem_cons.1 hm' with rfl | hm'
      · exact ⟨k, hk, hfirst⟩
      · exact hcome m' hm'

/-- Every later due turn comes. -/
theorem due_comes {k : Nat} (hk : n ≤ k) (hs : (r k).script = []) (j : Nat) :
    ∃ l, n ≤ l ∧ nextMove (r l) = dueMove ((r k).moves + j) := by
  induction j generalizing k with
  | zero =>
    refine (upcoming_pass hgoes hk rfl).1 _ ?_
    rw [upcoming_of_script_nil hs]
    exact List.mem_append_right _ (List.mem_singleton_self _)
  | succ j ih =>
    obtain ⟨l, hl, hls, hlm⟩ := (upcoming_pass hgoes hk rfl).2
    have hsucc : (r l).moves = (r k).moves + 1 := hlm.trans (if_pos hs)
    have := ih hl hls
    rwa [hsucc, Nat.add_assoc, Nat.add_comm 1 j] at this

/-- Every agent's turn comes. -/
theorem turn_comes (g : Agent) : ∃ l, n ≤ l ∧ (nextMove (r l)).agent = g := by
  obtain ⟨k, hk, hs, -⟩ := (upcoming_pass hgoes le_rfl rfl).2
  obtain ⟨j, hj⟩ := exists_due g (r k).moves
  obtain ⟨l, hl, hdue⟩ := due_comes hgoes hk hs j
  exact ⟨l, hl, hdue ▸ hj⟩

end Going

/-! ## Runs -/

theorem IsRun.goes {r : Nat → State} (hr : IsRun r) {n : Nat} (h : ∀ k, n ≤ k → allReturned (r k) = false) (k : Nat)
    (hk : n ≤ k) : step (r k) = .next (r (k + 1)) :=
  (hr k).resolve_right fun hret => Bool.false_ne_true ((h k hk).symm.trans hret.1)

/-- An agent that is enabled has not returned. -/
theorem not_allReturned_of_enabled {s : State} {g : Agent} (h : s.enabled g = true) : allReturned s = false := by
  cases g with
  | cpu => cases hrun : s.run <;> simp_all [State.enabled, allReturned]
  | ppu => cases hrun : s.run <;> simp_all [State.enabled, allReturned]
  | apu => cases hrun : s.run <;> simp_all [State.enabled, allReturned]
  | host => simpa [State.enabled] using h

theorem IsRun.weaklyFair {r : Nat → State} (hr : IsRun r) : WeaklyFair r := fun g _ henabled =>
  turn_comes (hr.goes fun k hk => not_allReturned_of_enabled (henabled k hk)) g

theorem eq_ppu_of_agent {m : Move} (h : m.agent = .ppu) : m = .ppu := by
  cases m <;> first | rfl | exact nomatch h

theorem eq_apu_of_agent {m : Move} (h : m.agent = .apu) : m = .apu := by
  cases m <;> first | rfl | exact nomatch h

/-- What only the turn of `m` ends lasts up to that turn, which comes. -/
theorem IsRun.lasts_until_turn {r : Nat → State} (hr : IsRun r) {P : State → Prop} {m : Move} {n : Nat} (hn : P (r n))
    (hgoing : ∀ s, P s → allReturned s = false) (honly : ∀ m', Move.agent m' = m.agent → m' = m)
    (hkeep : ∀ s t, P s → nextMove s ≠ m → step s = .next t → P t) :
    ∃ k, n ≤ k ∧ (∀ j, n ≤ j → j ≤ k → P (r j)) ∧ nextMove (r k) = m ∧
      act m (moveTaken (r k)) = .next (r (k + 1)) := by
  have hstep : ∀ k, P (r k) → step (r k) = .next (r (k + 1)) := fun k hk =>
    (hr k).resolve_right fun hret => Bool.false_ne_true ((hgoing _ hk).symm.trans hret.1)
  have hlast : ∀ k, n ≤ k → (∀ j, n ≤ j → j < k → nextMove (r j) ≠ m) → P (r k) := by
    intro k hk
    induction k, hk using Nat.le_induction with
    | base => exact fun _ => hn
    | succ k hk ih =>
      intro hbefore
      have hP := ih fun j hj hlt => hbefore j hj (Nat.lt_succ_of_lt hlt)
      exact hkeep _ _ hP (hbefore k hk (Nat.lt_succ_self k)) (hstep k hP)
  have hcomes : ∃ k, n ≤ k ∧ nextMove (r k) = m := by
    by_contra hnever
    have hP : ∀ k, n ≤ k → P (r k) := fun k hk => hlast k hk fun j hj _ hm => hnever ⟨j, hj, hm⟩
    obtain ⟨l, hl, hg⟩ := turn_comes (fun k hk => hstep k (hP k hk)) m.agent
    exact hnever ⟨l, hl, honly _ hg⟩
  obtain ⟨hk, hm⟩ := Nat.find_spec hcomes
  have hP : ∀ j, n ≤ j → j ≤ Nat.find hcomes → P (r j) := fun j hj hle =>
    hlast j hj fun i hi hlt him => Nat.find_min hcomes (Nat.lt_of_lt_of_le hlt hle) ⟨hi, him⟩
  have hact := step_act (hstep _ (hP _ hk le_rfl))
  rw [hm] at hact
  exact ⟨_, hk, hP, hm, hact⟩

/-! ## A request comes to its responder's turn -/

/-- The CPU awaits the live PPU, in `async`, its request queued and not answered. -/
def AsksPpu (t : PpuReg) (s : State) : Prop :=
  s.params.syncMode = .async ∧ s.run = .awaitRead (.ppu t) ∧ s.ppuChan.reads = [t] ∧ s.ppuChan.results = [] ∧
    s.alivePpu = true

/-- The CPU awaits the live APU, in `async`, its request queued and not answered. -/
def AsksApu (t : ApuReg) (s : State) : Prop :=
  s.params.syncMode = .async ∧ s.run = .awaitRead (.apu t) ∧ s.apuChan.reads = [t] ∧ s.apuChan.results = [] ∧
    s.aliveApu = true

/-- The CPU's turn changes nothing while its request is not answered and the responder is alive. -/
theorem AsksPpu.cpuMove {t : PpuReg} {s : State} (h : AsksPpu t s) : cpuMove s = .next s := by
  obtain ⟨-, hrun, -, hres, ha⟩ := h
  simp [Machine.cpuMove, hrun, awaitStep, hres, ha]

theorem AsksApu.cpuMove {t : ApuReg} {s : State} (h : AsksApu t s) : cpuMove s = .next s := by
  obtain ⟨-, hrun, -, hres, ha⟩ := h
  simp [Machine.cpuMove, hrun, awaitStep, hres, ha]

theorem AsksPpu.act {t : PpuReg} {m : Move} {s u : State} (hs : AsksPpu t s) (hm : m ≠ .ppu)
    (h : act m s = .next u) : AsksPpu t u := by
  cases m with
  | cpu =>
    have h : Machine.cpuMove s = .next u := h
    rw [hs.cpuMove] at h
    injection h with h
    exact h ▸ hs
  | ppu => exact absurd rfl hm
  | apu =>
    injection h with h
    subst h
    rcases apuMove_cases s with h | h | ⟨-, _, _, _, _, _, -, -, h⟩ <;> rw [h] <;> exact hs
  | host a =>
    injection h with h
    obtain ⟨_, _, _, _, -, he⟩ := hostMove_eq a s
    exact h ▸ he ▸ hs

theorem AsksApu.act {t : ApuReg} {m : Move} {s u : State} (hs : AsksApu t s) (hm : m ≠ .apu)
    (h : act m s = .next u) : AsksApu t u := by
  cases m with
  | cpu =>
    have h : Machine.cpuMove s = .next u := h
    rw [hs.cpuMove] at h
    injection h with h
    exact h ▸ hs
  | ppu =>
    injection h with h
    subst h
    rcases ppuMove_cases s with h | h | ⟨-, v, ⟨_, _, _, _, _, -, -, rfl⟩, h⟩ <;> rw [h]
    · exact hs
    · exact hs
    · obtain ⟨_, _, _, _, _, _, _, _, _, _, -, -, he⟩ := advanceClock_frame _
      exact he ▸ hs
  | apu => exact absurd rfl hm
  | host a =>
    injection h with h
    obtain ⟨_, _, _, _, -, he⟩ := hostMove_eq a s
    exact h ▸ he ▸ hs

/-- The PPU's turn answers the request once, or ends its loop. -/
theorem AsksPpu.ppuMove {t : PpuReg} {s : State} (h : AsksPpu t s) :
    (s.shutdown = false → (ppuMove s).ppuChan.reads = [] ∧ ∃ v, (ppuMove s).ppuChan.results = [v]) ∧
      (s.shutdown = true → (ppuMove s).alivePpu = false) := by
  obtain ⟨hm, -, hreads, hres, ha⟩ := h
  refine ⟨fun hs => ?_, fun hs => ?_⟩
  · rw [ppuMove_async hm ha hs, ppuServe_cons hreads]
    obtain ⟨_, _, _, _, _, _, _, _, _, _, -, -, he⟩ := advanceClock_frame _
    rw [he]
    exact ⟨rfl, _, by rw [hres, List.nil_append]⟩
  · rw [ppuMove_shutdown ha hs]

theorem AsksApu.apuMove {t : ApuReg} {s : State} (h : AsksApu t s) :
    (s.shutdown = false → (apuMove s).apuChan.reads = [] ∧ ∃ v, (apuMove s).apuChan.results = [v]) ∧
      (s.shutdown = true → (apuMove s).aliveApu = false) := by
  obtain ⟨hm, -, hreads, hres, ha⟩ := h
  refine ⟨fun hs => ?_, fun hs => ?_⟩
  · rw [apuMove_async hm ha hs, apuServe_cons hreads]
    exact ⟨rfl, _, by rw [hres, List.nil_append]⟩
  · rw [apuMove_shutdown ha hs]

/-- Settles O45: fairness, and what lasts until the responder's turn. -/
theorem everyRequestIsAnsweredOnce : Obligations.EveryRequestIsAnsweredOnce := by
  refine ⟨fun r => IsRun.weaklyFair, fun r n t hr hm hrun hreads hres ha => ?_,
    fun r n t hr hm hrun hreads hres ha => ?_⟩
  · obtain ⟨k, hk, hasks, hturn, hact⟩ := hr.lasts_until_turn (P := AsksPpu t) ⟨hm, hrun, hreads, hres, ha⟩
      (fun _ hs => allReturned_of_awaitRead hs.2.1) (fun _ => eq_ppu_of_agent)
      fun s u hs hne h => AsksPpu.act (s := moveTaken s) hs hne (step_act h)
    have hanswer := AsksPpu.ppuMove (s := moveTaken (r k)) (hasks k hk le_rfl)
    rw [show ppuMove (moveTaken (r k)) = r (k + 1) from Host.Outcome.next.inj hact] at hanswer
    refine ⟨k, hk, fun j hj hle => ?_, hturn, hanswer⟩
    obtain ⟨-, -, hreads, hres, -⟩ := hasks j hj hle
    exact ⟨hreads, hres⟩
  · obtain ⟨k, hk, hasks, hturn, hact⟩ := hr.lasts_until_turn (P := AsksApu t) ⟨hm, hrun, hreads, hres, ha⟩
      (fun _ hs => allReturned_of_awaitRead hs.2.1) (fun _ => eq_apu_of_agent)
      fun s u hs hne h => AsksApu.act (s := moveTaken s) hs hne (step_act h)
    have hanswer := AsksApu.apuMove (s := moveTaken (r k)) (hasks k hk le_rfl)
    rw [show apuMove (moveTaken (r k)) = r (k + 1) from Host.Outcome.next.inj hact] at hanswer
    refine ⟨k, hk, fun j hj hle => ?_, hturn, hanswer⟩
    obtain ⟨-, -, hreads, hres, -⟩ := hasks j hj hle
    exact ⟨hreads, hres⟩

end Sys2Proof.Machine
end

section
/-! PROOF. `lockstep` (50_channel_protocol.md R272; 20_memory.md R74 to R77, R104): instructions complete, the responders
act within them, and the PPU's clock follows the CPU's cycles. -/

namespace Sys2Proof.Machine

/-- In `lockstep` an instruction completes, and no request or reply is left. -/
theorem exec_lockstep {s : State} (hm : s.params.syncMode = .lockstep) (i : Instr) :
    ∃ t, exec i s = .next t ∧ t.run = s.run ∧ t.ppuChan.reads = s.ppuChan.reads ∧
      t.apuChan.reads = s.apuChan.reads ∧ t.ppuChan.results = s.ppuChan.results ∧
      t.apuChan.results = s.apuChan.results := by
  obtain ⟨t, ht⟩ := exec_total i s
  refine ⟨t, ht, ?_⟩
  rcases exec_frame ht with h | ⟨ha, -⟩
  · obtain ⟨_, _, _, _, _, _, _, _, _, _, _, _, _, _, _, _, _, _, -, -, -, rfl⟩ := h
    exact ⟨rfl, rfl, rfl, rfl, rfl⟩
  · exact absurd (hm.symm.trans ha) nofun

/-! ## Commands and requests with nothing queued -/

theorem lockstepReply_frame {a : Word} {s t : State} {v : Byte} (h : lockstepReply a s = some (v, t)) :
    ∃ ppu draws, t = { s with ppu := ppu, draws := draws } := by
  unfold lockstepReply at h
  split at h
  · split at h <;> cases h <;> exact ⟨_, _, rfl⟩
  · split at h <;> cases h <;> exact ⟨_, _, rfl⟩
  · cases h
    exact ⟨_, _, rfl⟩
  · cases h
    exact ⟨_, _, rfl⟩
  · exact nomatch h
  · exact nomatch h

/-- The resolver comes before the reply, and neither touches what the other does. -/
theorem lockstepReply_afterResolve (o : Operand) (a : Word) (s : State) : lockstepReply a (afterResolve o s) =
    (lockstepReply a s).map fun q => (q.1, { q.2 with pageCrossed := crossing o s }) := by
  unfold lockstepReply afterResolve
  cases readTarget a with
  | ppu t =>
    dsimp only
    split <;> rfl
  | apu t =>
    dsimp only
    split <;> rfl
  | ram i | cartridge | oamDma | noTarget => rfl

theorem lockstepReply_resolved {a : Word} {s t : State} {v : Byte} (o : Operand)
    (h : lockstepReply a s = some (v, t)) :
    lockstepReply a (afterResolve o s) = some (v, { t with pageCrossed := crossing o s }) := by
  rw [lockstepReply_afterResolve, h, Option.map_some]

section NothingQueued
variable {s : State} (hm : s.params.syncMode = .lockstep) (hp : s.ppuChan.writes = []) (ha : s.apuChan.writes = [])

include hm hp in
theorem busWrite_lockstep_ppu {a : Word} {t : PpuReg} (v : Byte) (h : writeTarget a = .ppu t) :
    busWrite a v s = .done () { s with ppu := if s.alivePpu then s.ppu.applyWrite (.reg t v) else s.ppu } := by
  simp only [busWrite, h, sendPpu_lockstep hm hp]

include hm ha in
theorem busWrite_lockstep_apu {a : Word} {t : ApuReg} (v : Byte) (h : writeTarget a = .apu t) :
    busWrite a v s = .done ()
      { s with apuLatch := if s.aliveApu then s.apuLatch.write t.offset v else s.apuLatch } := by
  simp only [busWrite, h, sendApu_lockstep hm ha]

include hm hp ha in
/-- A read outside RAM and cartridge is answered at once. -/
theorem busRead_lockstep {a : Word} {v : Byte} {t : State} (hf : s.feed = []) (h : lockstepReply a s = some (v, t)) :
    busRead a s = .done v { t with log := s.log ++ [v] } := by
  unfold lockstepReply at h
  unfold busRead
  cases hr : readTarget a with
  | ram i | cartridge =>
    rw [hr] at h
    exact nomatch h
  | oamDma | noTarget =>
    rw [hr] at h
    cases h
    exact takeExternal_nil hf
  | ppu q =>
    rw [hr] at h
    dsimp only at h ⊢
    rw [takeExternal_nil hf, sendRead_lockstep_ppu hm hp]
    split at h <;> cases h
    · rw [if_pos (by assumption)]
      rfl
    · rw [if_neg (by assumption)]
      rfl
  | apu q =>
    rw [hr] at h
    dsimp only at h ⊢
    rw [takeExternal_nil hf, sendRead_lockstep_apu hm ha]
    split at h <;> cases h
    · rw [if_pos (by assumption)]
      rfl
    · rw [if_neg (by assumption)]
      rfl

end NothingQueued

/-! ## The PPU's clock -/

theorem advanceClocks_succ (n : Nat) (s : State) : advanceClocks (n + 1) s = advanceClock (advanceClocks n s) := by
  induction n generalizing s with
  | zero => rfl
  | succ n ih => exact ih (advanceClock s)

theorem advanceClocks_eq_repeat (n : Nat) (s : State) : advanceClocks n s = Nat.repeat advanceClock n s := by
  induction n with
  | zero => rfl
  | succ n ih => rw [advanceClocks_succ, ih]; rfl

theorem followCpu_lockstep {s t : State} (hm : s.params.syncMode = .lockstep) (hp : t.params = s.params) :
    followCpu s t =
      if t.alivePpu then
        Nat.repeat advanceClock (s.params.ppuTicksPerCpuCycle * (t.cycles - s.cycles)) t
      else t := by
  simp only [followCpu, hm, hp, advanceClocks_eq_repeat]

/-- A read-modify-write in `lockstep`: the reply, then the write of the modified byte to the same address. -/
theorem exec_modifying_lockstep {i : Instr} {s t u : State} {a : Word} {v r : Byte} {c : Bool}
    (hm : s.params.syncMode = .lockstep) (hp : s.ppuChan.writes = []) (haw : s.apuChan.writes = [])
    (hf : s.feed = []) (ha : resolve i.operand s = .addr a) (ht : lockstepReply a s = some (v, t))
    (hmod : ModifiesTo i.mnemonic s.p v c r)
    (hw : busWrite a r { t with log := s.log ++ [v], pageCrossed := crossing i.operand s } = .done () u) :
    exec i s = .next { u with p := { s.p with c := c, n := r.getLsbD 7, z := r == 0 } } :=
  exec_modifying_done ha hmod
    (busRead_lockstep (s := afterResolve i.operand s) hm hp haw hf (lockstepReply_resolved i.operand ht)) hw

/-- Settles O53: each access is served within the instruction, and the clock is repeated. -/
theorem lockstepIsSynchronous : Obligations.LockstepIsSynchronous := by
  refine ⟨fun s hm => ⟨exec_lockstep hm, fun hp ha => ⟨fun i a v hr hv => ?_, fun o a v t hr hf ht => ?_,
    fun i a v r c t u hr hf ht hmod hu => ?_⟩, fun t => followCpu_lockstep hm⟩, fun s t hm => followCpu_async hm t⟩
  · exact ⟨fun t ht => exec_storing_done hv hr (busWrite_lockstep_ppu (s := afterResolve i.operand s) hm hp v ht),
      fun t ht => exec_storing_done hv hr (busWrite_lockstep_apu (s := afterResolve i.operand s) hm ha v ht),
      fun ht => exec_storing_done hv hr (busWrite_noTarget (s := afterResolve i.operand s) v ht)⟩
  · refine ⟨busRead_lockstep hm hp ha hf ht, ?_⟩
    rw [operandRead, hr]
    exact busRead_lockstep (s := afterResolve o s) hm hp ha hf (lockstepReply_resolved o ht)
  · have hexec := fun w => exec_modifying_lockstep (u := w) hm hp ha hf hr ht hmod
    obtain ⟨ppu, draws, rfl⟩ := lockstepReply_frame ht
    subst hu
    refine ⟨fun g hg => hexec _ (busWrite_lockstep_ppu ?_ ?_ r hg),
      fun g hg => hexec _ (busWrite_lockstep_apu ?_ ?_ r hg), fun hg => hexec _ (busWrite_noTarget r hg),
      fun hg buf w hb => ?_⟩
    · exact hm
    · exact hp
    · exact hm
    · exact ha
    · obtain rfl := eq_of_writeTarget_oamDma hg
      exact hexec _ (busWrite_oamDma_of_pageRead hb)

end Sys2Proof.Machine
end

section
/-! PROOF. The PPU's register interface (51_ppu.md R292 to R303): what each command makes of the PPU, in numbers. -/

namespace Sys2Proof.Machine

/-! ## The VRAM address -/

theorem Ppu.nextVaddr_toNat (p : Ppu) :
    p.nextVaddr.toNat = (p.vaddr.toNat + (if p.ctrl.getLsbD 2 then 32 else 1)) % 0x4000 := by
  rw [Ppu.nextVaddr, BitVec.toNat_add]
  split <;> rfl

/-- The high byte written replaces bits 13:8 of the address, its own bits 7:6 dropped (51_ppu.md R297). -/
theorem busAddr_high_toNat (a : VAddr) (v : Byte) :
    (((v &&& 0x3F).setWidth 14 <<< 8) ||| (a &&& 0x00FF)).toNat = v.toNat % 0x40 * 256 + a.toNat % 256 := by
  have hv : (v &&& 0x3F).toNat = v.toNat % 0x40 := Nat.and_two_pow_sub_one_eq_mod v.toNat 6
  have ha : (a &&& 0x00FF).toNat = a.toNat % 256 := Nat.and_two_pow_sub_one_eq_mod a.toNat 8
  have hhigh : ((v &&& 0x3F).setWidth 14 <<< 8).toNat = (v.toNat % 0x40) <<< 8 := by
    rw [BitVec.toNat_shiftLeft, BitVec.toNat_setWidth, hv, Nat.shiftLeft_eq]
    omega
  rw [BitVec.toNat_or, hhigh, ha, ← Nat.shiftLeft_add_eq_or_of_lt (Nat.mod_lt _ (by decide)), Nat.shiftLeft_eq]

/-- The low byte written replaces bits 7:0 of the address (51_ppu.md R297). -/
theorem busAddr_low_toNat (a : VAddr) (v : Byte) :
    ((a &&& 0x3F00) ||| v.setWidth 14).toNat = a.toNat / 256 * 256 + v.toNat := by
  have hmask : a &&& (0x3F00 : VAddr) = a >>> 8 <<< 8 := by
    apply BitVec.eq_of_getLsbD_eq
    intro i hi
    interval_cases i <;> simp
  have ha : (a &&& 0x3F00).toNat = (a.toNat / 256) <<< 8 := by
    rw [hmask, BitVec.toNat_shiftLeft, BitVec.toNat_ushiftRight, Nat.shiftRight_eq_div_pow, Nat.shiftLeft_eq]
    omega
  rw [BitVec.toNat_or, ha, BitVec.toNat_setWidth, Nat.mod_eq_of_lt (by omega),
    ← Nat.shiftLeft_add_eq_or_of_lt v.isLt, Nat.shiftLeft_eq]

/-! ## The bulk transfer -/

/-- Writing a list of bytes changes no address it does not reach. -/
theorem Memory.read_writeAll_other {size a : Nat} (vs : List Byte) {m : Memory} {start : Nat}
    (h : ∀ j, j < vs.length → a ≠ (start + j) % size) : (m.writeAll size start vs).read a = m.read a := by
  induction vs generalizing m start with
  | nil => rfl
  | cons v vs ih =>
    have hrest : ∀ j, j < vs.length → a ≠ (start + 1 + j) % size := fun j hj => by
      rw [Nat.add_assoc, Nat.add_comm 1]
      exact h (j + 1) (Nat.succ_lt_succ hj)
    rw [Memory.writeAll, ih hrest, Memory.read_write_other m v (Nat.add_zero start ▸ h 0 (Nat.succ_pos _))]

/-- A list of at most `size` bytes is found where it was written: no byte of it overwrites another. -/
theorem Memory.read_writeAll {size : Nat} (vs : List Byte) {m : Memory} {start k : Nat} (hsize : vs.length ≤ size)
    (hk : k < vs.length) : some ((m.writeAll size start vs).read ((start + k) % size)) = vs[k]? := by
  induction vs generalizing m start k with
  | nil => exact absurd hk (Nat.not_lt_zero k)
  | cons v vs ih =>
    rw [List.length_cons] at hsize hk
    cases k with
    | zero =>
      have hother : ∀ j, j < vs.length → start % size ≠ (start + 1 + j) % size := fun j hj he => by
        have hdvd : (j + 1) % size = 0 := by
          have hsub : start + 1 + j - start = j + 1 := by omega
          exact hsub ▸ Nat.sub_mod_eq_zero_of_mod_eq he.symm
        rw [Nat.mod_eq_of_lt (by omega)] at hdvd
        omega
      rw [Memory.writeAll, Nat.add_zero start, Memory.read_writeAll_other vs hother, Memory.read_write_same]
      rfl
    | succ k =>
      rw [Memory.writeAll, List.getElem?_cons_succ, ← ih (by omega) (by omega) (start := start + 1) (k := k),
        Nat.add_assoc, Nat.add_comm 1]

/-- Settles O46: each command is one update, its addresses in numbers. -/
theorem ppuRegisterWrites : Obligations.PpuRegisterWrites := by
  intro p v
  refine ⟨rfl, rfl, rfl, rfl, rfl, fun hl => ?_, fun hl => ?_, fun w hl hw => ?_, fun w hl hw => ?_, fun w hw => ?_,
    fun buf k hbuf hk => ⟨_, rfl, ?_⟩⟩
  · simp only [Ppu.applyWrite, Ppu.writeScroll, hl]
  · simp only [Ppu.applyWrite, Ppu.writeScroll, hl]
  · obtain rfl := BitVec.eq_of_toNat_eq (hw.trans (busAddr_high_toNat p.vaddr v).symm)
    simp only [Ppu.applyWrite, Ppu.writeBusAddr, hl]
  · obtain rfl := BitVec.eq_of_toNat_eq (hw.trans (busAddr_low_toNat p.vaddr v).symm)
    simp only [Ppu.applyWrite, Ppu.writeBusAddr, hl]
  · obtain rfl := BitVec.eq_of_toNat_eq (hw.trans p.nextVaddr_toNat.symm)
    rfl
  · exact Memory.read_writeAll buf hbuf.le (hbuf.symm ▸ hk)

/-! ## Reads -/

/-- Bits 7:5 of the `STATUS` byte are the stored status bits, its low five bits the draw's (51_ppu.md R300). -/
theorem Ppu.statusByte_bits (p : Ppu) (draw : Byte) :
    (p.statusByte draw).getLsbD 7 = p.status.vblank ∧ (p.statusByte draw).getLsbD 6 = p.status.spr0Hit ∧
      (p.statusByte draw).getLsbD 5 = p.status.overflow ∧ (p.statusByte draw).toNat % 32 = draw.toNat % 32 := by
  have hlow : p.statusByte draw &&& 0x1F = draw &&& 0x1F := by
    apply BitVec.eq_of_getLsbD_eq
    intro i hi
    interval_cases i <;> simp [Ppu.statusByte]
  have hmod (b : Byte) : (b &&& 0x1F).toNat = b.toNat % 32 := Nat.and_two_pow_sub_one_eq_mod b.toNat 5
  refine ⟨?_, ?_, ?_, by rw [← hmod, ← hmod, hlow]⟩ <;> simp [Ppu.statusByte]

/-- Settles O47: each read is its reply and one update. -/
theorem ppuRegisterReads : Obligations.PpuRegisterReads := by
  intro p draw buffered
  refine ⟨fun t ht => ?_, ⟨_, rfl, p.statusByte_bits draw⟩, rfl, fun next hnext => ?_⟩
  · simp only [List.mem_cons, List.not_mem_nil, or_false] at ht
    rcases ht with rfl | rfl | rfl | rfl | rfl <;> rfl
  · obtain rfl := BitVec.eq_of_toNat_eq (hnext.trans p.nextVaddr_toNat.symm)
    refine ⟨fun hb ha => ?_, fun hb ha => ?_, fun hb => ?_⟩
    · simp only [Ppu.applyRead, Ppu.readBusData, hb, if_pos ha, if_true]
    · simp only [Ppu.applyRead, Ppu.readBusData, hb, if_neg (Nat.not_lt.2 ha), if_true]
    · simp [Ppu.applyRead, Ppu.readBusData, hb]

end Sys2Proof.Machine
end

section
/-! PROOF. The PPU's memory map folds the addresses (51_ppu.md R304 to R307). -/

namespace Sys2Proof.Machine

/-- The least address of a cell. -/
def PpuCell.address : PpuCell → Nat
  | .chr i => i
  | .vram i => 0x2000 + i
  | .palette i => 0x3F00 + i

/-- The cell of a canonical address. -/
def PpuCell.ofAddress (n : Nat) : PpuCell :=
  if n < 0x2000 then .chr n else if n < 0x3F00 then .vram (n - 0x2000) else .palette (n - 0x3F00)

/-- The memories' ranges of addresses do not meet, so a cell of the map is known by its least address. -/
theorem PpuCell.ofAddress_address (mir : Mirroring) (a : VAddr) :
    PpuCell.ofAddress (ppuCell mir a).address = ppuCell mir a := by
  have hlt := ppuCell_lt mir a
  cases hc : ppuCell mir a with
  | chr i =>
    rw [hc] at hlt
    exact if_pos hlt
  | vram i =>
    rw [hc] at hlt
    rw [address, ofAddress, if_neg (by omega), if_pos (by omega), Nat.add_sub_cancel_left]
  | palette i => rw [address, ofAddress, if_neg (by omega), if_neg (by omega), Nat.add_sub_cancel_left]

/-- The canonical address of a nametable address is the place of its byte in VRAM. -/
theorem ppuFold_nametable {mir : Mirroring} {n : Nat} (h : 0x2000 ≤ n) (h' : n < 0x3000) :
    ppuFold mir n = 0x2000 + ntIndex mir n := by
  have hmirror : ¬ (0x3000 ≤ n ∧ n < 0x3F00) := by omega
  simp only [ppuFold, if_neg hmirror, if_neg (Nat.not_lt.2 h), if_pos h']
  cases mir <;> simp only [ntIndex] <;> omega

theorem ppuFold_mirror {mir : Mirroring} {n : Nat} (h : 0x3000 ≤ n) (h' : n < 0x3F00) :
    ppuFold mir n = ppuFold mir (n - 0x1000) := by
  have hback : ¬ (0x3000 ≤ n - 0x1000 ∧ n - 0x1000 < 0x3F00) := by omega
  simp only [ppuFold, if_pos (And.intro h h'), if_neg hback]

theorem ppuFold_palette {mir : Mirroring} {n : Nat} (h : 0x3F00 ≤ n) : ppuFold mir n = 0x3F00 + palIndex n := by
  have hmirror : ¬ (0x3000 ≤ n ∧ n < 0x3F00) := by omega
  have hchr : ¬ n < 0x2000 := by omega
  have hnametable : ¬ n < 0x3000 := by omega
  simp only [ppuFold, if_neg hmirror, if_neg hchr, if_neg hnametable, palIndex]
  split <;> split <;> omega

/-- Folding an address gives the least address of its cell. -/
theorem ppuFold_eq_address (mir : Mirroring) (a : VAddr) : ppuFold mir a.toNat = (ppuCell mir a).address := by
  by_cases h1 : a.toNat < 0x2000
  · have hmirror : ¬ (0x3000 ≤ a.toNat ∧ a.toNat < 0x3F00) := by omega
    simp only [ppuFold, if_neg hmirror, if_pos h1, ppuCell, PpuCell.address]
  by_cases h2 : a.toNat < 0x3000
  · simp only [ppuFold_nametable (Nat.not_lt.1 h1) h2, ppuCell, if_neg h1, if_pos h2, PpuCell.address]
  by_cases h3 : a.toNat < 0x3F00
  · rw [ppuFold_mirror (Nat.not_lt.1 h2) h3, ppuFold_nametable (by omega) (by omega)]
    simp only [ppuCell, if_neg h1, if_neg h2, if_pos h3, PpuCell.address]
  · simp only [ppuFold_palette (Nat.not_lt.1 h3), ppuCell, if_neg h1, if_neg h2, if_neg h3, PpuCell.address]

/-- Two addresses fold to the same place exactly when they name the same cell. -/
theorem ppuFold_eq_iff (mir : Mirroring) (a b : VAddr) :
    ppuFold mir b.toNat = ppuFold mir a.toNat ↔ ppuCell mir b = ppuCell mir a := by
  rw [ppuFold_eq_address, ppuFold_eq_address]
  refine ⟨fun h => ?_, fun h => h ▸ rfl⟩
  rw [← PpuCell.ofAddress_address mir b, h, PpuCell.ofAddress_address]

/-- The byte of a cell. -/
def Ppu.cell (p : Ppu) : PpuCell → Byte
  | .chr i => p.chr.read i
  | .vram i => p.vram.read i
  | .palette i => p.palette.read i

theorem Ppu.read_eq_cell (p : Ppu) (a : VAddr) : p.read a = p.cell (ppuCell p.mirroring a) := by
  unfold Ppu.read Ppu.cell
  cases ppuCell p.mirroring a <;> rfl

theorem Ppu.write_mirroring (p : Ppu) (a : VAddr) (v : Byte) : (p.write a v).mirroring = p.mirroring := by
  obtain ⟨_, _, _, _, _, _, _, _, _, _, _, _, _, _, _, -, -, -, -, -, h⟩ := p.write_frame a v
  rw [h]

/-- Pattern addresses are those below 0x2000. -/
theorem ppuCell_chr_iff {mir : Mirroring} {a : VAddr} : (∃ i, ppuCell mir a = .chr i) ↔ a.toNat < 0x2000 := by
  rw [ppuCell]
  split_ifs <;> simp_all

/-- A write that is no write to CHR-ROM changes the cell it names and no other. -/
theorem Ppu.cell_write {p : Ppu} {a : VAddr} (h : 0x2000 ≤ a.toNat ∨ p.chrRam = true) (v : Byte) (c : PpuCell) :
    (p.write a v).cell c = if c = ppuCell p.mirroring a then v else p.cell c := by
  cases ha : ppuCell p.mirroring a with
  | chr i =>
    have hram : p.chrRam = true := h.resolve_left (Nat.not_le.2 (ppuCell_chr_iff.1 ⟨i, ha⟩))
    cases c <;> simp [Ppu.write, ha, hram, Ppu.cell, Memory.read_write]
  | vram i => cases c <;> simp [Ppu.write, ha, Ppu.cell, Memory.read_write]
  | palette i => cases c <;> simp [Ppu.write, ha, Ppu.cell, Memory.read_write]

/-- Settles O48: a read after a write, cell by cell. -/
theorem ppuMemoryReadAfterWrite : Obligations.PpuMemoryReadAfterWrite := by
  refine fun p a b v => ⟨fun h => ?_, fun ha hrom => ?_⟩
  · rw [Ppu.read_eq_cell, Ppu.write_mirroring, Ppu.cell_write h, ← Ppu.read_eq_cell]
    exact if_congr (ppuFold_eq_iff p.mirroring a b).symm rfl rfl
  · obtain ⟨i, hi⟩ := ppuCell_chr_iff (mir := p.mirroring).2 ha
    simp [Ppu.write, hi, hrom]

end Sys2Proof.Machine
end

section
/-! PROOF. The scanline clock and the joypad (51_ppu.md R310 to R319, R341, R342). -/

namespace Sys2Proof.Machine

/-! ## The clock -/

/-- The detector does not look at the clock and the status bits. -/
theorem Ppu.detect_clock (prm : Params) (p : Ppu) (cycle scanline : Nat) (status : PpuStatus) :
    ({ p with cycle := cycle, scanline := scanline, status := status } : Ppu).detect prm = p.detect prm := rfl

/-- Nor does the composition of a frame. -/
theorem Ppu.compose_clock (prm : Params) (p : Ppu) (cycle scanline : Nat) (status : PpuStatus) :
    ({ p with cycle := cycle, scanline := scanline, status := status } : Ppu).compose prm = p.compose prm := rfl

/-- A clock advance within a scanline. -/
theorem advanceClock_within {s : State} (h : s.ppu.cycle + 1 ≠ s.params.cyclesPerScanline) :
    advanceClock s = { s with ppu := { s.ppu with cycle := s.ppu.cycle + 1 } } := if_neg h

/-- A clock advance at the end of a scanline. -/
theorem advanceClock_end {s : State} (h : s.ppu.cycle + 1 = s.params.cyclesPerScanline) {n : Nat}
    (hn : n = nextScanline s.params s.ppu.scanline) :
    advanceClock s = onScanline n { s with ppu := { s.ppu with cycle := 0, scanline := n } } := by
  subst hn
  exact if_pos h

/-- What the hit row and then the vblank line make of a state at the boundary into scanline `n`, as one update. -/
def rowEvents (n : Nat) (s : State) : State :=
  let vblank := decide (n = s.params.vblankStartLine)
  { s with
    ppu := { s.ppu with status := { s.ppu.status with
      vblank := vblank || s.ppu.status.vblank
      spr0Hit := decide (s.ppu.hitRow = some n) || s.ppu.status.spr0Hit } }
    vblankStart := if vblank then s.vblankStart ++ [s.ppu.ctrl.getLsbD 7] else s.vblankStart
    frameEnd := if vblank then s.frameEnd + 1 else s.frameEnd
    framesOut := if vblank then s.framesOut ++ [{ frame := s.ppu.frame, mask := s.ppu.mask }] else s.framesOut }

theorem hitThenVblank_eq_rowEvents (n : Nat) (s : State) :
    (let t := if s.ppu.hitRow = some n then spriteZeroHit s else s
     if n = t.params.vblankStartLine then vblankStart t else t) = rowEvents n s := by
  by_cases hh : s.ppu.hitRow = some n <;> by_cases hv : n = s.params.vblankStartLine
  · simp [hh, ← hv, rowEvents, spriteZeroHit, vblankStart]
  · simp [hh, hv, rowEvents, spriteZeroHit]
  · simp [hh, ← hv, rowEvents, vblankStart]
  · simp [hh, hv, rowEvents]

theorem onScanline_zero (s : State) : onScanline 0 s = rowEvents 0 (frameStart s) := by
  rw [← hitThenVblank_eq_rowEvents, onScanline, if_pos rfl]

theorem onScanline_of_ne_zero {n : Nat} (h : n ≠ 0) (s : State) : onScanline n s = rowEvents n s := by
  rw [← hitThenVblank_eq_rowEvents, onScanline, if_neg h]

/-- The frame start sees the PPU as it was before the boundary, but for the clock. -/
theorem frameStart_boundary (s : State) (cycle scanline : Nat) :
    frameStart { s with ppu := { s.ppu with cycle := cycle, scanline := scanline } } = { s with
      ppu := { s.ppu with
        cycle := cycle, scanline := scanline, hitRow := s.ppu.detect s.params, frame := s.ppu.compose s.params
        status := { s.ppu.status with vblank := false, spr0Hit := false } }
      vblankEnd := s.vblankEnd + 1 } := by
  simp only [frameStart, Ppu.detect_clock, Ppu.compose_clock]

/-- Away from the hit row and the vblank line nothing happens. -/
theorem rowEvents_quiet {n : Nat} {s : State} (hhit : s.ppu.hitRow ≠ some n)
    (hvblank : n ≠ s.params.vblankStartLine) : rowEvents n s = s := by
  simp [rowEvents, hhit, hvblank]

/-- Settles O49: the frame start, then the hit row, then the vblank line. -/
theorem clockRaisesTheFrameEvents : Obligations.ClockRaisesTheFrameEvents := by
  refine fun s => ⟨advanceClock_within, fun hend n hit frame hn hhit hframe => ?_⟩
  rw [advanceClock_end hend hn]
  by_cases h0 : n = 0
  · subst h0
    rw [if_pos rfl] at hhit hframe
    refine ⟨?_, fun h => absurd rfl h⟩
    rw [onScanline_zero, frameStart_boundary, ← hhit, ← hframe]
    simp [rowEvents]
  · rw [if_neg h0] at hhit hframe
    subst hhit hframe
    rw [onScanline_of_ne_zero h0]
    refine ⟨by simp [rowEvents, h0], fun _ hhit hvblank => rowEvents_quiet hhit hvblank⟩

/-! ## The joypad -/

theorem readJoypad_strobe {p : Ppu} (h : p.strobe = true) : p.readJoypad = (p.buttons &&& 1, p) := if_pos h

theorem readJoypad_shift {p : Ppu} (h : p.strobe = false) :
    p.readJoypad = ((p.buttons >>> p.index.val) &&& 1, { p with index := p.index + 1 }) := by
  rw [Ppu.readJoypad, h, if_neg Bool.false_ne_true]

/-- The low bit of a shifted byte. -/
theorem shifted_and_one_toNat (b : Byte) (k : Nat) : ((b >>> k) &&& 1).toNat = (b.getLsbD k).toNat := by
  rw [BitVec.toNat_and, BitVec.toNat_ushiftRight, BitVec.getLsbD, Nat.toNat_testBit, Nat.shiftRight_eq_div_pow]
  exact Nat.and_one_is_mod _

/-- With the strobe on, reads change nothing. -/
theorem joypadReads_strobe {p : Ppu} (h : p.strobe = true) (n : Nat) : joypadReads n p = p := by
  induction n with
  | zero => rfl
  | succ n ih => rw [joypadReads, readJoypad_strobe h, ih]

/-- With the strobe off, the index moves on by 1 modulo 8 with every read. -/
theorem joypadReads_reply {p : Ppu} (h : p.strobe = false) (n : Nat) :
    (joypadReads n p).readJoypad.1.toNat = (p.buttons.getLsbD ((p.index.val + n) % 8)).toNat := by
  induction n generalizing p with
  | zero =>
    rw [joypadReads, readJoypad_shift h, shifted_and_one_toNat, Nat.add_zero, Nat.mod_eq_of_lt p.index.isLt]
  | succ n ih =>
    have hidx : ((p.index + 1).val + n) % 8 = (p.index.val + (n + 1)) % 8 := by
      rw [Fin.val_add]
      omega
    rw [joypadReads, readJoypad_shift h, ← hidx]
    exact ih h

/-- Settles O52: the bit the index names after `n` reads. -/
theorem joypadShiftsTheButtons : Obligations.JoypadShiftsTheButtons := by
  refine ⟨fun p v n => ⟨fun hv => ?_, fun hv => ?_⟩, fun _ _ => rfl,
    fun p draw buffered => ⟨rfl, fun h => ?_, fun h k hk => ?_⟩⟩
  · have hoff : (p.applyWrite (.reg .joypad v)).strobe = false := hv
    rw [joypadReads_reply hoff]
    exact congrArg (fun k => (p.buttons.getLsbD (k % 8)).toNat) (Nat.zero_add n)
  · have hon : (p.applyWrite (.reg .joypad v)).strobe = true := hv
    rw [joypadReads_strobe hon, readJoypad_strobe hon]
    exact shifted_and_one_toNat p.buttons 0
  · rw [Ppu.applyRead, readJoypad_strobe h]
  · obtain rfl : p.index + 1 = k := Fin.ext (by rw [hk, Fin.val_add]; rfl)
    rw [Ppu.applyRead, readJoypad_shift h]

end Sys2Proof.Machine
end

section
/-! PROOF. Sprites, the background layer, the detector and the frame (51_ppu.md R320 to R331), each given by the bytes
of OAM, the nametables and the pattern tables. -/

namespace Sys2Proof.Machine

/-! ## Bits of a byte, in numbers -/

theorem getLsbD_eq_true_iff (b : Byte) (k : Nat) : b.getLsbD k = true ↔ b.toNat / 2 ^ k % 2 = 1 := by
  rw [BitVec.getLsbD, Nat.testBit_eq_decide_div_mod_eq, decide_eq_true_iff]

theorem Ppu.patternColour_eq (p : Ppu) (base tile row col : Nat) :
    p.patternColour base tile row col = patternColourAt p base tile row col := by
  simp only [Ppu.patternColour, patternColourAt, BitVec.getLsbD, Nat.toNat_testBit]

/-! ## Sprites -/

theorem Ppu.sprite_background (p : Ppu) (yOffset i : Nat) : (p.sprite yOffset i).background = isBehind p i := by
  rw [isBehind, Bool.eq_iff_iff, decide_eq_true_iff]
  exact getLsbD_eq_true_iff _ 5

@[simp] theorem Ppu.sprite_y (p : Ppu) (yOffset i : Nat) : (p.sprite yOffset i).y = oamByte p i 0 + yOffset := rfl

@[simp] theorem Ppu.sprite_tile (p : Ppu) (yOffset i : Nat) : (p.sprite yOffset i).tile = oamByte p i 1 := rfl

@[simp] theorem Ppu.sprite_palette (p : Ppu) (yOffset i : Nat) : (p.sprite yOffset i).palette = oamByte p i 2 % 4 := rfl

@[simp] theorem Ppu.sprite_x (p : Ppu) (yOffset i : Nat) : (p.sprite yOffset i).x = oamByte p i 3 := rfl

theorem Ppu.spriteHeight_eq (p : Ppu) : p.spriteHeight = if p.ctrl.toNat / 32 % 2 = 1 then 16 else 8 :=
  if_congr (getLsbD_eq_true_iff p.ctrl 5) rfl rfl

theorem Ppu.spriteRow_sprite (p : Ppu) (yOffset i sy : Nat) :
    p.spriteRow (p.sprite yOffset i) sy = if oamByte p i 2 / 128 % 2 = 1 then p.spriteHeight - 1 - sy else sy :=
  if_congr (getLsbD_eq_true_iff _ 7) rfl rfl

theorem Ppu.spriteColumn_sprite (p : Ppu) (yOffset i sx : Nat) :
    spriteColumn (p.sprite yOffset i) sx = if oamByte p i 2 / 64 % 2 = 1 then 7 - sx else sx :=
  if_congr (getLsbD_eq_true_iff _ 6) rfl rfl

/-- A row of a sprite lies within its height, flipped or not. -/
theorem Ppu.spriteRow_lt {p : Ppu} {s : Sprite} {sy : Nat} (h : sy < p.spriteHeight) :
    p.spriteRow s sy < p.spriteHeight := by
  unfold Ppu.spriteRow
  split <;> omega

/-- A tall sprite's two tiles are the even tile and the one after it, in the table of the tile's low bit. -/
theorem Ppu.spritePattern_tall {p : Ppu} (h : p.ctrl.toNat / 32 % 2 = 1) (tile row col : Nat) :
    p.patternColour (p.spriteTable tile) (p.spriteTile tile row) (row % 8) col =
      patternColourAt p (if tile % 2 = 1 then 0x1000 else 0) (if row < 8 then tile / 2 * 2 else tile / 2 * 2 + 1)
        (row % 8) col := by
  have hbit : p.ctrl.getLsbD 5 = true := (getLsbD_eq_true_iff p.ctrl 5).2 h
  have heven : tile - tile % 2 = tile / 2 * 2 := by omega
  rw [Ppu.patternColour_eq, Ppu.spriteTable, if_pos hbit, Ppu.spriteTile, if_pos hbit, heven]

/-- A short sprite's tile is in the table `ctrl` names. -/
theorem Ppu.spritePattern_short {p : Ppu} (h : ¬ p.ctrl.toNat / 32 % 2 = 1) (tile row col : Nat) :
    p.patternColour (p.spriteTable tile) (p.spriteTile tile row) row col =
      patternColourAt p (if p.ctrl.toNat / 8 % 2 = 1 then 0x1000 else 0) tile row col := by
  have hbit : ¬ p.ctrl.getLsbD 5 = true := fun hbit => h ((getLsbD_eq_true_iff p.ctrl 5).1 hbit)
  have htable : p.ctrl.getLsbD 3 = true ↔ p.ctrl.toNat / 8 % 2 = 1 := getLsbD_eq_true_iff p.ctrl 3
  rw [Ppu.patternColour_eq, Ppu.spriteTable, if_neg hbit, Ppu.spriteTile, if_neg hbit, if_congr htable rfl rfl]

/-- A sprite's colour is read from its OAM record and its tile's bytes. -/
theorem Ppu.spriteColour_eq (prm : Params) (p : Ppu) (i x y : Nat) :
    p.spriteColour (p.sprite prm.spriteYOffset i) x y = spriteColourAt prm p i x y := by
  simp only [Ppu.spriteColour, spriteColourAt, Ppu.sprite_y, Ppu.sprite_x, Ppu.sprite_tile, ← p.spriteHeight_eq,
    ← Ppu.spriteRow_sprite p prm.spriteYOffset, ← Ppu.spriteColumn_sprite p prm.spriteYOffset]
  refine if_ctx_congr Iff.rfl (fun hbox => ?_) fun _ => rfl
  have hsy : y - (oamByte p i 0 + prm.spriteYOffset) < p.spriteHeight := by omega
  have hrow := spriteRow_lt (s := p.sprite prm.spriteYOffset i) hsy
  by_cases htall : p.ctrl.toNat / 32 % 2 = 1
  · rw [if_pos htall, spritePattern_tall htall]
  · rw [p.spriteHeight_eq, if_neg htall] at hrow
    rw [if_neg htall, Nat.mod_eq_of_lt hrow, spritePattern_short htall]

/-! ## The background layer -/

/-- The background layer is read from the scroll, the nametables and the pattern tables. -/
theorem Ppu.backgroundPixel_eq (p : Ppu) (x y : Nat) : p.backgroundPixel x y = backgroundAt p x y := by
  have hbase : (if p.ctrl.getLsbD 4 then 0x1000 else 0) = if p.ctrl.toNat / 16 % 2 = 1 then 0x1000 else 0 :=
    if_congr (getLsbD_eq_true_iff p.ctrl 4) rfl rfl
  have hx : p.ctrl.toNat % 4 % 2 = p.ctrl.toNat % 2 := by omega
  have hy : p.ctrl.toNat % 4 / 2 = p.ctrl.toNat / 2 % 2 := by omega
  simp only [Ppu.backgroundPixel, backgroundAt, Ppu.patternColour_eq, hbase, hx, hy]

/-! ## The detector -/

theorem gridBorder_eq_false_iff {gx gy : Nat} :
    gridBorder gx gy = false ↔ 8 ≤ gx ∧ gx < 264 ∧ 8 ≤ gy ∧ gy < 248 := by
  rw [gridBorder, decide_eq_false_iff_not]
  omega

theorem gridBorder_screen {x y : Nat} (hx : x < 256) (hy : y < 240) : gridBorder (x + 8) (y + 8) = false := by
  rw [gridBorder_eq_false_iff]
  omega

/-- A screen pixel's cell of the sprite grid. -/
theorem Ppu.gridSprite_screen {prm : Params} {p : Ppu} {x y : Nat} (hx : x < 256) (hy : y < 240) :
    p.gridSprite prm (x + 8) (y + 8) = true ↔ spriteColourAt prm p 0 x y ≠ 0 := by
  have hgrid : x + 8 < 272 ∧ y + 8 < 256 := by omega
  rw [Ppu.gridSprite, gridBorder_screen hx hy, Ppu.spriteColour_eq, decide_eq_true hgrid, Bool.false_or, Bool.true_and,
    Nat.add_sub_cancel, Nat.add_sub_cancel, bne_iff_ne]

/-- A screen pixel's cell of the background grid. -/
theorem Ppu.gridBackground_screen {prm : Params} {p : Ppu} {x y : Nat} (hx : x < 256) (hy : y < 240) :
    p.gridBackground prm (x + 8) (y + 8) = true ↔
      (backgroundAt p x y).2 ≠ 0 ∨ (prm.sprite0BgIncludesBackSprites = true ∧
        ∃ i, 1 ≤ i ∧ i < 64 ∧ isBehind p i = true ∧ spriteColourAt prm p i x y ≠ 0) := by
  have hbehind : (∃ k ∈ List.range 63, isBehind p (k + 1) = true ∧ spriteColourAt prm p (k + 1) x y ≠ 0) ↔
      ∃ i, 1 ≤ i ∧ i < 64 ∧ isBehind p i = true ∧ spriteColourAt prm p i x y ≠ 0 := by
    constructor
    · rintro ⟨k, hk, h⟩
      exact ⟨k + 1, Nat.succ_pos k, Nat.succ_lt_succ (List.mem_range.1 hk), h⟩
    · rintro ⟨i, h1, h64, h⟩
      obtain ⟨k, rfl⟩ := Nat.exists_eq_add_of_le' h1
      exact ⟨k, List.mem_range.2 (Nat.lt_of_succ_lt_succ h64), h⟩
  simp only [Ppu.gridBackground, gridBorder_screen hx hy, Ppu.spriteColour_eq, Ppu.sprite_background,
    Ppu.backgroundPixel_eq, Nat.add_sub_cancel, Bool.false_or, Bool.or_eq_true, Bool.and_eq_true, bne_iff_ne,
    List.any_eq_true, hbehind]

/-- An opaque pixel of a sprite lies in the sprite's box. -/
theorem spriteColourAt_ne_zero_box {prm : Params} {p : Ppu} {i x y : Nat} (h : spriteColourAt prm p i x y ≠ 0) :
    oamByte p i 3 ≤ x ∧ x < oamByte p i 3 + 8 ∧ oamByte p i 0 + prm.spriteYOffset ≤ y ∧
      y < oamByte p i 0 + prm.spriteYOffset + p.spriteHeight := by
  rw [Ppu.spriteHeight_eq]
  by_contra hbox
  exact h (if_neg hbox)

/-- Screen row `y` has an interior cell set in both grids. -/
def Ppu.HitAt (prm : Params) (p : Ppu) (y : Nat) : Prop :=
  ∃ gx, 8 ≤ gx ∧ gx < 264 ∧ p.gridSprite prm gx (y + 8) = true ∧ p.gridBackground prm gx (y + 8) = true

/-- The detector's test of a row of record 0: an interior cell of the row's eight columns set in both grids. -/
def Ppu.hitsRow (prm : Params) (p : Ppu) (sy : Nat) : Bool :=
  let s := p.sprite prm.spriteYOffset 0
  (List.range 8).any fun sx =>
    !gridBorder (s.x + sx + 8) (s.y + sy + 8) && p.gridSprite prm (s.x + sx + 8) (s.y + sy + 8) &&
      p.gridBackground prm (s.x + sx + 8) (s.y + sy + 8)

theorem Ppu.detect_eq (prm : Params) (p : Ppu) : p.detect prm =
    ((List.range p.spriteHeight).find? (p.hitsRow prm)).map fun sy => oamByte p 0 0 + prm.spriteYOffset + sy := rfl

/-- The test is right about the row of the screen where record 0 puts it. -/
theorem Ppu.hitsRow_iff {prm : Params} {p : Ppu} {sy : Nat} : p.hitsRow prm sy = true ↔
    oamByte p 0 0 + prm.spriteYOffset + sy < 240 ∧ p.HitAt prm (oamByte p 0 0 + prm.spriteYOffset + sy) := by
  simp only [Ppu.hitsRow, List.any_eq_true, List.mem_range, Bool.and_eq_true, Bool.not_eq_true',
    gridBorder_eq_false_iff]
  constructor
  · rintro ⟨sx, -, ⟨⟨hx, hx', -, hy⟩, hs⟩, hb⟩
    exact ⟨Nat.lt_of_add_lt_add_right hy, _, hx, hx', hs, hb⟩
  · rintro ⟨hy, gx, hx, hx', hs, hb⟩
    obtain ⟨x, rfl⟩ := Nat.exists_eq_add_of_le' hx
    obtain ⟨hleft, hright, -, -⟩ := spriteColourAt_ne_zero_box ((Ppu.gridSprite_screen (by omega) hy).1 hs)
    obtain ⟨sx, rfl⟩ := Nat.exists_eq_add_of_le hleft
    exact ⟨sx, by omega, ⟨⟨hx, hx', Nat.le_add_left .., Nat.add_lt_add_right hy 8⟩, hs⟩, hb⟩

/-- A screen row with a cell set in both grids is one of record 0's rows. -/
theorem Ppu.HitAt.row {prm : Params} {p : Ppu} {y : Nat} (hy : y < 240) (h : p.HitAt prm y) :
    ∃ sy < p.spriteHeight, y = oamByte p 0 0 + prm.spriteYOffset + sy ∧ p.hitsRow prm sy = true := by
  have ⟨gx, hx, hx', hs, _⟩ := h
  obtain ⟨x, rfl⟩ := Nat.exists_eq_add_of_le' hx
  obtain ⟨-, -, htop, hbottom⟩ := spriteColourAt_ne_zero_box ((Ppu.gridSprite_screen (by omega) hy).1 hs)
  obtain ⟨sy, rfl⟩ := Nat.exists_eq_add_of_le htop
  exact ⟨sy, Nat.lt_of_add_lt_add_left hbottom, rfl, Ppu.hitsRow_iff.2 ⟨hy, h⟩⟩

theorem Ppu.detect_some {prm : Params} {p : Ppu} {y : Nat} (h : p.detect prm = some y) :
    y < 240 ∧ p.HitAt prm y ∧ ∀ y', y' < y → ¬ p.HitAt prm y' := by
  rw [Ppu.detect_eq, Option.map_eq_some_iff] at h
  obtain ⟨sy, hfind, rfl⟩ := h
  obtain ⟨hhit, i, hi, hsy, hbefore⟩ := List.find?_eq_some_iff_getElem.1 hfind
  rw [List.getElem_range] at hsy
  subst hsy
  obtain ⟨hlt, hat⟩ := Ppu.hitsRow_iff.1 hhit
  refine ⟨hlt, hat, fun y' hy' h' => ?_⟩
  obtain ⟨sy', -, rfl, hrow⟩ := h'.row (hy'.trans hlt)
  have hnot := hbefore sy' (Nat.lt_of_add_lt_add_left hy')
  rw [List.getElem_range, hrow] at hnot
  exact absurd hnot Bool.false_ne_true

theorem Ppu.detect_none {prm : Params} {p : Ppu} (h : p.detect prm = none) {y : Nat} (hy : y < 240) :
    ¬ p.HitAt prm y := by
  rw [Ppu.detect_eq, Option.map_eq_none_iff, List.find?_eq_none] at h
  intro hhit
  obtain ⟨sy, hsy, -, hrow⟩ := hhit.row hy
  exact h sy (List.mem_range.2 hsy) hrow

/-- Settles O50: record 0's rows are searched from the top, and no other row can be hit. -/
theorem detectorFindsTheFirstHitRow : Obligations.DetectorFindsTheFirstHitRow := by
  refine fun prm p => ⟨fun y => Ppu.detect_some, fun h y => Ppu.detect_none h,
    fun x y hx hy => ⟨Ppu.gridSprite_screen hx hy, Ppu.gridBackground_screen hx hy⟩, fun gx gy h => ?_⟩
  have hborder : gridBorder gx gy = true := decide_eq_true h
  rw [Ppu.gridSprite, Ppu.gridBackground, hborder, Bool.true_or, Bool.true_or]
  exact ⟨rfl, rfl⟩

/-! ## The frame -/

theorem Ppu.showSprites_iff {p : Ppu} {x : Nat} :
    p.showSprites x = true ↔ p.mask.getLsbD 4 = true ∧ (8 ≤ x ∨ p.mask.getLsbD 2 = true) := by
  rw [Ppu.showSprites, Bool.and_eq_true, Bool.or_eq_true, decide_eq_true_iff]

theorem Ppu.showBackground_iff {p : Ppu} {x : Nat} :
    p.showBackground x = true ↔ p.mask.getLsbD 3 = true ∧ (8 ≤ x ∨ p.mask.getLsbD 1 = true) := by
  rw [Ppu.showBackground, Bool.and_eq_true, Bool.or_eq_true, decide_eq_true_iff]

/-- The first opaque sprite of a priority is the first opaque record of that priority. -/
theorem Ppu.find?_extract (prm : Params) (p : Ppu) (behind : Bool) (x y : Nat) :
    ((p.extract prm.spriteYOffset behind).find? fun s => p.spriteColour s x y != 0) =
      ((List.range 64).find? fun i => isBehind p i == behind && spriteColourAt prm p i x y != 0).map
        (p.sprite prm.spriteYOffset) := by
  rw [Ppu.extract, List.find?_filter, List.find?_map]
  simp only [Function.comp_def, Ppu.sprite_background, Ppu.spriteColour_eq, Bool.decide_and, Bool.decide_eq_true]

theorem Ppu.spriteEntry_eq (prm : Params) (p : Ppu) (behind : Bool) (x y : Nat) :
    p.spriteEntry prm behind x y = spriteLayer prm p behind x y := by
  refine if_congr Ppu.showSprites_iff ?_ rfl
  rw [Ppu.find?_extract, Option.map_map]
  simp only [Function.comp_def, Ppu.spriteColour_eq, Ppu.sprite_palette]

theorem Ppu.backgroundEntry_eq (p : Ppu) (x y : Nat) : p.backgroundEntry x y = backgroundLayer p x y := by
  simp only [Ppu.backgroundEntry, backgroundLayer, Ppu.backgroundPixel_eq, Bool.and_eq_true, bne_iff_ne,
    Ppu.showBackground_iff, and_assoc]

/-- A frame's pixel is the palette byte of the composed entry. -/
theorem Ppu.compose_read (prm : Params) (p : Ppu) {x y : Nat} (hx : x < 256) (hy : y < 240) :
    (p.compose prm).read (256 * y + x) = p.pixel prm x y := by
  have hcol : (256 * y + x) % 256 = x := by omega
  have hrow : (256 * y + x) / 256 = y := by omega
  rw [Ppu.compose_eq, Memory.read_ofFn _ (by omega), hcol, hrow]

/-- Settles O51: each layer of a pixel is the first opaque record or the background's tile. -/
theorem frameHoldsTheLayeredPixels : Obligations.FrameHoldsTheLayeredPixels := by
  intro prm p x y hx hy
  rw [Ppu.compose_read prm p hx hy, Ppu.pixel, Ppu.pixelEntry, Ppu.spriteEntry_eq, Ppu.spriteEntry_eq,
    Ppu.backgroundEntry_eq]
  cases spriteLayer prm p false x y with
  | some e => rfl
  | none =>
    cases backgroundLayer p x y with
    | some e => rfl
    | none => cases spriteLayer prm p true x y <;> rfl

end Sys2Proof.Machine
end

section
/-! PROOF. The entries of the boundary step, the fatal fault of an unknown opcode, and who clears B (60_exceptions.md
R350 to R360). -/

namespace Sys2Proof.Machine

/-! ## Entries -/

/-- The boundary step's poll, from the state whose turn is chosen. -/
theorem pollSignals_moveTaken (s : State) : pollSignals (moveTaken s) = polled s := rfl

/-- An NMI is requested by a wired signal at the head of its FIFO (60_exceptions.md R351). -/
theorem nmiRequested_eq_false_iff {s : State} :
    nmiRequested s = false ↔ s.params.nmiWired = false ∨ s.vblankStart.head? ≠ some true := by
  rw [nmiRequested, Bool.and_eq_false_iff, beq_eq_false_iff_ne]

theorem nmiEntry_eq_pushedThree (s : State) : nmiEntry s = { s with
    ram := pushedThree s s.pc s.p.toByte, sp := pushedThreeSp s, p := { s.p with i := true }
    pc := wordOf (s.cart.read 0xFFFA) (s.cart.read 0xFFFB) } := enter_eq ..

/-- An accepted IRQ sets B before it pushes the flags. -/
theorem irqAccept_eq_pushedThree {s : State} (h : s.p.b = false) : irqAccept s = { s with
    ram := pushedThree s s.pc ({ s.p with b := true } : Flags).toByte, sp := pushedThreeSp s
    p := { s.p with b := true, i := true }
    pc := if s.p.i then s.pc else wordOf (s.cart.read 0xFFFE) (s.cart.read 0xFFFF) } := by
  rw [irqAccept_of_b_clear h, sharedInterrupt_eq_pushedThree]
  rfl

/-- Settles O32: the reset entry is the boundary step's first choice after the shutdown. -/
theorem resetEntryLoadsPc : Obligations.ResetEntryLoadsPc := fun _ hn hrun hshut hreset =>
  step_resetEntry hn hrun hshut hreset

/-- Settles O33: the NMI entry is chosen before the IRQ line is looked at, and its jump does not ask for I. -/
theorem nmiEntryIsNeverMasked : Obligations.NmiEntryIsNeverMasked := by
  intro s rest hn hrun hshut hreset hwired hv
  have hnmi : nmiRequested (moveTaken s) = true := by simp [nmiRequested, hwired, hv]
  have hpolled : (polled s).vblankStart = rest := congrArg List.tail hv
  rw [step_boundary hn hrun, boundary_nmi (s := moveTaken s) hshut hreset hnmi, pollSignals_moveTaken,
    nmiEntry_eq_pushedThree, ← hpolled]
  rfl

/-- Settles O34: with B clear the line's entry is chosen, with B set the next instruction. -/
theorem irqEntryGatedByBreak : Obligations.IrqEntryGatedByBreak := by
  intro s hn hrun hshut hreset hnmi hirq
  have hnmi : nmiRequested (moveTaken s) = false := nmiRequested_eq_false_iff.2 hnmi
  refine ⟨fun hb => ?_, fun hb => ?_⟩
  · rw [step_boundary hn hrun, boundary_irq (s := moveTaken s) hshut hreset hnmi hirq hb, pollSignals_moveTaken,
      irqAccept_eq_pushedThree (s := polled s) hb]
    rfl
  · have hmasked : ((moveTaken s).irqLine && !(moveTaken s).p.b) = false := by simp [hb]
    rw [step_boundary hn hrun, boundary_execute (s := moveTaken s) hshut hreset hnmi hmasked]
    rfl

/-! ## The fatal fault -/

/-- Where no cycle is charged, the PPU has nothing to follow. -/
theorem followCpu_of_cycles_eq {s t : State} (h : t.cycles = s.cycles) : followCpu s t = t := by
  unfold followCpu
  rw [h, Nat.sub_self, Nat.mul_zero]
  split
  · rfl
  · exact ite_self _

theorem ReadFrame.work {s t : State} : ReadFrame s t → t.work = s.work := by
  rintro ⟨_, _, _, _, _, _, _, -, rfl⟩
  rfl

/-- A fetch that completes leaves the remaining work. -/
theorem Fetches.work {bs : List Byte} {s t : State} (h : Fetches s bs t) : t.work = s.work := by
  induction bs generalizing s with
  | nil =>
    obtain rfl : t = s := h
    rfl
  | cons b bs ih =>
    obtain ⟨u, hu, hf⟩ := h
    have hr := busRead_frame s.pc s
    rw [hu] at hr
    exact (ih hf).trans hr.work

/-- The fault records the byte with the address it was read from: PC is one past it. -/
theorem haltUnknown_fetched {s u : State} {b : Byte} (h : Fetches (started s) [b] u) :
    haltUnknown b u = { u with run := .halted (.unknownOpcode b s.pc) } := by
  have hpc : u.pc - 1 = s.pc := by
    rw [h.pc.1]
    exact BitVec.add_sub_cancel s.pc 1
  have hwork : u.work = .none := h.work
  rw [haltUnknown, hpc, ← hwork]

/-- The first byte read at PC has no descriptor: no further byte is read, and nothing is charged. -/
theorem step_unknownOpcode {s u : State} {b : Byte} (h : s.ReadyToExecute) (hb : Fetches (started s) [b] u)
    (hd : s.params.opcodes.descriptor b = none) :
    step s = .next { u with run := .halted (.unknownOpcode b s.pc) } := by
  obtain ⟨-, hparams, hcycles⟩ := hb.pc
  have hu : u.params.opcodes.descriptor b = none := by rw [hparams]; exact hd
  have hmore : ∀ k, k < [b].length → decode (started s).params.opcodes ([] ++ [b].take k) = .needMore := by
    intro k hk
    obtain rfl : k = 0 := Nat.lt_one_iff.1 hk
    rfl
  have hfetch : fetchOn 3 [] (started s) = .next (haltUnknown b u) :=
    (fetchOn_bytes (n := 2) hb hmore).trans (fetchOn_unknown hu)
  rw [step_ready h, hfetch, haltUnknown_fetched hb]
  exact congrArg Host.Outcome.next (followCpu_of_cycles_eq hcycles)

theorem descriptor_eq_none_iff {t : OpcodeTable} {b : Byte} :
    t.descriptor b = none ↔ b ∉ t.map (·.opcode) := by
  simp [OpcodeTable.descriptor, List.find?_eq_none]

/-- Settles O7: a byte of memory is fetched, a fetched byte without descriptor halts, and the bytes the default table has
no row for are counted out. -/
theorem unknownOpcodeHaltsTheCpu : Obligations.UnknownOpcodeHaltsTheCpu := by
  refine ⟨fun s b hready hb hd => ?_, fun s u b => step_unknownOpcode, fun s c hrun => ?_, fun b => ?_⟩
  · have hbyte : (started s).memoryByte (started s).pc = some b := (memoryByte_congr rfl rfl _).trans hb
    have hbytes : (started s).memoryBytes [b].length (started s).pc = some [b] := by simp [State.memoryBytes, hbyte]
    exact step_unknownOpcode hready (Fetches.of_memoryBytes rfl hbytes) hd
  · simp only [cpuMove, hrun]
  · rw [descriptor_eq_none_iff]
    revert b
    decide +kernel

/-! ## The break flag -/

/-- The turn of the PPU, the APU or the host leaves the CPU's registers and flags. -/
theorem act_sameRegs {m : Move} {s t : State} (hm : m ≠ .cpu) (h : act m s = .next t) : SameRegs s t := by
  cases m with
  | cpu => exact absurd rfl hm
  | ppu =>
    injection h with h
    subst h
    rcases ppuMove_cases s with h | h | ⟨-, u, ⟨_, _, _, _, _, -, -, rfl⟩, h⟩ <;> rw [h]
    · exact .refl s
    · exact .refl s
    · exact (advanceClock_frame _).cpu.1
  | apu =>
    injection h with h
    subst h
    rcases apuMove_cases s with h | h | ⟨-, _, _, _, _, _, -, -, h⟩ <;> rw [h] <;> exact .refl s
  | host a =>
    injection h with h
    subst h
    obtain ⟨_, _, _, _, -, h⟩ := hostMove_eq a s
    rw [h]
    exact .refl s

theorem enter_b (flags : Byte) (vec : Word) (jump : Bool) (s : State) : (enter flags vec jump s).p.b = s.p.b := by
  rw [enter_eq]

theorem irqAccept_b (s : State) : (irqAccept s).p.b = true := by
  cases hb : s.p.b with
  | true => rw [irqAccept_of_b_set hb, hb]
  | false => rw [irqAccept_eq_pushedThree hb]

/-- BRK enters as its policy says: past B as it stands, or as an accepted IRQ, which sets it. -/
theorem brkEntry_b {s : State} (h : s.p.b = true) : (brkEntry s).p.b = true := by
  cases hp : s.params.brkPolicy with
  | standard =>
    rw [brkEntry_standard hp, enter_b]
    exact h
  | viaIrqPath =>
    rw [brkEntry_viaIrqPath hp]
    exact irqAccept_b _

/-- Settles O37: an instruction that changes B is PLP, RTI or BRK, and BRK does not clear it. -/
theorem breakFlagClearedOnlyByPulls : Obligations.BreakFlagClearedOnlyByPulls := by
  refine ⟨fun s t m hm h => ?_, fun s hb => ⟨?_, irqAccept_b s, hb⟩, fun i s t h hset hclear => ?_⟩
  · obtain ⟨-, -, -, -, -, hp⟩ := act_sameRegs hm h
    exact hp
  · rw [nmiEntry, enter_b, hb]
  · obtain ⟨-, -, -, -, -, -, -, -, -, -, hb, -⟩ := registersAndFlagsChangeOnlyWhereListed i s t h
    have hlisted : i.mnemonic ∈ [.plp, .rti, .brk] := by
      by_contra hn
      exact Bool.false_ne_true ((hclear.symm.trans (hb hn)).trans hset)
    have hbrk : i.mnemonic ≠ .brk := by
      intro hi
      obtain rfl := eq_brk hi
      rw [exec_brk, execBrk] at h
      injection h with h
      rw [← h, brkEntry_b hset] at hclear
      exact Bool.noConfusion hclear
    simpa [hbrk] using hlisted

end Sys2Proof.Machine
end
